-- ==== Sys2Proof/Word.lean ====
section
/-! DEFINITION. The byte and word types (spec/00_scope.md R9 WORD_BITS, R11). -/

namespace Sys2Proof

/-- A byte of host memory or of a frame. -/
abbrev Byte := BitVec 8

/-- A FIFO and DMA word, a host address, a command argument: 32 bits (R9). -/
abbrev Word := BitVec 32

end Sys2Proof
end

