-- ==== Sys2Proof/Config.lean ====
section
/-! DEFINITION. The constants the source fixes (spec/00_scope.md R9), the parameters it leaves to the implementation
(R10, one field of `Config` each), and the free values (no body). -/

namespace Sys2Proof

/-! ## Constants of R9 -/

/-- SD_TIMEOUT, in milliseconds (R9). The model has no clock (spec D10), so no definition computes with it. -/
def sdTimeoutMs : Nat := 100
/-- SD_MAX_READ_BLOCKS (R9). -/
def sdMaxReadBlocks : Nat := 32
/-- STATUS_ERROR_MASK (R9, R105). -/
def statusErrorMask : Word := 0xFDF98008#32
/-- IF_COND_PATTERN (R9, R115). -/
def ifCondPattern : Word := 0x1AA#32
/-- BLOCK_LEN in bytes (R9). -/
def blockLenBytes : Nat := 512
/-- SWITCH_BLOCK_LEN in bytes (R9). -/
def switchBlockLenBytes : Nat := 64
/-- CMD_FRAME_BITS (R9). -/
def cmdFrameBits : Nat := 48
/-- CRC7_POLY (R9). -/
def crc7Poly : BitVec 8 := 0x89#8
/-- CRC16_POLY (R9). -/
def crc16Poly : BitVec 16 := 0x1021#16
/-- WRITE_STREAM_BITS (R9, R122). -/
def writeStreamBits : Nat := 4160
/-- The start gap of the write stream (R122): 31 ones, then the start bit 0. -/
def startGapWord : Word := 0xFFFFFFFE#32

/-! ## Parameters of R10 -/

/-- The pins of R10 PINS: numbers fixed at compile time that no rule reads. -/
structure Pins where
  clk  : Nat
  cmd  : Nat
  dat0 : Nat
  dat1 : Nat
  dat2 : Nat
  dat3 : Nat
deriving DecidableEq, Repr

/-- The deadline timer of R10 TIMER: its resolution (the time one count stands for, in nanoseconds) and its width in
bits (spec/60_exceptions.md R292). The model has no clock (D10), so no rule reads them. -/
structure Timer where
  resolution : Nat
  width      : Nat
deriving DecidableEq, Repr

/-- The parameters of spec/00_scope.md R10 and the placement of the engine's transient storage (R71: "its own
transient storage, whose placement is left to the platform"). -/
structure Config where
  /-- ACMD41_ARG: bit 30 is 1. -/
  acmd41Arg           : Word
  /-- CMD6_ARG. -/
  cmd6Arg             : Word
  /-- SWITCH_STATUS_BYTE, an index 0..63. -/
  switchStatusByte    : Fin 64
  clkdivInit          : Nat
  clkdivDefault       : Nat
  clkdivHighspeed     : Nat
  clkdivDefaultOc     : Nat
  clkdivHighspeedOc   : Nat
  overclock           : Bool
  /-- FIFO_DEPTH in words, at least 1. -/
  fifoDepth           : Nat
  /-- ADDR_BITS, the host address width. -/
  addrBits            : Nat
  /-- TIMER. -/
  timer               : Timer
  pins                : Pins
  /-- BUSY_TIMEOUT: none, or a duration (whose value no rule computes with). -/
  busyTimeout         : Option Nat
  /-- READ_DATA_TIMEOUT: true is SD_TIMEOUT, false is none (R217). -/
  readDataBounded     : Bool
  /-- VERIFY_READ_CRC (R148). -/
  verifyReadCrc       : Bool
  /-- Where the engine's transient storage begins. -/
  storageBase         : Word
deriving DecidableEq, Repr

/-! ## The engine's transient storage (R31 to R34, placement: log 12) -/

/-- The command frame, 6 bytes (R31). -/
def Config.frameAddr (c : Config) : Word := c.storageBase
/-- The engine's local response buffer, 20 bytes (R32, D49). -/
def Config.respAddr (c : Config) : Word := c.storageBase + 8#32
/-- The local switch-status buffer `sw` of STORAGE_INIT, 64 bytes (R235). -/
def Config.swAddr (c : Config) : Word := c.storageBase + 0x20#32
/-- The CRC side buffer `crc_buf`, 8 bytes (R34). -/
def Config.crcBufAddr (c : Config) : Word := c.storageBase + 0x100#32
/-- The chain-descriptor table, 65 pairs of two words (R33). -/
def Config.tableAddr (c : Config) : Word := c.storageBase + 0x108#32
/-- The size in bytes of the region that holds all of them. -/
def storageSize : Nat := 0x310

/-- What R10 and R75 ask of the parameters: bit 30 of ACMD41_ARG, a FIFO that holds a word, an address width of at
most 32, and an engine storage that is word-aligned, inside host memory and not at the null address. DESIGN CHOICE: of
ACMD41_ARG and CMD6_ARG it asks no other bit, as R10, D31 and D36 do; that bit 31 of the one and bits 30 to 24 of the other
are zero (spec/30_encoding.md R116, R117) is not demanded (log 10). -/
abbrev Config.wf (c : Config) : Prop :=
  c.acmd41Arg.getLsbD 30 = true ∧ 1 ≤ c.fifoDepth ∧ c.addrBits ≤ 32 ∧
    c.storageBase.toNat % 4 = 0 ∧ 0 < c.storageBase.toNat ∧ c.storageBase.toNat + storageSize ≤ 2 ^ c.addrBits

/-! ## Values no source gives (no body: nothing in Lean can evaluate them; logs 8 and 10) -/

/-- The n-th environment draw taken past the end of the state's list of draws (R13 `draw`). -/
opaque Config.freeWord : Nat → Word
/-- CLKDIV_INIT of this machine (OPEN, D37). -/
opaque Config.openClkdivInit : Nat
/-- CLKDIV_DEFAULT of this machine (OPEN, D37). -/
opaque Config.openClkdivDefault : Nat
/-- CLKDIV_HIGHSPEED of this machine (OPEN, D37). -/
opaque Config.openClkdivHighspeed : Nat
/-- CLKDIV_DEFAULT_OC of this machine (OPEN, D37). -/
opaque Config.openClkdivDefaultOc : Nat
/-- CLKDIV_HIGHSPEED_OC of this machine (OPEN, D37). -/
opaque Config.openClkdivHighspeedOc : Nat
/-- OVERCLOCK of this machine (OPEN, D37). -/
opaque Config.openOverclock : Bool
/-- FIFO_DEPTH of this machine is one more than this (OPEN, D43: at least 1). -/
opaque Config.openFifoExtra : Nat
/-- The resolution of this machine's deadline timer (OPEN, D10). -/
opaque Config.openTimerResolution : Nat
/-- The width of this machine's deadline timer (OPEN, D10). -/
opaque Config.openTimerWidth : Nat
/-- The n-th pin number of this machine (OPEN, D1). -/
opaque Config.openPin : Nat → Nat

/-- The configuration of the machine at reset: R10's defaults where it gives one, the open values where it does not,
and the storage placement of log 12. -/
def Config.standard : Config where
  acmd41Arg         := 0x40FF8000#32
  cmd6Arg           := 0x80FFFFF1#32
  switchStatusByte  := 16
  clkdivInit        := Config.openClkdivInit
  clkdivDefault     := Config.openClkdivDefault
  clkdivHighspeed   := Config.openClkdivHighspeed
  clkdivDefaultOc   := Config.openClkdivDefaultOc
  clkdivHighspeedOc := Config.openClkdivHighspeedOc
  overclock         := Config.openOverclock
  fifoDepth         := Config.openFifoExtra + 1
  addrBits          := 32
  timer             := ⟨Config.openTimerResolution, Config.openTimerWidth⟩
  pins              := ⟨Config.openPin 0, Config.openPin 1, Config.openPin 2, Config.openPin 3, Config.openPin 4,
                        Config.openPin 5⟩
  busyTimeout       := none
  readDataBounded   := true
  verifyReadCrc     := false
  storageBase       := 0x20000000#32

end Sys2Proof
end

