-- ==== Sys2Proof/Machine/Crc.lean ====
section
/-! DEFINITION. The CRC7 and CRC16 encoders (spec/40_crc.md), the command frame built with them
(spec/30_encoding.md R102, R103), and the byte and bit orders of the wire (R72, R101). -/

namespace Sys2Proof

/-! ## Byte and bit order -/

/-- The bits of a byte as the wire carries them, bit 7 first (R101). -/
def byteBits (b : Byte) : List Bool :=
  [b.getLsbD 7, b.getLsbD 6, b.getLsbD 5, b.getLsbD 4, b.getLsbD 3, b.getLsbD 2, b.getLsbD 1, b.getLsbD 0]

/-- The bits of a byte sequence as the wire carries them (R101). -/
def bytesBits (bs : List Byte) : List Bool := bs.flatMap byteBits

/-- Four bytes joined, the first the most significant: a word as the wire carries it (R73). -/
def joinBE (b0 b1 b2 b3 : Byte) : Word := (b0 ++ b1 : BitVec 16) ++ (b2 ++ b3 : BitVec 16)

/-- Four bytes joined, the first the least significant: a word of host memory (R72). -/
def joinLE (b0 b1 b2 b3 : Byte) : Word := joinBE b3 b2 b1 b0

/-- Byte `i` of a word, byte 0 the least significant. -/
def wordByte (w : Word) (i : Nat) : Byte := w.extractLsb' (8 * i) 8

/-- The bytes of a word, most significant first (R73, R102). -/
def wordBytesBE (w : Word) : List Byte := [wordByte w 3, wordByte w 2, wordByte w 1, wordByte w 0]

/-- The bytes of a word in host memory, least significant first (R72). -/
def wordBytesLE (w : Word) : List Byte := [wordByte w 0, wordByte w 1, wordByte w 2, wordByte w 3]

/-- `bswap32` (spec/00_scope.md R12). -/
def bswap32 (w : Word) : Word := joinBE (wordByte w 0) (wordByte w 1) (wordByte w 2) (wordByte w 3)

/-! ## CRC7 -/

/-- One of the eight shifts of the CRC7 loop (R140). -/
def crc7Shift (r : BitVec 8) : BitVec 8 :=
  (if r.getLsbD 7 then r ^^^ crc7Poly else r) <<< 1

/-- One byte of the CRC7 loop (R140). -/
def crc7Byte (r : BitVec 8) (b : Byte) : BitVec 8 :=
  crc7Shift (crc7Shift (crc7Shift (crc7Shift (crc7Shift (crc7Shift (crc7Shift (crc7Shift (r ^^^ b))))))))

/-- `crc7_reg` after a byte sequence, from the initial value 0 (R140). -/
def crc7Reg (bs : List Byte) : BitVec 8 := bs.foldl crc7Byte 0#8

/-- The 7-bit value `CRC7` returns: `crc7_reg[7:1]` (R140). -/
def crc7 (bs : List Byte) : BitVec 7 := (crc7Reg bs).extractLsb' 1 7

/-- One bit of the bit-serial form (R142). -/
def crc7SerialBit (c : BitVec 7) (d : Bool) : BitVec 7 :=
  if c.getLsbD 6 ^^ d then (c <<< 1) ^^^ 0x09#7 else c <<< 1

/-- The bit-serial form of CRC7 (R142). -/
def crc7Serial (bits : List Bool) : BitVec 7 := bits.foldl crc7SerialBit 0#7

/-! ## CRC16 -/

/-- One of the eight shifts of the CRC16 loop (R144). -/
def crc16Shift (r : BitVec 16) : BitVec 16 :=
  if r.getLsbD 15 then (r <<< 1) ^^^ crc16Poly else r <<< 1

/-- One byte of the CRC16 loop (R144). -/
def crc16Byte (r : BitVec 16) (b : Byte) : BitVec 16 :=
  crc16Shift (crc16Shift (crc16Shift (crc16Shift (crc16Shift (crc16Shift (crc16Shift (crc16Shift
    (r ^^^ (b ++ 0#8 : BitVec 16)))))))))

/-- `CRC16` of a byte sequence, from the initial value 0 (R144). -/
def crc16 (bs : List Byte) : BitVec 16 := bs.foldl crc16Byte 0#16

/-- One bit of the bit-serial form (R145). -/
def crc16SerialBit (r : BitVec 16) (d : Bool) : BitVec 16 :=
  if r.getLsbD 15 ^^ d then (r <<< 1) ^^^ crc16Poly else r <<< 1

/-- The bit-serial form of CRC16, which a card uses for one line of a four-line bus (R145). -/
def crc16Serial (bits : List Bool) : BitVec 16 := bits.foldl crc16SerialBit 0#16

/-! ## The command frame -/

/-- The first five bytes of a frame: `0x40 OR cmd` and the argument, big-endian (R102). -/
def frameHead (cmd : BitVec 6) (param : Word) : List Byte := (1#2 ++ cmd : BitVec 8) :: wordBytesBE param

/-- The last byte of a frame: `(CRC7 << 1) OR 1` (R102, R141). -/
def frameTail (cmd : BitVec 6) (param : Word) : Byte := crc7 (frameHead cmd param) ++ 1#1

/-- The 6-byte command frame (R102, R190). -/
def frameBytes (cmd : BitVec 6) (param : Word) : List Byte := frameHead cmd param ++ [frameTail cmd param]

/-- The first FIFO word of a frame, `frame[0] ++ frame[1] ++ frame[2] ++ frame[3]` (R103). -/
def frameWord0 (cmd : BitVec 6) (param : Word) : Word :=
  joinBE (1#2 ++ cmd : BitVec 8) (wordByte param 3) (wordByte param 2) (wordByte param 1)

/-- The second FIFO word of a frame, `frame[4] ++ frame[5] ++ 0x0000` (R103). -/
def frameWord1 (cmd : BitVec 6) (param : Word) : Word :=
  joinBE (wordByte param 0) (frameTail cmd param) 0#8 0#8

end Sys2Proof
end

