-- ==== Sys2Proof/Syntax.lean ====
section
/-! DEFINITION. The instructions: one constructor per row of spec/opcode_table.json, 14 wire commands (format CMD48) and
15 host operations (format HOSTOP). -/

namespace Sys2Proof

/-- The instructions of the block (spec/00_scope.md, section 1: "the operations a host requests of the engine, and the
wire commands the engine sends to the card"). An operand of a host operation is a whole 32-bit word, so that an
operand outside its domain (spec/30_encoding.md R131) can be written down and is refused by its meaning. The operand
words of CMD17, CMD18 and CMD24 after the argument say where the engine's data phase reads or writes (log 2). -/
inductive Instr where
  -- wire commands, spec/47_wire_commands.md R260 to R273
  | cmd0
  | cmd2
  | cmd3
  | cmd6 (arg : Word)
  | acmd6 (wide : Bool)
  | cmd7 (rca : BitVec 16)
  | cmd8
  | cmd9 (rca : BitVec 16)
  | cmd12
  | cmd17 (addr buffer crc : Word)
  | cmd18 (addr buffer count crc : Word)
  | cmd24 (addr buffer : Word)
  | acmd41 (arg : Word)
  | cmd55 (rca : BitVec 16)
  -- host operations, spec/30_encoding.md R128
  | crc7 (bytes n : Word)
  | crc16 (bytes n : Word)
  | buildFrame (cmd param : Word)
  | sdCommand (cmd param resSize resData : Word)
  | respFix (w n : Word)
  | checkResStatus (resData : Word)
  | waitNotBusy
  | readBlock (cmd addr buffer count crc : Word)
  | writeBlock (cmd addr buffer : Word)
  | setWidth (width : Word)
  | storageInit
  | parseCsd (r : Word)
  | getStorageSize
  | storageRead (block offset buffer sizeBytes : Word)
  | storageWrite (block offset buffer sizeBytes : Word)
deriving DecidableEq, Repr

end Sys2Proof
end

