-- ==== Sys2Proof/WellFormed.lean ====
section
/-! DEFINITION. The static part of each operation's domain (spec/30_encoding.md R129, R131): what can be said of the
operands without the machine's state. -/

namespace Sys2Proof

/-- An aligned address that is not null (spec/20_memory.md R75). -/
def alignedNonNull (a : Word) : Bool := a.toNat % 4 == 0 && a.toNat != 0

/-- The domain of READ_BLOCK's operands (spec/44_block_transfer.md R226). A count above 32 is in the domain: it is
defined, and fails (R211). -/
def readOperandsOk (cmd buffer count crc : Word) : Bool :=
  decide (sdMaxReadBlocks < count.toNat) ||
    ((cmd == 6#32 || cmd == 17#32 || cmd == 18#32) && count != 0#32 && (cmd == 18#32 || count == 1#32) &&
      alignedNonNull buffer && crc.toNat % 4 == 0)

/-- The preconditions of STORAGE_READ and STORAGE_WRITE (spec/46_session_host.md R253, spec/20_memory.md R75). -/
def storageOperandsOk (offset buffer size : Word) : Bool :=
  offset == 0#32 && size.toNat % 512 == 0 && decide (size.toNat < 2 ^ 31) && buffer.toNat % 4 == 0 &&
    (size == 0#32 || buffer != 0#32)

/-- The operands lie in the static domain the spec gives the instruction. -/
def Instr.wellFormed : Instr → Bool
  | .cmd0 | .cmd2 | .cmd3 | .cmd6 _ | .acmd6 _ | .cmd7 _ | .cmd8 | .cmd9 _ | .cmd12 | .cmd55 _ => true
  | .cmd17 _ buffer crc => readOperandsOk 17#32 buffer 1#32 crc
  | .cmd18 _ buffer count crc => readOperandsOk 18#32 buffer count crc
  | .cmd24 _ buffer => alignedNonNull buffer
  | .acmd41 arg => arg.getLsbD 30
  | .crc7 _ _ | .crc16 _ _ => true
  | .buildFrame cmd _ => decide (cmd.toNat ≤ 63)
  | .sdCommand cmd _ resSize resData =>
    decide (cmd.toNat ≤ 63) &&
      (resSize == 0#32 || ((resSize == 48#32 || resSize == 136#32) && alignedNonNull resData))
  | .respFix w n => (n == 2#32 || n == 5#32) && w.toNat % 4 == 0
  | .checkResStatus r => r.toNat % 4 == 0
  | .waitNotBusy => true
  | .readBlock cmd _ buffer count crc => readOperandsOk cmd buffer count crc
  | .writeBlock cmd _ buffer => cmd == 24#32 && alignedNonNull buffer
  | .setWidth width => width == 1#32 || width == 4#32
  | .storageInit => true
  | .parseCsd r => r.toNat % 4 == 0
  | .getStorageSize => true
  | .storageRead _ offset buffer size => storageOperandsOk offset buffer size
  | .storageWrite _ offset buffer size => storageOperandsOk offset buffer size

end Sys2Proof
end

