-- ==== Sys2Proof/Decode.lean ====
section
/-! DEFINITION. Request records (log 3): the decoder, total on any bytes and rejecting by name, and the encoder.
A record whose first byte is below 0x10 is a host operation, its selector code (spec/30_encoding.md R128) followed by
operand words, least significant byte first; a record whose first byte is 0x40..0x7F is a wire command, the six bytes
of its frame (R102) followed, for the commands with a data phase of the caller's, by operand words. -/

namespace Sys2Proof

/-- Why bytes are no request record. -/
inductive DecodeError where
  /-- The bytes end before the record does. -/
  | truncated
  /-- Selector code 15, which is reserved (R128), or a first byte that is neither a selector nor a frame's. -/
  | reservedSelector
  /-- A frame whose end bit is not 1 (R102). -/
  | endBit
  /-- A frame whose index is none of the engine's thirteen (R130). -/
  | unusedIndex
  /-- A frame whose argument is not one the engine sends with that index (R114, R130). -/
  | argument
  /-- Index 41 in a frame that does not follow an accepted CMD55: "index 41 without the prefix is never sent" (R111). -/
  | missingPrefix
deriving DecidableEq, Repr

/-- Takes one operand word off the bytes and goes on with it. -/
def takeWord {α : Type} (bs : List Byte) (k : Word → List Byte → Except DecodeError α) : Except DecodeError α :=
  match bs with
  | b0 :: b1 :: b2 :: b3 :: rest => k (joinLE b0 b1 b2 b3) rest
  | _ => .error .truncated

/-- A host operation from its selector code and the operand bytes (R128, R129). -/
def decodeHostOp (code : Nat) (bs : List Byte) : Except DecodeError (Instr × List Byte) :=
  match code with
  | 0 => takeWord bs fun a bs => takeWord bs fun n bs => .ok (.crc7 a n, bs)
  | 1 => takeWord bs fun a bs => takeWord bs fun n bs => .ok (.crc16 a n, bs)
  | 2 => takeWord bs fun c bs => takeWord bs fun p bs => .ok (.buildFrame c p, bs)
  | 3 => takeWord bs fun c bs => takeWord bs fun p bs => takeWord bs fun z bs => takeWord bs fun d bs =>
      .ok (.sdCommand c p z d, bs)
  | 4 => takeWord bs fun w bs => takeWord bs fun n bs => .ok (.respFix w n, bs)
  | 5 => takeWord bs fun r bs => .ok (.checkResStatus r, bs)
  | 6 => .ok (.waitNotBusy, bs)
  | 7 => takeWord bs fun c bs => takeWord bs fun a bs => takeWord bs fun b bs => takeWord bs fun n bs =>
      takeWord bs fun x bs => .ok (.readBlock c a b n x, bs)
  | 8 => takeWord bs fun c bs => takeWord bs fun a bs => takeWord bs fun b bs => .ok (.writeBlock c a b, bs)
  | 9 => takeWord bs fun w bs => .ok (.setWidth w, bs)
  | 10 => .ok (.storageInit, bs)
  | 11 => takeWord bs fun r bs => .ok (.parseCsd r, bs)
  | 12 => .ok (.getStorageSize, bs)
  | 13 => takeWord bs fun k bs => takeWord bs fun o bs => takeWord bs fun b bs => takeWord bs fun z bs =>
      .ok (.storageRead k o b z, bs)
  | 14 => takeWord bs fun k bs => takeWord bs fun o bs => takeWord bs fun b bs => takeWord bs fun z bs =>
      .ok (.storageWrite k o b z, bs)
  | _ => .error .reservedSelector

/-- An RCA argument: the RCA in the upper half, zeros below (R114). DESIGN CHOICE: any RCA is read, not `card_rca` alone; the
opcode table leaves its bits free (R130; log 29). -/
def decodeRca (arg : Word) (k : BitVec 16 → Instr) (bs : List Byte) : Except DecodeError (Instr × List Byte) :=
  if arg.extractLsb' 0 16 = 0#16 then .ok (k (arg.extractLsb' 16 16), bs) else .error .argument

/-- A wire command from its index and argument (R114, R130). `app` is the decoder's bit of state, "the previous frame was
CMD55 and was accepted" (R111): it tells ACMD6 from CMD6 and admits ACMD41. -/
def decodeWire (app : Bool) (index : Nat) (arg : Word) (bs : List Byte) : Except DecodeError (Instr × List Byte) :=
  match index with
  | 0 => if arg = 0#32 then .ok (.cmd0, bs) else .error .argument
  | 2 => if arg = 0#32 then .ok (.cmd2, bs) else .error .argument
  | 3 => if arg = 0#32 then .ok (.cmd3, bs) else .error .argument
  | 6 =>
    if app then
      if arg = 0#32 then .ok (.acmd6 false, bs) else if arg = 2#32 then .ok (.acmd6 true, bs) else .error .argument
    else .ok (.cmd6 arg, bs)
  | 7 => decodeRca arg .cmd7 bs
  | 8 => if arg = ifCondPattern then .ok (.cmd8, bs) else .error .argument
  | 9 => decodeRca arg .cmd9 bs
  | 12 => if arg = 0#32 then .ok (.cmd12, bs) else .error .argument
  | 17 => takeWord bs fun b bs => takeWord bs fun x bs => .ok (.cmd17 arg b x, bs)
  | 18 => takeWord bs fun b bs => takeWord bs fun n bs => takeWord bs fun x bs => .ok (.cmd18 arg b n x, bs)
  | 24 => takeWord bs fun b bs => .ok (.cmd24 arg b, bs)
  | 41 => if app then .ok (.acmd41 arg, bs) else .error .missingPrefix
  | 55 => decodeRca arg .cmd55 bs
  | _ => .error .unusedIndex

/-- Decodes one request record and gives the bytes after it. The CRC7 field of a frame is not read: it is in no mask of
the opcode table (R130), and the engine computes it afresh when it sends the frame (log 4). -/
def decode (app : Bool) (bs : List Byte) : Except DecodeError (Instr × List Byte) :=
  match bs with
  | [] => .error .truncated
  | b :: rest =>
    if b.toNat < 16 then decodeHostOp b.toNat rest
    else if b.extractLsb' 6 2 = 1#2 then
      match rest with
      | a3 :: a2 :: a1 :: a0 :: t :: rest =>
        if t.getLsbD 0 then decodeWire app (b.extractLsb' 0 6).toNat (joinBE a3 a2 a1 a0) rest else .error .endBit
      | _ => .error .truncated
    else .error .reservedSelector

/-! ## The encoder -/

/-- The record of a host operation. -/
def encodeHostOp (code : BitVec 8) (operands : List Word) : List Byte := code :: operands.flatMap wordBytesLE

/-- The record of a wire command: its frame and the operand words of its data phase. -/
def encodeWire (index : BitVec 6) (arg : Word) (operands : List Word) : List Byte :=
  frameBytes index arg ++ operands.flatMap wordBytesLE

/-- The argument `rca << 16` of CMD7, CMD9 and CMD55 (R114). -/
def rcaArg (rca : BitVec 16) : Word := rca ++ 0#16

/-- The argument of ACMD6: 0 for one line, 2 for four (R118). -/
def widthArg (wide : Bool) : Word := if wide then 2#32 else 0#32

/-- The request record of an instruction. -/
def encode : Instr → List Byte
  | .cmd0 => encodeWire 0#6 0#32 []
  | .cmd2 => encodeWire 2#6 0#32 []
  | .cmd3 => encodeWire 3#6 0#32 []
  | .cmd6 arg => encodeWire 6#6 arg []
  | .acmd6 wide => encodeWire 6#6 (widthArg wide) []
  | .cmd7 rca => encodeWire 7#6 (rcaArg rca) []
  | .cmd8 => encodeWire 8#6 ifCondPattern []
  | .cmd9 rca => encodeWire 9#6 (rcaArg rca) []
  | .cmd12 => encodeWire 12#6 0#32 []
  | .cmd17 addr buffer crc => encodeWire 17#6 addr [buffer, crc]
  | .cmd18 addr buffer count crc => encodeWire 18#6 addr [buffer, count, crc]
  | .cmd24 addr buffer => encodeWire 24#6 addr [buffer]
  | .acmd41 arg => encodeWire 41#6 arg []
  | .cmd55 rca => encodeWire 55#6 (rcaArg rca) []
  | .crc7 a n => encodeHostOp 0#8 [a, n]
  | .crc16 a n => encodeHostOp 1#8 [a, n]
  | .buildFrame c p => encodeHostOp 2#8 [c, p]
  | .sdCommand c p z d => encodeHostOp 3#8 [c, p, z, d]
  | .respFix w n => encodeHostOp 4#8 [w, n]
  | .checkResStatus r => encodeHostOp 5#8 [r]
  | .waitNotBusy => encodeHostOp 6#8 []
  | .readBlock c a b n x => encodeHostOp 7#8 [c, a, b, n, x]
  | .writeBlock c a b => encodeHostOp 8#8 [c, a, b]
  | .setWidth w => encodeHostOp 9#8 [w]
  | .storageInit => encodeHostOp 10#8 []
  | .parseCsd r => encodeHostOp 11#8 [r]
  | .getStorageSize => encodeHostOp 12#8 []
  | .storageRead k o b z => encodeHostOp 13#8 [k, o, b, z]
  | .storageWrite k o b z => encodeHostOp 14#8 [k, o, b, z]

/-- Whether the instruction is an application command, whose frame is read as such only after an accepted CMD55
(R111). -/
def Instr.isApp : Instr → Bool
  | .acmd6 _ | .acmd41 _ => true
  | _ => false

/-! ## Words numbered as spec/opcode_table.json numbers them -/

/-- Byte `i` of a number, byte 0 the least significant. -/
def natByte (w i : Nat) : Byte := BitVec.ofNat 8 (w >>> (8 * i))

/-- The record an opcode-table word stands for, operand words of zeros after it: a 48-bit row is a frame, whose bit 47 is
sent first and so lies at the lowest address (R102); a shorter row is a selector byte. -/
def tableRecord (nbits w : Nat) : List Byte :=
  (if nbits = 48 then [natByte w 5, natByte w 4, natByte w 3, natByte w 2, natByte w 1, natByte w 0] else [natByte w 0]) ++
    List.replicate 20 0#8

/-- The prefix bit under which an opcode-table word is read: as an application command where that reading exists (the
masks of ACMD6 and ACMD41 lie inside those of index 6 and 41), else as a plain command (log 4). -/
def tableApp (nbits w : Nat) : Bool :=
  match decode true (tableRecord nbits w) with
  | .ok _ => true
  | .error _ => false

/-- The instruction the decoder reads from an opcode-table word. -/
def decodeTableWord (nbits w : Nat) : Option Instr :=
  match decode (tableApp nbits w) (tableRecord nbits w) with
  | .ok (i, _) => some i
  | .error _ => none

end Sys2Proof
end

