-- ==== Sys2Proof/Machine/State.lean ====
section
/-! DEFINITION. The state of the block (spec/10_state.md), its value after reset (spec/70_reset_and_hazards.md R301), and
the reasons a request is refused (spec/93_implementation_defined.md, part 1.1). Every value below that R301 calls
unspecified is log 9. -/

namespace Sys2Proof.Machine

/-! ## Small types -/

/-- The number of data lines: 1 or 4 (R9 WIDTHS). -/
inductive Width where
  | one
  | four
deriving DecidableEq, Repr

/-- The response sizes of R9 RES_SIZES: 0, 48 and 136 bits. -/
inductive ResSize where
  | none
  | short
  | long
deriving DecidableEq, Repr

/-- The engine's control register (R24): IDLE and the step labels of the operation rules. `notBusy` names the one wait
that has no label of its own, the poll of a WAIT_NOT_BUSY the host requested (log 21). -/
inductive Phase where
  | idle
  | cmdBuild | cmdArm | cmdStart | cmdWait | cmdAbort | cmdFix
  | rdCheck | rdTable | rdArm | rdCmd | rdStream | rdWait | rdStop
  | wrCrc | wrArm | wrCmd | wrStream | wrWait
  | init1 | init2 | init3 | init4 | init5 | init6 | init7 | init8 | init9 | init10 | init11 | init12
  | notBusy
deriving DecidableEq, Repr

/-- The causes of failure (spec/60_exceptions.md R281), in the order of their codes 1 to 7. -/
inductive Cause where
  | cmdTimeout
  | statusError
  | chainLimit
  | dataTimeout
  | ifCond
  | dataCrc
  | busyTimeout
deriving DecidableEq, Repr

/-! ## Sequencers (R26, R27) -/

inductive SeqMode where
  | unprogrammed
  | wait
  | send
  | recvHunt
  | recvShift
deriving DecidableEq, Repr

/-- A program a sequencer can be armed with (R150, R151). -/
inductive SeqProg where
  | send (n : Nat)
  | recv (n : Nat)
deriving DecidableEq, Repr

inductive Dir where
  | out
  | input
deriving DecidableEq, Repr

inductive Owner where
  | seq
  | engine
deriving DecidableEq, Repr

/-- CSEQ or DSEQ (R26). -/
structure Seq where
  mode     : SeqMode
  bitsLeft : Nat
  armed    : List SeqProg
  osr      : Word
  osrCount : Nat
  isr      : Word
  isrCount : Nat
  /-- Transmit FIFO, oldest word first. -/
  txf      : List Word
  /-- Receive FIFO, oldest word first. -/
  rxf      : List Word
  dir      : Dir
  owner    : Owner
  /-- The level of the last bit it drove (R152). -/
  level    : Bool
deriving DecidableEq, Repr

/-- KSEQ (R27). -/
structure Kseq where
  running : Bool
  clkdiv  : Nat
deriving DecidableEq, Repr

/-! ## DMA channels (R29, R30) -/

/-- What `src` or `dst` of DMA0 names: a host address, or a FIFO port (R29, R70). -/
inductive DmaEnd where
  | mem (a : Word)
  | cseqRxf
  | dseqRxf
  | dseqTxf
deriving DecidableEq, Repr

inductive Pace where
  | cseqRx
  | dseqRx
  | dseqTx
deriving DecidableEq, Repr

inductive Chain where
  | none
  | dma1
deriving DecidableEq, Repr

structure Dma0 where
  claimed : Bool
  src     : DmaEnd
  dst     : DmaEnd
  count   : Word
  incSrc  : Bool
  incDst  : Bool
  bswap   : Bool
  pace    : Pace
  chain   : Chain
  busy    : Bool
deriving DecidableEq, Repr

structure Dma1 where
  claimed : Bool
  rd      : Word
  busy    : Bool
deriving DecidableEq, Repr

/-! ## Session, memory, pins, environment -/

/-- The card session state (R21). -/
structure Session where
  cardSizeBlocks : Word
  isHcs          : Bool
  cardRca        : BitVec 16
  dataWidth      : Width
deriving DecidableEq, Repr

/-- Host memory (R70): the bytes that are not 0, by rising address. An address with no entry reads as
`Memory.unlisted` (log 11). -/
abbrev Memory := List Host.Cell

/-- A level the block drove on a line in one CLK period (R39, R16; log 24). -/
inductive PinEvent where
  | cmd (level : Bool)
  | dat0 (level : Bool)
deriving DecidableEq, Repr

/-- The levels the card gives the lines in one CLK period (R168): CMD, and DAT3..DAT0 with DAT0 in bit 0. A line the
card does not drive is 1 (R164). -/
structure Tick where
  cmd : Bool
  dat : BitVec 4
deriving DecidableEq, Repr

/-- What the card and the timer do in one wait of the engine (R8, R283; log 5). `lead` is used by a command's wait only:
the CLK periods in which the frame goes out. `ticks` are the CLK periods (or, in WAIT_NOT_BUSY, the polls) of the wait;
after them the lines are undriven (R164), unless `holds`: in a WAIT_NOT_BUSY, the card then holds CMD low for as long as
the wait lasts. `expired` says that the wait's deadline passes right after `ticks`: with no ticks, before the first
poll. -/
structure Turn where
  lead    : List Tick
  ticks   : List Tick
  expired : Bool
  holds   : Bool
deriving DecidableEq, Repr

/-- What the host does between two requests (R4 (a), R6, R16): it requests an operation by a request record (log 3), or
stores bytes in its own memory (log 1). -/
inductive HostAct where
  | request (record : List Byte)
  | store (a : Word) (bytes : List Byte)
deriving DecidableEq, Repr

/-! ## The engine's locals while it waits (R25) -/

/-- The operands of a READ_BLOCK in progress: `crcDst` is the resolved CRC destination and `width` is `data_width` as
RD_CHECK read it (R210, R228). -/
structure ReadOp where
  cmd    : BitVec 6
  addr   : Word
  buffer : Word
  count  : Nat
  crcDst : Word
  width  : Width
deriving DecidableEq, Repr

/-- One frame of the call stack (R24): an operation that waits, or that waits for the operation it called, with its
locals (log 21). -/
inductive Frame where
  /-- WAIT_NOT_BUSY polling the command line. -/
  | polling
  /-- A WAIT_NOT_BUSY the host requested: it has no result. -/
  | busyOp
  /-- A CMD7 or CMD12 whose response passed (`statusOk`) or not, waiting for not-busy. -/
  | wireBusy (statusOk : Bool)
  /-- READ_BLOCK in its data phase, `fed` receive programs after the first armed. -/
  | readData (op : ReadOp) (fed : Nat)
  /-- READ_BLOCK in RD_STOP, waiting for not-busy after CMD12. -/
  | readStop (op : ReadOp) (statusOk : Bool)
  /-- WRITE_BLOCK in WR_WAIT. -/
  | writeWait
  /-- STORAGE_INIT in the poll loop of step 5. -/
  | initPoll
  /-- STORAGE_INIT in step 10, waiting for not-busy. -/
  | initSelect
  /-- STORAGE_INIT in step 11, waiting for its READ_BLOCK. -/
  | initSwitch
  /-- The wire command CMD6, waiting for its READ_BLOCK. -/
  | switchRead
  /-- STORAGE_READ, waiting for the READ_BLOCK of `chunk` blocks after `done` of `total`. -/
  | storageRead (block buffer : Word) (total done chunk : Nat)
  /-- STORAGE_WRITE, waiting for the WRITE_BLOCK after `done` of `total` blocks. -/
  | storageWrite (block buffer : Word) (total done : Nat)
deriving DecidableEq, Repr

/-- What a request returns to the host (R129). -/
inductive OpResult where
  | none
  | bool (b : Bool)
  | crc7 (v : BitVec 7)
  | crc16 (v : BitVec 16)
  | frame (bytes : List Byte)
  | blocks (n : Word)
  | size (blockSize : BitVec 16) (numBlocks : Word)
  | count (bytes : Word)
deriving DecidableEq, Repr

/-! ## The state -/

structure State where
  cfg           : Config
  session       : Session
  ioInitialised : Bool
  sessionValid  : Bool
  phase         : Phase
  stack         : List Frame
  lastFailure   : Option Cause
  cseq          : Seq
  dseq          : Seq
  lanes         : Width
  kseq          : Kseq
  dma0          : Dma0
  dma1          : Dma1
  crc7Reg       : BitVec 8
  crc16Reg      : BitVec 16
  mem           : Memory
  host          : List HostAct
  result        : OpResult
  done          : Bool
  history       : List PinEvent
  appPrefix     : Bool
  card          : List Turn
  free          : List Word
  freeCount     : Nat
deriving DecidableEq, Repr

/-- A sequencer after reset (R301; `bitsLeft`, `osr`, `isr` and `level`: log 9). -/
def Seq.reset : Seq where
  mode     := .unprogrammed
  bitsLeft := 0
  armed    := []
  osr      := 0#32
  osrCount := 0
  isr      := 0#32
  isrCount := 0
  txf      := []
  rxf      := []
  dir      := .input
  owner    := .seq
  level    := true

/-- The state after reset (R301). DESIGN CHOICE: what R301 leaves to others has a value here too. The card is the
environment's (R8, R301 "not affected by the block's reset"); the list `card` is empty, which is a card that is silent for
ever in a run from this very state (log 34). The host has nothing to do (`host`, log 3), and nobody has drawn (log 8). -/
def State.reset : State where
  cfg           := Config.standard
  session       := ⟨0#32, false, 0#16, .one⟩
  ioInitialised := false
  sessionValid  := false
  phase         := .idle
  stack         := []
  lastFailure   := none
  cseq          := Seq.reset
  dseq          := Seq.reset
  lanes         := .one
  kseq          := ⟨false, 0⟩
  dma0          := ⟨false, .mem 0#32, .mem 0#32, 0#32, false, false, false, .cseqRx, .none, false⟩
  dma1          := ⟨false, 0#32, false⟩
  crc7Reg       := 0#8
  crc16Reg      := 0#16
  mem           := []
  host          := []
  result        := .none
  done          := true
  history       := []
  appPrefix     := false
  card          := []
  free          := []
  freeCount     := 0

/-! ## Stops -/

/-- The machine's faults: none. "No exceptions/panics anywhere in this design" (R280), and a DMA channel reports no error
(spec/42_dma.md R183). -/
inductive Fault where
deriving DecidableEq, Repr

/-- Why a request gets no transition (R313 "refused"). All are safe: the spec gives the hardware no behaviour there, and
nothing can be proved of it. U numbers are those of spec/93_implementation_defined.md. -/
inductive Refusal where
  /-- An instruction without a meaning yet (raised by `exec` alone; safe). -/
  | notModelled (mnemonic : String)
  /-- Bytes at the port that are no request record, selector code 15 among them: U14 (raised by `step`; safe). -/
  | badRequest
  /-- A request while another is in progress: U15 (raised by every meaning; safe). -/
  | requestWhileBusy
  /-- A command index above 63: U1 (raised by BUILD_FRAME and SD_COMMAND; safe). -/
  | commandIndex
  /-- A response size other than 0, 48 and 136: U2 (raised by SD_COMMAND; safe). -/
  | responseSize
  /-- A null or misaligned response buffer: U3 (raised by SD_COMMAND; safe). -/
  | responseBuffer
  /-- A sequencer needed before STORAGE_INIT step 1 programmed it: U4 (raised by the operations that send; safe). -/
  | unprogrammed
  /-- READ_BLOCK with an index other than 6, 17 and 18: U5 (raised by READ_BLOCK; safe). -/
  | readCommand
  /-- READ_BLOCK of no block, or of several with CMD6 or CMD17: U6 (raised by READ_BLOCK and CMD18; safe). -/
  | blockCount
  /-- A null or misaligned data buffer, or a misaligned CRC destination: U7 (raised by the operations that move blocks;
  safe). -/
  | bufferAddress
  /-- WRITE_BLOCK with an index other than 24: U8 (raised by WRITE_BLOCK; safe). -/
  | writeCommand
  /-- A bus width other than 1 and 4: U9 (raised by SET_WIDTH; safe). -/
  | busWidth
  /-- A non-zero offset: U10 (raised by STORAGE_READ and STORAGE_WRITE; safe). -/
  | offset
  /-- A size that is no multiple of 512 or does not fit the signed result: U11 (raised by STORAGE_READ and STORAGE_WRITE;
  safe). -/
  | sizeBytes
  /-- An operation that needs a session before STORAGE_INIT has succeeded: U12 (raised by the operations U12 lists and by
  CMD17, CMD18 and CMD24; safe). -/
  | noSession
  /-- A CSD whose structure field is 2 or 3: U13 (raised by PARSE_CSD, CMD9 and STORAGE_INIT; safe). -/
  | csdStructure
  /-- An extent that leaves host memory, or overlaps another of the call or the engine's storage: U16 (raised by the
  operations with address operands, and by `step` for a store of the host itself, log 1; safe). -/
  | extent
  /-- RESP_FIX of a number of words other than 2 and 5: U17 (raised by RESP_FIX; safe). -/
  | wordCount
  /-- A misaligned response address: U17 (raised by RESP_FIX, CHECK_RES_STATUS and PARSE_CSD; safe). -/
  | responseAddress
deriving DecidableEq, Repr

end Sys2Proof.Machine
end

