-- ==== Sys2Proof/Machine/Ops.lean ====
section
/-! DEFINITION. The named operations over memory and the state's fields: host memory in its canonical form
(spec/20_memory.md R70, R72), environment draws (spec/00_scope.md R13), raising a failure and returning from an operation
(R13, spec/60_exceptions.md R280, R281), and how an operation ends. -/

namespace Sys2Proof.Machine

/-! ## Host memory -/

/-- What an address with no entry reads as (log 11). -/
def Memory.unlisted : Byte := 0#8

/-- The canonical form: addresses strictly rising, and no entry equal to what an unlisted address reads as. -/
def Memory.wf : Memory → Bool
  | [] => true
  | (a, b) :: m => b != Memory.unlisted && (m.all fun c => decide (a < c.1)) && Memory.wf m

/-- The byte at an address. -/
def Memory.read (m : Memory) (a : Nat) : Byte :=
  match m with
  | [] => Memory.unlisted
  | (k, b) :: m => if k = a then b else Memory.read m a

/-- Stores one byte and keeps the canonical form. -/
def Memory.write (m : Memory) (a : Nat) (b : Byte) : Memory :=
  match m with
  | [] => if b = Memory.unlisted then [] else [(a, b)]
  | (k, c) :: m =>
    if a < k then (if b = Memory.unlisted then (k, c) :: m else (a, b) :: (k, c) :: m)
    else if a = k then (if b = Memory.unlisted then m else (a, b) :: m)
    else (k, c) :: Memory.write m a b

/-- `MemRead(a, n)`: the bytes at `a .. a+n-1` (R13). -/
def Memory.readBytes (m : Memory) (a : Word) : Nat → List Byte
  | 0 => []
  | n + 1 => m.read a.toNat :: Memory.readBytes m (a + 1#32) n

/-- `MemWrite(a, n, v)` (R13). -/
def Memory.writeBytes (m : Memory) (a : Word) : List Byte → Memory
  | [] => m
  | b :: bs => Memory.writeBytes (m.write a.toNat b) (a + 1#32) bs

/-- The little-endian word at an address (R72). -/
def Memory.readWord (m : Memory) (a : Word) : Word :=
  joinLE (m.read a.toNat) (m.read (a + 1#32).toNat) (m.read (a + 2#32).toNat) (m.read (a + 3#32).toNat)

/-- Stores a little-endian word (R72, R76). -/
def Memory.writeWord (m : Memory) (a w : Word) : Memory := m.writeBytes a (wordBytesLE w)

/-- `n` consecutive little-endian words. -/
def Memory.readWords (m : Memory) (a : Word) : Nat → List Word
  | 0 => []
  | n + 1 => m.readWord a :: Memory.readWords m (a + 4#32) n

/-- Stores consecutive little-endian words. -/
def Memory.writeWords (m : Memory) (a : Word) : List Word → Memory
  | [] => m
  | w :: ws => Memory.writeWords (m.writeWord a w) (a + 4#32) ws

/-! ## Fields of the state -/

/-- `phase <- P` (R13, R24). -/
def State.setPhase (s : State) (p : Phase) : State := { s with phase := p }

/-- Host memory replaced by the result of a memory operation. -/
def State.setMem (s : State) (m : Memory) : State := { s with mem := m }

/-- CSEQ replaced by the result of a sequencer primitive. -/
def State.setCseq (s : State) (q : Seq) : State := { s with cseq := q }

/-- DSEQ replaced by the result of a sequencer primitive. -/
def State.setDseq (s : State) (q : Seq) : State := { s with dseq := q }

/-- DMA0 replaced by the result of a DMA primitive. -/
def State.setDma0 (s : State) (d : Dma0) : State := { s with dma0 := d }

/-- DMA1 replaced by the result of a DMA primitive. -/
def State.setDma1 (s : State) (d : Dma1) : State := { s with dma1 := d }

/-- `data_width` and `DSEQ.lanes`, which are written together (spec/45_bus_width.md R232). -/
def State.setWidth (s : State) (w : Width) : State :=
  { s with session := { s.session with dataWidth := w }, lanes := w }

/-- The level a sequencer drives on its line in one CLK period, added to the event history (R39). -/
def State.drive (s : State) (e : PinEvent) : State := { s with history := e :: s.history }

/-! ## Environment draws -/

/-- The value of the next draw of 32 bits (R13): the head of the state's list, or past its end an open value
(log 8). -/
def State.drawValue (s : State) : Word :=
  match s.free with
  | w :: _ => w
  | [] => Config.freeWord s.freeCount

/-- The state after a draw. -/
def State.drawn (s : State) : State :=
  match s.free with
  | _ :: ws => { s with free := ws }
  | [] => { s with freeCount := s.freeCount + 1 }

/-- Fills `n` words of memory with draws: the contents of a failed operation's write extent (spec/20_memory.md R80,
93_implementation_defined.md U22; log 13). -/
def State.scramble (s : State) (a : Word) : Nat → State
  | 0 => s
  | n + 1 => State.scramble (s.drawn.setMem (s.mem.writeWord a s.drawValue)) (a + 4#32) n

/-- The Turn the card plays in the next wait: the head of the list, or, when the list has run out, a card that drives
nothing (log 5). -/
def State.turn (s : State) : Turn :=
  match s.card with
  | t :: _ => t
  | [] => ⟨[], [], false, false⟩

/-- The state after the next Turn was taken. -/
def State.turnTaken (s : State) : State := { s with card := s.card.tail }

/-- The step of the card and of the timer (spec/00_scope.md R4 (h), (i)): what they do in one wait of the engine. -/
def cardStep (s : State) : Turn × State := (s.turn, s.turnTaken)

/-! ## Failure and return -/

/-- `raise Failure(cause)` (R13, R280, R281): the cause goes into the model-only field `last_failure`; the operation that
raises it does its own cleanup and returns false. There is no other exception in the block. -/
def State.raise (s : State) (c : Cause) : State := { s with lastFailure := some c }

/-- `return v` (R13): the result goes to the host, the done indication rises, and the engine is IDLE again. -/
def State.finish (s : State) (r : OpResult) : State :=
  { s with phase := .idle, stack := [], result := r, done := true }

/-- How an operation ends when it is run: it returns a value, or it stays in a wait without a bound, leaving its locals
(innermost frame first), or the request turns out to be refused. -/
inductive Run (α : Type) where
  | done (a : α) (s : State)
  | waiting (k : List Frame) (s : State)
  | refused (r : Refusal)
deriving Repr

/-- Goes on with the value an operation returned; the caller's frame goes under those of an operation that waits. -/
def Run.andThen {α β : Type} (r : Run α) (frame : Frame) (k : α → State → Run β) : Run β :=
  match r with
  | .done a s => k a s
  | .waiting fs s => .waiting (fs ++ [frame]) s
  | .refused r => .refused r

/-- The outcome of a request: it returns to the host; or the engine stays in the waiting phase with its call stack
(spec/60_exceptions.md R286: "`phase` stays at the waiting step"); or it is refused. -/
def Run.outcome (r : Run OpResult) : Host.Outcome State Fault Refusal :=
  match r with
  | .done v s => .next (s.finish v)
  | .waiting fs s => .next { s with stack := fs }
  | .refused r => .refused r

/-- Accepts a request (spec/60_exceptions.md R294): refused while another is in progress, else the done indication falls
and the operation runs. -/
def State.accept (s : State) (k : State → Run OpResult) : Host.Outcome State Fault Refusal :=
  if s.phase = .idle then (k { s with done := false }).outcome else .refused .requestWhileBusy

/-- Refuses a request when a condition of its domain fails, else goes on. -/
def guardRun {α : Type} (ok : Bool) (r : Refusal) (k : Run α) : Run α := if ok then k else .refused r

end Sys2Proof.Machine
end

