-- ==== Sys2Proof/Machine/Flags.lean ====
section
/-! DEFINITION. The block's flags (spec/10_state.md R35): it has no condition codes; a flag is a function of other state
at the moment it is read. Here are the conditions the engine polls and the content tests it makes on responses. -/

namespace Sys2Proof.Machine

/-! ## Polled conditions -/

/-- `wait_idle`: the sequencer is in WAIT with nothing armed (spec/41_sequencers.md R162). -/
def Seq.idle (q : Seq) : Bool := decide (q.mode = .wait) && q.armed.isEmpty

/-- The sequencer can be used: it has been programmed (R150). -/
def Seq.programmed (q : Seq) : Bool := decide (q.mode ≠ .unprogrammed)

/-- The receive FIFO has room for a word (R28). -/
def Seq.rxRoom (depth : Nat) (q : Seq) : Bool := decide (q.rxf.length < depth)

/-- The transmit FIFO has room for a word (R28). -/
def Seq.txRoom (depth : Nat) (q : Seq) : Bool := decide (q.txf.length < depth)

/-- Another program can be armed: one pending besides the one that runs, or that will run once started (R158). -/
def Seq.armRoom (q : Seq) : Bool :=
  if q.mode = .wait then decide (q.armed.length < 2) else q.armed.isEmpty

/-- "blocking on both DMA channels' completion" (spec/42_dma.md R178). -/
def State.dmaIdle (s : State) : Bool := !s.dma0.busy && !s.dma1.busy

/-! ## Content tests -/

/-- The 32-bit payload of a response, bytes 1 to 4, byte 1 the most significant (spec/30_encoding.md R104). -/
def payload (r : List Byte) : Word := joinBE (r.getD 1 0#8) (r.getD 2 0#8) (r.getD 3 0#8) (r.getD 4 0#8)

/-- The test of CHECK_RES_STATUS: no bit of the mask is set (spec/43_command_response.md R200). -/
def statusOk (status : Word) : Bool := (status &&& statusErrorMask) == 0#32

/-- The test of step 4 on the answer to CMD8: voltage nibble 1 and the pattern echoed (spec/46_session_host.md R239). -/
def ifCondOk (r : List Byte) : Bool := (r.getD 3 0#8 &&& 0x0F#8) == 0x01#8 && r.getD 4 0#8 == 0xAA#8

/-- OCR bit 31, "ready" (spec/30_encoding.md R106). -/
def ocrReady (ocr : Word) : Bool := ocr.getLsbD 31

/-- OCR bit 30, the high-capacity flag (R106). -/
def ocrHcs (ocr : Word) : Bool := ocr.getLsbD 30

/-- The RCA of an R6: `r[1] ++ r[2]` (R107). -/
def responseRca (r : List Byte) : BitVec 16 := r.getD 1 0#8 ++ r.getD 2 0#8

end Sys2Proof.Machine
end

