-- ==== Sys2Proof/Machine/Operands.lean ====
section
/-! DEFINITION. The operand forms of the operations: what a width or a response size stands for, the extents of
spec/20_memory.md R79, and the domains of spec/30_encoding.md R129, R131 as conditions on an operand and the state. -/

namespace Sys2Proof.Machine

/-! ## Widths and sizes -/

/-- The number of lines. -/
def Width.lines : Width → Nat
  | .one => 1
  | .four => 4

/-- The width an operand names, 1 or 4 (R129). -/
def Width.ofWord? (w : Word) : Option Width :=
  if w = 1#32 then some .one else if w = 4#32 then some .four else none

/-- The number of CRC words of a block, `ceil(16*w/32)` (spec/44_block_transfer.md R210). -/
def Width.crcWords : Width → Nat
  | .one => 1
  | .four => 2

/-- The response size in bits (R9 RES_SIZES). -/
def ResSize.bits : ResSize → Nat
  | .none => 0
  | .short => 48
  | .long => 136

/-- The response size in words, `ceil(res_size/32)` (spec/43_command_response.md R191). -/
def ResSize.words : ResSize → Nat
  | .none => 0
  | .short => 2
  | .long => 5

/-- The response size in whole bytes of the response (R32). -/
def ResSize.bytes : ResSize → Nat
  | .none => 0
  | .short => 6
  | .long => 17

/-- The response size an operand names: 0, 48 or 136 (R129). -/
def ResSize.ofWord? (w : Word) : Option ResSize :=
  if w = 0#32 then some .none else if w = 48#32 then some .short else if w = 136#32 then some .long else none

/-- The 6-bit index in a command operand that is at most 63. -/
def indexOf (cmd : Word) : BitVec 6 := cmd.extractLsb' 0 6

/-! ## A READ_BLOCK's lengths (R228) -/

/-- 64 for CMD6, else 512 bytes. -/
def ReadOp.blockLen (o : ReadOp) : Nat := if o.cmd = 6#6 then switchBlockLenBytes else blockLenBytes

/-- `block_len*8 + 16*w` bits per block. -/
def ReadOp.bits (o : ReadOp) : Nat := o.blockLen * 8 + 16 * o.width.lines

/-- `block_len/4` words per block. -/
def ReadOp.dataWords (o : ReadOp) : Nat := o.blockLen / 4

/-! ## Extents -/

/-- The extent lies in host memory (R79, U16; ADDR_BITS of R10). -/
def inMemory (c : Config) (a : Word) (len : Nat) : Bool := decide (a.toNat + len ≤ 2 ^ c.addrBits)

/-- Two extents share no byte. -/
def disjoint (a : Word) (la : Nat) (b : Word) (lb : Nat) : Bool :=
  decide (la = 0) || decide (lb = 0) || decide (a.toNat + la ≤ b.toNat) || decide (b.toNat + lb ≤ a.toNat)

/-- A caller's extent lies in host memory and apart from the engine's transient storage (R79, R81, U16). -/
def extentOk (c : Config) (a : Word) (len : Nat) : Bool :=
  inMemory c a len && disjoint a len c.storageBase storageSize

/-- Word-aligned (R75). -/
def aligned (a : Word) : Bool := decide (a.toNat % 4 = 0)

/-! ## Card addresses -/

/-- The 32-bit argument of CMD17, CMD18 and CMD24 for a block: the block itself if `is_hcs = 1`, else
`(block * 512) mod 2^32` (spec/20_memory.md R78). -/
def cardAddress (s : Session) (block : Word) : Word := if s.isHcs then block else block * 512#32

end Sys2Proof.Machine
end

