-- ==== Sys2Proof/Machine/Sequencer.lean ====
section
/-! DEFINITION. The shift-register sequencers (spec/41_sequencers.md): the engine's primitives on CSEQ and DSEQ, and what
each does in one CLK period. -/

namespace Sys2Proof.Machine

/-! ## The engine's primitives -/

/-- A program begins (R159). -/
def Seq.begin (q : Seq) (p : SeqProg) : Seq :=
  match p with
  | .send n => { q with mode := .send, dir := .out, bitsLeft := n, osrCount := 0, isrCount := 0 }
  | .recv n => { q with mode := .recvHunt, dir := .input, bitsLeft := n, osrCount := 0, isrCount := 0 }

/-- A program has ended: the next armed one begins, or the sequencer waits (R152, R154, R156). -/
def Seq.nextProgram (q : Seq) : Seq :=
  match q.armed with
  | p :: ps => { q with armed := ps }.begin p
  | [] => { q with mode := .wait }

/-- SEQ_ARM (R151), subject to the pending limit (R158). The engine arms only where there is room. -/
def Seq.arm (q : Seq) (p : SeqProg) : Seq := if q.armRoom then { q with armed := q.armed ++ [p] } else q

/-- SEQ_START (R159): its precondition is WAIT and something armed. -/
def Seq.start (q : Seq) : Seq :=
  if q.mode = .wait then
    match q.armed with
    | p :: ps => { q with armed := ps }.begin p
    | [] => q
  else q

/-- SEQ_FORCE_WAIT (R160), from any mode but UNPROGRAMMED. -/
def Seq.forceWait (q : Seq) : Seq :=
  if q.mode = .unprogrammed then q
  else { q with mode := .wait, armed := [], bitsLeft := 0, osrCount := 0, isrCount := 0, dir := .input }

/-- SEQ_CLEAR_RX (R161). -/
def Seq.clearRx (q : Seq) : Seq := { q with rxf := [] }

/-- SEQ_CLEAR_TX (R161). -/
def Seq.clearTx (q : Seq) : Seq := { q with txf := [] }

/-- A word into the transmit FIFO. -/
def Seq.pushTx (q : Seq) (w : Word) : Seq := { q with txf := q.txf ++ [w] }

/-- Step 1 of STORAGE_INIT programs a sequencer (R150). -/
def Seq.program (q : Seq) : Seq := { q with mode := .wait }

/-! ## Shifting -/

/-- A send refills its shift register when that is empty (R152). -/
def Seq.load (q : Seq) : Seq :=
  if q.osrCount = 0 then
    match q.txf with
    | w :: ws => { q with osr := w, osrCount := 32, txf := ws }
    | [] => q
  else q

/-- SEND in one CLK period (R152, R153): the line takes bit 31 of the shift register; with no word to send the period
stalls and the line keeps its level. -/
def Seq.sendTick (q : Seq) : Seq :=
  let q := q.load
  if q.osrCount = 0 then q
  else
    let q := { q with level := q.osr.msb, osr := q.osr <<< 1, osrCount := q.osrCount - 1, bitsLeft := q.bitsLeft - 1 }
    if q.bitsLeft = 0 then { q with dir := .input, osrCount := 0 }.nextProgram else q

/-- The automatic push: a full word goes to the receive FIFO if that has room (R155, R28). -/
def Seq.autopush (depth : Nat) (q : Seq) : Seq :=
  if q.isrCount = 32 ∧ q.rxRoom depth then { q with rxf := q.rxf ++ [q.isr], isrCount := 0 } else q

/-- `lanes` samples shifted in at the low end (R155). -/
def Seq.shiftIn (lanes : Nat) (sample : Word) (q : Seq) : Seq :=
  { q with isr := (q.isr <<< lanes) ||| sample, isrCount := q.isrCount + lanes, bitsLeft := q.bitsLeft - lanes }

/-- RECV_SHIFT in one CLK period: a full word that still waits for room goes first; while it cannot, the sequencer stalls
and the period's samples are lost (R28, R155; log 14). -/
def Seq.shiftTick (depth lanes : Nat) (sample : Word) (q : Seq) : Seq :=
  let q := q.autopush depth
  if q.isrCount = 32 ∨ q.bitsLeft = 0 then q else (q.shiftIn lanes sample).autopush depth

/-- The partial word left-aligned, its low bits taken from a draw, and pushed (R157). -/
def Seq.padWith (depth : Nat) (draw : Word) (q : Seq) : Seq :=
  Seq.autopush depth { q with isr := (q.isr <<< (32 - q.isrCount)) ||| (draw >>> q.isrCount), isrCount := 32 }

/-- There is a partial word to pad (R157). -/
def Seq.partialWord (q : Seq) : Bool := decide (0 < q.isrCount) && decide (q.isrCount < 32)

/-! ## CSEQ in one CLK period -/

/-- RECV on CSEQ (R154): the start bit is counted and not shifted in. -/
def Seq.cmdRecvTick (depth : Nat) (level : Bool) (q : Seq) : Seq :=
  match q.mode with
  | .recvHunt =>
    if level then q
    else
      let q := { q with mode := .recvShift, bitsLeft := q.bitsLeft - 1 }
      if q.bitsLeft = 0 then q.nextProgram else q
  | .recvShift =>
    let q := q.shiftTick depth 1 (if level then 1#32 else 0#32)
    if q.bitsLeft = 0 ∧ q.isrCount ≠ 32 then q.nextProgram else q
  | _ => q

/-- CSEQ in one CLK period (R152, R154). -/
def cseqTick (t : Tick) (s : State) : State :=
  match s.cseq.mode with
  | .unprogrammed | .wait => s
  | .send => (s.setCseq s.cseq.sendTick).drive (.cmd s.cseq.sendTick.level)
  | .recvHunt | .recvShift => s.setCseq (s.cseq.cmdRecvTick s.cfg.fifoDepth t.cmd)

/-! ## DSEQ in one CLK period -/

/-- What DSEQ shifts in per period: DAT0 alone, or DAT3 ++ DAT2 ++ DAT1 ++ DAT0 (R155). -/
def laneSample (w : Width) (dat : BitVec 4) : Word :=
  match w with
  | .one => if dat.getLsbD 0 then 1#32 else 0#32
  | .four => dat.setWidth 32

/-- The period of a data receive program's last bit also pads and pushes a partial word, which the sequencer does itself
(R156). -/
def dseqPad (s : State) : State :=
  if s.dseq.bitsLeft = 0 ∧ s.dseq.partialWord then s.drawn.setDseq (s.dseq.padWith s.cfg.fifoDepth s.drawValue) else s

/-- The period after the last bit, that of the end bit (R119, R156): no line is sampled, and the sequencer goes to the next
program, which hunts from the period after it. A word that still waits for room goes first (log 14). -/
def dseqEnd (s : State) : State :=
  let q := s.dseq.autopush s.cfg.fifoDepth
  s.setDseq (if q.isrCount = 0 then q.nextProgram else q)

/-- DSEQ in one CLK period (R152, R156). It hunts on DAT0 and sends on DAT0 alone (R166). -/
def dseqTick (t : Tick) (s : State) : State :=
  match s.dseq.mode with
  | .unprogrammed | .wait => s
  | .send => (s.setDseq s.dseq.sendTick).drive (.dat0 s.dseq.sendTick.level)
  | .recvHunt => if t.dat.getLsbD 0 then s else s.setDseq { s.dseq with mode := .recvShift }
  | .recvShift =>
    if s.dseq.bitsLeft = 0 then dseqEnd s
    else dseqPad (s.setDseq (s.dseq.shiftTick s.cfg.fifoDepth s.lanes.lines (laneSample s.lanes t.dat)))

/-! ## SEQ_PAD on CSEQ, and KSEQ -/

/-- SEQ_PAD(CSEQ) (R157). -/
def cseqPad (s : State) : State :=
  if s.cseq.partialWord then s.drawn.setCseq (s.cseq.padWith s.cfg.fifoDepth s.drawValue) else s

/-- KSEQ_SET_CLKDIV (R163). -/
def kseqSetClkdiv (d : Nat) (s : State) : State := { s with kseq := { s.kseq with clkdiv := d } }

/-- KSEQ_START (R163). -/
def kseqStart (s : State) : State := { s with kseq := { s.kseq with running := true } }

/-- KSEQ's own step (spec/00_scope.md R4 (e), R163): once it runs it makes a CLK period, in which what it clocks advances. -/
def kseqStep (clocked : State → State) (s : State) : State := if s.kseq.running then clocked s else s

end Sys2Proof.Machine
end

