-- ==== Sys2Proof/Machine/Dma.lean ====
section
/-! DEFINITION. The DMA channels (spec/42_dma.md) and one CLK period of the whole block. -/

namespace Sys2Proof.Machine

/-! ## The engine's primitives -/

/-- DMA0_CONFIG (R171): the eight fields, `busy` left 0. -/
def Dma0.config (d : Dma0) (src dst : DmaEnd) (count : Word) (incSrc incDst bswap : Bool) (pace : Pace) (chain : Chain) :
    Dma0 :=
  { d with src, dst, count, incSrc, incDst, bswap, pace, chain, busy := false }

/-- DMA0_TRIGGER (R171). -/
def Dma0.trigger (d : Dma0) : Dma0 := if d.count = 0#32 then d else { d with busy := true }

/-- DMA_ABORT(DMA0) (R179). -/
def Dma0.abort (d : Dma0) : Dma0 := { d with busy := false, count := 0#32 }

/-- DMA_ABORT(DMA1) (R179). -/
def Dma1.abort (d : Dma1) : Dma1 := { d with busy := false }

/-! ## Steps of the channels -/

/-- One DMA1 trigger (R176): one descriptor is read, `dst` and `count` of DMA0 are written, and a non-zero count starts
DMA0 while a zero count ends the chain. -/
def dma1Trigger (s : State) : State :=
  let d := s.mem.readWord s.dma1.rd
  let c := s.mem.readWord (s.dma1.rd + 4#32)
  let dma0 := { s.dma0 with dst := .mem d, count := c }
  let rd := s.dma1.rd + 8#32
  if c = 0#32 then { s with dma0 := dma0, dma1 := { s.dma1 with rd := rd, busy := false } }
  else { s with dma0 := { dma0 with busy := true }, dma1 := { s.dma1 with rd := rd } }

/-- DMA1_START (R177). -/
def dma1Start (table : Word) (s : State) : State :=
  dma1Trigger { s with dma1 := { s.dma1 with rd := table, busy := true } }

/-- DMA0 can make a step: it is busy and the FIFO that paces it is ready (R172, R174). -/
def dma0Ready (s : State) : Bool :=
  s.dma0.busy &&
    match s.dma0.pace with
    | .cseqRx => !s.cseq.rxf.isEmpty
    | .dseqRx => !s.dseq.rxf.isEmpty
    | .dseqTx => s.dseq.txRoom s.cfg.fifoDepth

/-- The word DMA0 reads (R172). -/
def dma0Word (s : State) : Word :=
  match s.dma0.src with
  | .mem a => s.mem.readWord a
  | .cseqRxf => s.cseq.rxf.headD 0#32
  | .dseqRxf => s.dseq.rxf.headD 0#32
  | .dseqTxf => 0#32

/-- The read end of a step: a FIFO loses the word (R77, R172). -/
def dma0Pop (s : State) : State :=
  match s.dma0.src with
  | .mem _ => s
  | .cseqRxf => s.setCseq { s.cseq with rxf := s.cseq.rxf.tail }
  | .dseqRxf => s.setDseq { s.dseq with rxf := s.dseq.rxf.tail }
  | .dseqTxf => s

/-- The write end of a step (R172). -/
def dma0Put (w : Word) (s : State) : State :=
  match s.dma0.dst with
  | .mem a => s.setMem (s.mem.writeWord a w)
  | .dseqTxf => s.setDseq (s.dseq.pushTx w)
  | .cseqRxf | .dseqRxf => s

/-- An end of DMA0 after a word: the address advances by 4 if its increment flag is set (R172). -/
def DmaEnd.advance (inc : Bool) (e : DmaEnd) : DmaEnd :=
  match e with
  | .mem a => .mem (if inc then a + 4#32 else a)
  | e => e

/-- DMA0's own registers after a word (R172). -/
def Dma0.moved (d : Dma0) : Dma0 :=
  { d with src := d.src.advance d.incSrc, dst := d.dst.advance d.incDst, count := d.count - 1#32,
           busy := d.busy && decide (d.count ≠ 1#32) }

/-- The word as DMA0 writes it: swapped if `bswap` is set (R172). -/
def dma0Value (s : State) : Word := if s.dma0.bswap then bswap32 (dma0Word s) else dma0Word s

/-- One word moved by DMA0 (R172). -/
def dma0Move (s : State) : State := (dma0Put (dma0Value s) (dma0Pop s)).setDma0 s.dma0.moved

/-- One DMA0 step (R172): a word moves; the last word of the transfer ends it and, in a chain, triggers DMA1. -/
def dma0Step (s : State) : State :=
  if (dma0Move s).dma0.count = 0#32 ∧ (dma0Move s).dma0.chain = .dma1 then dma1Trigger (dma0Move s) else dma0Move s

/-- At most `n` DMA0 steps, as long as one is possible. -/
def dma0Steps : Nat → State → State
  | 0, s => s
  | n + 1, s => if dma0Ready s then dma0Steps n (dma0Step s) else s

/-- How many steps the pacing FIFO allows at once. -/
def dma0Room (s : State) : Nat :=
  match s.dma0.pace with
  | .cseqRx => s.cseq.rxf.length
  | .dseqRx => s.dseq.rxf.length
  | .dseqTx => s.cfg.fifoDepth - s.dseq.txf.length

/-- DMA0 makes every step it can: it keeps up (spec/70_reset_and_hazards.md R316 (a); log 15). -/
def dmaRun (s : State) : State := if dma0Ready s then dma0Steps (dma0Room s) s else s

/-! ## One CLK period -/

/-- One CLK period of the block, with the levels the card gives the lines: both sequencers make a step if KSEQ does
(R163), then DMA0 catches up. -/
def clkTick (t : Tick) (s : State) : State := dmaRun (kseqStep (fun s => dseqTick t (cseqTick t s)) s)

/-- A CLK period in which the card drives nothing: every line reads 1 (R164). -/
def Tick.quiet : Tick := ⟨true, 0xF#4⟩

/-- Several CLK periods. -/
def clkTicks : List Tick → State → State
  | [], s => s
  | t :: ts, s => clkTicks ts (clkTick t s)

end Sys2Proof.Machine
end

