-- ==== Sys2Proof/Machine/Command.lean ====
section
/-! DEFINITION. The command/response engine (spec/43_command_response.md): BUILD_FRAME, SD_COMMAND with its phases,
RESP_FIX, CHECK_RES_STATUS, WAIT_NOT_BUSY, as operations the meanings share. -/

namespace Sys2Proof.Machine

/-! ## BUILD_FRAME -/

/-- Builds the frame in the transient frame buffer (R190, R31); the CRC register is used on the way (R34). -/
def buildFrame (cmd : BitVec 6) (param : Word) (s : State) : State :=
  { s with mem := s.mem.writeBytes s.cfg.frameAddr (frameBytes cmd param), crc7Reg := crc7Reg (frameHead cmd param) }

/-! ## RESP_FIX -/

/-- The reassembled words: each is shifted right by one, with the last bit of the raw word before it on top (R196). -/
def fixWords : Word → List Word → List Word
  | _, [] => []
  | before, w :: ws => ((w >>> 1) ||| (before <<< 31)) :: fixWords w ws

/-- RESP_FIX on memory (R196): the first word has no word before it. -/
def respFixMem (m : Memory) (a : Word) (n : Nat) : Memory :=
  m.writeWords a ((fixWords 0#32 (m.readWords a n)).map bswap32)

/-! ## The engine's own response buffer -/

/-- The bytes of the last response captured in the engine's local buffer (R32, D49). -/
def State.response (s : State) (n : Nat) : List Byte := s.mem.readBytes s.cfg.respAddr n

/-- CHECK_RES_STATUS on the response at an address (R200): it reads bytes 1 to 4. -/
def checkAt (s : State) (a : Word) : Bool := statusOk (payload (s.mem.readBytes a 5))

/-! ## SD_COMMAND, phase by phase (R191) -/

/-- CMD_BUILD. -/
def cmdBuild (cmd : BitVec 6) (param : Word) (s : State) : State := buildFrame cmd param (s.setPhase .cmdBuild)

/-- CMD_ARM: both programs armed, DMA0 configured and triggered, both frame words pushed (R192; log 7). -/
def cmdArm (cmd : BitVec 6) (param : Word) (res : ResSize) (dst : Word) (s : State) : State :=
  let s := (s.setPhase .cmdArm).setCseq (s.cseq.arm (.send cmdFrameBits))
  let s :=
    match res with
    | .none => s
    | _ =>
      (s.setCseq (s.cseq.arm (.recv res.bits))).setDma0
        (s.dma0.config .cseqRxf (.mem dst) (BitVec.ofNat 32 res.words) false true false .cseqRx .none).trigger
  s.setCseq ((s.cseq.pushTx (frameWord0 cmd param)).pushTx (frameWord1 cmd param))

/-- CMD_START. -/
def cmdStart (s : State) : State := (s.setPhase .cmdStart).setCseq s.cseq.start

/-- The CLK periods in which the frame goes out (R207): 48, the card's levels first, undriven lines after them. -/
def Turn.frameTicks (t : Turn) : List Tick := (t.lead ++ List.replicate cmdFrameBits Tick.quiet).take cmdFrameBits

/-- The CLK periods of a wait in which at most `n` more bits can arrive once the card is silent: the card's, then, unless
the deadline passes, undriven lines (R164, R193). -/
def Turn.waitTicks (t : Turn) (n : Nat) : List Tick :=
  if t.expired then t.ticks else t.ticks ++ List.replicate n Tick.quiet

/-- The deadline passes before the wait's first poll: timeout is always available, even where what is awaited holds already
(spec/60_exceptions.md R283, U30). -/
def Turn.overdueAtOnce (t : Turn) : Bool := t.expired && t.ticks.isEmpty

/-- "await (CSEQ has shifted in the last bit)", over the CLK periods until the deadline (R193, R283): whether it
happened. DESIGN CHOICE: the engine acts at once, and no CLK period passes between this await and the next one, however
much the card would have sent in the Turn's further periods (log 35). -/
def awaitCapture : List Tick → State → Bool × State
  | [], s => (s.cseq.idle, s)
  | t :: ts, s => if s.cseq.idle then (true, s) else awaitCapture ts (clkTick t s)

/-- The abort path (R195), the bytes it leaves unspecified (R80), and the failure. -/
def cmdAbort (res : ResSize) (dst : Word) (s : State) : State :=
  let s := (s.setPhase .cmdAbort).setDma0 s.dma0.abort
  let s := s.setCseq s.cseq.clearRx.forceWait
  (s.scramble dst res.words).raise .cmdTimeout

/-- CMD_WAIT with a response (R193): the frame goes out, the response is captured, the partial word padded, the last
words moved. -/
def cmdCapture (res : ResSize) (s : State) : Bool × State :=
  let (t, s) := cardStep s
  let s := clkTicks t.frameTicks s
  let (captured, s) := awaitCapture (t.waitTicks res.bits) s
  if captured then
    let s := dmaRun (cseqPad s)
    (!s.dma0.busy, s)
  else (false, s)

/-- The decoder's bit of state after a frame: it was CMD55 and its response passed (spec/30_encoding.md R111; log 23). -/
def State.notePrefix (s : State) (accepted : Bool) : State := { s with appPrefix := accepted }

/-- SD_COMMAND (R191). -/
def sdCommand (cmd : BitVec 6) (param : Word) (res : ResSize) (dst : Word) (s : State) : Bool × State :=
  let s := (cmdStart (cmdArm cmd param res dst (cmdBuild cmd param s))).setPhase .cmdWait
  match res with
  | .none => (true, (clkTicks (List.replicate cmdFrameBits Tick.quiet) s).notePrefix false)
  | _ =>
    let (captured, s) := cmdCapture res s
    if captured then
      let s := (s.setPhase .cmdFix).setMem (respFixMem s.mem dst res.words)
      (true, s.notePrefix (decide (cmd = 55#6) && checkAt s dst))
    else (false, (cmdAbort res dst s).notePrefix false)

/-- A command of the engine's own, with a 48-bit response into its local buffer (D49). -/
def ownCommand (cmd : BitVec 6) (param : Word) (s : State) : Bool × State :=
  sdCommand cmd param .short s.cfg.respAddr s

/-- A command of the engine's own whose response is a card status, which is checked (R201). -/
def checkedCommand (cmd : BitVec 6) (param : Word) (s : State) : Bool × State :=
  let (ok, s) := ownCommand cmd param s
  if ok then
    if checkAt s s.cfg.respAddr then (true, s) else (false, s.raise .statusError)
  else (false, s)

/-! ## WAIT_NOT_BUSY -/

/-- How the poll of the command line ends for now. -/
inductive Poll where
  | high
  | expired
  | low
deriving DecidableEq, Repr

/-- The polls of a WAIT_NOT_BUSY, one Turn of the card (R203, R204): it ends at the first high level; else, with
BUSY_TIMEOUT set, when the deadline passes; else the line is undriven and reads 1 (R164), unless the card holds it low. A
card that does so for ever meets the deadline where there is one, and hangs the wait where there is none. -/
def pollTurn (bounded : Bool) (t : Turn) : Poll :=
  if t.ticks.any (·.cmd) then .high
  else if bounded && t.expired then .expired
  else if t.holds then (if bounded then .expired else .low)
  else .high

/-- WAIT_NOT_BUSY (R203 to R205), at the waiting step `label` of its caller: true when the line was high, false on
BUSY_TIMEOUT. While the card holds the line low and nothing bounds the wait, the engine keeps the pin and the card its
Turn: the next step polls again (log 21). -/
def waitNotBusy (label : Phase) (s : State) : Run Bool :=
  let s := (s.setPhase label).setCseq { s.cseq with owner := .engine }
  let (t, u) := cardStep s
  match pollTurn s.cfg.busyTimeout.isSome t with
  | .high => .done true (u.setCseq { u.cseq with owner := .seq })
  | .expired => .done false ((u.setCseq { u.cseq with owner := .seq }).raise .busyTimeout)
  | .low => .waiting [.polling] s

end Sys2Proof.Machine
end

