-- ==== Sys2Proof/Machine/Block.lean ====
section
/-! DEFINITION. The block transfer engine (spec/44_block_transfer.md): READ_BLOCK and WRITE_BLOCK with their phases, as
operations the meanings share. -/

namespace Sys2Proof.Machine

/-! ## READ_BLOCK: table and cleanup -/

/-- The pairs of the chain-descriptor table for the blocks from `b` on, sentinel excluded (spec/30_encoding.md R124). -/
def tablePairs (o : ReadOp) : Nat → Word → List Word
  | 0, _ => []
  | n + 1, buffer =>
    [buffer, BitVec.ofNat 32 o.dataWords, o.crcDst, BitVec.ofNat 32 o.width.crcWords] ++
      tablePairs o n (buffer + BitVec.ofNat 32 o.blockLen)

/-- RD_TABLE (R210, R213): the whole table, its sentinel with any pointer. -/
def rdTable (o : ReadOp) (s : State) : State :=
  let any := s.drawValue
  let s := s.drawn
  (s.setPhase .rdTable).setMem (s.mem.writeWords s.cfg.tableAddr (tablePairs o o.count o.buffer ++ [any, 0#32]))

/-- RD_ARM (R212): DSEQ hunts before the command is sent. -/
def rdArm (o : ReadOp) (s : State) : State :=
  (s.setPhase .rdArm).setDseq (s.dseq.arm (.recv o.bits)).start

/-- The cleanup of a failed read (R219). -/
def readCleanup (s : State) : State :=
  ((s.setDma0 s.dma0.abort).setDma1 s.dma1.abort).setDseq s.dseq.clearRx.forceWait

/-- The write extent of a failed read, data buffer and CRC destination, holds any values (spec/20_memory.md R80, U22). -/
def readLost (o : ReadOp) (s : State) : State :=
  (s.scramble o.buffer (o.count * o.dataWords)).scramble o.crcDst o.width.crcWords

/-- A failure before the data are complete: cleanup, the unspecified write extent, the cause (R219). -/
def readFail (o : ReadOp) (c : Cause) (s : State) : State := (readLost o (readCleanup s)).raise c

/-! ## READ_BLOCK: checking the captured CRC (R148) -/

/-- The bits one line carried of a byte sequence sent on four lines: bit `lane` of each nibble, high nibble first
(spec/30_encoding.md R120). -/
def laneBits (lane : Nat) (bs : List Byte) : List Bool :=
  bs.flatMap fun b => [b.getLsbD (4 + lane), b.getLsbD lane]

/-- The CRC16 of each line of a four-line block, interleaved as it is captured (R120): per line, the bits of its CRC are
the line's bits of the eight captured bytes. -/
def fourLineCrcOk (data crc : List Byte) : Bool :=
  [0, 1, 2, 3].all fun lane =>
    laneBits lane crc == bytesBits (let c := crc16Serial (laneBits lane data); [c.extractLsb' 8 8, c.extractLsb' 0 8])

/-- Whether the last block's captured CRC agrees with its data (R148, D47). DESIGN CHOICE: the comparison leaves
`crc16_reg` as it was; R148 does not say that it goes through the register (log 19). -/
def lastCrcOk (o : ReadOp) (s : State) : Bool :=
  let data := s.mem.readBytes (o.buffer + BitVec.ofNat 32 ((o.count - 1) * o.blockLen)) o.blockLen
  match o.width with
  | .one =>
    let crc := s.mem.readBytes o.crcDst 2
    crc16 data == (crc.getD 0 0#8 ++ crc.getD 1 0#8)
  | .four => fourLineCrcOk data (s.mem.readBytes o.crcDst 8)

/-! ## READ_BLOCK: the data phase -/

/-- "feeds the sequencer one more receive-program per remaining block" as soon as DSEQ has room (R215). -/
def feedOne (o : ReadOp) (fed : Nat) (s : State) : Nat × State :=
  if fed + 1 < o.count ∧ s.dseq.armed = [] then (fed + 1, s.setDseq (s.dseq.arm (.recv o.bits))) else (fed, s)

/-- The label of the data phase: RD_STREAM while programs are left to feed, then RD_WAIT (R210). -/
def dataPhase (o : ReadOp) (fed : Nat) : Phase := if fed + 1 < o.count then .rdStream else .rdWait

/-- The data phase over the CLK periods until its deadline: feeding, and "await (DMA0.busy = 0 and DMA1.busy = 0)"
(R215, R217; log 6). -/
def awaitBlocks (o : ReadOp) : List Tick → Nat → State → Bool × Nat × State
  | [], fed, s =>
    let (fed, s) := feedOne o fed s
    (s.dmaIdle, fed, s.setPhase (dataPhase o fed))
  | t :: ts, fed, s =>
    let (fed, s) := feedOne o fed s
    if s.dmaIdle then (true, fed, s.setPhase .rdWait) else awaitBlocks o ts fed (clkTick t s)

/-- The end of READ_BLOCK after its data, and after CMD12's busy wait if there was one: CMD12's status (R218), and, with
VERIFY_READ_CRC, the last block's CRC (R148; log 18). A failure leaves any values (R80, U22; log 13). -/
def readEnd (o : ReadOp) (stopOk : Bool) (s : State) : Bool × State :=
  if !stopOk then (false, (readLost o s).raise .statusError)
  else if s.cfg.verifyReadCrc && !lastCrcOk o s then (false, (readLost o s).raise .dataCrc)
  else (true, s)

/-- RD_STOP's busy wait has ended (R218): high, or a BUSY_TIMEOUT already raised. -/
def readStopped (o : ReadOp) (stopOk high : Bool) (s : State) : Bool × State :=
  if high then readEnd o stopOk s else (false, readLost o s)

/-- RD_STOP (R218): only CMD18 is stopped; WAIT_NOT_BUSY runs whenever the card answered. A CMD12 that is not answered
fails the call although the data landed (spec/47_wire_commands.md R268), and leaves any values (R80, U22; log 13). -/
def rdStop (o : ReadOp) (s : State) : Run Bool :=
  let s := s.setPhase .rdStop
  if o.cmd = 18#6 then
    let (ok, s) := ownCommand 12#6 0#32 s
    if ok then
      let st := checkAt s s.cfg.respAddr
      (waitNotBusy .rdStop s).andThen (.readStop o st) fun high s =>
        let (ok, s) := readStopped o st high s
        .done ok s
    else .done false (readLost o s)
  else
    let (ok, s) := readEnd o true s
    .done ok s

/-- RD_STREAM from the point where the chain runs, RD_WAIT and RD_STOP (R215, R217): one Turn of the card. A bounded wait
that does not end in it times out, and so does one whose deadline has passed when it is first polled, be the chain done or
not (R283, U30); an unbounded one goes on with the next Turn, and without one the engine waits. -/
def readData (o : ReadOp) : List Turn → Nat → State → Run Bool
  | [], fed, s =>
    let (ok, fed, s) := awaitBlocks o (List.replicate o.bits Tick.quiet) fed s
    if ok then rdStop o (s.setDseq s.dseq.forceWait)
    else if s.cfg.readDataBounded then .done false (readFail o .dataTimeout s)
    else .waiting [.readData o fed] s
  | t :: ts, fed, s =>
    let ticks := if s.cfg.readDataBounded then t.waitTicks o.bits else t.ticks
    let (ok, fed, s) := awaitBlocks o ticks fed { s with card := ts }
    if ok && !(s.cfg.readDataBounded && t.overdueAtOnce) then rdStop o (s.setDseq s.dseq.forceWait)
    else if s.cfg.readDataBounded then .done false (readFail o .dataTimeout s)
    else readData o ts fed s

/-- RD_STREAM (R210): DMA0 configured with any destination, the chain started, the words that came early moved. -/
def rdStream (o : ReadOp) (s : State) : Run Bool :=
  let any := s.drawValue
  let s := s.drawn.setPhase .rdStream
  let s := s.setDma0 (s.dma0.config .dseqRxf (.mem any) 0#32 false true true .dseqRx .dma1)
  let s := dmaRun (dma1Start s.cfg.tableAddr s)
  readData o s.card 0 s

/-- RD_CMD (R210). -/
def rdCmd (o : ReadOp) (s : State) : Run Bool :=
  let (ok, s) := ownCommand o.cmd o.addr (s.setPhase .rdCmd)
  if ok then
    if checkAt s s.cfg.respAddr then rdStream o s else .done false (readFail o .statusError s)
  else .done false (readFail o .cmdTimeout s)

/-- READ_BLOCK (R210) on operands of its domain: the chain limit is the first test (R211), and `data_width` is read once
(R228). A null `crc` stands for the engine's side buffer. -/
def readBlock (cmd : BitVec 6) (addr buffer : Word) (count : Nat) (crc : Word) (s : State) : Run Bool :=
  let s := s.setPhase .rdCheck
  if sdMaxReadBlocks < count then .done false (s.raise .chainLimit)
  else
    let o : ReadOp := ⟨cmd, addr, buffer, count, if crc = 0#32 then s.cfg.crcBufAddr else crc, s.session.dataWidth⟩
    rdCmd o (rdArm o (rdTable o s))

/-! ## WRITE_BLOCK -/

/-- The cleanup of a failed write (R225). -/
def writeCleanup (s : State) : State := s.setDseq s.dseq.forceWait.clearTx

/-- The last word of the write stream: the CRC16, then 16 ones (R222). -/
def crcWord (c : BitVec 16) : Word := c ++ 0xFFFF#16

/-- "await DMA0.busy = 0" of a write, at most `n` CLK periods (it always ends: R223). -/
def awaitDma0 : Nat → State → State
  | 0, s => s
  | n + 1, s => if s.dma0.busy then awaitDma0 n (clkTick Tick.quiet s) else s

/-- The engine's push into `DSEQ.txf`, which stalls while that is full (R28), at most `n` CLK periods
(a running DSEQ takes a word within 32). -/
def pushDseq (w : Word) : Nat → State → State
  | 0, s => s.setDseq (s.dseq.pushTx w)
  | n + 1, s =>
    if s.dseq.txRoom s.cfg.fifoDepth then s.setDseq (s.dseq.pushTx w) else pushDseq w n (clkTick Tick.quiet s)

/-- SEQ_WAIT_IDLE(DSEQ) (spec/41_sequencers.md R162), at most `n` CLK periods (a send always ends: R167). -/
def awaitDseqIdle : Nat → State → State
  | 0, s => s
  | n + 1, s => if s.dseq.idle then s else awaitDseqIdle n (clkTick Tick.quiet s)

/-- WR_STREAM (R220, R222): gap word, start, 128 words by DMA0, CRC word. -/
def wrStream (buffer : Word) (c : BitVec 16) (s : State) : State :=
  let s := (s.setPhase .wrStream).setDseq (s.dseq.pushTx startGapWord).start
  let s := s.setDma0 (s.dma0.config (.mem buffer) .dseqTxf 128#32 true false true .dseqTx .none).trigger
  pushDseq (crcWord c) 33 (awaitDma0 writeStreamBits (dmaRun s))

/-- WR_WAIT (R224): the stream has gone out, then the busy wait, and true whatever the card thought of the block. -/
def wrWait (s : State) : Run Bool :=
  waitNotBusy .wrWait (awaitDseqIdle (writeStreamBits + 1) (s.setPhase .wrWait)) |>.andThen .writeWait .done

/-- WRITE_BLOCK (R220) on operands of its domain. -/
def writeBlock (addr buffer : Word) (s : State) : Run Bool :=
  let c := crc16 (s.mem.readBytes buffer blockLenBytes)
  let s := { s.setPhase .wrCrc with crc16Reg := c }
  let s := (s.setPhase .wrArm).setDseq (s.dseq.arm (.send writeStreamBits))
  let (ok, s) := checkedCommand 24#6 addr (s.setPhase .wrCmd)
  if ok then wrWait (wrStream buffer c s) else .done false (writeCleanup s)

end Sys2Proof.Machine
end

