-- ==== Sys2Proof/Machine/Session.lean ====
section
/-! DEFINITION. Bus-width negotiation (spec/45_bus_width.md), the wire commands' own processing
(spec/47_wire_commands.md), session initialisation and the block-device loops (spec/46_session_host.md), as operations
the meanings share. -/

namespace Sys2Proof.Machine

/-! ## PARSE_CSD -/

/-- Bits `[lo+n-1 : lo]` of byte `i` of a response, as a number. -/
def respBits (r : List Byte) (i lo n : Nat) : Nat := ((r.getD i 0#8).toNat >>> lo) % 2 ^ n

/-- `CSD_STRUCTURE`, `r[1][7:6]` (spec/30_encoding.md R126). -/
def csdStructure (r : List Byte) : Nat := respBits r 1 6 2

/-- The capacity in blocks of a version 1 CSD (R244, R125). -/
def csdV1Blocks (r : List Byte) : Nat :=
  let readBlLen := respBits r 6 0 4
  let cSize := respBits r 7 0 2 * 1024 + respBits r 8 0 8 * 4 + respBits r 9 6 2
  let cSizeMult := respBits r 10 0 2 * 2 + respBits r 11 7 1
  (cSize + 1) * 2 ^ (cSizeMult + 2) * 2 ^ readBlLen / 512

/-- The capacity in blocks of a version 2 CSD (R244, R126). -/
def csdV2Blocks (r : List Byte) : Nat :=
  (respBits r 8 0 6 * 65536 + respBits r 9 0 8 * 256 + respBits r 10 0 8 + 1) * 1024

/-- The block count as a u32: a count that does not fit is a draw (R244, R246 (b)). -/
def blocksResult (blocks : Nat) (s : State) : Run Word :=
  if blocks < 2 ^ 32 then .done (BitVec.ofNat 32 blocks) s else .done s.drawValue s.drawn

/-- PARSE_CSD (R244) on the response at an address; structure values 2 and 3 are refused (R246 (a)). -/
def parseCsd (a : Word) (s : State) : Run Word :=
  let r := s.mem.readBytes a 17
  if csdStructure r = 0 then blocksResult (csdV1Blocks r) s
  else if csdStructure r = 1 then blocksResult (csdV2Blocks r) s
  else .refused .csdStructure

/-! ## Wire commands (R260 to R273): what the engine does with each -/

/-- CMD0 (R260, R237): no response, cannot fail. -/
def goIdle (s : State) : Bool × State := sdCommand 0#6 0#32 .none 0#32 s

/-- CMD2 (R261): the CID is captured and not used. -/
def allSendCid (s : State) : Bool × State := sdCommand 2#6 0#32 .long s.cfg.respAddr s

/-- CMD3 (R262, R243): `card_rca <- r[1] ++ r[2]`. -/
def sendRelativeAddr (s : State) : Bool × State :=
  let (ok, s) := ownCommand 3#6 0#32 s
  if ok then (true, { s with session := { s.session with cardRca := responseRca (s.response 6) } }) else (false, s)

/-- CMD6 (R263, R248): the switch-status read into the local buffer `sw`. -/
def switchRead (arg : Word) (s : State) : Run Bool := readBlock 6#6 arg s.cfg.swAddr 1 0#32 s

/-- Whether the status byte says "group 1 function 1, high speed" (spec/30_encoding.md R127, R248). -/
def highSpeedSeen (s : State) : Bool :=
  s.mem.read (s.cfg.swAddr + BitVec.ofNat 32 s.cfg.switchStatusByte.val).toNat == 0x01#8

/-- ACMD6 (R264): on success `data_width` and `DSEQ.lanes` change together (R232). -/
def setBusWidth (wide : Bool) (s : State) : Bool × State :=
  let (ok, s) := checkedCommand 6#6 (widthArg wide) s
  if ok then (true, s.setWidth (if wide then .four else .one)) else (false, s)

/-- The end of an R1b command whose busy wait has ended: high, or a BUSY_TIMEOUT already raised. -/
def busyEnded (ok high : Bool) (s : State) : Bool × State :=
  if high then (if ok then (true, s) else (false, s.raise .statusError)) else (false, s)

/-- CMD7 (R265, R247): checked, then the busy wait, at the caller's waiting step. -/
def selectCard (rca : BitVec 16) (label : Phase) (frame : Frame) (s : State) : Run Bool :=
  let (ok, s) := checkedCommand 7#6 (rcaArg rca) s
  if ok then (waitNotBusy label s).andThen frame .done else .done false s

/-- CMD8 (R266, R239): the content test is on the R7 alone. -/
def sendIfCond (s : State) : Bool × State :=
  let (ok, s) := ownCommand 8#6 ifCondPattern s
  if ok then
    if ifCondOk (s.response 6) then (true, s) else (false, s.raise .ifCond)
  else (false, s)

/-- CMD9 (R267, R245): `card_size_blocks <- PARSE_CSD(r)`. -/
def sendCsd (rca : BitVec 16) (s : State) : Run Bool :=
  let (ok, s) := sdCommand 9#6 (rcaArg rca) .long s.cfg.respAddr s
  if ok then
    match parseCsd s.cfg.respAddr s with
    | .done n s => .done true { s with session := { s.session with cardSizeBlocks := n } }
    | .waiting fs s => .waiting fs s
    | .refused r => .refused r
  else .done false s

/-- CMD12 (R268, R218): the busy wait comes first, whatever the status; then the status decides. -/
def stopTransmission (s : State) : Run Bool :=
  let (ok, s) := ownCommand 12#6 0#32 s
  if ok then
    let st := checkAt s s.cfg.respAddr
    (waitNotBusy .notBusy s).andThen (.wireBusy st) fun high s =>
      let (ok, s) := busyEnded st high s
      .done ok s
  else .done false s

/-- ACMD41 (R272, R240, R241): true when the card is ready, and then `is_hcs <- OCR[30]`. Its R3 is not status-checked
(R106). DESIGN CHOICE: an argument with bit 30 clear, which R116 never has, is sent as asked (log 29). -/
def sendOpCond (arg : Word) (s : State) : Bool × State :=
  let (ok, s) := ownCommand 41#6 arg s
  if ok then
    let ocr := payload (s.response 6)
    if ocrReady ocr then (true, { s with session := { s.session with isHcs := ocrHcs ocr } }) else (false, s)
  else (false, s)

/-- CMD55 (R273). -/
def appCmd (rca : BitVec 16) (s : State) : Bool × State := checkedCommand 55#6 (rcaArg rca) s

/-! ## SET_WIDTH -/

/-- SET_WIDTH (R230): nothing when the width is already set (R231), and silent on failure. -/
def setWidthOp (w : Width) (s : State) : State :=
  if w = s.session.dataWidth then s
  else
    let (ok, s) := appCmd s.session.cardRca s
    if ok then (setBusWidth (decide (w = .four)) s).2 else s

/-! ## STORAGE_INIT -/

/-- INIT_1 (R235, R236): the one-time programming, and the session's start. -/
def init1 (s : State) : State :=
  let s := { s.setPhase .init1 with sessionValid := false }
  let s :=
    if s.ioInitialised then s
    else
      { s with cseq := s.cseq.program, dseq := s.dseq.program, dma0 := { s.dma0 with claimed := true },
               dma1 := { s.dma1 with claimed := true }, ioInitialised := true }
  let s := s.setWidth .one
  { s with session := { s.session with cardRca := 0#16 } }

/-- INIT_2 (R236). -/
def init2 (s : State) : State := kseqStart (kseqSetClkdiv s.cfg.clkdivInit (s.setPhase .init2))

/-- The divider lookup of INIT_12 (R248). -/
def clkdivLookup (c : Config) (hs : Bool) : Nat :=
  if c.overclock then (if hs then c.clkdivHighspeedOc else c.clkdivDefaultOc)
  else (if hs then c.clkdivHighspeed else c.clkdivDefault)

/-- INIT_12 (R248, R256). -/
def init12 (hs : Bool) (s : State) : Run OpResult :=
  .done (.bool true) { kseqSetClkdiv (clkdivLookup s.cfg hs) (s.setPhase .init12) with sessionValid := true }

/-- INIT_11's verdict on the switch-status read (R248): a failed read is absorbed. -/
def init11End (ok : Bool) (s : State) : Run OpResult := init12 (ok && highSpeedSeen s) s

/-- INIT_11 (R248). -/
def init11 (s : State) : Run OpResult :=
  (switchRead s.cfg.cmd6Arg (s.setPhase .init11)).andThen .initSwitch init11End

/-- INIT_10 after CMD7 and its busy wait. -/
def init10End (ok : Bool) (s : State) : Run OpResult := if ok then init11 s else .done (.bool false) s

/-- INIT_10 (R247). -/
def init10 (s : State) : Run OpResult :=
  match selectCard s.session.cardRca .init10 .initSelect (s.setPhase .init10) with
  | .done ok s => init10End ok s
  | .waiting fs s => .waiting fs s
  | .refused r => .refused r

/-- INIT_9 (R245). -/
def init9 (s : State) : Run OpResult :=
  match sendCsd s.session.cardRca (s.setPhase .init9) with
  | .done ok s => if ok then init10 s else .done (.bool false) s
  | .waiting fs s => .waiting fs s
  | .refused r => .refused r

/-- INIT_8 (R243). -/
def init8 (s : State) : Run OpResult :=
  let (ok, s) := sendRelativeAddr (s.setPhase .init8)
  if ok then init9 s else .done (.bool false) s

/-- INIT_7 (R242). -/
def init7 (s : State) : Run OpResult :=
  let (ok, s) := allSendCid (s.setPhase .init7)
  if ok then init8 s else .done (.bool false) s

/-- One iteration of the poll loop of INIT_5 (R240): CMD55 with RCA 0, its R1 checked, then ACMD41, which also does
INIT_6 when the card is ready (R241). -/
def init5Once (s : State) : Bool × State :=
  let (ok, s) := appCmd 0#16 (s.setPhase .init5)
  if ok then sendOpCond s.cfg.acmd41Arg s else (false, s)

/-- INIT_5 (R240): the loop has no bound of its own. `n` bounds the iterations made before the engine shows itself
waiting; an iteration takes at least one Turn of the card, so with `n` above their number the loop has run until the
card has nothing more to say. With BUSY_TIMEOUT set the engine polls its deadline after a failed iteration, which draws
a Turn (log 17). -/
def init5 : Nat → State → Run OpResult
  | 0, s => .waiting [.initPoll] (s.setPhase .init5)
  | n + 1, s =>
    let (ready, s) := init5Once s
    if ready then init7 (s.setPhase .init6)
    else if s.cfg.busyTimeout.isSome then
      if s.turn.expired || s.card.isEmpty then .done (.bool false) (s.turnTaken.raise .busyTimeout)
      else init5 n s.turnTaken
    else if s.card.isEmpty then .waiting [.initPoll] (s.setPhase .init5)
    else init5 n s

/-- INIT_5 with as many iterations as the card has Turns, and one more. -/
def init5Loop (s : State) : Run OpResult := init5 (s.card.length + 1) s

/-- STORAGE_INIT (R235). -/
def storageInit (s : State) : Run OpResult :=
  let s := init2 (init1 s)
  let (_, s) := goIdle (s.setPhase .init3)
  let (ok, s) := sendIfCond (s.setPhase .init4)
  if ok then init5Loop s else .done (.bool false) s

/-! ## STORAGE_READ and STORAGE_WRITE -/

/-- The result `done * 512` of a block-device operation. -/
def byteCount (done : Nat) : OpResult := .count (BitVec.ofNat 32 (done * 512))

/-- The size of the next chunk (R251). -/
def chunkSize (total done : Nat) : Nat := min (total - done) sdMaxReadBlocks

/-- The READ_BLOCK of one chunk (R250, R251): CMD17 for one block, CMD18 for more. -/
def readChunk (block buffer : Word) (total done : Nat) (s : State) : Run Bool :=
  readBlock (if chunkSize total done = 1 then 17#6 else 18#6) (cardAddress s.session (block + BitVec.ofNat 32 done))
    (buffer + BitVec.ofNat 32 (done * 512)) (chunkSize total done) 0#32 s

/-- A STORAGE_READ that ends short (R252): the bytes of its buffer past the `done` blocks it counts, the chunks never
tried and the whole of the one that failed among them, are unspecified (spec/20_memory.md R80, U23; log 13). -/
def readShort (buffer : Word) (total done : Nat) (s : State) : Run OpResult :=
  .done (byteCount done) (s.scramble (buffer + BitVec.ofNat 32 (done * 512)) (128 * (total - done)))

/-- The loop of STORAGE_READ (R250), `fuel` an upper bound of the chunks left. -/
def readLoop (block buffer : Word) (total : Nat) : Nat → Nat → State → Run OpResult
  | 0, done, s => .done (byteCount done) s
  | fuel + 1, done, s =>
    if total ≤ done then .done (byteCount done) s
    else
      (readChunk block buffer total done s).andThen (.storageRead block buffer total done (chunkSize total done))
        fun ok s => if ok then readLoop block buffer total fuel (done + chunkSize total done) s else readShort buffer total done s

/-- The loop of STORAGE_WRITE (R254), `fuel` an upper bound of the blocks left. -/
def writeLoop (block buffer : Word) (total : Nat) : Nat → Nat → State → Run OpResult
  | 0, done, s => .done (byteCount done) s
  | fuel + 1, done, s =>
    if total ≤ done then .done (byteCount done) s
    else
      (writeBlock (cardAddress s.session (block + BitVec.ofNat 32 done)) (buffer + BitVec.ofNat 32 (done * 512)) s).andThen
        (.storageWrite block buffer total done)
        fun ok s => if ok then writeLoop block buffer total fuel (done + 1) s else .done (byteCount done) s

/-- STORAGE_READ (R250) on operands of its domain. -/
def storageRead (block buffer : Word) (total : Nat) (s : State) : Run OpResult :=
  readLoop block buffer total total 0 (setWidthOp .four s)

/-- STORAGE_WRITE (R254) on operands of its domain. -/
def storageWrite (block buffer : Word) (total : Nat) (s : State) : Run OpResult :=
  writeLoop block buffer total total 0 (setWidthOp .one s)

/-! ## Going on after a wait -/

/-- A called operation has returned a Boolean to the operations under it on the call stack, innermost first (R24). -/
def returnTo : List Frame → Bool → State → Run OpResult
  | [], b, s => .done (.bool b) s
  | .polling :: k, b, s => returnTo k b s
  | .busyOp :: k, _, s => match k with
    | [] => .done .none s
    | _ => .waiting (.busyOp :: k) s
  | .wireBusy ok :: k, b, s =>
    let (ok, s) := busyEnded ok b s
    returnTo k ok s
  | .readData _ _ :: k, b, s => returnTo k b s
  | .readStop o st :: k, b, s =>
    let (ok, s) := readStopped o st b s
    returnTo k ok s
  | .writeWait :: k, b, s => returnTo k b s
  | .initPoll :: _, _, s => init5Loop s
  | .initSelect :: _, b, s => init10End b s
  | .initSwitch :: _, b, s => init11End b s
  | .switchRead :: k, b, s => returnTo k (b && highSpeedSeen s) s
  | .storageRead block buffer total done chunk :: _, b, s =>
    if b then readLoop block buffer total total (done + chunk) s else readShort buffer total done s
  | .storageWrite block buffer total done :: _, b, s =>
    if b then writeLoop block buffer total total (done + 1) s else .done (byteCount done) s

/-- The engine goes on with the wait at the top of its call stack (R286): the poll of the command line, the data phase of
an unbounded read, or the poll loop of step 5. -/
def resume (s : State) : Run OpResult :=
  match s.stack with
  | .polling :: k =>
    match waitNotBusy s.phase s with
    | .done high s => returnTo k high s
    | .waiting fs s => .waiting (fs ++ k) s
    | .refused r => .refused r
  | .readData o fed :: k =>
    match readData o s.card fed s with
    | .done ok s => returnTo k ok s
    | .waiting fs s => .waiting (fs ++ k) s
    | .refused r => .refused r
  | .initPoll :: _ => init5Loop s
  | k => .waiting k s

end Sys2Proof.Machine
end

