-- ==== Sys2Proof/Machine/HostOps.lean ====
section
/-! DEFINITION. The meanings of the fifteen host operations (spec/30_encoding.md R128), one definition each: the tests of
the operation's domain (spec/93_implementation_defined.md, part 1.1; their order is log 22), then the shared operation. -/

namespace Sys2Proof.Machine

/-- CRC7 (spec/40_crc.md R140): the register keeps the final value (log 19). -/
def execCrc7 (bytes n : Word) (s : State) : Host.Outcome State Fault Refusal :=
  s.accept fun s =>
    guardRun (extentOk s.cfg bytes n.toNat) .extent <|
      let bs := s.mem.readBytes bytes n.toNat
      .done (.crc7 (crc7 bs)) { s with crc7Reg := crc7Reg bs }

/-- CRC16 (spec/40_crc.md R144): the register keeps the final value (log 19). -/
def execCrc16 (bytes n : Word) (s : State) : Host.Outcome State Fault Refusal :=
  s.accept fun s =>
    guardRun (extentOk s.cfg bytes n.toNat) .extent <|
      let c := crc16 (s.mem.readBytes bytes n.toNat)
      .done (.crc16 c) { s with crc16Reg := c }

/-- BUILD_FRAME (spec/43_command_response.md R190). -/
def execBuildFrame (cmd param : Word) (s : State) : Host.Outcome State Fault Refusal :=
  s.accept fun s =>
    guardRun (decide (cmd.toNat ≤ 63)) .commandIndex <|
      .done (.frame (frameBytes (indexOf cmd) param)) (buildFrame (indexOf cmd) param s)

/-- The domain of SD_COMMAND's response buffer (spec/43_command_response.md R206, spec/20_memory.md R79). -/
def responseGuard {α : Type} (res : ResSize) (dst : Word) (c : Config) (k : Run α) : Run α :=
  match res with
  | .none => k
  | _ => guardRun (alignedNonNull dst) .responseBuffer <| guardRun (extentOk c dst (4 * res.words)) .extent k

/-- SD_COMMAND (spec/43_command_response.md R191, R206). -/
def execSdCommand (cmd param resSize resData : Word) (s : State) : Host.Outcome State Fault Refusal :=
  s.accept fun s =>
    guardRun (decide (cmd.toNat ≤ 63)) .commandIndex <|
      match ResSize.ofWord? resSize with
      | none => .refused .responseSize
      | some res =>
        responseGuard res resData s.cfg <| guardRun s.cseq.programmed .unprogrammed <|
          let (ok, s) := sdCommand (indexOf cmd) param res resData s
          .done (.bool ok) s

/-- RESP_FIX (spec/43_command_response.md R196). -/
def execRespFix (w n : Word) (s : State) : Host.Outcome State Fault Refusal :=
  s.accept fun s =>
    guardRun (n == 2#32 || n == 5#32) .wordCount <| guardRun (aligned w) .responseAddress <|
      guardRun (extentOk s.cfg w (4 * n.toNat)) .extent <|
        .done .none (s.setMem (respFixMem s.mem w n.toNat))

/-- CHECK_RES_STATUS (spec/43_command_response.md R200). It raises nothing: its caller does (R201). -/
def execCheckResStatus (resData : Word) (s : State) : Host.Outcome State Fault Refusal :=
  s.accept fun s =>
    guardRun (aligned resData) .responseAddress <| guardRun (extentOk s.cfg resData 5) .extent <|
      .done (.bool (checkAt s resData)) s

/-- WAIT_NOT_BUSY (spec/43_command_response.md R203, R204). It has no result. -/
def execWaitNotBusy (s : State) : Host.Outcome State Fault Refusal :=
  s.accept fun s =>
    guardRun s.cseq.programmed .unprogrammed <|
      (waitNotBusy .notBusy s).andThen .busyOp fun _ s => .done .none s

/-- The end of an operation whose result is a Boolean. -/
def Run.bool (r : Run Bool) : Run OpResult :=
  match r with
  | .done b s => .done (.bool b) s
  | .waiting fs s => .waiting fs s
  | .refused r => .refused r

/-- The write extents of a READ_BLOCK: `buffer`, and `crc` if it is not null, in memory and apart from each other and
from the engine's storage (spec/20_memory.md R79, R81). -/
def readExtentsOk (cmd buffer : Word) (count : Nat) (crc : Word) (s : State) : Bool :=
  let len := count * (if cmd = 6#32 then switchBlockLenBytes else blockLenBytes)
  let crcLen := 4 * s.session.dataWidth.crcWords
  extentOk s.cfg buffer len &&
    (crc == 0#32 || (extentOk s.cfg crc crcLen && disjoint buffer len crc crcLen))

/-- READ_BLOCK with its domain (spec/44_block_transfer.md R226): a count above 32 is tested first and fails (R211). -/
def readRequest (cmd addr buffer count crc : Word) (s : State) : Run OpResult :=
  if sdMaxReadBlocks < count.toNat then
    (readBlock (indexOf cmd) addr buffer count.toNat crc s).bool
  else
    guardRun (cmd == 6#32 || cmd == 17#32 || cmd == 18#32) .readCommand <|
      guardRun (count != 0#32 && (cmd == 18#32 || count == 1#32)) .blockCount <|
        guardRun (alignedNonNull buffer && aligned crc) .bufferAddress <|
          guardRun (readExtentsOk cmd buffer count.toNat crc s) .extent <|
            guardRun s.sessionValid .noSession <|
              guardRun (s.cseq.programmed && s.dseq.programmed) .unprogrammed <|
                (readBlock (indexOf cmd) addr buffer count.toNat crc s).bool

/-- READ_BLOCK (spec/44_block_transfer.md R210, R226). -/
def execReadBlock (cmd addr buffer count crc : Word) (s : State) : Host.Outcome State Fault Refusal :=
  s.accept (readRequest cmd addr buffer count crc)

/-- WRITE_BLOCK with its domain (spec/44_block_transfer.md R226). -/
def writeRequest (cmd addr buffer : Word) (s : State) : Run OpResult :=
  guardRun (cmd == 24#32) .writeCommand <| guardRun (alignedNonNull buffer) .bufferAddress <|
    guardRun (extentOk s.cfg buffer blockLenBytes) .extent <| guardRun s.sessionValid .noSession <|
      guardRun (s.cseq.programmed && s.dseq.programmed) .unprogrammed <|
        (writeBlock addr buffer s).bool

/-- WRITE_BLOCK (spec/44_block_transfer.md R220, R226). -/
def execWriteBlock (cmd addr buffer : Word) (s : State) : Host.Outcome State Fault Refusal :=
  s.accept (writeRequest cmd addr buffer)

/-- SET_WIDTH (spec/45_bus_width.md R230, R234): no result, whatever the card answered. -/
def execSetWidth (width : Word) (s : State) : Host.Outcome State Fault Refusal :=
  s.accept fun s =>
    match Width.ofWord? width with
    | none => .refused .busWidth
    | some w =>
      guardRun s.sessionValid .noSession <| guardRun s.cseq.programmed .unprogrammed <|
        .done .none (setWidthOp w s)

/-- STORAGE_INIT (spec/46_session_host.md R235). -/
def execStorageInit (s : State) : Host.Outcome State Fault Refusal := s.accept storageInit

/-- PARSE_CSD (spec/46_session_host.md R244, R246). -/
def execParseCsd (r : Word) (s : State) : Host.Outcome State Fault Refusal :=
  s.accept fun s =>
    guardRun (aligned r) .responseAddress <| guardRun (extentOk s.cfg r 17) .extent <|
      match parseCsd r s with
      | .done n s => .done (.blocks n) s
      | .waiting fs s => .waiting fs s
      | .refused r => .refused r

/-- GET_STORAGE_SIZE (spec/46_session_host.md R249). -/
def execGetStorageSize (s : State) : Host.Outcome State Fault Refusal :=
  s.accept fun s =>
    guardRun s.sessionValid .noSession <| .done (.size 512#16 s.session.cardSizeBlocks) s

/-- The domain of STORAGE_READ and STORAGE_WRITE (spec/46_session_host.md R253, spec/20_memory.md R75, R79): a null
buffer is refused only where bytes are asked of it (log 22). -/
def storageGuard (offset buffer size : Word) (s : State) (k : Run OpResult) : Run OpResult :=
  guardRun (offset == 0#32) .offset <|
    guardRun (decide (size.toNat % 512 = 0) && decide (size.toNat < 2 ^ 31)) .sizeBytes <|
      guardRun (aligned buffer && (size == 0#32 || buffer != 0#32)) .bufferAddress <|
        guardRun (extentOk s.cfg buffer size.toNat) .extent <| guardRun s.sessionValid .noSession <|
          guardRun (s.cseq.programmed && s.dseq.programmed) .unprogrammed k

/-- STORAGE_READ (spec/46_session_host.md R250, R253). -/
def execStorageRead (block offset buffer size : Word) (s : State) : Host.Outcome State Fault Refusal :=
  s.accept fun s => storageGuard offset buffer size s (storageRead block buffer (size.toNat / 512) s)

/-- STORAGE_WRITE (spec/46_session_host.md R254, R253). -/
def execStorageWrite (block offset buffer size : Word) (s : State) : Host.Outcome State Fault Refusal :=
  s.accept fun s => storageGuard offset buffer size s (storageWrite block buffer (size.toNat / 512) s)

end Sys2Proof.Machine
end

