-- ==== Sys2Proof/Machine/Wire.lean ====
section
/-! DEFINITION. The meanings of the fourteen wire commands (spec/47_wire_commands.md), one definition each: the engine
sends the command's frame, captures the answer in its own response buffer, and does what the rule's clauses "Engine" and
"Checks" say (log 2; the results are log 29). -/

namespace Sys2Proof.Machine

/-- A wire command needs the command sequencer programmed (spec/93_implementation_defined.md U4) and returns whether it
passed. -/
def State.wire (s : State) (k : State → Run Bool) : Host.Outcome State Fault Refusal :=
  s.accept fun s => guardRun s.cseq.programmed .unprogrammed (k s).bool

/-- An operation that ends whatever the card does, as a `Run`. -/
def runStep (f : State → Bool × State) (s : State) : Run Bool :=
  let (ok, s) := f s
  .done ok s

/-- CMD0, GO_IDLE_STATE (R260). -/
def execCmd0 (s : State) : Host.Outcome State Fault Refusal := s.wire (runStep goIdle)

/-- CMD2, ALL_SEND_CID (R261). -/
def execCmd2 (s : State) : Host.Outcome State Fault Refusal := s.wire (runStep allSendCid)

/-- CMD3, SEND_RELATIVE_ADDR (R262). -/
def execCmd3 (s : State) : Host.Outcome State Fault Refusal := s.wire (runStep sendRelativeAddr)

/-- CMD6, SWITCH_FUNC (R263): the engine reads the status block and the byte that says "high speed" (R248), which is the
result. Like the call STORAGE_INIT makes, it needs no session (log 30). DESIGN CHOICE: an argument other than CMD6_ARG is sent
as asked (log 29). -/
def execCmd6 (arg : Word) (s : State) : Host.Outcome State Fault Refusal :=
  s.accept fun s =>
    guardRun (s.cseq.programmed && s.dseq.programmed) .unprogrammed <|
      ((switchRead arg s).andThen .switchRead fun ok s => .done (ok && highSpeedSeen s) s).bool

/-- ACMD6, SET_BUS_WIDTH (R264). It is sent as asked, whatever was sent before it
(spec/70_reset_and_hazards.md R311). DESIGN CHOICE: unlike SET_WIDTH, which alone sends it (R234), the request needs no
session, and writes `data_width` without one (log 30). -/
def execAcmd6 (wide : Bool) (s : State) : Host.Outcome State Fault Refusal := s.wire (runStep (setBusWidth wide))

/-- CMD7, SELECT_CARD (R265). DESIGN CHOICE: an RCA other than `card_rca` is sent as asked (log 29). -/
def execCmd7 (rca : BitVec 16) (s : State) : Host.Outcome State Fault Refusal :=
  s.wire (selectCard rca .notBusy (.wireBusy true))

/-- CMD8, SEND_IF_COND (R266). -/
def execCmd8 (s : State) : Host.Outcome State Fault Refusal := s.wire (runStep sendIfCond)

/-- CMD9, SEND_CSD (R267). DESIGN CHOICE: an RCA other than `card_rca` is sent as asked, and the capacity of the card that
answers is stored (log 29). -/
def execCmd9 (rca : BitVec 16) (s : State) : Host.Outcome State Fault Refusal := s.wire (sendCsd rca)

/-- CMD12, STOP_TRANSMISSION (R268). -/
def execCmd12 (s : State) : Host.Outcome State Fault Refusal := s.wire stopTransmission

/-- CMD17, READ_SINGLE_BLOCK (R269): the command of a READ_BLOCK of one block. -/
def execCmd17 (addr buffer crc : Word) (s : State) : Host.Outcome State Fault Refusal :=
  s.accept (readRequest 17#32 addr buffer 1#32 crc)

/-- CMD18, READ_MULTIPLE_BLOCK (R270): the command of a READ_BLOCK of `count` blocks, which ends with CMD12. -/
def execCmd18 (addr buffer count crc : Word) (s : State) : Host.Outcome State Fault Refusal :=
  s.accept (readRequest 18#32 addr buffer count crc)

/-- CMD24, WRITE_BLOCK (R271): the command of a WRITE_BLOCK. -/
def execCmd24 (addr buffer : Word) (s : State) : Host.Outcome State Fault Refusal :=
  s.accept (writeRequest 24#32 addr buffer)

/-- ACMD41, SD_SEND_OP_COND (R272): true when the card reports ready. It is sent as asked, whatever was sent before it
(spec/70_reset_and_hazards.md R311). -/
def execAcmd41 (arg : Word) (s : State) : Host.Outcome State Fault Refusal := s.wire (runStep (sendOpCond arg))

/-- CMD55, APP_CMD (R273). DESIGN CHOICE: an RCA other than `card_rca` is sent as asked (log 29). -/
def execCmd55 (rca : BitVec 16) (s : State) : Host.Outcome State Fault Refusal := s.wire (runStep (appCmd rca))

end Sys2Proof.Machine
end

