-- ==== Sys2Proof/Machine/Dispatch.lean ====
section
/-! DEFINITION. One arm per instruction: each is the direct call of its meaning. -/

namespace Sys2Proof.Machine

/-- What one instruction does (spec/30_encoding.md R128, R130). -/
def exec (i : Instr) (s : State) : Host.Outcome State Fault Refusal :=
  match i with
  | .cmd0 => Sys2Proof.Machine.execCmd0 s
  | .cmd2 => Sys2Proof.Machine.execCmd2 s
  | .cmd3 => Sys2Proof.Machine.execCmd3 s
  | .cmd6 arg => Sys2Proof.Machine.execCmd6 arg s
  | .acmd6 wide => Sys2Proof.Machine.execAcmd6 wide s
  | .cmd7 rca => Sys2Proof.Machine.execCmd7 rca s
  | .cmd8 => Sys2Proof.Machine.execCmd8 s
  | .cmd9 rca => Sys2Proof.Machine.execCmd9 rca s
  | .cmd12 => Sys2Proof.Machine.execCmd12 s
  | .cmd17 addr buffer crc => Sys2Proof.Machine.execCmd17 addr buffer crc s
  | .cmd18 addr buffer count crc => Sys2Proof.Machine.execCmd18 addr buffer count crc s
  | .cmd24 addr buffer => Sys2Proof.Machine.execCmd24 addr buffer s
  | .acmd41 arg => Sys2Proof.Machine.execAcmd41 arg s
  | .cmd55 rca => Sys2Proof.Machine.execCmd55 rca s
  | .crc7 bytes n => Sys2Proof.Machine.execCrc7 bytes n s
  | .crc16 bytes n => Sys2Proof.Machine.execCrc16 bytes n s
  | .buildFrame cmd param => Sys2Proof.Machine.execBuildFrame cmd param s
  | .sdCommand cmd param resSize resData => Sys2Proof.Machine.execSdCommand cmd param resSize resData s
  | .respFix w n => Sys2Proof.Machine.execRespFix w n s
  | .checkResStatus resData => Sys2Proof.Machine.execCheckResStatus resData s
  | .waitNotBusy => Sys2Proof.Machine.execWaitNotBusy s
  | .readBlock cmd addr buffer count crc => Sys2Proof.Machine.execReadBlock cmd addr buffer count crc s
  | .writeBlock cmd addr buffer => Sys2Proof.Machine.execWriteBlock cmd addr buffer s
  | .setWidth width => Sys2Proof.Machine.execSetWidth width s
  | .storageInit => Sys2Proof.Machine.execStorageInit s
  | .parseCsd r => Sys2Proof.Machine.execParseCsd r s
  | .getStorageSize => Sys2Proof.Machine.execGetStorageSize s
  | .storageRead block offset buffer size => Sys2Proof.Machine.execStorageRead block offset buffer size s
  | .storageWrite block offset buffer size => Sys2Proof.Machine.execStorageWrite block offset buffer size s

end Sys2Proof.Machine
end

