-- ==== Sys2Proof/Machine/Request.lean ====
section
/-! DEFINITION. The host's step: its next request at the port (spec/00_scope.md R6 (1), R16; the request record: log 3), and
placing one there. -/

namespace Sys2Proof.Machine

/-- What the host does next. -/
inductive Offer where
  /-- Nothing. -/
  | idle
  /-- A request, and the state after it was taken. -/
  | request (i : Instr) (s : State)
  /-- Bytes that are no request record. -/
  | bad
  /-- A store of its own, and the state after it. -/
  | stored (s : State)
  /-- A store outside its memory, or into the engine's storage. -/
  | outside
deriving DecidableEq, Repr

/-- The host's own step (spec/00_scope.md R4 (a)), which it makes between two requests only. The engine takes a request
from the port: a frame is read under the decoder's bit of state (spec/30_encoding.md R111), and bytes after the record's end
are not read (log 3). A store of the host goes to host memory (spec/20_memory.md R70; log 1). -/
def State.hostStep (s : State) : Offer :=
  match s.host with
  | [] => .idle
  | .request bs :: rest =>
    match decode s.appPrefix bs with
    | .ok (i, _) => .request i { s with host := rest }
    | .error _ => .bad
  | .store a bs :: rest =>
    if extentOk s.cfg a bs.length then .stored { s with host := rest, mem := s.mem.writeBytes a bs } else .outside

/-- The port with an opcode-table word, operand words of zeros after it, as its next request, and the decoder's bit of
state as that word needs it (log 27). -/
def State.offerWord (s : State) (nbits w : Nat) : State :=
  { s with host := .request (tableRecord nbits w) :: s.host, appPrefix := tableApp nbits w }

end Sys2Proof.Machine
end

