-- ==== Sys2Proof/Machine/Step.lean ====
section
/-! DEFINITION. One step of the machine (spec/00_scope.md R16; spec/60_exceptions.md R286, R294): the engine takes the
next request and runs it, or goes on with a wait that has no bound. -/

namespace Sys2Proof.Machine

/-- One step: an operation that waits goes on; else the host makes its step, and a request it makes runs; without one the
engine stays IDLE. -/
def step (s : State) : Host.Outcome State Fault Refusal :=
  if s.stack = [] then
    match s.hostStep with
    | .idle => .next s
    | .request i s => exec i s
    | .bad => .refused .badRequest
    | .stored s => .next s
    | .outside => .refused .extent
  else (resume s).outcome

/-- The state whose very next step runs the instruction an opcode-table word stands for (log 27). -/
def State.withFetchWord (s : State) (nbits w : Nat) : State := s.offerWord nbits w

end Sys2Proof.Machine
end

