-- ==== Sys2Proof/Safety.lean ====
section
/-! DEFINITION. The terms claims use: quiescence between requests (spec/70_reset_and_hazards.md R312), the machine's
invariant, a state in which a command can be sent, and what a card puts on the lines (spec/30_encoding.md R104, R119,
R120; spec/41_sequencers.md R164). -/

namespace Sys2Proof.Machine

/-! ## Quiescence and the invariant -/

/-- A sequencer at rest: WAIT or UNPROGRAMMED, nothing armed, both FIFOs empty, its line released and its own
(R312). -/
structure Seq.Quiet (q : Seq) : Prop where
  mode  : q.mode = .wait ∨ q.mode = .unprogrammed
  armed : q.armed = []
  txf   : q.txf = []
  rxf   : q.rxf = []
  dir   : q.dir = .input
  owner : q.owner = .seq

/-- Quiescence between requests (R312). -/
structure State.Quiescent (s : State) : Prop where
  cseq  : s.cseq.Quiet
  dseq  : s.dseq.Quiet
  dma0  : s.dma0.busy = false
  dma1  : s.dma1.busy = false
  lanes : s.lanes = s.session.dataWidth

/-- What every step keeps whatever it does: memory stays canonical, `DSEQ.lanes` and `data_width` agree
(spec/45_bus_width.md R232), and the engine is IDLE, its done indication up, exactly when no operation waits
(spec/10_state.md R24, R25, spec/60_exceptions.md R294). -/
structure State.Inv (s : State) : Prop where
  mem   : Memory.wf s.mem = true
  lanes : s.lanes = s.session.dataWidth
  idle  : s.phase = .idle ↔ s.stack = []
  done  : s.done = true ↔ s.stack = []

/-- The engine can run requests that send commands: the machine's invariant holds, no request is in progress, both
sequencers are programmed and at rest, the channels are idle (R312), the clock runs, and the configuration is one R10
allows. -/
structure State.Ready (s : State) : Prop where
  inv    : s.Inv
  idle   : s.phase = .idle
  cseq   : s.cseq.Quiet
  cwaits : s.cseq.mode = .wait
  dseq   : s.dseq.Quiet
  dwaits : s.dseq.mode = .wait
  dma0   : s.dma0.busy = false
  dma1   : s.dma1.busy = false
  clock  : s.kseq.running = true
  cfg    : s.cfg.wf

/-- The state STORAGE_INIT starts from: quiescent (R312), before or after the one-time programming of step 1
(spec/10_state.md R23). -/
structure State.Bootable (s : State) : Prop where
  inv        : s.Inv
  idle       : s.phase = .idle
  quiescent  : s.Quiescent
  programmed : s.ioInitialised = true → s.cseq.mode = .wait ∧ s.dseq.mode = .wait
  cfg        : s.cfg.wf

/-! ## Waits without a bound: the engine in the middle of an operation (spec/60_exceptions.md R286) -/

/-- Where the data of block `j` go. -/
def ReadOp.bufferAt (o : ReadOp) (j : Nat) : Word := o.buffer + BitVec.ofNat 32 (j * o.blockLen)

/-- The extents of a whole READ_BLOCK lie apart from each other and from its table. -/
structure ReadApart (o : ReadOp) (table : Word) : Prop where
  bufIn    : o.buffer.toNat + o.count * o.blockLen ≤ 2 ^ 32
  crcIn    : o.crcDst.toNat + 4 * o.width.crcWords ≤ 2 ^ 32
  tableIn  : table.toNat + (16 * o.count + 8) ≤ 2 ^ 32
  bufCrc   : o.buffer.toNat + o.count * o.blockLen ≤ o.crcDst.toNat ∨
    o.crcDst.toNat + 4 * o.width.crcWords ≤ o.buffer.toNat
  bufTable : o.buffer.toNat + o.count * o.blockLen ≤ table.toNat ∨ table.toNat + (16 * o.count + 8) ≤ o.buffer.toNat
  crcTable : o.crcDst.toNat + 4 * o.width.crcWords ≤ table.toNat ∨ table.toNat + (16 * o.count + 8) ≤ o.crcDst.toNat

/-- The descriptor table lies in memory (spec/30_encoding.md R124). -/
structure TableAt (o : ReadOp) (table : Word) (m : Memory) : Prop where
  dst      : ∀ j < o.count, m.readWord (table + BitVec.ofNat 32 (16 * j)) = o.bufferAt j
  words    : ∀ j < o.count, m.readWord (table + BitVec.ofNat 32 (16 * j + 4)) = BitVec.ofNat 32 o.dataWords
  crcDst   : ∀ j < o.count, m.readWord (table + BitVec.ofNat 32 (16 * j + 8)) = o.crcDst
  crcWords : ∀ j < o.count, m.readWord (table + BitVec.ofNat 32 (16 * j + 12)) = BitVec.ofNat 32 o.width.crcWords
  last     : m.readWord (table + BitVec.ofNat 32 (16 * o.count + 4)) = 0#32

/-- The words of a block as DSEQ pushes them: its data, then its CRC (spec/44_block_transfer.md R210). -/
def ReadOp.words (o : ReadOp) : Nat := o.dataWords + o.width.crcWords

/-- Where the chain of a READ_BLOCK stands, and how many words DMA0 has still to move: `left` words of block `j`'s data, or
of its CRC, and those of the blocks after it; or nothing, both channels idle (spec/42_dma.md R172, R176). -/
inductive ChainAt (o : ReadOp) (s : State) : Nat → Prop where
  | data (j left : Nat) :
    j < o.count → 0 < left → left ≤ o.dataWords → s.dma0.busy = true → s.dma1.busy = true →
    s.dma0.count = BitVec.ofNat 32 left → s.dma0.dst = .mem (o.bufferAt j + BitVec.ofNat 32 (4 * (o.dataWords - left))) →
    s.dma1.rd = s.cfg.tableAddr + BitVec.ofNat 32 (16 * j + 8) →
    ChainAt o s (left + o.width.crcWords + (o.count - 1 - j) * o.words)
  | crc (j left : Nat) :
    j < o.count → 0 < left → left ≤ o.width.crcWords → s.dma0.busy = true → s.dma1.busy = true →
    s.dma0.count = BitVec.ofNat 32 left → s.dma0.dst = .mem (o.crcDst + BitVec.ofNat 32 (4 * (o.width.crcWords - left))) →
    s.dma1.rd = s.cfg.tableAddr + BitVec.ofNat 32 (16 * j + 16) →
    ChainAt o s (left + (o.count - 1 - j) * o.words)
  | done : s.dma0.busy = false → s.dma1.busy = false → ChainAt o s 0

/-- The words that are still to leave DSEQ's receive FIFO by the programs it has: those in the FIFO, those of the program
that runs, and those of the program that is armed (spec/41_sequencers.md R155 to R158). -/
def Seq.wordsToCome (o : ReadOp) (q : Seq) : Nat :=
  q.rxf.length + q.armed.length * o.words +
    match q.mode with
    | .recvHunt => o.words
    | .recvShift => (q.isrCount + q.bitsLeft + 31) / 32
    | .unprogrammed | .wait | .send => 0

/-- DSEQ has only receive programs of the READ_BLOCK: it waits, hunts or shifts (R156, R158). -/
structure Seq.Receives (o : ReadOp) (q : Seq) : Prop where
  mode  : q.mode = .wait ∨ q.mode = .recvHunt ∧ q.bitsLeft = o.bits ∧ q.isrCount = 0 ∨ q.mode = .recvShift
  armed : q.armed = [] ∨ q.armed = [.recv o.bits]
  whole : o.width.lines ∣ q.isrCount ∧ o.width.lines ∣ q.bitsLeft ∧ q.isrCount ≤ 32
  txf   : q.txf = []
  owner : q.owner = .seq

/-- A READ_BLOCK in its data phase, after `fed` receive programs were armed behind the first: the table is complete in
memory (R213), DMA0 takes DSEQ's words along it, and exactly the words it has still to move are still to come. -/
structure State.DataPhase (o : ReadOp) (fed : Nat) (s : State) : Prop where
  count  : fed < o.count
  width  : s.lanes = o.width
  apart  : ReadApart o s.cfg.tableAddr
  table  : TableAt o s.cfg.tableAddr s.mem
  dma    : s.dma0 = { s.dma0 with
    src := .dseqRxf, incDst := true, bswap := true, pace := .dseqRx, chain := .dma1 }
  dseq   : s.dseq.Receives o
  owed   : ChainAt o s (s.dseq.wordsToCome o + (o.count - 1 - fed) * o.words)

/-- Sequencers and channels at rest (R312). -/
structure State.Rested (s : State) : Prop where
  cseq   : s.cseq.Quiet
  cwaits : s.cseq.mode = .wait
  dseq   : s.dseq.Quiet
  dwaits : s.dseq.mode = .wait
  dma0   : s.dma0.busy = false
  dma1   : s.dma1.busy = false

/-- What the engine's sequencers and channels look like while it waits with this call stack: the pin taken in a
WAIT_NOT_BUSY (spec/43_command_response.md R203), the chain running in a READ_BLOCK's data phase, everything at rest
elsewhere. -/
def State.WaitsAt (s : State) : List Frame → Prop
  | .polling :: _ => s.cseq.owner = .engine ∧ (s.setCseq { s.cseq with owner := .seq }).Rested
  | .readData o fed :: _ => s.cseq.Quiet ∧ s.cseq.mode = .wait ∧ s.DataPhase o fed
  | _ => s.Rested

/-- The operands an operation keeps while it waits are of its domain: the buffer of a STORAGE_READ lies in memory, apart
from the engine's storage (spec/46_session_host.md R253, spec/20_memory.md R79). -/
def Frame.Placed (c : Config) : Frame → Prop
  | .storageRead _ buffer total _ _ => buffer.toNat + 512 * total ≤ 2 ^ 32 ∧
      (buffer.toNat + 512 * total ≤ c.storageBase.toNat ∨ c.storageBase.toNat + storageSize ≤ buffer.toNat)
  | _ => True

/-- The machine between two steps, once STORAGE_INIT has programmed it: at rest between requests (R312), or in one of the
waits that have no bound. -/
structure State.Running (s : State) : Prop where
  inv    : s.Inv
  clock  : s.kseq.running = true
  cfg    : s.cfg.wf
  waits  : s.WaitsAt s.stack
  frames : ∀ f ∈ s.stack, f.Placed s.cfg

/-! ## Frames: what a request leaves alone -/

/-- The region of the engine's storage that holds the frame and the response (spec/10_state.md R31, R32; log 12). -/
def inHead (c : Config) (x : Nat) : Prop := c.storageBase.toNat ≤ x ∧ x < c.storageBase.toNat + 32

/-- The engine's whole transient storage (log 12). -/
def inStorage (c : Config) (x : Nat) : Prop := c.storageBase.toNat ≤ x ∧ x < c.storageBase.toNat + storageSize

/-- The extent `a .. a+n-1`. -/
def inExtent (a : Word) (n x : Nat) : Prop := a.toNat ≤ x ∧ x < a.toNat + n

/-- What a request that has returned leaves as it was: configuration, one-time guard, session validity, clock, port and
claims are unchanged; the sequencers are programmed and at rest and the channels idle again (R312); memory is canonical
and every byte that is not `touched` reads as before. -/
structure RequestFrame (touched : Nat → Prop) (s t : State) : Prop where
  phase    : t.phase = .idle
  stack    : t.stack = []
  done     : t.done = true
  cfg      : t.cfg = s.cfg
  io       : t.ioInitialised = s.ioInitialised
  valid    : t.sessionValid = s.sessionValid
  lanes    : t.lanes = t.session.dataWidth
  kseq     : t.kseq = s.kseq
  host     : t.host = s.host
  cseq     : t.cseq.Quiet
  cwaits   : t.cseq.mode = .wait
  dseq     : t.dseq.Quiet
  dwaits   : t.dseq.mode = .wait
  dma0     : t.dma0.busy = false
  claimed0 : t.dma0.claimed = s.dma0.claimed
  dma1     : t.dma1.busy = false
  claimed1 : t.dma1.claimed = s.dma1.claimed
  wf       : Memory.wf t.mem = true
  mem      : ∀ x, ¬ touched x → Memory.read t.mem x = Memory.read s.mem x

/-- The frame of a request that only sends commands: DSEQ, DMA1 and CRC16's register are untouched as well
(spec/43_command_response.md R199). -/
structure CommandFrame (touched : Nat → Prop) (s t : State) : Prop extends RequestFrame touched s t where
  sameDseq  : t.dseq = s.dseq
  sameDma1  : t.dma1 = s.dma1
  sameCrc16 : t.crc16Reg = s.crc16Reg

/-- What a request that has returned left: its result, the session, the recorded cause, the decoder's bit of state, the
card's Turns that are left, and the levels driven so far. -/
structure Returned (t : State) (result : OpResult) (session : Session) (failure : Option Cause) (app : Bool)
    (card : List Turn) (history : List PinEvent) : Prop where
  result  : t.result = result
  session : t.session = session
  failure : t.lastFailure = failure
  app     : t.appPrefix = app
  card    : t.card = card
  history : t.history = history

/-! ## What a card puts on the lines -/

/-- A CLK period in which the card drives CMD alone. -/
def Tick.onCmd (level : Bool) : Tick := ⟨level, 0xF#4⟩

/-- A CLK period in which the card drives DAT0 alone. -/
def Tick.onDat0 (level : Bool) : Tick := ⟨true, 0b111#3 ++ BitVec.ofBool level⟩

/-- A CLK period in which the card drives the four data lines with a nibble. -/
def Tick.onDat (nibble : BitVec 4) : Tick := ⟨true, nibble⟩

/-- A response on CMD after `latency` undriven periods (spec/43_command_response.md R207). -/
def answerTicks (latency : Nat) (response : List Byte) : List Tick :=
  List.replicate latency Tick.quiet ++ (bytesBits response).map Tick.onCmd

/-- The card answers a command in time. -/
def Turn.answer (latency : Nat) (response : List Byte) : Turn := ⟨[], answerTicks latency response, false, false⟩

/-- The card does not answer before the deadline. -/
def Turn.silent : Turn := ⟨[], [], true, false⟩

/-- The card's response is cut off by the deadline after its start bit and some more bits (spec/43_command_response.md
R193). -/
def Turn.cutOff (latency : Nat) (bits : List Bool) : Turn :=
  ⟨[], List.replicate latency Tick.quiet ++ (false :: bits).map Tick.onCmd, true, false⟩

/-- The line is low for `n` polls, then high (spec/43_command_response.md R203). -/
def Turn.busy (n : Nat) : Turn := ⟨[], List.replicate n (Tick.onCmd false) ++ [Tick.quiet], false, false⟩

/-- The line is low for `n` polls, then nobody drives it (spec/41_sequencers.md R164). -/
def Turn.release (n : Nat) : Turn := ⟨[], List.replicate n (Tick.onCmd false), false, false⟩

/-- The line is low for `n` polls, and the card holds it low for ever (spec/60_exceptions.md R286). -/
def Turn.stuck (n : Nat) : Turn := ⟨[], List.replicate n (Tick.onCmd false), false, true⟩

/-- The deadline of BUSY_TIMEOUT passes after `n` polls of a line that is low (spec/43_command_response.md R204). -/
def Turn.overdue (n : Nat) : Turn := ⟨[], List.replicate n (Tick.onCmd false), true, false⟩

/-- A data block the card sends: `gap` undriven periods before its start bit, its data, the bytes its CRC makes on the
lines (spec/30_encoding.md R119, R120), and the levels in the end bit's period, which are not sampled
(spec/41_sequencers.md R156). -/
structure CardBlock where
  gap    : Nat
  data   : List Byte
  crc    : List Byte
  endBit : Tick
deriving DecidableEq, Repr

/-- The nibbles of a byte on four lines, the high one first (R120). -/
def byteNibbles (b : Byte) : List (BitVec 4) := [b.extractLsb' 4 4, b.extractLsb' 0 4]

/-- The CLK periods of some bytes on the data lines. -/
def dataTicks (w : Width) (bs : List Byte) : List Tick :=
  match w with
  | .one => (bytesBits bs).map Tick.onDat0
  | .four => (bs.flatMap byteNibbles).map Tick.onDat

/-- The CLK period of a start bit: DAT0 low, or all four lines low. -/
def startTick (w : Width) : Tick :=
  match w with
  | .one => Tick.onDat0 false
  | .four => Tick.onDat 0#4

/-- The CLK periods of a block: gap, start bit, data, CRC, end bit. -/
def CardBlock.ticks (w : Width) (b : CardBlock) : List Tick :=
  List.replicate b.gap Tick.quiet ++ startTick w :: (dataTicks w (b.data ++ b.crc) ++ [b.endBit])

/-- The card sends some blocks. -/
def Turn.blocks (w : Width) (bs : List CardBlock) : Turn := ⟨[], bs.flatMap (CardBlock.ticks w), false, false⟩

/-- The block's captured CRC agrees with its data (spec/40_crc.md R148). -/
def CardBlock.good (w : Width) (b : CardBlock) : Prop :=
  match w with
  | .one => crc16 b.data = (b.crc.getD 0 0#8 ++ b.crc.getD 1 0#8 : BitVec 16)
  | .four => fourLineCrcOk b.data b.crc = true

/-! ## What a card does in a whole request -/

/-- A response of `n` bytes the engine can capture: its first bit is the start bit 0 (R104, R109). -/
def Captured (n : Nat) (r : List Byte) : Prop := r.length = n ∧ (r.headD 0#8).getLsbD 7 = false

/-- An R1 whose status passes (spec/43_command_response.md R200). -/
def Passes (r : List Byte) : Prop := Captured 6 r ∧ statusOk (payload r) = true

/-- The card does not give a response of `n` bits in time: it says nothing, or what it says is cut off before the last bit
(spec/43_command_response.md R193). -/
inductive Unanswers (n : Nat) : Turn → Prop where
  | silent : Unanswers n Turn.silent
  | cutOff (latency : Nat) (bits : List Bool) : bits.length + 1 < n → Unanswers n (Turn.cutOff latency bits)

/-- The card's Turn fails a checked command, for this cause (spec/60_exceptions.md R281, R284, R282). -/
inductive Fails : Turn → Cause → Prop where
  | timeout (t : Turn) : Unanswers 48 t → Fails t .cmdTimeout
  | status (latency : Nat) (r : List Byte) :
    Captured 6 r → statusOk (payload r) = false → Fails (Turn.answer latency r) .statusError

/-- The card's Turns fail the CMD12 after a CMD18: its response does not come, or its status fails, which is found after
the busy wait (spec/44_block_transfer.md R218, spec/60_exceptions.md R287). -/
inductive StopFails : List Turn → Cause → Prop where
  | timeout (t : Turn) : Unanswers 48 t → StopFails [t] .cmdTimeout
  | status (latency : Nat) (r : List Byte) (busy : Nat) :
    Captured 6 r → statusOk (payload r) = false → StopFails [Turn.answer latency r, Turn.busy busy] .statusError

/-- A card's part in a READ_BLOCK: its R1, its blocks, and, if CMD12 follows, the R1b and the busy polls after it. -/
structure ReadPlay where
  latency     : Nat
  r           : List Byte
  blocks      : List CardBlock
  stopLatency : Nat
  stop        : List Byte
  busy        : Nat
deriving DecidableEq, Repr

/-- The Turns of a READ_BLOCK with index `cmd` on `w` lines (spec/44_block_transfer.md R210, R218). -/
def ReadPlay.turns (cmd : BitVec 6) (w : Width) (p : ReadPlay) : List Turn :=
  Turn.answer p.latency p.r :: Turn.blocks w p.blocks ::
    (if cmd = 18#6 then [Turn.answer p.stopLatency p.stop, Turn.busy p.busy] else [])

/-- The card does its part: `n` blocks of `len` bytes, every status passes, and, where the engine compares it, the last
CRC is right. -/
structure ReadPlay.Good (cmd : BitVec 6) (w : Width) (len n : Nat) (verify : Bool) (p : ReadPlay) : Prop where
  answer : Passes p.r
  count  : p.blocks.length = n
  blocks : ∀ b ∈ p.blocks, b.data.length = len ∧ b.crc.length = 2 * w.lines
  stop   : cmd = 18#6 → Passes p.stop
  crc    : verify = true → (p.blocks.getLastD ⟨0, [], [], Tick.quiet⟩).good w

/-- The data bytes of the blocks. -/
def ReadPlay.data (p : ReadPlay) : List Byte := p.blocks.flatMap CardBlock.data

/-- The card's part in SET_WIDTH, if the width changes (spec/45_bus_width.md R230, R231): two R1s that pass; or CMD55
fails; or it passes and ACMD6 fails. -/
inductive WidthPlay where
  | accepted (latency55 : Nat) (r55 : List Byte) (latency6 : Nat) (r6 : List Byte)
  | fails55 (t : Turn) (c : Cause)
  | fails6 (latency55 : Nat) (r55 : List Byte) (t : Turn) (c : Cause)
deriving DecidableEq, Repr

/-- The Turns of SET_WIDTH to `w` from `old`. -/
def WidthPlay.turns (old w : Width) (p : WidthPlay) : List Turn :=
  if w = old then []
  else match p with
    | .accepted latency55 r55 latency6 r6 => [Turn.answer latency55 r55, Turn.answer latency6 r6]
    | .fails55 t _ => [t]
    | .fails6 latency55 r55 t _ => [Turn.answer latency55 r55, t]

/-- The play is as its name says. -/
def WidthPlay.Good (old w : Width) (p : WidthPlay) : Prop :=
  w ≠ old → match p with
    | .accepted _ r55 _ r6 => Passes r55 ∧ Passes r6
    | .fails55 t c => Fails t c
    | .fails6 _ r55 t c => Passes r55 ∧ Fails t c

/-- The width after it: a failure leaves the old one (R234). -/
def WidthPlay.width (old w : Width) : WidthPlay → Width
  | .accepted _ _ _ _ => w
  | .fails55 _ _ | .fails6 _ _ _ _ => old

/-- The cause recorded after it. -/
def WidthPlay.failure (old w : Width) (f : Option Cause) (p : WidthPlay) : Option Cause :=
  if w = old then f
  else match p with
    | .accepted _ _ _ _ => f
    | .fails55 _ c | .fails6 _ _ _ c => some c

/-- The card's part in a WRITE_BLOCK: its R1 and the busy polls. -/
structure WritePlay where
  latency : Nat
  r       : List Byte
  busy    : Nat
deriving DecidableEq, Repr

/-- The Turns of a WRITE_BLOCK (spec/44_block_transfer.md R220, R224). -/
def WritePlay.turns (p : WritePlay) : List Turn := [Turn.answer p.latency p.r, Turn.busy p.busy]

/-- The index of the READ_BLOCK of a chunk of `n` blocks (spec/46_session_host.md R250). -/
def chunkCmd (n : Nat) : BitVec 6 := if n = 1 then 17#6 else 18#6

/-- The Turns of the READ_BLOCKs of a STORAGE_READ of `n` blocks, one play per chunk (R251). -/
def chunkTurns (w : Width) : Nat → List ReadPlay → List Turn
  | _, [] => []
  | n, p :: ps => p.turns (chunkCmd (min n sdMaxReadBlocks)) w ++ chunkTurns w (n - min n sdMaxReadBlocks) ps

/-- The plays are those of the first chunks of `n` blocks, and leave `rest` blocks. -/
def ChunksGood (w : Width) (verify : Bool) : Nat → List ReadPlay → Nat → Prop
  | n, [], rest => n = rest
  | n, p :: ps, rest =>
    0 < n ∧ p.Good (chunkCmd (min n sdMaxReadBlocks)) w blockLenBytes (min n sdMaxReadBlocks) verify ∧
      ChunksGood w verify (n - min n sdMaxReadBlocks) ps rest

/-! ## Bits the block has driven -/

/-- The levels the block drove on CMD, oldest first, of an event history (newest first). -/
def cmdLevels (history : List PinEvent) : List Bool :=
  history.reverse.filterMap fun e => match e with
    | .cmd b => some b
    | .dat0 _ => none

/-- The levels the block drove on DAT0, oldest first. -/
def dat0Levels (history : List PinEvent) : List Bool :=
  history.reverse.filterMap fun e => match e with
    | .cmd _ => none
    | .dat0 b => some b

/-- The history after a frame has been driven on CMD (spec/43_command_response.md R192, R207). -/
def frameEvents (cmd : BitVec 6) (param : Word) : List PinEvent :=
  ((bytesBits (frameBytes cmd param)).map PinEvent.cmd).reverse

/-- The history after a block has been written on DAT0: gap, data, CRC, pad (spec/30_encoding.md R122). -/
def writeBytesOf (data : List Byte) : List Byte :=
  [0xFF#8, 0xFF#8, 0xFF#8, 0xFE#8] ++ data ++ [(crc16 data).extractLsb' 8 8, (crc16 data).extractLsb' 0 8, 0xFF#8, 0xFF#8]

/-- The events of a write stream. -/
def streamEvents (data : List Byte) : List PinEvent := ((bytesBits (writeBytesOf data)).map PinEvent.dat0).reverse

/-- The events of a READ_BLOCK: its command, and CMD12 after a CMD18 (spec/44_block_transfer.md R218). -/
def readEvents (cmd : BitVec 6) (addr : Word) : List PinEvent :=
  (if cmd = 18#6 then frameEvents 12#6 0#32 else []) ++ frameEvents cmd addr

/-- The events of SET_WIDTH to `w` from `old`: CMD55, then ACMD6 if it passed (spec/45_bus_width.md R230). -/
def WidthPlay.events (old w : Width) (rca : BitVec 16) (p : WidthPlay) : List PinEvent :=
  if w = old then []
  else match p with
    | .fails55 _ _ => frameEvents 55#6 (rcaArg rca)
    | .accepted _ _ _ _ | .fails6 _ _ _ _ =>
      frameEvents 6#6 (widthArg (decide (w = .four))) ++ frameEvents 55#6 (rcaArg rca)

/-- The events of the READ_BLOCKs of the chunks from block `done` on, `n` blocks being left, newest first. -/
def chunkEvents (s : Session) (block : Word) : Nat → Nat → List ReadPlay → List PinEvent
  | _, _, [] => []
  | n, done, _ :: ps =>
    chunkEvents s block (n - min n sdMaxReadBlocks) (done + min n sdMaxReadBlocks) ps ++
      readEvents (chunkCmd (min n sdMaxReadBlocks)) (cardAddress s (block + BitVec.ofNat 32 done))

/-- The events of the WRITE_BLOCKs of the blocks `data`, the first being block `done` of the request, newest first. -/
def writeEvents (s : Session) (block : Word) : Nat → List (List Byte) → List PinEvent
  | _, [] => []
  | done, d :: ds =>
    writeEvents s block (done + 1) ds ++
      (streamEvents d ++ frameEvents 24#6 (cardAddress s (block + BitVec.ofNat 32 done)))

/-- The 512-byte blocks of a buffer in memory. -/
def bufferBlocks (m : Memory) (buffer : Word) (n : Nat) : List (List Byte) :=
  (List.range n).map fun k => m.readBytes (buffer + BitVec.ofNat 32 (512 * k)) 512

/-! ## What a card does in STORAGE_INIT -/

/-- The register of a 136-bit response as a number (spec/30_encoding.md R109). -/
def csdNat (r : List Byte) : Nat := (List.range 16).foldl (fun n i => n * 256 + (r.getD (1 + i) 0#8).toNat) 0

/-- `CSD[hi:lo]` (R125, R126). -/
def csdField (r : List Byte) (hi lo : Nat) : Nat := csdNat r / 2 ^ lo % 2 ^ (hi - lo + 1)

/-- The number of blocks a CSD of version 1 or 2 gives (spec/46_session_host.md R244, R125, R126). -/
def csdBlocks (r : List Byte) : Nat :=
  if csdField r 127 126 = 0 then
    (csdField r 73 62 + 1) * 2 ^ (csdField r 49 47 + 2) * 2 ^ csdField r 83 80 / 512
  else (csdField r 69 48 + 1) * 1024

/-- One round of the poll loop of step 5 that does not end it (spec/46_session_host.md R240): CMD55 is not answered, or
its status fails; ACMD41 is not answered; or the card is not ready. -/
inductive InitPoll where
  | silent55
  | status55 (latency : Nat) (r : List Byte)
  | silent41 (latency : Nat) (r : List Byte)
  | notReady (latency : Nat) (r : List Byte) (latency41 : Nat) (ocr : List Byte)
deriving DecidableEq, Repr

/-- The Turns of a round. -/
def InitPoll.turns : InitPoll → List Turn
  | .silent55 => [Turn.silent]
  | .status55 latency r => [Turn.answer latency r]
  | .silent41 latency r => [Turn.answer latency r, Turn.silent]
  | .notReady latency r latency41 ocr => [Turn.answer latency r, Turn.answer latency41 ocr]

/-- The round is as its name says. -/
def InitPoll.Good : InitPoll → Prop
  | .silent55 => True
  | .status55 _ r => Captured 6 r ∧ statusOk (payload r) = false
  | .silent41 _ r => Passes r
  | .notReady _ r _ ocr => Passes r ∧ Captured 6 ocr ∧ (payload ocr).getLsbD 31 = false

/-- The cause recorded after a round. -/
def InitPoll.failure (f : Option Cause) : InitPoll → Option Cause
  | .silent55 => some .cmdTimeout
  | .status55 _ _ => some .statusError
  | .silent41 _ _ => some .cmdTimeout
  | .notReady _ _ _ _ => f

/-- The frames of a round: CMD55 with RCA 0, and ACMD41 if CMD55 passed. -/
def InitPoll.events (arg : Word) : InitPoll → List PinEvent
  | .silent55 | .status55 _ _ => frameEvents 55#6 0#32
  | .silent41 _ _ | .notReady _ _ _ _ => frameEvents 41#6 arg ++ frameEvents 55#6 0#32

/-- The card's part in step 11: the switch-status read succeeds, its command fails, or its data never come. -/
inductive SwitchPlay where
  | read (p : ReadPlay)
  | failed (t : Turn) (c : Cause)
  | noData (latency : Nat) (r : List Byte)
deriving DecidableEq, Repr

/-- The Turns of step 11. -/
def SwitchPlay.turns : SwitchPlay → List Turn
  | .read p => p.turns 6#6 .one
  | .failed t _ => [t]
  | .noData latency r => [Turn.answer latency r, Turn.silent]

/-- Step 11 is as its name says. -/
def SwitchPlay.Good (verify : Bool) : SwitchPlay → Prop
  | .read p => p.Good 6#6 .one switchBlockLenBytes 1 verify
  | .failed t c => Fails t c
  | .noData _ r => Passes r

/-- The cause recorded after step 11. -/
def SwitchPlay.failure (f : Option Cause) : SwitchPlay → Option Cause
  | .read _ => f
  | .failed _ c => some c
  | .noData _ _ => some .dataTimeout

/-- `hs`: the read succeeded and the status byte is 1 (spec/46_session_host.md R248). -/
def SwitchPlay.highSpeed (c : Config) : SwitchPlay → Bool
  | .read p => p.data.getD c.switchStatusByte.val 0#8 == 0x01#8
  | .failed _ _ | .noData _ _ => false

/-- The card's part in a STORAGE_INIT that succeeds (spec/46_session_host.md R235, R259). -/
structure InitPlay where
  latency8  : Nat
  cond      : List Byte
  polls     : List InitPoll
  latency55 : Nat
  r55       : List Byte
  latency41 : Nat
  ocr       : List Byte
  latency2  : Nat
  cid       : List Byte
  latency3  : Nat
  rca       : List Byte
  latency9  : Nat
  csd       : List Byte
  latency7  : Nat
  r7        : List Byte
  busy      : Nat
  switch    : SwitchPlay
deriving DecidableEq, Repr

/-- The Turns of the initialisation: the answer to CMD8, the rounds of the poll loop, the round that ends it, the answers
to CMD2, CMD3, CMD9 and CMD7 with its busy polls, and step 11. -/
def InitPlay.turns (p : InitPlay) : List Turn :=
  Turn.answer p.latency8 p.cond :: (p.polls.flatMap InitPoll.turns ++
    (Turn.answer p.latency55 p.r55 :: Turn.answer p.latency41 p.ocr :: Turn.answer p.latency2 p.cid ::
      Turn.answer p.latency3 p.rca :: Turn.answer p.latency9 p.csd :: Turn.answer p.latency7 p.r7 ::
      Turn.busy p.busy :: p.switch.turns))

/-- The card answers every mandatory step: the interface condition is echoed (R239), the last round reports ready (R240),
the CSD is of version 1 or 2 and its count of blocks fits (R244), and the statuses of CMD55 and CMD7 pass. -/
structure InitPlay.Good (verify : Bool) (p : InitPlay) : Prop where
  cond   : Captured 6 p.cond ∧ ifCondOk p.cond = true
  polls  : ∀ x ∈ p.polls, x.Good
  app    : Passes p.r55
  ocr    : Captured 6 p.ocr ∧ (payload p.ocr).getLsbD 31 = true
  cid    : Captured 17 p.cid
  rca    : Captured 6 p.rca
  csd    : Captured 17 p.csd ∧ csdField p.csd 127 126 ≤ 1 ∧ csdBlocks p.csd < 2 ^ 32
  select : Passes p.r7
  switch : p.switch.Good verify

/-- The session a successful initialisation establishes (R241, R243, R245, R236). -/
def InitPlay.session (p : InitPlay) : Session where
  cardSizeBlocks := BitVec.ofNat 32 (csdBlocks p.csd)
  isHcs          := (payload p.ocr).getLsbD 30
  cardRca        := p.rca.getD 1 0#8 ++ p.rca.getD 2 0#8
  dataWidth      := .one

/-- The frames of a successful initialisation, newest first (spec/47_wire_commands.md R275). -/
def InitPlay.events (c : Config) (p : InitPlay) : List PinEvent :=
  frameEvents 6#6 c.cmd6Arg ++ frameEvents 7#6 (rcaArg p.session.cardRca) ++ frameEvents 9#6 (rcaArg p.session.cardRca) ++
    frameEvents 3#6 0#32 ++ frameEvents 2#6 0#32 ++ frameEvents 41#6 c.acmd41Arg ++ frameEvents 55#6 0#32 ++
    p.polls.reverse.flatMap (InitPoll.events c.acmd41Arg) ++ frameEvents 8#6 ifCondPattern ++ frameEvents 0#6 0#32

/-- The mandatory steps of STORAGE_INIT that can fail (spec/46_session_host.md R256): step 4, and steps 7 to 10. -/
inductive InitStep where
  | ifCond
  | cid
  | rca
  | csd
  | select
deriving DecidableEq, Repr

/-- The card's Turn fails the step's command, for this cause (R239, R242, R243, R245, R247). -/
def InitStep.Fails (t : Turn) (c : Cause) : InitStep → Prop
  | .ifCond =>
    Unanswers 48 t ∧ c = .cmdTimeout ∨
      c = .ifCond ∧ ∃ latency r, t = Turn.answer latency r ∧ Captured 6 r ∧ ifCondOk r = false
  | .cid | .csd => Unanswers 136 t ∧ c = .cmdTimeout
  | .rca => Unanswers 48 t ∧ c = .cmdTimeout
  | .select => Machine.Fails t c

/-- The Turns of the initialisation up to the end of step 5's loop. -/
def InitPlay.turnsReady (p : InitPlay) : List Turn :=
  Turn.answer p.latency8 p.cond :: (p.polls.flatMap InitPoll.turns ++
    [Turn.answer p.latency55 p.r55, Turn.answer p.latency41 p.ocr])

/-- The Turns of the initialisation before the command of a step. -/
def InitPlay.turnsTo (p : InitPlay) : InitStep → List Turn
  | .ifCond => []
  | .cid => p.turnsReady
  | .rca => p.turnsReady ++ [Turn.answer p.latency2 p.cid]
  | .csd => p.turnsReady ++ [Turn.answer p.latency2 p.cid, Turn.answer p.latency3 p.rca]
  | .select => p.turnsReady ++ [Turn.answer p.latency2 p.cid, Turn.answer p.latency3 p.rca, Turn.answer p.latency9 p.csd]

/-- The session fields the steps before it have written, over those STORAGE_INIT started from (R256). -/
def InitPlay.sessionTo (p : InitPlay) (x : Session) : InitStep → Session
  | .ifCond => { x with cardRca := 0#16, dataWidth := .one }
  | .cid | .rca => { x with cardRca := 0#16, dataWidth := .one, isHcs := (payload p.ocr).getLsbD 30 }
  | .csd => { p.session with cardSizeBlocks := x.cardSizeBlocks }
  | .select => p.session

/-- The frames up to the end of step 5's loop, newest first. -/
def InitPlay.eventsReady (c : Config) (p : InitPlay) : List PinEvent :=
  frameEvents 41#6 c.acmd41Arg ++ frameEvents 55#6 0#32 ++ p.polls.reverse.flatMap (InitPoll.events c.acmd41Arg) ++
    frameEvents 8#6 ifCondPattern ++ frameEvents 0#6 0#32

/-- The frames up to the step's command, newest first. -/
def InitPlay.eventsTo (c : Config) (p : InitPlay) : InitStep → List PinEvent
  | .ifCond => frameEvents 8#6 ifCondPattern ++ frameEvents 0#6 0#32
  | .cid => frameEvents 2#6 0#32 ++ p.eventsReady c
  | .rca => frameEvents 3#6 0#32 ++ frameEvents 2#6 0#32 ++ p.eventsReady c
  | .csd => frameEvents 9#6 (rcaArg p.session.cardRca) ++ frameEvents 3#6 0#32 ++ frameEvents 2#6 0#32 ++ p.eventsReady c
  | .select => frameEvents 7#6 (rcaArg p.session.cardRca) ++ frameEvents 9#6 (rcaArg p.session.cardRca) ++
      frameEvents 3#6 0#32 ++ frameEvents 2#6 0#32 ++ p.eventsReady c

/-- The divider of step 12 (R248). -/
def finalClkdiv (c : Config) (hs : Bool) : Nat :=
  match hs, c.overclock with
  | false, false => c.clkdivDefault
  | false, true => c.clkdivDefaultOc
  | true, false => c.clkdivHighspeed
  | true, true => c.clkdivHighspeedOc

/-- The engine polls for a ready card without end (R240, R286): the state STORAGE_INIT waits in when nothing more comes
from the card. -/
structure PollsForEver (s : State) : Prop where
  phase   : s.phase = .init5
  stack   : s.stack = [.initPoll]
  busy    : s.done = false
  card    : s.card = []
  invalid : s.sessionValid = false
  lanes   : s.lanes = s.session.dataWidth
  mem     : Memory.wf s.mem = true
  cseq    : s.cseq.Quiet
  cwaits  : s.cseq.mode = .wait
  dseq    : s.dseq.Quiet
  dwaits  : s.dseq.mode = .wait
  dma0    : s.dma0.busy = false
  dma1    : s.dma1.busy = false
  clock   : s.kseq.running = true
  cfg     : s.cfg.wf
  bound   : s.cfg.busyTimeout = none

/-! ## The raw capture of a response -/

/-- The raw words of a response whose bytes make the words `ts`: the start bit is missing, so that every bit stands one
place higher than in `ts`, and `pad` follows at the end (spec/30_encoding.md R110). -/
def rawWords (pad : Bool) : List Word → List Word
  | [] => []
  | [t] => [(t <<< 1) ||| (if pad then 1#32 else 0#32)]
  | t :: u :: ts => ((t <<< 1) ||| (u >>> 31)) :: rawWords pad (u :: ts)

end Sys2Proof.Machine
end

