-- ==== Sys2Proof/Certificates/Slice0/Obligations.lean ====
section
/-! DEFINITION. The statements for the provers. Each docstring names the rule of spec/ it formalises, or the log entry
it rests on. -/

open Sys2Proof Sys2Proof.Machine

/-! ## Encoding -/

/-- Words written out from the spec's encodings: the frames of spec/47_wire_commands.md R260 to R273 and the selector codes of
spec/30_encoding.md R128 (the place of operand words in a record: log 3). -/
def Obligations.WrittenWordsDecode : Prop :=
  decode false [0x40#8, 0#8, 0#8, 0#8, 0#8, 0x95#8] = .ok (.cmd0, []) ∧
  decode false [0x48#8, 0#8, 0#8, 0x01#8, 0xAA#8, 0x87#8] = .ok (.cmd8, []) ∧
  decode false [0x77#8, 0x12#8, 0x34#8, 0#8, 0#8, 0xBF#8] = .ok (.cmd55 0x1234#16, []) ∧
  decode true [0x46#8, 0#8, 0#8, 0#8, 0x02#8, 0xCB#8] = .ok (.acmd6 true, []) ∧
  decode false [0x46#8, 0x80#8, 0xFF#8, 0xFF#8, 0xF1#8, 0x29#8] = .ok (.cmd6 0x80FFFFF1#32, []) ∧
  decode true [0x69#8, 0x40#8, 0xFF#8, 0x80#8, 0#8, 0x17#8] = .ok (.acmd41 0x40FF8000#32, []) ∧
  decode false [0x0A#8] = .ok (.storageInit, []) ∧
  decode false [0x09#8, 0x04#8, 0#8, 0#8, 0#8] = .ok (.setWidth 4#32, [])

/-- Every instruction's record decodes to it, at every value of every operand, whatever follows (log 3). An application
command is read after an accepted CMD55, and index 6 without it is CMD6 (spec/30_encoding.md R111, R130). -/
def Obligations.DecodeEncode : Prop :=
  ∀ (i : Instr) (app : Bool) (rest : List Byte), (i.isApp = true → app = true) →
    (∀ arg, i = .cmd6 arg → app = false) → decode app (encode i ++ rest) = .ok (i, rest)

/-- No two records mean the same: what decodes to an instruction is that instruction's record, but for the sixth byte of a
frame, whose CRC7 field is in no mask (spec/30_encoding.md R130; log 4). -/
def Obligations.EncodeDecode : Prop :=
  ∀ (app : Bool) (bs rest : List Byte) (i : Instr), decode app bs = .ok (i, rest) →
    ((bs.headD 0#8).toNat < 16 → encode i ++ rest = bs) ∧
    (16 ≤ (bs.headD 0#8).toNat → (encode i ++ rest).set 5 (bs.getD 5 0#8) = bs ∧ (bs.getD 5 0#8).getLsbD 0 = true)

/-- An index the engine does not send is no request, and selector code 15 neither (spec/30_encoding.md R130, R128, R131;
log 3). -/
def Obligations.UnusedEncodingsRefused : Prop :=
  (∀ (app : Bool) (index : BitVec 6) (arg : Word) (rest : List Byte),
    index.toNat ∉ [0, 2, 3, 6, 7, 8, 9, 12, 17, 18, 24, 41, 55] →
    decode app (frameBytes index arg ++ rest) = .error .unusedIndex) ∧
  (∀ (app : Bool) (bs : List Byte), decode app (0x0F#8 :: bs) = .error .reservedSelector)

/-- The command frame as a bit string, first bit first (spec/30_encoding.md R102): start bit 0, transmission bit 1, six
index bits, thirty-two argument bits, the bit-serial CRC7 of the forty bits before it (spec/40_crc.md R142), end bit 1. -/
def Obligations.FrameBits : Prop :=
  ∀ (cmd : BitVec 6) (param : Word), ∃ head : List Bool,
    head = [false, true] ++ (List.range 6).map (fun i => cmd.getLsbD (5 - i)) ++
      (List.range 32).map (fun i => param.getLsbD (31 - i)) ∧
    bytesBits (frameBytes cmd param) =
      head ++ (List.range 7).map (fun i => (crc7Serial head).getLsbD (6 - i)) ++ [true]

/-! ## CRC -/

/-- The bit-serial forms give the values of the byte-wise encoders (spec/40_crc.md R142, R145). -/
def Obligations.CrcSerialForms : Prop :=
  (∀ bs : List Byte, crc7 bs = crc7Serial (bytesBits bs)) ∧ (∀ bs : List Byte, crc16 bs = crc16Serial (bytesBits bs))

/-- CRC7 and CRC16 are linear over inputs of equal length, and a sequence with its CRC appended has CRC 0
(spec/40_crc.md R143 (a), (b), R146). -/
def Obligations.CrcLaws : Prop :=
  (∀ xs ys : List Byte, xs.length = ys.length →
    crc7 (List.zipWith (· ^^^ ·) xs ys) = crc7 xs ^^^ crc7 ys ∧
    crc16 (List.zipWith (· ^^^ ·) xs ys) = crc16 xs ^^^ crc16 ys) ∧
  (∀ bs : List Byte, crc7 (bs ++ [crc7 bs ++ 0#1]) = 0#7 ∧
    crc16 (bs ++ [(crc16 bs).extractLsb' 8 8, (crc16 bs).extractLsb' 0 8]) = 0#16)

/-- The operations CRC7 and CRC16 return the CRC of the bytes at the address, of any length, 0 included, and write nothing
but their own register (spec/40_crc.md R140, R144; that the register keeps the final value is log 19). -/
def Obligations.CrcOperations : Prop :=
  ∀ (s : State) (a n : Word), s.Inv → s.phase = .idle → extentOk s.cfg a n.toNat = true →
    exec (.crc7 a n) s = .next { s with
      result := .crc7 (crc7Serial (bytesBits (s.mem.readBytes a n.toNat))), crc7Reg := crc7Reg (s.mem.readBytes a n.toNat) } ∧
    exec (.crc16 a n) s = .next { s with
      result := .crc16 (crc16Serial (bytesBits (s.mem.readBytes a n.toNat)))
      crc16Reg := crc16Serial (bytesBits (s.mem.readBytes a n.toNat)) }

/-! ## The command/response engine -/

/-- BUILD_FRAME returns the frame of any index up to 63 and any argument and writes nothing but the engine's frame buffer
and the CRC7 register (spec/43_command_response.md R190). -/
def Obligations.BuildFrameCompletes : Prop :=
  ∀ (s : State) (cmd : BitVec 6) (param : Word), s.Inv → s.phase = .idle → s.cfg.wf →
    ∃ t, exec (.buildFrame (cmd.setWidth 32) param) s = .next t ∧
      t.result = .frame ([(0x40#8 ||| cmd.setWidth 8), wordByte param 3, wordByte param 2, wordByte param 1, wordByte param 0] ++
        [((crc7 [(0x40#8 ||| cmd.setWidth 8), wordByte param 3, wordByte param 2, wordByte param 1, wordByte param 0]).setWidth 8
          <<< 1) ||| 1#8]) ∧
      Memory.wf t.mem = true ∧
      (∀ x, ¬ inExtent s.cfg.frameAddr 6 x → Memory.read t.mem x = Memory.read s.mem x) ∧
      t = { s with mem := t.mem, crc7Reg := t.crc7Reg, result := t.result }

/-- RESP_FIX turns the raw capture of a response (spec/30_encoding.md R110) into the bytes of the response, whatever the
pad, for two words and for five (spec/43_command_response.md R196). -/
def Obligations.RespFixReassembles : Prop :=
  ∀ (s : State) (a n : Word) (pad : Bool) (ts : List Word), s.Inv → s.phase = .idle → (n = 2#32 ∨ n = 5#32) →
    a.toNat % 4 = 0 → extentOk s.cfg a (4 * n.toNat) = true → ts.length = n.toNat → (ts.headD 0#32).getLsbD 31 = false →
    s.mem.readWords a n.toNat = rawWords pad ts →
    ∃ t, exec (.respFix a n) s = .next t ∧
      t.mem.readBytes a (4 * n.toNat) = ts.flatMap wordBytesBE ∧ Memory.wf t.mem = true ∧
      (∀ x, ¬ inExtent a (4 * n.toNat) x → Memory.read t.mem x = Memory.read s.mem x) ∧
      t = { s with mem := t.mem, result := .none }

/-- CHECK_RES_STATUS tests bytes 1 to 4 against the mask and changes nothing (spec/43_command_response.md R200). -/
def Obligations.CheckResStatusCompletes : Prop :=
  ∀ (s : State) (a : Word), s.Inv → s.phase = .idle → a.toNat % 4 = 0 → extentOk s.cfg a 5 = true →
    exec (.checkResStatus a) s = .next { s with
      result := .bool (decide (((s.mem.read (a + 1#32).toNat ++ s.mem.read (a + 2#32).toNat : BitVec 16) ++
        (s.mem.read (a + 3#32).toNat ++ s.mem.read (a + 4#32).toNat : BitVec 16) : BitVec 32) &&& 0xFDF98008#32 = 0#32)) }

/-- SD_COMMAND without a response drives its frame on CMD and returns true, whatever the card does; DMA0 and the response
buffer are not touched (spec/43_command_response.md R194, R207). -/
def Obligations.SdCommandWithoutResponse : Prop :=
  ∀ (s : State) (cmd : BitVec 6) (param a : Word), s.Ready →
    ∃ t, exec (.sdCommand (cmd.setWidth 32) param 0#32 a) s = .next t ∧
      CommandFrame (inExtent s.cfg.frameAddr 6) s t ∧ t.dma0 = s.dma0 ∧
      Returned t (.bool true) s.session s.lastFailure false s.card (frameEvents cmd param ++ s.history)

/-- SD_COMMAND with a response: the bytes the card sends stand in the buffer as sent, whatever the latency
(spec/43_command_response.md R193, R196, R207), for 48 bits and for 136; nothing else of memory changes but the frame
buffer. SD_COMMAND judges no content (R198); that a CMD55 whose status passes sets the decoder's bit of state is log 23. -/
def Obligations.SdCommandAnswered : Prop :=
  ∀ (s : State) (cmd : BitVec 6) (param size a : Word) (n latency : Nat) (r : List Byte) (rest : List Turn), s.Ready →
    (size = 48#32 ∧ n = 6 ∨ size = 136#32 ∧ n = 17) → alignedNonNull a = true → extentOk s.cfg a (4 * ((n + 3) / 4)) = true →
    Captured n r → s.card = Turn.answer latency r :: rest →
    ∃ t, exec (.sdCommand (cmd.setWidth 32) param size a) s = .next t ∧
      CommandFrame (fun x => inExtent s.cfg.frameAddr 6 x ∨ inExtent a (4 * ((n + 3) / 4)) x) s t ∧
      t.mem.readBytes a n = r ∧
      Returned t (.bool true) s.session s.lastFailure (decide (cmd = 55#6) && statusOk (payload r)) rest
        (frameEvents cmd param ++ s.history)

/-- A response shorter than asked for (48 bits sent, 136 expected): the surplus bytes read as the released line, and the
call returns true (spec/43_command_response.md R193). -/
def Obligations.SdCommandShortAnswer : Prop :=
  ∀ (s : State) (cmd : BitVec 6) (param a : Word) (latency : Nat) (r : List Byte) (rest : List Turn), s.Ready →
    alignedNonNull a = true → extentOk s.cfg a 20 = true → Captured 6 r → s.card = Turn.answer latency r :: rest →
    ∃ t, exec (.sdCommand (cmd.setWidth 32) param 136#32 a) s = .next t ∧
      CommandFrame (fun x => inExtent s.cfg.frameAddr 6 x ∨ inExtent a 20 x) s t ∧
      t.mem.readBytes a 17 = r ++ List.replicate 11 0xFF#8 ∧ t.result = .bool true

/-- A card that does not give its response in time, be it silent or cut off by the deadline: false with CMD_TIMEOUT, the block
at rest, the frame sent in full; the response buffer is unspecified, everything else of memory as before
(spec/43_command_response.md R193, R195; spec/60_exceptions.md R284). -/
def Obligations.SdCommandSilent : Prop :=
  ∀ (s : State) (cmd : BitVec 6) (param size a : Word) (n : Nat) (u : Turn) (rest : List Turn), s.Ready →
    (size = 48#32 ∧ n = 8 ∨ size = 136#32 ∧ n = 20) → alignedNonNull a = true → extentOk s.cfg a n = true →
    Unanswers size.toNat u → s.card = u :: rest →
    ∃ t, exec (.sdCommand (cmd.setWidth 32) param size a) s = .next t ∧
      CommandFrame (fun x => inExtent s.cfg.frameAddr 6 x ∨ inExtent a n x) s t ∧
      Returned t (.bool false) s.session (some .cmdTimeout) false rest (frameEvents cmd param ++ s.history)

/-- Whatever the card does in SD_COMMAND, one call sends one frame, takes one Turn of the card, and leaves CSEQ and DMA0 at
rest and everything else of the block alone (spec/43_command_response.md R198, R199). -/
def Obligations.SdCommandAlwaysReturns : Prop :=
  ∀ (s : State) (cmd : BitVec 6) (param size a : Word) (n : Nat), s.Ready →
    (size = 48#32 ∧ n = 8 ∨ size = 136#32 ∧ n = 20) → alignedNonNull a = true → extentOk s.cfg a n = true →
    ∃ t b, exec (.sdCommand (cmd.setWidth 32) param size a) s = .next t ∧
      CommandFrame (fun x => inExtent s.cfg.frameAddr 6 x ∨ inExtent a n x) s t ∧
      t.result = .bool b ∧ t.session = s.session ∧ t.card = s.card.tail ∧
      t.lastFailure = (if b then s.lastFailure else some .cmdTimeout) ∧ t.history = frameEvents cmd param ++ s.history

/-- WAIT_NOT_BUSY ends at the first high level, and a line that nobody drives is high; without a result, it changes nothing
(spec/43_command_response.md R203, spec/41_sequencers.md R164). -/
def Obligations.WaitNotBusyCompletes : Prop :=
  ∀ (s : State) (n : Nat) (rest : List Turn), s.Ready →
    (s.card = Turn.busy n :: rest ∨ s.card = Turn.release n :: rest →
      exec .waitNotBusy s = .next { s with result := .none, card := rest }) ∧
    (s.card = [] → exec .waitNotBusy s = .next { s with result := .none })

/-- Without BUSY_TIMEOUT a line that the card holds low is a hang: the engine keeps the pin, stays at the waiting step, and
steps for ever without a result; when the line goes high the next step returns (spec/43_command_response.md R203, R204;
spec/60_exceptions.md R286; the step of a waiting engine is log 21). -/
def Obligations.WaitNotBusyHangs : Prop :=
  ∀ (s : State) (n : Nat) (rest : List Turn), s.Ready → s.cfg.busyTimeout = none → s.card = Turn.stuck n :: rest →
    ∃ t, exec .waitNotBusy s = .next t ∧ t.phase ≠ .idle ∧ t.done = false ∧ t.cseq.owner = .engine ∧ t.result = s.result ∧
      t.card = s.card ∧ t.history = s.history ∧ t.mem = s.mem ∧ t.session = s.session ∧ step t = .next t ∧
      ∀ (m : Nat) (rest : List Turn), step { t with card := Turn.busy m :: rest } = .next { s with result := .none, card := rest }

/-- With BUSY_TIMEOUT set a line that is low until the deadline, for ever among it, ends the wait, and the cause is recorded
(spec/43_command_response.md R204, spec/60_exceptions.md R281; the variant's details are log 17). -/
def Obligations.WaitNotBusyExpires : Prop :=
  ∀ (s : State) (d n : Nat) (rest : List Turn), s.Ready → s.cfg.busyTimeout = some d →
    s.card = Turn.overdue n :: rest ∨ s.card = Turn.stuck n :: rest →
    exec .waitNotBusy s = .next { s with result := .none, card := rest, lastFailure := some .busyTimeout }

/-! ## The wire commands (their results are log 29, that they need no session log 30) -/

/-- CMD0 sends its frame and cannot fail (spec/47_wire_commands.md R260; spec/46_session_host.md R237). -/
def Obligations.Cmd0Completes : Prop :=
  ∀ s : State, s.Ready → ∃ t, exec .cmd0 s = .next t ∧ CommandFrame (inHead s.cfg) s t ∧ t.dma0 = s.dma0 ∧
    Returned t (.bool true) s.session s.lastFailure false s.card (frameEvents 0#6 0#32 ++ s.history)

/-- CMD2 captures seventeen bytes and uses none of them (spec/47_wire_commands.md R261). -/
def Obligations.Cmd2Completes : Prop :=
  ∀ (s : State) (latency : Nat) (r : List Byte) (rest : List Turn), s.Ready → Captured 17 r →
    s.card = Turn.answer latency r :: rest →
    ∃ t, exec .cmd2 s = .next t ∧ CommandFrame (inHead s.cfg) s t ∧ t.mem.readBytes s.cfg.respAddr 17 = r ∧
      Returned t (.bool true) s.session s.lastFailure false rest (frameEvents 2#6 0#32 ++ s.history)

/-- CMD3 takes the card's RCA from bytes 1 and 2 of its R6, which is not checked (spec/47_wire_commands.md R262). -/
def Obligations.Cmd3Completes : Prop :=
  ∀ (s : State) (latency : Nat) (r : List Byte) (rest : List Turn), s.Ready → Captured 6 r →
    s.card = Turn.answer latency r :: rest →
    ∃ t, exec .cmd3 s = .next t ∧ CommandFrame (inHead s.cfg) s t ∧
      Returned t (.bool true) { s.session with cardRca := (r.getD 1 0#8 ++ r.getD 2 0#8 : BitVec 16) } s.lastFailure false
        rest (frameEvents 3#6 0#32 ++ s.history)

/-- CMD6 reads the 64-byte status block; the result is whether its status byte says "high speed"
(spec/47_wire_commands.md R263, spec/46_session_host.md R248; that the request needs no session is log 30, that a CRC check
under VERIFY_READ_CRC leaves `crc16_reg` alone log 19). -/
def Obligations.Cmd6Completes : Prop :=
  ∀ (s : State) (arg : Word) (p : ReadPlay) (rest : List Turn), s.Ready →
    p.Good 6#6 s.session.dataWidth 64 1 s.cfg.verifyReadCrc → s.card = p.turns 6#6 s.session.dataWidth ++ rest →
    ∃ t, exec (.cmd6 arg) s = .next t ∧ RequestFrame (inStorage s.cfg) s t ∧ t.crc16Reg = s.crc16Reg ∧
      t.mem.readBytes s.cfg.swAddr 64 = p.data ∧
      Returned t (.bool (decide (p.data.getD s.cfg.switchStatusByte.val 0#8 = 0x01#8))) s.session s.lastFailure false rest
        (frameEvents 6#6 arg ++ s.history)

/-- ACMD6 sets the width, and `DSEQ.lanes` with it, exactly when its R1 passes (spec/47_wire_commands.md R264,
spec/45_bus_width.md R232; that the request needs no session, unlike SET_WIDTH, is log 30). -/
def Obligations.Acmd6Completes : Prop :=
  ∀ (s : State) (wide : Bool) (latency : Nat) (r : List Byte) (rest : List Turn), s.Ready → Captured 6 r →
    s.card = Turn.answer latency r :: rest →
    ∃ t, exec (.acmd6 wide) s = .next t ∧ CommandFrame (inHead s.cfg) s t ∧
      (statusOk (payload r) = true → t.lanes = (if wide then .four else .one) ∧
        Returned t (.bool true) { s.session with dataWidth := if wide then .four else .one } s.lastFailure false rest
          (frameEvents 6#6 (if wide then 2#32 else 0#32) ++ s.history)) ∧
      (statusOk (payload r) = false → t.lanes = s.lanes ∧
        Returned t (.bool false) s.session (some .statusError) false rest
          (frameEvents 6#6 (if wide then 2#32 else 0#32) ++ s.history))

/-- CMD7: its R1b is checked; if it passes the engine waits for the line to go high, else it polls nothing
(spec/47_wire_commands.md R265, spec/46_session_host.md R247). -/
def Obligations.Cmd7Completes : Prop :=
  ∀ (s : State) (rca : BitVec 16) (latency n : Nat) (r : List Byte) (rest : List Turn), s.Ready → Captured 6 r →
    s.card = Turn.answer latency r :: Turn.busy n :: rest →
    ∃ t, exec (.cmd7 rca) s = .next t ∧ CommandFrame (inHead s.cfg) s t ∧
      (statusOk (payload r) = true →
        Returned t (.bool true) s.session s.lastFailure false rest (frameEvents 7#6 (rca ++ 0#16) ++ s.history)) ∧
      (statusOk (payload r) = false →
        Returned t (.bool false) s.session (some .statusError) false (Turn.busy n :: rest)
          (frameEvents 7#6 (rca ++ 0#16) ++ s.history))

/-- CMD8 accepts exactly when the voltage nibble is 1 and the pattern is echoed; it is not given to CHECK_RES_STATUS
(spec/47_wire_commands.md R266, spec/46_session_host.md R239). -/
def Obligations.Cmd8Completes : Prop :=
  ∀ (s : State) (latency : Nat) (r : List Byte) (rest : List Turn), s.Ready → Captured 6 r →
    s.card = Turn.answer latency r :: rest →
    ∃ t, exec .cmd8 s = .next t ∧ CommandFrame (inHead s.cfg) s t ∧
      (r.getD 3 0#8 &&& 0x0F#8 = 0x01#8 ∧ r.getD 4 0#8 = 0xAA#8 →
        Returned t (.bool true) s.session s.lastFailure false rest (frameEvents 8#6 0x1AA#32 ++ s.history)) ∧
      (¬ (r.getD 3 0#8 &&& 0x0F#8 = 0x01#8 ∧ r.getD 4 0#8 = 0xAA#8) →
        Returned t (.bool false) s.session (some .ifCond) false rest (frameEvents 8#6 0x1AA#32 ++ s.history))

/-- CMD9 takes the capacity from the CSD it captures (spec/47_wire_commands.md R267, spec/46_session_host.md R245, R244). -/
def Obligations.Cmd9Completes : Prop :=
  ∀ (s : State) (rca : BitVec 16) (latency : Nat) (r : List Byte) (rest : List Turn), s.Ready → Captured 17 r →
    csdField r 127 126 ≤ 1 → csdBlocks r < 2 ^ 32 → s.card = Turn.answer latency r :: rest →
    ∃ t, exec (.cmd9 rca) s = .next t ∧ CommandFrame (inHead s.cfg) s t ∧
      Returned t (.bool true) { s.session with cardSizeBlocks := BitVec.ofNat 32 (csdBlocks r) } s.lastFailure false rest
        (frameEvents 9#6 (rca ++ 0#16) ++ s.history)

/-- CMD12: the busy wait comes first, whatever the status; then the status decides (spec/47_wire_commands.md R268,
spec/44_block_transfer.md R218). -/
def Obligations.Cmd12Completes : Prop :=
  ∀ (s : State) (latency n : Nat) (r : List Byte) (rest : List Turn), s.Ready → Captured 6 r →
    s.card = Turn.answer latency r :: Turn.busy n :: rest →
    ∃ t, exec .cmd12 s = .next t ∧ CommandFrame (inHead s.cfg) s t ∧
      Returned t (.bool (statusOk (payload r))) s.session (if statusOk (payload r) then s.lastFailure else some .statusError)
        false rest (frameEvents 12#6 0#32 ++ s.history)

/-- ACMD41: OCR bit 31 says ready, and then bit 30 is the capacity flag; its R3 is not given to CHECK_RES_STATUS
(spec/47_wire_commands.md R272, spec/46_session_host.md R240, R241). -/
def Obligations.Acmd41Completes : Prop :=
  ∀ (s : State) (arg : Word) (latency : Nat) (r : List Byte) (rest : List Turn), s.Ready → Captured 6 r →
    s.card = Turn.answer latency r :: rest →
    ∃ t, exec (.acmd41 arg) s = .next t ∧ CommandFrame (inHead s.cfg) s t ∧
      ((r.getD 1 0#8).getLsbD 7 = true →
        Returned t (.bool true) { s.session with isHcs := (r.getD 1 0#8).getLsbD 6 } s.lastFailure false rest
          (frameEvents 41#6 arg ++ s.history)) ∧
      ((r.getD 1 0#8).getLsbD 7 = false →
        Returned t (.bool false) s.session s.lastFailure false rest (frameEvents 41#6 arg ++ s.history))

/-- CMD55 is checked, and the next frame is read as an application command's exactly when it was accepted
(spec/47_wire_commands.md R273, spec/30_encoding.md R111). -/
def Obligations.Cmd55Completes : Prop :=
  ∀ (s : State) (rca : BitVec 16) (latency : Nat) (r : List Byte) (rest : List Turn), s.Ready → Captured 6 r →
    s.card = Turn.answer latency r :: rest →
    ∃ t, exec (.cmd55 rca) s = .next t ∧ CommandFrame (inHead s.cfg) s t ∧
      Returned t (.bool (statusOk (payload r))) s.session (if statusOk (payload r) then s.lastFailure else some .statusError)
        (statusOk (payload r)) rest (frameEvents 55#6 (rca ++ 0#16) ++ s.history)

/-- A wire command whose response does not come in time fails with CMD_TIMEOUT after exactly its own frame, and nothing of the
session changes (spec/47_wire_commands.md R261 to R268, R272, R273, clause "Failures"; spec/60_exceptions.md R284). -/
def Obligations.WireCommandsTimeOut : Prop :=
  ∀ (s : State) (i : Instr) (n : Nat) (u : Turn) (rest : List Turn) (rca : BitVec 16) (arg : Word) (wide : Bool), s.Ready →
    (i ∈ [Instr.cmd2, .cmd9 rca] ∧ n = 136 ∨
      i ∈ [Instr.cmd3, .acmd6 wide, .cmd7 rca, .cmd8, .cmd12, .acmd41 arg, .cmd55 rca] ∧ n = 48) →
    Unanswers n u → s.card = u :: rest →
    ∃ t, exec i s = .next t ∧ CommandFrame (inHead s.cfg) s t ∧
      Returned t (.bool false) s.session (some .cmdTimeout) false rest
        (((bytesBits (encode i)).map PinEvent.cmd).reverse ++ s.history)

/-! ## The block transfer engine -/

/-- READ_BLOCK, and the wire commands CMD17 and CMD18 that are its commands: the blocks the card sends stand in the buffer
in wire order, the last block's CRC at the CRC destination, CMD12 follows a CMD18 and only that, and nothing of memory
changes but the buffer, the CRC destination and the engine's storage (spec/44_block_transfer.md R210, R214, R216, R218; that
a CRC check under VERIFY_READ_CRC leaves `crc16_reg` alone is log 19). -/
def Obligations.ReadBlockDeliversTheBlocks : Prop :=
  ∀ (s : State) (cmd : BitVec 6) (addr buffer count crc : Word) (p : ReadPlay) (rest : List Turn), s.Ready →
    s.sessionValid = true → readOperandsOk (cmd.setWidth 32) buffer count crc = true → count.toNat ≤ 32 →
    readExtentsOk (cmd.setWidth 32) buffer count.toNat crc s = true →
    p.Good cmd s.session.dataWidth (if cmd = 6#6 then 64 else 512) count.toNat s.cfg.verifyReadCrc →
    s.card = p.turns cmd s.session.dataWidth ++ rest →
    ∃ t, exec (.readBlock (cmd.setWidth 32) addr buffer count crc) s = .next t ∧
      (cmd = 17#6 → exec (.cmd17 addr buffer crc) s = .next t) ∧
      (cmd = 18#6 → exec (.cmd18 addr buffer count crc) s = .next t) ∧
      RequestFrame (fun x => inStorage s.cfg x ∨ inExtent buffer (count.toNat * (if cmd = 6#6 then 64 else 512)) x ∨
        crc ≠ 0#32 ∧ inExtent crc (4 * s.session.dataWidth.crcWords) x) s t ∧
      t.crc16Reg = s.crc16Reg ∧
      t.mem.readBytes buffer (count.toNat * (if cmd = 6#6 then 64 else 512)) = p.data ∧
      (crc ≠ 0#32 → t.mem.readBytes crc (2 * s.session.dataWidth.lines) = (p.blocks.getLastD ⟨0, [], [], Tick.quiet⟩).crc) ∧
      Returned t (.bool true) s.session s.lastFailure false rest (readEvents cmd addr ++ s.history)

/-- A READ_BLOCK of more than 32 blocks returns false without issuing any command: no sequencer, no channel, no memory and
no line is touched, whatever the other operands are (spec/44_block_transfer.md R211, spec/60_exceptions.md R287, of READ_BLOCK;
that CMD18 as a request is the READ_BLOCK it is the command of is log 2). -/
def Obligations.ReadBlockChainLimit : Prop :=
  ∀ (s : State) (cmd addr buffer count crc : Word), s.Inv → s.phase = .idle → 32 < count.toNat →
    exec (.readBlock cmd addr buffer count crc) s =
      .next { s with result := .bool false, lastFailure := some .chainLimit } ∧
    exec (.cmd18 addr buffer count crc) s = .next { s with result := .bool false, lastFailure := some .chainLimit }

/-- A READ_BLOCK one of whose commands fails returns false with that cause and is cleaned up, and so do the wire commands
CMD17, CMD18 and CMD6 that are its commands. If it is the read command, no CMD12 is sent and the buffers are unspecified
(spec/44_block_transfer.md R219, R227; spec/47_wire_commands.md R263). If it is the CMD12 after a CMD18, it fails although its
data landed (spec/44_block_transfer.md R218, spec/47_wire_commands.md R268), and the buffers are unspecified as well; that
CMD12 is sent, and its failure recorded, even where VERIFY_READ_CRC is set and the last block's CRC is wrong is log 18. What
"unspecified" means is the last clause: the write extent holds whatever the draws are (spec/20_memory.md R80; that the whole of
it does, after a failed CMD12 too, is log 13). -/
def Obligations.ReadBlockCommandFails : Prop :=
  (∀ (s : State) (cmd : BitVec 6) (addr buffer count crc : Word) (f : Turn) (c : Cause) (rest : List Turn), s.Ready →
    s.sessionValid = true → readOperandsOk (cmd.setWidth 32) buffer count crc = true → count.toNat ≤ 32 →
    readExtentsOk (cmd.setWidth 32) buffer count.toNat crc s = true → Fails f c → s.card = f :: rest →
    ∃ t, exec (.readBlock (cmd.setWidth 32) addr buffer count crc) s = .next t ∧
      (cmd = 17#6 → exec (.cmd17 addr buffer crc) s = .next t) ∧
      (cmd = 18#6 → exec (.cmd18 addr buffer count crc) s = .next t) ∧
      RequestFrame (fun x => inStorage s.cfg x ∨ inExtent buffer (count.toNat * (if cmd = 6#6 then 64 else 512)) x ∨
        crc ≠ 0#32 ∧ inExtent crc (4 * s.session.dataWidth.crcWords) x) s t ∧
      Returned t (.bool false) s.session (some c) false rest (frameEvents cmd addr ++ s.history)) ∧
  (∀ (s : State) (arg : Word) (f : Turn) (c : Cause) (rest : List Turn), s.Ready → Fails f c → s.card = f :: rest →
    ∃ t, exec (.cmd6 arg) s = .next t ∧ RequestFrame (inStorage s.cfg) s t ∧
      Returned t (.bool false) s.session (some c) false rest (frameEvents 6#6 arg ++ s.history)) ∧
  (∀ (s : State) (addr buffer count crc : Word) (latency : Nat) (r : List Byte) (bs : List CardBlock) (fs : List Turn)
    (c : Cause) (rest : List Turn), s.Ready →
    s.sessionValid = true → readOperandsOk 18#32 buffer count crc = true → count.toNat ≤ 32 →
    readExtentsOk 18#32 buffer count.toNat crc s = true → Passes r → bs.length = count.toNat →
    (∀ b ∈ bs, b.data.length = 512 ∧ b.crc.length = 2 * s.session.dataWidth.lines) → StopFails fs c →
    s.card = Turn.answer latency r :: Turn.blocks s.session.dataWidth bs :: (fs ++ rest) →
    ∃ t, exec (.readBlock 18#32 addr buffer count crc) s = .next t ∧ exec (.cmd18 addr buffer count crc) s = .next t ∧
      RequestFrame (fun x => inStorage s.cfg x ∨ inExtent buffer (count.toNat * 512) x ∨
        crc ≠ 0#32 ∧ inExtent crc (4 * s.session.dataWidth.crcWords) x) s t ∧
      Returned t (.bool false) s.session (some c) false rest (readEvents 18#6 addr ++ s.history)) ∧
  (∀ (s : State) (o : ReadOp) (ws cs rest : List Word), ws.length = o.count * o.dataWords → cs.length = o.width.crcWords →
    readLost o { s with free := ws ++ cs ++ rest } =
      { s with mem := (s.mem.writeWords o.buffer ws).writeWords o.crcDst cs, free := rest })

/-- With READ_DATA_TIMEOUT, a card that answers and then sends no block makes the read fail with DATA_TIMEOUT, and the wire
commands CMD17, CMD18 and CMD6 with it (spec/44_block_transfer.md R217, R219; spec/47_wire_commands.md R263; wire commands as
requests are log 2, and that CMD6 needs no session then is log 30). Timeout is
always available: where the deadline passes before the wait's first poll the read fails whatever the card did while the
command and its response went over CMD, all of the blocks on the data lines included (spec/60_exceptions.md R283; log 6). -/
def Obligations.ReadBlockDataTimeout : Prop :=
  (∀ (s : State) (cmd : BitVec 6) (addr buffer count crc : Word) (latency : Nat) (r : List Byte) (rest : List Turn), s.Ready →
    s.cfg.readDataBounded = true → Passes r → s.card = Turn.answer latency r :: Turn.silent :: rest →
    (s.sessionValid = true → readOperandsOk (cmd.setWidth 32) buffer count crc = true → count.toNat ≤ 32 →
      readExtentsOk (cmd.setWidth 32) buffer count.toNat crc s = true →
      ∃ t, exec (.readBlock (cmd.setWidth 32) addr buffer count crc) s = .next t ∧
        (cmd = 17#6 → exec (.cmd17 addr buffer crc) s = .next t) ∧
        (cmd = 18#6 → exec (.cmd18 addr buffer count crc) s = .next t) ∧
        RequestFrame (fun x => inStorage s.cfg x ∨ inExtent buffer (count.toNat * (if cmd = 6#6 then 64 else 512)) x ∨
          crc ≠ 0#32 ∧ inExtent crc (4 * s.session.dataWidth.crcWords) x) s t ∧
        Returned t (.bool false) s.session (some .dataTimeout) false rest (frameEvents cmd addr ++ s.history)) ∧
    ∃ t, exec (.cmd6 addr) s = .next t ∧ RequestFrame (inStorage s.cfg) s t ∧
      Returned t (.bool false) s.session (some .dataTimeout) false rest (frameEvents 6#6 addr ++ s.history)) ∧
  (∀ (s : State) (cmd : BitVec 6) (addr buffer count crc : Word) (u : Turn) (rest : List Turn), s.Ready →
    s.cfg.readDataBounded = true → s.card = u :: Turn.silent :: rest →
    s.sessionValid = true → readOperandsOk (cmd.setWidth 32) buffer count crc = true → count.toNat ≤ 32 →
    readExtentsOk (cmd.setWidth 32) buffer count.toNat crc s = true →
    ∃ t, exec (.readBlock (cmd.setWidth 32) addr buffer count crc) s = .next t ∧
      (cmd = 17#6 → exec (.cmd17 addr buffer crc) s = .next t) ∧
      (cmd = 18#6 → exec (.cmd18 addr buffer count crc) s = .next t) ∧
      t.Ready ∧ t.cfg = s.cfg ∧ t.session = s.session ∧ t.result = .bool false)

/-- WRITE_BLOCK, and the wire command CMD24 that is its command: after the frame, DAT0 carries exactly the write stream of
the 512 bytes, and memory outside the engine's frame and response buffers is unchanged (spec/44_block_transfer.md R220 to
R224, spec/30_encoding.md R122; that no period stalls between two words is spec/70_reset_and_hazards.md R316 (a), (c), which
the model reads as log 15). -/
def Obligations.WriteBlockSendsTheBlock : Prop :=
  ∀ (s : State) (addr buffer : Word) (p : WritePlay) (rest : List Turn), s.Ready → s.sessionValid = true →
    alignedNonNull buffer = true → extentOk s.cfg buffer 512 = true → Passes p.r → s.card = p.turns ++ rest →
    ∃ t, exec (.writeBlock 24#32 addr buffer) s = .next t ∧ exec (.cmd24 addr buffer) s = .next t ∧
      RequestFrame (inHead s.cfg) s t ∧ t.dma1 = s.dma1 ∧
      Returned t (.bool true) s.session s.lastFailure false rest
        (streamEvents (s.mem.readBytes buffer 512) ++ frameEvents 24#6 addr ++ s.history)

/-- A WRITE_BLOCK, or a CMD24, whose command fails drives nothing on the data line and leaves DSEQ at rest
(spec/44_block_transfer.md R223, R225; spec/47_wire_commands.md R271). -/
def Obligations.WriteBlockCommandFails : Prop :=
  ∀ (s : State) (addr buffer : Word) (f : Turn) (c : Cause) (rest : List Turn), s.Ready → s.sessionValid = true →
    alignedNonNull buffer = true → extentOk s.cfg buffer 512 = true → Fails f c → s.card = f :: rest →
    ∃ t, exec (.writeBlock 24#32 addr buffer) s = .next t ∧ exec (.cmd24 addr buffer) s = .next t ∧
      RequestFrame (inHead s.cfg) s t ∧ t.dma1 = s.dma1 ∧
      dat0Levels t.history = dat0Levels s.history ∧
      Returned t (.bool false) s.session (some c) false rest (frameEvents 24#6 addr ++ s.history)

/-! ## Bus width -/

/-- SET_WIDTH to the width that is set drives no frame and changes no state (spec/45_bus_width.md R231). -/
def Obligations.SetWidthIdempotent : Prop :=
  ∀ s : State, s.Ready → s.sessionValid = true →
    exec (.setWidth (BitVec.ofNat 32 s.session.dataWidth.lines)) s = .next { s with result := .none }

/-- SET_WIDTH to another width sends CMD55 with the card's RCA, then ACMD6 with 0 or 2, and sets `data_width` and
`DSEQ.lanes` when both statuses pass (spec/45_bus_width.md R230, R232). -/
def Obligations.SetWidthCompletes : Prop :=
  ∀ (s : State) (w : Width) (latency55 latency6 : Nat) (r55 r6 : List Byte) (rest : List Turn), s.Ready →
    s.sessionValid = true → w ≠ s.session.dataWidth → Passes r55 → Passes r6 →
    s.card = Turn.answer latency55 r55 :: Turn.answer latency6 r6 :: rest →
    ∃ t, exec (.setWidth (BitVec.ofNat 32 w.lines)) s = .next t ∧ CommandFrame (inHead s.cfg) s t ∧ t.lanes = w ∧
      Returned t .none { s.session with dataWidth := w } s.lastFailure false rest
        (frameEvents 6#6 (if w = .four then 2#32 else 0#32) ++ frameEvents 55#6 (s.session.cardRca ++ 0#16) ++ s.history)

/-- Any failure of SET_WIDTH, be it a silent card, a response cut off by the deadline, or a status, is silent: there is no
result, the width stays, and what was sent ends at the failing command (spec/45_bus_width.md R230, R234). -/
def Obligations.SetWidthSilentFailure : Prop :=
  ∀ (s : State) (w : Width) (f : Turn) (c : Cause) (latency : Nat) (r : List Byte) (rest : List Turn), s.Ready →
    s.sessionValid = true → w ≠ s.session.dataWidth → Fails f c →
    (s.card = f :: rest →
      ∃ t, exec (.setWidth (BitVec.ofNat 32 w.lines)) s = .next t ∧ CommandFrame (inHead s.cfg) s t ∧ t.lanes = s.lanes ∧
        Returned t .none s.session (some c) false rest (frameEvents 55#6 (s.session.cardRca ++ 0#16) ++ s.history)) ∧
    (Passes r → s.card = Turn.answer latency r :: f :: rest →
      ∃ t, exec (.setWidth (BitVec.ofNat 32 w.lines)) s = .next t ∧ CommandFrame (inHead s.cfg) s t ∧ t.lanes = s.lanes ∧
        Returned t .none s.session (some c) false rest
          (frameEvents 6#6 (if w = .four then 2#32 else 0#32) ++ frameEvents 55#6 (s.session.cardRca ++ 0#16) ++ s.history))

/-! ## Session -/

/-- PARSE_CSD of version 1 and version 2, by the CSD's own bit numbers (spec/46_session_host.md R244, spec/30_encoding.md
R125, R126): a count of blocks that fits is the result, and nothing changes. -/
def Obligations.ParseCsdCompletes : Prop :=
  ∀ (s : State) (a : Word), s.Inv → s.phase = .idle → a.toNat % 4 = 0 → extentOk s.cfg a 17 = true →
    csdField (s.mem.readBytes a 17) 127 126 ≤ 1 → csdBlocks (s.mem.readBytes a 17) < 2 ^ 32 →
    exec (.parseCsd a) s = .next { s with result := .blocks (BitVec.ofNat 32 (csdBlocks (s.mem.readBytes a 17))) }

/-- Version 1 never overflows; version 2 overflows for the one value `C_SIZE = 0x3FFFFF`, and then the result is a draw
(spec/46_session_host.md R244, R246). -/
def Obligations.ParseCsdOverflow : Prop :=
  (∀ r : List Byte, csdField r 127 126 = 0 → csdBlocks r ≤ 2 ^ 27) ∧
  (∀ r : List Byte, csdField r 127 126 = 1 → (2 ^ 32 ≤ csdBlocks r ↔ csdField r 69 48 = 0x3FFFFF)) ∧
  (∀ (s : State) (a : Word), s.Inv → s.phase = .idle → a.toNat % 4 = 0 → extentOk s.cfg a 17 = true →
    csdField (s.mem.readBytes a 17) 127 126 = 1 → csdField (s.mem.readBytes a 17) 69 48 = 0x3FFFFF →
    exec (.parseCsd a) s = .next { s.drawn with result := .blocks s.drawValue })

/-- GET_STORAGE_SIZE returns 512 and the capacity and changes nothing; without a session it is refused
(spec/46_session_host.md R249). -/
def Obligations.GetStorageSizeCompletes : Prop :=
  ∀ s : State, s.Inv → s.phase = .idle →
    (s.sessionValid = true → exec .getStorageSize s = .next { s with result := .size 512#16 s.session.cardSizeBlocks }) ∧
    (s.sessionValid = false → exec .getStorageSize s = .refused .noSession)

/-- STORAGE_INIT with a card that answers every mandatory step, after any number of rounds of the poll loop and whatever
step 11 gives: true, the session established, the divider looked up, the claims made, the frames sent in the source's order
(spec/46_session_host.md R235 to R245, R247, R248, R256; spec/47_wire_commands.md R275; that the CRC check of step 11's read
under VERIFY_READ_CRC leaves `crc16_reg` alone is log 19). -/
def Obligations.StorageInitCompletes : Prop :=
  ∀ (s : State) (p : InitPlay) (rest : List Turn), s.Bootable → p.Good s.cfg.verifyReadCrc → s.cfg.busyTimeout = none →
    (∀ latency r, p.switch = .noData latency r → s.cfg.readDataBounded = true) → s.card = p.turns ++ rest →
    ∃ t, exec .storageInit s = .next t ∧
      t.Ready ∧ t.sessionValid = true ∧ t.ioInitialised = true ∧
      (s.ioInitialised = false → t.dma0.claimed = true ∧ t.dma1.claimed = true) ∧
      (s.ioInitialised = true → t.dma0.claimed = s.dma0.claimed ∧ t.dma1.claimed = s.dma1.claimed) ∧
      t.kseq = ⟨true, finalClkdiv s.cfg (p.switch.highSpeed s.cfg)⟩ ∧
      t.cfg = s.cfg ∧ t.host = s.host ∧ t.crc16Reg = s.crc16Reg ∧
      (∀ x, ¬ inStorage s.cfg x → Memory.read t.mem x = Memory.read s.mem x) ∧
      Returned t (.bool true) p.session (p.switch.failure (p.polls.foldl InitPoll.failure s.lastFailure)) false rest
        (p.events s.cfg ++ s.history)

/-- STORAGE_INIT with a card that fails a mandatory step: step 4, because it is absent or does not echo the check pattern, or
one of steps 7 to 10. False, no further command, the session invalid, its fields as the steps before left them, the clock at
CLKDIV_INIT (spec/46_session_host.md R239, R242, R243, R245, R247, R256; with BUSY_TIMEOUT set, log 17, the poll loop of
step 5 draws Turns of its own, so that steps 7 to 10 are stated without it). -/
def Obligations.StorageInitRefusesTheCard : Prop :=
  ∀ (s : State) (p : InitPlay) (e : InitStep) (t : Turn) (c : Cause) (rest : List Turn), s.Bootable →
    p.Good s.cfg.verifyReadCrc → (e ≠ .ifCond → s.cfg.busyTimeout = none) → e.Fails t c →
    s.card = p.turnsTo e ++ t :: rest →
    ∃ u, exec .storageInit s = .next u ∧ u.Ready ∧ u.sessionValid = false ∧ u.ioInitialised = true ∧
      u.kseq = ⟨true, s.cfg.clkdivInit⟩ ∧ u.cfg = s.cfg ∧ u.host = s.host ∧
      (∀ x, ¬ inHead s.cfg x → Memory.read u.mem x = Memory.read s.mem x) ∧
      Returned u (.bool false) (p.sessionTo s.session e) (some c) false rest (p.eventsTo s.cfg e ++ s.history)

/-- The poll loop of step 5 has no bound: with a card that is removed after step 4, STORAGE_INIT steps for ever without a
result (spec/46_session_host.md R240, spec/60_exceptions.md R286; that one step makes some rounds of the loop is log 1). -/
def Obligations.StorageInitPollsForEver : Prop :=
  (∀ (s : State) (latency : Nat) (r : List Byte), s.Bootable → s.cfg.busyTimeout = none → Captured 6 r →
    r.getD 3 0#8 &&& 0x0F#8 = 0x01#8 → r.getD 4 0#8 = 0xAA#8 → s.card = [Turn.answer latency r] →
    ∃ t, exec .storageInit s = .next t ∧ PollsForEver t ∧ t.result = s.result) ∧
  (∀ s : State, PollsForEver s → ∃ t, step s = .next t ∧ PollsForEver t ∧ t.result = s.result ∧ t.session = s.session ∧
    t.history = frameEvents 55#6 0#32 ++ s.history)

/-- STORAGE_READ of any number of blocks with a card that sends them: four-line width is requested first, and if that fails
the transfer goes on at the old width (spec/45_bus_width.md R234); the request goes out in chunks of 32 blocks and a
remainder, by CMD18, or CMD17 for a single block, the bytes stand in the buffer in order, and the count is the size
(spec/46_session_host.md R250, R251, R253; spec/20_memory.md R78; that a CRC check under VERIFY_READ_CRC leaves `crc16_reg`
alone is log 19). -/
def Obligations.StorageReadCompletes : Prop :=
  ∀ (s : State) (block buffer size : Word) (wp : WidthPlay) (ps : List ReadPlay) (rest : List Turn), s.Ready →
    s.sessionValid = true → storageOperandsOk 0#32 buffer size = true → extentOk s.cfg buffer size.toNat = true →
    wp.Good s.session.dataWidth .four →
    ChunksGood (wp.width s.session.dataWidth .four) s.cfg.verifyReadCrc (size.toNat / 512) ps 0 →
    s.card = wp.turns s.session.dataWidth .four ++
      chunkTurns (wp.width s.session.dataWidth .four) (size.toNat / 512) ps ++ rest →
    ∃ t, exec (.storageRead block 0#32 buffer size) s = .next t ∧
      RequestFrame (fun x => inStorage s.cfg x ∨ inExtent buffer size.toNat x) s t ∧ t.crc16Reg = s.crc16Reg ∧
      t.mem.readBytes buffer size.toNat = ps.flatMap ReadPlay.data ∧
      Returned t (.count size) { s.session with dataWidth := wp.width s.session.dataWidth .four }
        (wp.failure s.session.dataWidth .four s.lastFailure)
        (if size = 0#32 ∧ s.session.dataWidth = .four then s.appPrefix else false) rest
        (chunkEvents s.session block (size.toNat / 512) 0 ps ++ wp.events s.session.dataWidth .four s.session.cardRca ++
          s.history)

/-- A STORAGE_READ whose next chunk fails in its command returns the bytes of the chunks before it, whichever of its blocks
was meant, and makes no later call (spec/46_session_host.md R252). -/
def Obligations.StorageReadStopsShort : Prop :=
  ∀ (s : State) (block buffer size : Word) (wp : WidthPlay) (ps : List ReadPlay) (left : Nat) (f : Turn) (c : Cause)
    (rest : List Turn), s.Ready →
    s.sessionValid = true → storageOperandsOk 0#32 buffer size = true → extentOk s.cfg buffer size.toNat = true →
    wp.Good s.session.dataWidth .four →
    ChunksGood (wp.width s.session.dataWidth .four) s.cfg.verifyReadCrc (size.toNat / 512) ps left → 0 < left →
    Fails f c →
    s.card = wp.turns s.session.dataWidth .four ++
      chunkTurns (wp.width s.session.dataWidth .four) (size.toNat / 512) ps ++ f :: rest →
    ∃ t, exec (.storageRead block 0#32 buffer size) s = .next t ∧
      size.toNat - 512 * left = 512 * 32 * ps.length ∧
      RequestFrame (fun x => inStorage s.cfg x ∨ inExtent buffer size.toNat x) s t ∧
      t.mem.readBytes buffer (512 * 32 * ps.length) = ps.flatMap ReadPlay.data ∧
      Returned t (.count (BitVec.ofNat 32 (512 * 32 * ps.length)))
        { s.session with dataWidth := wp.width s.session.dataWidth .four } (some c) false rest
        (frameEvents (if left = 1 then 17#6 else 18#6) (cardAddress s.session (block + BitVec.ofNat 32 (32 * ps.length))) ++
          chunkEvents s.session block (size.toNat / 512) 0 ps ++ wp.events s.session.dataWidth .four s.session.cardRca ++
          s.history)

/-- STORAGE_WRITE of any number of blocks: one-line width is requested first, and if that fails the transfer goes on
(spec/45_bus_width.md R234); then one CMD24 and one write stream per block of the buffer, in order, and the count is the size;
memory is unchanged but for the engine's own buffers (spec/46_session_host.md R254, R253; spec/20_memory.md R78; that no
period stalls between two words is spec/70_reset_and_hazards.md R316 (a), (c), which the model reads as log 15). -/
def Obligations.StorageWriteCompletes : Prop :=
  ∀ (s : State) (block buffer size : Word) (wp : WidthPlay) (ps : List WritePlay) (rest : List Turn), s.Ready →
    s.sessionValid = true → storageOperandsOk 0#32 buffer size = true → extentOk s.cfg buffer size.toNat = true →
    wp.Good s.session.dataWidth .one → ps.length = size.toNat / 512 → (∀ p ∈ ps, Passes p.r) →
    s.card = wp.turns s.session.dataWidth .one ++ ps.flatMap WritePlay.turns ++ rest →
    ∃ t, exec (.storageWrite block 0#32 buffer size) s = .next t ∧ RequestFrame (inHead s.cfg) s t ∧ t.dma1 = s.dma1 ∧
      Returned t (.count size) { s.session with dataWidth := wp.width s.session.dataWidth .one }
        (wp.failure s.session.dataWidth .one s.lastFailure)
        (if size = 0#32 ∧ s.session.dataWidth = .one then s.appPrefix else false) rest
        (writeEvents s.session block 0 (bufferBlocks s.mem buffer (size.toNat / 512)) ++
          wp.events s.session.dataWidth .one s.session.cardRca ++ s.history)

/-- A STORAGE_WRITE whose next block fails in its command returns 512 bytes for each block before it
(spec/46_session_host.md R255). -/
def Obligations.StorageWriteStopsShort : Prop :=
  ∀ (s : State) (block buffer size : Word) (wp : WidthPlay) (ps : List WritePlay) (f : Turn) (c : Cause) (rest : List Turn),
    s.Ready →
    s.sessionValid = true → storageOperandsOk 0#32 buffer size = true → extentOk s.cfg buffer size.toNat = true →
    wp.Good s.session.dataWidth .one → ps.length < size.toNat / 512 → (∀ p ∈ ps, Passes p.r) → Fails f c →
    s.card = wp.turns s.session.dataWidth .one ++ ps.flatMap WritePlay.turns ++ f :: rest →
    ∃ t, exec (.storageWrite block 0#32 buffer size) s = .next t ∧ RequestFrame (inHead s.cfg) s t ∧ t.dma1 = s.dma1 ∧
      Returned t (.count (BitVec.ofNat 32 (512 * ps.length)))
        { s.session with dataWidth := wp.width s.session.dataWidth .one } (some c) false rest
        (frameEvents 24#6 (cardAddress s.session (block + BitVec.ofNat 32 ps.length)) ++
          writeEvents s.session block 0 (bufferBlocks s.mem buffer ps.length) ++
          wp.events s.session.dataWidth .one s.session.cardRca ++ s.history)

/-! ## Refusals -/

/-- A request made while another is in progress is refused, whatever it is (spec/60_exceptions.md R294). -/
def Obligations.RequestWhileBusyRefused : Prop :=
  ∀ (i : Instr) (s : State), s.phase ≠ .idle → exec i s = .refused .requestWhileBusy

/-- Before a STORAGE_INIT has succeeded the operations that need a session are refused (spec/46_session_host.md R249, R253,
spec/45_bus_width.md R234, spec/44_block_transfer.md R226). That CMD17, CMD18 and CMD24 as requests need a session too is
the model's choice: log 30 (and log 2). -/
def Obligations.SessionNeeded : Prop :=
  ∀ (s : State) (cmd addr buffer count crc block size width : Word), s.phase = .idle → s.sessionValid = false →
    exec .getStorageSize s = .refused .noSession ∧
    ((width = 1#32 ∨ width = 4#32) → exec (.setWidth width) s = .refused .noSession) ∧
    (readOperandsOk cmd buffer count crc = true → count.toNat ≤ 32 → readExtentsOk cmd buffer count.toNat crc s = true →
      exec (.readBlock cmd addr buffer count crc) s = .refused .noSession ∧
        (cmd = 17#32 → exec (.cmd17 addr buffer crc) s = .refused .noSession) ∧
        (cmd = 18#32 → exec (.cmd18 addr buffer count crc) s = .refused .noSession)) ∧
    (alignedNonNull buffer = true → extentOk s.cfg buffer 512 = true →
      exec (.writeBlock 24#32 addr buffer) s = .refused .noSession ∧
        exec (.cmd24 addr buffer) s = .refused .noSession) ∧
    (storageOperandsOk 0#32 buffer size = true → extentOk s.cfg buffer size.toNat = true →
      exec (.storageRead block 0#32 buffer size) s = .refused .noSession ∧
      exec (.storageWrite block 0#32 buffer size) s = .refused .noSession)

/-- Operands outside an operation's domain are refused, each under a name of its own (spec/30_encoding.md R131;
spec/43_command_response.md R206; spec/44_block_transfer.md R226; spec/45_bus_width.md R234; spec/46_session_host.md R253,
R246; of RESP_FIX, CHECK_RES_STATUS and PARSE_CSD spec/43_command_response.md R196 and spec/93_implementation_defined.md U17;
which name an operand outside several domains gets is log 22, and that CMD17, CMD18 and CMD24 as requests have the domain of
their READ_BLOCK or WRITE_BLOCK is log 2). -/
def Obligations.OutsideDomainRefused : Prop :=
  ∀ (s : State) (a b c d e : Word), s.phase = .idle →
    (63 < a.toNat → exec (.buildFrame a b) s = .refused .commandIndex ∧ exec (.sdCommand a b c d) s = .refused .commandIndex) ∧
    (a.toNat ≤ 63 → c ≠ 0#32 → c ≠ 48#32 → c ≠ 136#32 → exec (.sdCommand a b c d) s = .refused .responseSize) ∧
    (a.toNat ≤ 63 → (c = 48#32 ∨ c = 136#32) → alignedNonNull d = false →
      exec (.sdCommand a b c d) s = .refused .responseBuffer) ∧
    (d.toNat ≤ 32 → a ≠ 6#32 → a ≠ 17#32 → a ≠ 18#32 → exec (.readBlock a b c d e) s = .refused .readCommand) ∧
    ((a = 6#32 ∨ a = 17#32 ∨ a = 18#32) → d = 0#32 →
      exec (.readBlock a b c d e) s = .refused .blockCount ∧ exec (.cmd18 b c d e) s = .refused .blockCount) ∧
    ((a = 6#32 ∨ a = 17#32) → d.toNat ≤ 32 → d ≠ 1#32 → exec (.readBlock a b c d e) s = .refused .blockCount) ∧
    (d.toNat ≤ 32 → d ≠ 0#32 → (alignedNonNull c = false ∨ e.toNat % 4 ≠ 0) →
      (a = 18#32 ∨ (a = 6#32 ∨ a = 17#32) ∧ d = 1#32) →
      exec (.readBlock a b c d e) s = .refused .bufferAddress ∧ exec (.cmd17 b c e) s = .refused .bufferAddress ∧
        exec (.cmd18 b c d e) s = .refused .bufferAddress) ∧
    (a ≠ 24#32 → exec (.writeBlock a b c) s = .refused .writeCommand) ∧
    (alignedNonNull c = false →
      exec (.writeBlock 24#32 b c) s = .refused .bufferAddress ∧ exec (.cmd24 b c) s = .refused .bufferAddress) ∧
    (a ≠ 1#32 → a ≠ 4#32 → exec (.setWidth a) s = .refused .busWidth) ∧
    (b ≠ 0#32 → exec (.storageRead a b c d) s = .refused .offset ∧ exec (.storageWrite a b c d) s = .refused .offset) ∧
    (d.toNat % 512 ≠ 0 ∨ 2 ^ 31 ≤ d.toNat →
      exec (.storageRead a 0#32 c d) s = .refused .sizeBytes ∧ exec (.storageWrite a 0#32 c d) s = .refused .sizeBytes) ∧
    (d.toNat % 512 = 0 → d.toNat < 2 ^ 31 → (c.toNat % 4 ≠ 0 ∨ c = 0#32 ∧ d ≠ 0#32) →
      exec (.storageRead a 0#32 c d) s = .refused .bufferAddress ∧
        exec (.storageWrite a 0#32 c d) s = .refused .bufferAddress) ∧
    (b ≠ 2#32 → b ≠ 5#32 → exec (.respFix a b) s = .refused .wordCount) ∧
    (a.toNat % 4 ≠ 0 → exec (.checkResStatus a) s = .refused .responseAddress ∧
      exec (.parseCsd a) s = .refused .responseAddress ∧
      ((b = 2#32 ∨ b = 5#32) → exec (.respFix a b) s = .refused .responseAddress)) ∧
    (a.toNat % 4 = 0 → extentOk s.cfg a 17 = true → 2 ≤ csdField (s.mem.readBytes a 17) 127 126 →
      exec (.parseCsd a) s = .refused .csdStructure)

/-- An extent that leaves host memory, or overlaps the engine's storage or the other extent of the call, is refused by
every operation that has an address operand (spec/20_memory.md R79, R81; spec/43_command_response.md R206;
spec/44_block_transfer.md R226; where the engine's storage stands is log 12, and that CMD17, CMD18 and CMD24 as requests have
the domain of their READ_BLOCK or WRITE_BLOCK is log 2). -/
def Obligations.ExtentsRefused : Prop :=
  ∀ (s : State) (cmd addr a n size : Word), s.phase = .idle →
    (extentOk s.cfg a n.toNat = false → exec (.crc7 a n) s = .refused .extent ∧ exec (.crc16 a n) s = .refused .extent) ∧
    (a.toNat % 4 = 0 →
      (extentOk s.cfg a 5 = false → exec (.checkResStatus a) s = .refused .extent) ∧
      (extentOk s.cfg a 17 = false → exec (.parseCsd a) s = .refused .extent) ∧
      (extentOk s.cfg a 8 = false → exec (.respFix a 2#32) s = .refused .extent) ∧
      (extentOk s.cfg a 20 = false → exec (.respFix a 5#32) s = .refused .extent)) ∧
    (cmd.toNat ≤ 63 → alignedNonNull a = true →
      (extentOk s.cfg a 8 = false → exec (.sdCommand cmd addr 48#32 a) s = .refused .extent) ∧
      (extentOk s.cfg a 20 = false → exec (.sdCommand cmd addr 136#32 a) s = .refused .extent)) ∧
    (∀ crc : Word, readOperandsOk cmd a n crc = true → n.toNat ≤ 32 →
      extentOk s.cfg a (n.toNat * (if cmd = 6#32 then 64 else 512)) = false ∨
        crc ≠ 0#32 ∧ (extentOk s.cfg crc (4 * s.session.dataWidth.crcWords) = false ∨
          disjoint a (n.toNat * (if cmd = 6#32 then 64 else 512)) crc (4 * s.session.dataWidth.crcWords) = false) →
      exec (.readBlock cmd addr a n crc) s = .refused .extent ∧
        (cmd = 17#32 → exec (.cmd17 addr a crc) s = .refused .extent) ∧
        (cmd = 18#32 → exec (.cmd18 addr a n crc) s = .refused .extent)) ∧
    (alignedNonNull a = true → extentOk s.cfg a 512 = false →
      exec (.writeBlock 24#32 addr a) s = .refused .extent ∧ exec (.cmd24 addr a) s = .refused .extent) ∧
    (storageOperandsOk 0#32 a size = true → extentOk s.cfg a size.toNat = false →
      exec (.storageRead addr 0#32 a size) s = .refused .extent ∧ exec (.storageWrite addr 0#32 a size) s = .refused .extent)

/-- Before STORAGE_INIT has programmed the sequencers the operations that drive them are refused: SD_COMMAND on every operand
of its domain, and the commands that need no session (spec/43_command_response.md R206; spec/70_reset_and_hazards.md
R303). -/
def Obligations.UnprogrammedRefused : Prop :=
  ∀ (s : State) (i : Instr) (cmd size a param arg : Word) (n : Nat) (rca : BitVec 16) (wide : Bool), s.phase = .idle →
    s.cseq.mode = .unprogrammed →
    (cmd.toNat ≤ 63 → size = 0#32 ∨ (size = 48#32 ∧ n = 8 ∨ size = 136#32 ∧ n = 20) ∧ alignedNonNull a = true ∧
        extentOk s.cfg a n = true → exec (.sdCommand cmd param size a) s = .refused .unprogrammed) ∧
    (i ∈ [Instr.waitNotBusy, .cmd0, .cmd2, .cmd3, .cmd6 arg, .acmd6 wide, .cmd7 rca, .cmd8, .cmd9 rca, .cmd12, .acmd41 arg,
        .cmd55 rca] → exec i s = .refused .unprogrammed)

/-! ## The machine -/

/-- A step of an engine at rest is the host's: a request is taken off the port and run, every instruction's own record with
every operand among them; a store of the host lands in its memory, outside the engine's storage; bytes that are no request,
and a store elsewhere, are refused; and without anything to do the machine stays as it is (spec/00_scope.md R4, R6, R16; the
port is log 3, the host's stores are log 1). -/
def Obligations.StepRunsTheRequest : Prop :=
  ∀ s : State, s.stack = [] →
    (∀ bs acts i rest, s.host = .request bs :: acts → decode s.appPrefix bs = .ok (i, rest) →
      step s = exec i { s with host := acts }) ∧
    (∀ i rest acts, s.host = .request (encode i ++ rest) :: acts → (i.isApp = true → s.appPrefix = true) →
      (∀ arg, i = .cmd6 arg → s.appPrefix = false) → step s = exec i { s with host := acts }) ∧
    (s.host = [] → step s = .next s) ∧
    (∀ bs acts e, s.host = .request bs :: acts → decode s.appPrefix bs = .error e → step s = .refused .badRequest) ∧
    (∀ a bs acts, s.host = .store a bs :: acts →
      (extentOk s.cfg a bs.length = true → ∃ t, step s = .next t ∧ t = { s with host := acts, mem := t.mem } ∧
        (Memory.wf s.mem = true → s.cfg.wf → Memory.wf t.mem = true ∧ t.mem.readBytes a bs.length = bs ∧
          ∀ x, ¬ inExtent a bs.length x → Memory.read t.mem x = Memory.read s.mem x)) ∧
      (extentOk s.cfg a bs.length = false → step s = .refused .extent))

/-- The state after reset, and that STORAGE_INIT can start from it (spec/70_reset_and_hazards.md R301, R303, R312; the values
R301 leaves open are log 9). -/
def Obligations.ResetValues : Prop :=
  State.reset.ioInitialised = false ∧ State.reset.sessionValid = false ∧ State.reset.phase = .idle ∧
  State.reset.cseq.mode = .unprogrammed ∧ State.reset.dseq.mode = .unprogrammed ∧
  State.reset.cseq.armed = [] ∧ State.reset.cseq.txf = [] ∧ State.reset.cseq.rxf = [] ∧
  State.reset.dseq.armed = [] ∧ State.reset.dseq.txf = [] ∧ State.reset.dseq.rxf = [] ∧
  State.reset.cseq.osrCount = 0 ∧ State.reset.cseq.isrCount = 0 ∧ State.reset.dseq.osrCount = 0 ∧
  State.reset.dseq.isrCount = 0 ∧ State.reset.cseq.dir = .input ∧ State.reset.dseq.dir = .input ∧
  State.reset.cseq.owner = .seq ∧ State.reset.dseq.owner = .seq ∧ State.reset.kseq.running = false ∧
  State.reset.dma0.claimed = false ∧ State.reset.dma1.claimed = false ∧ State.reset.dma0.busy = false ∧
  State.reset.dma1.busy = false ∧ State.reset.dma0.count = 0#32 ∧ State.reset.dma0.chain = .none ∧
  State.reset.lastFailure = none ∧ State.reset.Bootable

/-- Quiescence between requests: whatever the request and whatever the card does, a machine that has been programmed is after
every step either waiting in the middle of an operation, its chain consistent with what the sequencer has still to deliver,
or ready for the next request, both sequencers at rest and the channels idle. So every return, be it in the request's own
step or after any number of waiting steps, leaves the block quiescent (spec/70_reset_and_hazards.md R312,
spec/43_command_response.md R199, spec/44_block_transfer.md R227; the steps of a waiting engine are log 21). -/
def Obligations.EveryReturnIsQuiescent : Prop :=
  (∀ s : State, s.Ready ↔ s.Running ∧ s.stack = []) ∧
  (∀ (i : Instr) (s t : State), s.Ready → exec i s = .next t → t.Running) ∧
  (∀ s t : State, s.Bootable → exec .storageInit s = .next t → t.Running) ∧
  (∀ s t : State, s.Running → step s = .next t → t.Running)

/-- Every step, of every request and every card, keeps host memory canonical, `DSEQ.lanes` equal to `data_width`
(spec/45_bus_width.md R232), and the engine IDLE, its done indication up, exactly when no operation is in progress
(spec/60_exceptions.md R294; the canonical form is log 11). -/
def Obligations.StepKeepsTheInvariant : Prop :=
  ∀ s t : State, s.Inv → step s = .next t → t.Inv ∧ t.cfg = s.cfg

/-- Only STORAGE_INIT programs the sequencers, claims the channels, starts or divides the clock, and establishes or ends the
session, whatever the card does (spec/46_session_host.md R236, R256; spec/70_reset_and_hazards.md R304, R305;
spec/42_dma.md, spec/41_sequencers.md R163). -/
def Obligations.OnlyStorageInitEstablishesTheSession : Prop :=
  ∀ (i : Instr) (s t : State), i ≠ .storageInit → exec i s = .next t →
    t.ioInitialised = s.ioInitialised ∧ t.sessionValid = s.sessionValid ∧ t.kseq = s.kseq ∧
      t.dma0.claimed = s.dma0.claimed ∧ t.dma1.claimed = s.dma1.claimed ∧ t.host = s.host
end

