-- ==== Sys2Proof/Laws/Memory.lean ====
section
/-! SUPPORT. Host memory: what a read gives after a write, and that every operation keeps the canonical form. -/

namespace Sys2Proof.Machine

/-! ## One byte -/

theorem Memory.wf_cons {a : Nat} {b : Byte} {m : Memory} :
    Memory.wf ((a, b) :: m) = true ↔ b ≠ Memory.unlisted ∧ (∀ c ∈ m, a < c.1) ∧ Memory.wf m = true := by
  simp [Memory.wf, and_assoc]

theorem Memory.wf_nil : Memory.wf [] = true := rfl

theorem Memory.read_below {m : Memory} {x : Nat} (h : ∀ c ∈ m, x < c.1) : m.read x = Memory.unlisted := by
  induction m with
  | nil => rfl
  | cons c m ih =>
    obtain ⟨k, b⟩ := c
    have hk : x < k := h (k, b) (by simp)
    simp only [Memory.read, if_neg (by omega : ¬ k = x)]
    exact ih fun c hc => h c (by simp [hc])

theorem Memory.mem_write {m : Memory} {a : Nat} {b : Byte} {c : Host.Cell} (h : c ∈ Memory.write m a b) :
    c = (a, b) ∨ c ∈ m := by
  induction m with
  | nil => unfold Memory.write at h; split at h <;> simp_all
  | cons d m ih =>
    obtain ⟨k, x⟩ := d
    unfold Memory.write at h
    split at h
    · split at h <;> simp_all
    · split at h
      · split at h <;> simp_all
        tauto
      · rcases List.mem_cons.1 h with h | h
        · simp [h]
        · rcases ih h with h | h <;> simp [h]

theorem Memory.wf_write {m : Memory} (h : m.wf = true) (a : Nat) (b : Byte) : (m.write a b).wf = true := by
  induction m with
  | nil => unfold Memory.write; split <;> simp_all [Memory.wf]
  | cons d m ih =>
    obtain ⟨k, x⟩ := d
    obtain ⟨hx, hk, hm⟩ := Memory.wf_cons.1 h
    unfold Memory.write
    split
    · split
      · exact h
      · refine Memory.wf_cons.2 ⟨by assumption, ?_, h⟩
        intro c hc
        rcases List.mem_cons.1 hc with rfl | hc
        · assumption
        · exact lt_trans (by assumption) (hk c hc)
    · split
      · subst k
        split
        · exact hm
        · exact Memory.wf_cons.2 ⟨by assumption, hk, hm⟩
      · refine Memory.wf_cons.2 ⟨hx, ?_, ih hm⟩
        intro c hc
        rcases Memory.mem_write hc with rfl | hc
        · show k < a; omega
        · exact hk c hc

theorem Memory.read_write {m : Memory} (h : m.wf = true) (a : Nat) (b : Byte) (x : Nat) :
    (m.write a b).read x = if x = a then b else m.read x := by
  induction m with
  | nil =>
    unfold Memory.write
    by_cases hb : b = Memory.unlisted
    · by_cases hx : x = a <;> simp [hb, hx, Memory.read]
    · by_cases hx : a = x
      · simp [hb, hx, Memory.read]
      · simp [hb, hx, Memory.read, Ne.symm hx]
  | cons d m ih =>
    obtain ⟨k, y⟩ := d
    obtain ⟨_, hk, hm⟩ := Memory.wf_cons.1 h
    unfold Memory.write
    by_cases h1 : a < k
    · rw [if_pos h1]
      have hlow : ∀ c ∈ ((k, y) :: m : Memory), a < c.1 := by
        intro c hc
        rcases List.mem_cons.1 hc with rfl | hc
        · exact h1
        · exact lt_trans h1 (hk c hc)
      by_cases hb : b = Memory.unlisted
      · rw [if_pos hb]
        by_cases hx : x = a
        · rw [if_pos hx, hx, Memory.read_below hlow, hb]
        · rw [if_neg hx]
      · rw [if_neg hb]
        by_cases hx : x = a
        · simp [Memory.read, hx]
        · rw [if_neg hx, Memory.read, if_neg (Ne.symm hx)]
    · rw [if_neg h1]
      by_cases h2 : a = k
      · subst h2
        rw [if_pos rfl]
        by_cases hb : b = Memory.unlisted
        · rw [if_pos hb]
          by_cases hx : x = a
          · rw [if_pos hx, hx, Memory.read_below hk, hb]
          · rw [if_neg hx, Memory.read, if_neg (Ne.symm hx)]
        · rw [if_neg hb]
          by_cases hx : x = a
          · simp [Memory.read, hx]
          · simp [Memory.read, hx, Ne.symm hx]
      · rw [if_neg h2, Memory.read, ih hm, Memory.read]
        by_cases hx : k = x
        · subst hx; simp [Ne.symm h2]
        · simp [hx]

/-- The canonical form is canonical: memories that read the same are the same list. -/
theorem Memory.ext {m m' : Memory} (h : m.wf = true) (h' : m'.wf = true) (hr : ∀ x, m.read x = m'.read x) : m = m' := by
  induction m generalizing m' with
  | nil =>
    match m', h' with
    | [], _ => rfl
    | (k, b) :: m', h' =>
      obtain ⟨hb, _, _⟩ := Memory.wf_cons.1 h'
      have := hr k
      simp only [Memory.read, if_pos] at this
      exact absurd this.symm hb
  | cons c m ih =>
    obtain ⟨k, b⟩ := c
    obtain ⟨hb, hk, hm⟩ := Memory.wf_cons.1 h
    match m', h' with
    | [], _ =>
      have := hr k
      simp only [Memory.read, if_pos] at this
      exact absurd this hb
    | (k', b') :: m', h' =>
      obtain ⟨hb', hk', hm'⟩ := Memory.wf_cons.1 h'
      have e : k = k' := by
        rcases Nat.lt_trichotomy k k' with hlt | he | hlt
        · have := hr k
          rw [Memory.read_below (m := (k', b') :: m') (x := k)] at this
          · simp only [Memory.read, if_pos] at this; exact absurd this hb
          · intro c hc
            rcases List.mem_cons.1 hc with rfl | hc
            · exact hlt
            · exact lt_trans hlt (hk' c hc)
        · exact he
        · have := hr k'
          rw [Memory.read_below (m := (k, b) :: m) (x := k')] at this
          · simp only [Memory.read, if_pos] at this; exact absurd this.symm hb'
          · intro c hc
            rcases List.mem_cons.1 hc with rfl | hc
            · exact hlt
            · exact lt_trans hlt (hk c hc)
      subst e
      have e : b = b' := by have := hr k; simpa [Memory.read] using this
      subst e
      congr 1
      refine ih hm hm' fun x => ?_
      have := hr x
      simp only [Memory.read] at this
      by_cases hx : k = x
      · subst hx
        rw [Memory.read_below hk, Memory.read_below hk']
      · simpa [hx] using this

/-! ## Addresses -/

theorem word_add_toNat {a : Word} {n : Nat} (h : a.toNat + n < 2 ^ 32) : (a + BitVec.ofNat 32 n).toNat = a.toNat + n := by
  rw [BitVec.toNat_add, BitVec.toNat_ofNat]
  omega

theorem word_add_assoc (a : Word) (m n : Nat) :
    a + BitVec.ofNat 32 m + BitVec.ofNat 32 n = a + BitVec.ofNat 32 (m + n) := by
  rw [BitVec.add_assoc, ← BitVec.ofNat_add]

/-! ## Byte sequences -/

@[simp] theorem Memory.readBytes_length (m : Memory) (a : Word) (n : Nat) : (m.readBytes a n).length = n := by
  induction n generalizing a with
  | zero => rfl
  | succ n ih => simp [Memory.readBytes, ih]

theorem Memory.readBytes_getElem? (m : Memory) (a : Word) {n i : Nat} (h : i < n) :
    (m.readBytes a n)[i]? = some (m.read (a + BitVec.ofNat 32 i).toNat) := by
  induction n generalizing a i with
  | zero => omega
  | succ n ih =>
    cases i with
    | zero => simp [Memory.readBytes]
    | succ i =>
      rw [Memory.readBytes, List.getElem?_cons_succ, ih _ (by omega)]
      rw [show (1#32 : Word) = BitVec.ofNat 32 1 from rfl, word_add_assoc, Nat.add_comm 1 i]

theorem Memory.readBytes_congr {m m' : Memory} {a : Word} {n : Nat}
    (h : ∀ i < n, m.read (a + BitVec.ofNat 32 i).toNat = m'.read (a + BitVec.ofNat 32 i).toNat) :
    m.readBytes a n = m'.readBytes a n := by
  apply List.ext_getElem?
  intro i
  by_cases hi : i < n
  · rw [Memory.readBytes_getElem? _ _ hi, Memory.readBytes_getElem? _ _ hi, h i hi]
  · rw [List.getElem?_eq_none (by simpa using hi), List.getElem?_eq_none (by simpa using hi)]

theorem Memory.wf_writeBytes {m : Memory} (h : m.wf = true) (a : Word) (bs : List Byte) : (m.writeBytes a bs).wf = true := by
  induction bs generalizing m a with
  | nil => exact h
  | cons b bs ih => exact ih (Memory.wf_write h _ _) _

theorem Memory.writeBytes_append (m : Memory) (a : Word) (bs cs : List Byte) :
    m.writeBytes a (bs ++ cs) = (m.writeBytes a bs).writeBytes (a + BitVec.ofNat 32 bs.length) cs := by
  induction bs generalizing m a with
  | nil => simp [Memory.writeBytes]
  | cons b bs ih =>
    rw [List.cons_append, Memory.writeBytes, ih, Memory.writeBytes,
      show (1#32 : Word) = BitVec.ofNat 32 1 from rfl, word_add_assoc, List.length_cons, Nat.add_comm 1]

/-- What memory reads after a byte sequence was stored: the stored bytes there, the old ones elsewhere. -/
theorem Memory.read_writeBytes {m : Memory} (h : m.wf = true) {a : Word} {bs : List Byte}
    (ha : a.toNat + bs.length ≤ 2 ^ 32) (x : Nat) :
    (m.writeBytes a bs).read x =
      if a.toNat ≤ x ∧ x < a.toNat + bs.length then bs.getD (x - a.toNat) 0#8 else m.read x := by
  induction bs generalizing m a with
  | nil => rw [if_neg (by simp)]; rfl
  | cons b bs ih =>
    have hb := Memory.wf_write h a.toNat b
    rw [List.length_cons] at ha
    rw [Memory.writeBytes]
    cases bs with
    | nil =>
      rw [Memory.writeBytes, Memory.read_write h]
      by_cases hx : x = a.toNat
      · subst hx; simp
      · rw [if_neg hx, if_neg (by simp; omega)]
    | cons c cs =>
      rw [List.length_cons] at ha
      have h1 : (a + 1#32).toNat = a.toNat + 1 := word_add_toNat (n := 1) (by omega)
      rw [ih hb (by rw [h1, List.length_cons]; omega), h1, Memory.read_write h]
      simp only [List.length_cons]
      by_cases hx : x = a.toNat
      · subst hx
        rw [if_neg (by omega), if_pos rfl, if_pos (by omega)]
        simp
      · rw [if_neg hx]
        by_cases hr : a.toNat + 1 ≤ x ∧ x < a.toNat + 1 + (cs.length + 1)
        · rw [if_pos hr, if_pos (by omega)]
          obtain ⟨k, rfl⟩ : ∃ k, x = a.toNat + 1 + k := ⟨x - (a.toNat + 1), by omega⟩
          rw [show a.toNat + 1 + k - (a.toNat + 1) = k by omega, show a.toNat + 1 + k - a.toNat = k + 1 by omega]
          simp
        · rw [if_neg hr, if_neg (by omega)]

/-- Reading back a stored byte sequence. -/
theorem Memory.readBytes_writeBytes {m : Memory} (h : m.wf = true) {a : Word} {bs : List Byte}
    (ha : a.toNat + bs.length ≤ 2 ^ 32) : (m.writeBytes a bs).readBytes a bs.length = bs := by
  apply List.ext_getElem?
  intro i
  by_cases hi : i < bs.length
  · have hai : (a + BitVec.ofNat 32 i).toNat = a.toNat + i := word_add_toNat (by omega)
    rw [Memory.readBytes_getElem? _ _ hi, Memory.read_writeBytes h ha, hai, if_pos (by omega)]
    simp [hi]
  · rw [List.getElem?_eq_none (by simpa using hi), List.getElem?_eq_none (by simpa using hi)]

/-- Reading back the first bytes of a stored sequence. -/
theorem Memory.readBytes_writeBytes_take {m : Memory} (h : m.wf = true) {a : Word} {bs : List Byte} {n : Nat}
    (ha : a.toNat + bs.length ≤ 2 ^ 32) (hn : n ≤ bs.length) : (m.writeBytes a bs).readBytes a n = bs.take n := by
  apply List.ext_getElem?
  intro i
  by_cases hi : i < n
  · have hai : (a + BitVec.ofNat 32 i).toNat = a.toNat + i := word_add_toNat (by omega)
    rw [Memory.readBytes_getElem? _ _ hi, Memory.read_writeBytes h ha, hai, if_pos (by omega),
      List.getElem?_take_of_lt hi]
    simp [show i < bs.length by omega]
  · rw [List.getElem?_eq_none (by simpa using hi), List.getElem?_eq_none (by simp; omega)]

/-- Reading a byte sequence apart from the stored one. -/
theorem Memory.readBytes_writeBytes_apart {m : Memory} (h : m.wf = true) {a b : Word} {bs : List Byte} {n : Nat}
    (ha : a.toNat + bs.length ≤ 2 ^ 32) (hb : b.toNat + n ≤ 2 ^ 32)
    (hd : a.toNat + bs.length ≤ b.toNat ∨ b.toNat + n ≤ a.toNat) : (m.writeBytes a bs).readBytes b n = m.readBytes b n := by
  apply Memory.readBytes_congr
  intro i hi
  rw [Memory.read_writeBytes h ha, word_add_toNat (by omega), if_neg (by omega)]

/-- A later store over the same extent hides the earlier one. -/
theorem Memory.writeBytes_writeBytes {m : Memory} (h : m.wf = true) {a : Word} {bs cs : List Byte}
    (hl : bs.length = cs.length) (ha : a.toNat + bs.length ≤ 2 ^ 32) :
    (m.writeBytes a bs).writeBytes a cs = m.writeBytes a cs := by
  refine Memory.ext (Memory.wf_writeBytes (Memory.wf_writeBytes h _ _) _ _) (Memory.wf_writeBytes h _ _) fun x => ?_
  rw [Memory.read_writeBytes (Memory.wf_writeBytes h _ _) (hl ▸ ha), Memory.read_writeBytes h ha,
    Memory.read_writeBytes h (hl ▸ ha), hl]
  split <;> rfl

/-- Stores over two extents apart commute. -/
theorem Memory.writeBytes_comm {m : Memory} (h : m.wf = true) {a b : Word} {bs cs : List Byte}
    (ha : a.toNat + bs.length ≤ 2 ^ 32) (hb : b.toNat + cs.length ≤ 2 ^ 32)
    (hd : a.toNat + bs.length ≤ b.toNat ∨ b.toNat + cs.length ≤ a.toNat) :
    (m.writeBytes a bs).writeBytes b cs = (m.writeBytes b cs).writeBytes a bs := by
  refine Memory.ext (Memory.wf_writeBytes (Memory.wf_writeBytes h _ _) _ _)
    (Memory.wf_writeBytes (Memory.wf_writeBytes h _ _) _ _) fun x => ?_
  rw [Memory.read_writeBytes (Memory.wf_writeBytes h _ _) hb, Memory.read_writeBytes h ha,
    Memory.read_writeBytes (Memory.wf_writeBytes h _ _) ha, Memory.read_writeBytes h hb]
  by_cases h1 : b.toNat ≤ x ∧ x < b.toNat + cs.length
  · rw [if_pos h1, if_neg (by omega), if_pos h1]
  · rw [if_neg h1, if_neg h1]

/-! ## Words -/

@[simp] theorem wordBytesLE_length (w : Word) : (wordBytesLE w).length = 4 := rfl

@[simp] theorem wordBytesBE_length (w : Word) : (wordBytesBE w).length = 4 := rfl

/-- The bytes of some words in host memory. -/
def wordsBytesLE (ws : List Word) : List Byte := ws.flatMap wordBytesLE

@[simp] theorem wordsBytesLE_length (ws : List Word) : (wordsBytesLE ws).length = 4 * ws.length := by
  induction ws with
  | nil => rfl
  | cons w ws ih => simp [wordsBytesLE] at ih ⊢; omega

theorem Memory.writeWords_eq (m : Memory) (a : Word) (ws : List Word) : m.writeWords a ws = m.writeBytes a (wordsBytesLE ws) := by
  induction ws generalizing m a with
  | nil => rfl
  | cons w ws ih =>
    rw [Memory.writeWords, ih, Memory.writeWord]
    rw [show wordsBytesLE (w :: ws) = wordBytesLE w ++ wordsBytesLE ws from rfl, Memory.writeBytes_append]
    rfl

theorem Memory.wf_writeWord {m : Memory} (h : m.wf = true) (a w : Word) : (m.writeWord a w).wf = true :=
  Memory.wf_writeBytes h _ _

theorem Memory.wf_writeWords {m : Memory} (h : m.wf = true) (a : Word) (ws : List Word) : (m.writeWords a ws).wf = true := by
  rw [Memory.writeWords_eq]; exact Memory.wf_writeBytes h _ _

theorem Memory.readWord_eq (m : Memory) (a : Word) :
    m.readWord a = joinLE ((m.readBytes a 4).getD 0 0#8) ((m.readBytes a 4).getD 1 0#8) ((m.readBytes a 4).getD 2 0#8)
      ((m.readBytes a 4).getD 3 0#8) := by
  simp only [Memory.readWord, Memory.readBytes, List.getD_cons_zero, List.getD_cons_succ]
  rw [BitVec.add_assoc, BitVec.add_assoc]
  rfl

theorem joinBE_wordByte (w : Word) : joinBE (wordByte w 3) (wordByte w 2) (wordByte w 1) (wordByte w 0) = w := by
  apply BitVec.eq_of_getLsbD_eq
  intro i hi
  simp only [joinBE, wordByte, BitVec.getLsbD_append, BitVec.getLsbD_extractLsb']
  by_cases h1 : i < 8
  · simp [h1, show i < 16 by omega]
  · by_cases h2 : i < 16
    · simp [h1, h2, show i - 8 < 8 by omega, show 8 + (i - 8) = i by omega]
    · by_cases h3 : i < 24
      · simp [h2, show i - 16 < 8 by omega, show 16 + (i - 16) = i by omega]
      · simp [h2, show ¬ (i - 16 < 8) by omega, show i - 16 - 8 < 8 by omega, show 24 + (i - 16 - 8) = i by omega]

theorem joinLE_wordByte (w : Word) : joinLE (wordByte w 0) (wordByte w 1) (wordByte w 2) (wordByte w 3) = w :=
  joinBE_wordByte w

theorem wordByte_joinBE (a b c d : Byte) :
    wordByte (joinBE a b c d) 3 = a ∧ wordByte (joinBE a b c d) 2 = b ∧ wordByte (joinBE a b c d) 1 = c ∧
      wordByte (joinBE a b c d) 0 = d := by
  refine ⟨?_, ?_, ?_, ?_⟩ <;> apply BitVec.eq_of_getLsbD_eq <;> intro i hi <;>
    simp only [joinBE, wordByte, BitVec.getLsbD_append, BitVec.getLsbD_extractLsb', hi, decide_true, Bool.true_and]
  · simp [show ¬ (8 * 3 + i < 16) by omega, show ¬ (8 * 3 + i - 16 < 8) by omega, show 8 * 3 + i - 16 - 8 = i by omega]
  · simp [show ¬ (8 * 2 + i < 16) by omega, show 8 * 2 + i - 16 = i by omega, hi]
  · simp [show 8 * 1 + i < 16 by omega, show ¬ (8 * 1 + i < 8) by omega, show 8 * 1 + i - 8 = i by omega]
  · simp [hi, show i < 16 by omega]

theorem wordBytesLE_joinLE (a b c d : Byte) : wordBytesLE (joinLE a b c d) = [a, b, c, d] := by
  obtain ⟨h3, h2, h1, h0⟩ := wordByte_joinBE d c b a
  simp [wordBytesLE, joinLE, h0, h1, h2, h3]

theorem wordBytesBE_joinBE (a b c d : Byte) : wordBytesBE (joinBE a b c d) = [a, b, c, d] := by
  obtain ⟨h3, h2, h1, h0⟩ := wordByte_joinBE a b c d
  simp [wordBytesBE, h0, h1, h2, h3]

/-- A word swapped and stored lies in memory in wire order (R72, R73). -/
theorem wordBytesLE_bswap32 (w : Word) : wordBytesLE (bswap32 w) = wordBytesBE w := by
  rw [bswap32, show joinBE (wordByte w 0) (wordByte w 1) (wordByte w 2) (wordByte w 3) =
    joinLE (wordByte w 3) (wordByte w 2) (wordByte w 1) (wordByte w 0) from rfl, wordBytesLE_joinLE]
  rfl

theorem bswap32_bswap32 (w : Word) : bswap32 (bswap32 w) = w := by
  obtain ⟨h3, h2, h1, h0⟩ := wordByte_joinBE (wordByte w 0) (wordByte w 1) (wordByte w 2) (wordByte w 3)
  rw [bswap32, bswap32, h0, h1, h2, h3, joinBE_wordByte]

theorem bswap32_joinLE (a b c d : Byte) : bswap32 (joinLE a b c d) = joinBE a b c d := by
  obtain ⟨h3, h2, h1, h0⟩ := wordByte_joinBE d c b a
  simp [bswap32, joinLE, h0, h1, h2, h3]

theorem Memory.readWord_congr {m m' : Memory} {a : Word} (h : m.readBytes a 4 = m'.readBytes a 4) :
    m.readWord a = m'.readWord a := by
  rw [Memory.readWord_eq, Memory.readWord_eq, h]

/-- Reading back a stored word. -/
theorem Memory.readWord_writeWord {m : Memory} (h : m.wf = true) {a : Word} (w : Word) (ha : a.toNat + 4 ≤ 2 ^ 32) :
    (m.writeWord a w).readWord a = w := by
  have := Memory.readBytes_writeBytes (bs := wordBytesLE w) h ha
  rw [wordBytesLE_length] at this
  rw [Memory.readWord_eq, Memory.writeWord, this]
  exact joinLE_wordByte w

/-- The words in memory, from their bytes. -/
theorem Memory.readWords_eq {m : Memory} {a : Word} {ws : List Word} (h : m.readBytes a (4 * ws.length) = wordsBytesLE ws) :
    m.readWords a ws.length = ws := by
  induction ws generalizing a with
  | nil => rfl
  | cons w ws ih =>
    rw [List.length_cons, show 4 * (ws.length + 1) = 4 * ws.length + 1 + 1 + 1 + 1 by omega] at h
    simp only [Memory.readBytes, BitVec.add_assoc] at h
    rw [show wordsBytesLE (w :: ws) = wordByte w 0 :: wordByte w 1 :: wordByte w 2 :: wordByte w 3 :: wordsBytesLE ws
      from rfl] at h
    simp only [List.cons.injEq] at h
    obtain ⟨h0, h1, h2, h3, h⟩ := h
    rw [List.length_cons, Memory.readWords, show (4#32 : Word) = 1#32 + (1#32 + (1#32 + 1#32)) from rfl, ih h]
    congr 1
    rw [Memory.readWord, h0, h1]
    rw [show (2#32 : Word) = 1#32 + 1#32 from rfl, h2, show (3#32 : Word) = 1#32 + (1#32 + 1#32) from rfl, h3]
    exact joinLE_wordByte w

theorem wordsBytesLE_take_drop (ws : List Word) {i : Nat} (h : i < ws.length) :
    ((wordsBytesLE ws).drop (4 * i)).take 4 = wordBytesLE (ws.getD i 0#32) := by
  induction ws generalizing i with
  | nil => simp at h
  | cons w ws ih =>
    rw [show wordsBytesLE (w :: ws) = wordBytesLE w ++ wordsBytesLE ws from rfl]
    cases i with
    | zero => simp [wordBytesLE]
    | succ i =>
      rw [show 4 * (i + 1) = (wordBytesLE w).length + 4 * i by simp; omega, List.drop_append,
        List.drop_of_length_le (by omega), List.nil_append, Nat.add_sub_cancel_left]
      simpa using ih (by simpa using h)

/-- Reading back one of some stored words. -/
theorem Memory.readWord_writeWords {m : Memory} (h : m.wf = true) {a : Word} {ws : List Word} {i : Nat}
    (ha : a.toNat + 4 * ws.length ≤ 2 ^ 32) (hi : i < ws.length) :
    (m.writeWords a ws).readWord (a + BitVec.ofNat 32 (4 * i)) = ws.getD i 0#32 := by
  have hbytes : (m.writeWords a ws).readBytes (a + BitVec.ofNat 32 (4 * i)) 4 = wordBytesLE (ws.getD i 0#32) := by
    rw [← wordsBytesLE_take_drop ws hi, Memory.writeWords_eq]
    apply List.ext_getElem?
    intro k
    by_cases hk : k < 4
    · rw [Memory.readBytes_getElem? _ _ hk, List.getElem?_take_of_lt hk, word_add_assoc,
        Memory.read_writeBytes h (by rw [wordsBytesLE_length]; exact ha), word_add_toNat (by omega), if_pos (by rw [wordsBytesLE_length]; omega)]
      rw [List.getElem?_drop, show a.toNat + (4 * i + k) - a.toNat = 4 * i + k by omega, List.getD_eq_getElem?_getD]
      rw [List.getElem?_eq_getElem (by rw [wordsBytesLE_length]; omega)]
      rfl
    · rw [List.getElem?_eq_none (by simpa using hk), List.getElem?_eq_none (by simp; omega)]
  rw [Memory.readWord_eq, hbytes]
  exact joinLE_wordByte _

end Sys2Proof.Machine
end

