-- ==== Sys2Proof/Laws/State.lean ====
section
/-! SUPPORT. One lemma per field of State per named update: what the update writes there, or that it leaves the field as
it was. -/

namespace Sys2Proof.Machine

/-! ## setPhase -/

@[simp] theorem State.setPhase_cfg (s : State) (p : Phase) : (s.setPhase p).cfg = s.cfg := rfl
@[simp] theorem State.setPhase_session (s : State) (p : Phase) : (s.setPhase p).session = s.session := rfl
@[simp] theorem State.setPhase_ioInitialised (s : State) (p : Phase) : (s.setPhase p).ioInitialised = s.ioInitialised := rfl
@[simp] theorem State.setPhase_sessionValid (s : State) (p : Phase) : (s.setPhase p).sessionValid = s.sessionValid := rfl
@[simp] theorem State.setPhase_phase (s : State) (p : Phase) : (s.setPhase p).phase = p := rfl
@[simp] theorem State.setPhase_stack (s : State) (p : Phase) : (s.setPhase p).stack = s.stack := rfl
@[simp] theorem State.setPhase_lastFailure (s : State) (p : Phase) : (s.setPhase p).lastFailure = s.lastFailure := rfl
@[simp] theorem State.setPhase_cseq (s : State) (p : Phase) : (s.setPhase p).cseq = s.cseq := rfl
@[simp] theorem State.setPhase_dseq (s : State) (p : Phase) : (s.setPhase p).dseq = s.dseq := rfl
@[simp] theorem State.setPhase_lanes (s : State) (p : Phase) : (s.setPhase p).lanes = s.lanes := rfl
@[simp] theorem State.setPhase_kseq (s : State) (p : Phase) : (s.setPhase p).kseq = s.kseq := rfl
@[simp] theorem State.setPhase_dma0 (s : State) (p : Phase) : (s.setPhase p).dma0 = s.dma0 := rfl
@[simp] theorem State.setPhase_dma1 (s : State) (p : Phase) : (s.setPhase p).dma1 = s.dma1 := rfl
@[simp] theorem State.setPhase_crc7Reg (s : State) (p : Phase) : (s.setPhase p).crc7Reg = s.crc7Reg := rfl
@[simp] theorem State.setPhase_crc16Reg (s : State) (p : Phase) : (s.setPhase p).crc16Reg = s.crc16Reg := rfl
@[simp] theorem State.setPhase_mem (s : State) (p : Phase) : (s.setPhase p).mem = s.mem := rfl
@[simp] theorem State.setPhase_host (s : State) (p : Phase) : (s.setPhase p).host = s.host := rfl
@[simp] theorem State.setPhase_result (s : State) (p : Phase) : (s.setPhase p).result = s.result := rfl
@[simp] theorem State.setPhase_done (s : State) (p : Phase) : (s.setPhase p).done = s.done := rfl
@[simp] theorem State.setPhase_history (s : State) (p : Phase) : (s.setPhase p).history = s.history := rfl
@[simp] theorem State.setPhase_appPrefix (s : State) (p : Phase) : (s.setPhase p).appPrefix = s.appPrefix := rfl
@[simp] theorem State.setPhase_card (s : State) (p : Phase) : (s.setPhase p).card = s.card := rfl
@[simp] theorem State.setPhase_free (s : State) (p : Phase) : (s.setPhase p).free = s.free := rfl
@[simp] theorem State.setPhase_freeCount (s : State) (p : Phase) : (s.setPhase p).freeCount = s.freeCount := rfl

/-! ## setMem -/

@[simp] theorem State.setMem_cfg (s : State) (m : Memory) : (s.setMem m).cfg = s.cfg := rfl
@[simp] theorem State.setMem_session (s : State) (m : Memory) : (s.setMem m).session = s.session := rfl
@[simp] theorem State.setMem_ioInitialised (s : State) (m : Memory) : (s.setMem m).ioInitialised = s.ioInitialised := rfl
@[simp] theorem State.setMem_sessionValid (s : State) (m : Memory) : (s.setMem m).sessionValid = s.sessionValid := rfl
@[simp] theorem State.setMem_phase (s : State) (m : Memory) : (s.setMem m).phase = s.phase := rfl
@[simp] theorem State.setMem_stack (s : State) (m : Memory) : (s.setMem m).stack = s.stack := rfl
@[simp] theorem State.setMem_lastFailure (s : State) (m : Memory) : (s.setMem m).lastFailure = s.lastFailure := rfl
@[simp] theorem State.setMem_cseq (s : State) (m : Memory) : (s.setMem m).cseq = s.cseq := rfl
@[simp] theorem State.setMem_dseq (s : State) (m : Memory) : (s.setMem m).dseq = s.dseq := rfl
@[simp] theorem State.setMem_lanes (s : State) (m : Memory) : (s.setMem m).lanes = s.lanes := rfl
@[simp] theorem State.setMem_kseq (s : State) (m : Memory) : (s.setMem m).kseq = s.kseq := rfl
@[simp] theorem State.setMem_dma0 (s : State) (m : Memory) : (s.setMem m).dma0 = s.dma0 := rfl
@[simp] theorem State.setMem_dma1 (s : State) (m : Memory) : (s.setMem m).dma1 = s.dma1 := rfl
@[simp] theorem State.setMem_crc7Reg (s : State) (m : Memory) : (s.setMem m).crc7Reg = s.crc7Reg := rfl
@[simp] theorem State.setMem_crc16Reg (s : State) (m : Memory) : (s.setMem m).crc16Reg = s.crc16Reg := rfl
@[simp] theorem State.setMem_mem (s : State) (m : Memory) : (s.setMem m).mem = m := rfl
@[simp] theorem State.setMem_host (s : State) (m : Memory) : (s.setMem m).host = s.host := rfl
@[simp] theorem State.setMem_result (s : State) (m : Memory) : (s.setMem m).result = s.result := rfl
@[simp] theorem State.setMem_done (s : State) (m : Memory) : (s.setMem m).done = s.done := rfl
@[simp] theorem State.setMem_history (s : State) (m : Memory) : (s.setMem m).history = s.history := rfl
@[simp] theorem State.setMem_appPrefix (s : State) (m : Memory) : (s.setMem m).appPrefix = s.appPrefix := rfl
@[simp] theorem State.setMem_card (s : State) (m : Memory) : (s.setMem m).card = s.card := rfl
@[simp] theorem State.setMem_free (s : State) (m : Memory) : (s.setMem m).free = s.free := rfl
@[simp] theorem State.setMem_freeCount (s : State) (m : Memory) : (s.setMem m).freeCount = s.freeCount := rfl

/-! ## setCseq -/

@[simp] theorem State.setCseq_cfg (s : State) (q : Seq) : (s.setCseq q).cfg = s.cfg := rfl
@[simp] theorem State.setCseq_session (s : State) (q : Seq) : (s.setCseq q).session = s.session := rfl
@[simp] theorem State.setCseq_ioInitialised (s : State) (q : Seq) : (s.setCseq q).ioInitialised = s.ioInitialised := rfl
@[simp] theorem State.setCseq_sessionValid (s : State) (q : Seq) : (s.setCseq q).sessionValid = s.sessionValid := rfl
@[simp] theorem State.setCseq_phase (s : State) (q : Seq) : (s.setCseq q).phase = s.phase := rfl
@[simp] theorem State.setCseq_stack (s : State) (q : Seq) : (s.setCseq q).stack = s.stack := rfl
@[simp] theorem State.setCseq_lastFailure (s : State) (q : Seq) : (s.setCseq q).lastFailure = s.lastFailure := rfl
@[simp] theorem State.setCseq_cseq (s : State) (q : Seq) : (s.setCseq q).cseq = q := rfl
@[simp] theorem State.setCseq_dseq (s : State) (q : Seq) : (s.setCseq q).dseq = s.dseq := rfl
@[simp] theorem State.setCseq_lanes (s : State) (q : Seq) : (s.setCseq q).lanes = s.lanes := rfl
@[simp] theorem State.setCseq_kseq (s : State) (q : Seq) : (s.setCseq q).kseq = s.kseq := rfl
@[simp] theorem State.setCseq_dma0 (s : State) (q : Seq) : (s.setCseq q).dma0 = s.dma0 := rfl
@[simp] theorem State.setCseq_dma1 (s : State) (q : Seq) : (s.setCseq q).dma1 = s.dma1 := rfl
@[simp] theorem State.setCseq_crc7Reg (s : State) (q : Seq) : (s.setCseq q).crc7Reg = s.crc7Reg := rfl
@[simp] theorem State.setCseq_crc16Reg (s : State) (q : Seq) : (s.setCseq q).crc16Reg = s.crc16Reg := rfl
@[simp] theorem State.setCseq_mem (s : State) (q : Seq) : (s.setCseq q).mem = s.mem := rfl
@[simp] theorem State.setCseq_host (s : State) (q : Seq) : (s.setCseq q).host = s.host := rfl
@[simp] theorem State.setCseq_result (s : State) (q : Seq) : (s.setCseq q).result = s.result := rfl
@[simp] theorem State.setCseq_done (s : State) (q : Seq) : (s.setCseq q).done = s.done := rfl
@[simp] theorem State.setCseq_history (s : State) (q : Seq) : (s.setCseq q).history = s.history := rfl
@[simp] theorem State.setCseq_appPrefix (s : State) (q : Seq) : (s.setCseq q).appPrefix = s.appPrefix := rfl
@[simp] theorem State.setCseq_card (s : State) (q : Seq) : (s.setCseq q).card = s.card := rfl
@[simp] theorem State.setCseq_free (s : State) (q : Seq) : (s.setCseq q).free = s.free := rfl
@[simp] theorem State.setCseq_freeCount (s : State) (q : Seq) : (s.setCseq q).freeCount = s.freeCount := rfl

/-! ## setDseq -/

@[simp] theorem State.setDseq_cfg (s : State) (q : Seq) : (s.setDseq q).cfg = s.cfg := rfl
@[simp] theorem State.setDseq_session (s : State) (q : Seq) : (s.setDseq q).session = s.session := rfl
@[simp] theorem State.setDseq_ioInitialised (s : State) (q : Seq) : (s.setDseq q).ioInitialised = s.ioInitialised := rfl
@[simp] theorem State.setDseq_sessionValid (s : State) (q : Seq) : (s.setDseq q).sessionValid = s.sessionValid := rfl
@[simp] theorem State.setDseq_phase (s : State) (q : Seq) : (s.setDseq q).phase = s.phase := rfl
@[simp] theorem State.setDseq_stack (s : State) (q : Seq) : (s.setDseq q).stack = s.stack := rfl
@[simp] theorem State.setDseq_lastFailure (s : State) (q : Seq) : (s.setDseq q).lastFailure = s.lastFailure := rfl
@[simp] theorem State.setDseq_cseq (s : State) (q : Seq) : (s.setDseq q).cseq = s.cseq := rfl
@[simp] theorem State.setDseq_dseq (s : State) (q : Seq) : (s.setDseq q).dseq = q := rfl
@[simp] theorem State.setDseq_lanes (s : State) (q : Seq) : (s.setDseq q).lanes = s.lanes := rfl
@[simp] theorem State.setDseq_kseq (s : State) (q : Seq) : (s.setDseq q).kseq = s.kseq := rfl
@[simp] theorem State.setDseq_dma0 (s : State) (q : Seq) : (s.setDseq q).dma0 = s.dma0 := rfl
@[simp] theorem State.setDseq_dma1 (s : State) (q : Seq) : (s.setDseq q).dma1 = s.dma1 := rfl
@[simp] theorem State.setDseq_crc7Reg (s : State) (q : Seq) : (s.setDseq q).crc7Reg = s.crc7Reg := rfl
@[simp] theorem State.setDseq_crc16Reg (s : State) (q : Seq) : (s.setDseq q).crc16Reg = s.crc16Reg := rfl
@[simp] theorem State.setDseq_mem (s : State) (q : Seq) : (s.setDseq q).mem = s.mem := rfl
@[simp] theorem State.setDseq_host (s : State) (q : Seq) : (s.setDseq q).host = s.host := rfl
@[simp] theorem State.setDseq_result (s : State) (q : Seq) : (s.setDseq q).result = s.result := rfl
@[simp] theorem State.setDseq_done (s : State) (q : Seq) : (s.setDseq q).done = s.done := rfl
@[simp] theorem State.setDseq_history (s : State) (q : Seq) : (s.setDseq q).history = s.history := rfl
@[simp] theorem State.setDseq_appPrefix (s : State) (q : Seq) : (s.setDseq q).appPrefix = s.appPrefix := rfl
@[simp] theorem State.setDseq_card (s : State) (q : Seq) : (s.setDseq q).card = s.card := rfl
@[simp] theorem State.setDseq_free (s : State) (q : Seq) : (s.setDseq q).free = s.free := rfl
@[simp] theorem State.setDseq_freeCount (s : State) (q : Seq) : (s.setDseq q).freeCount = s.freeCount := rfl

/-! ## setDma0 -/

@[simp] theorem State.setDma0_cfg (s : State) (d : Dma0) : (s.setDma0 d).cfg = s.cfg := rfl
@[simp] theorem State.setDma0_session (s : State) (d : Dma0) : (s.setDma0 d).session = s.session := rfl
@[simp] theorem State.setDma0_ioInitialised (s : State) (d : Dma0) : (s.setDma0 d).ioInitialised = s.ioInitialised := rfl
@[simp] theorem State.setDma0_sessionValid (s : State) (d : Dma0) : (s.setDma0 d).sessionValid = s.sessionValid := rfl
@[simp] theorem State.setDma0_phase (s : State) (d : Dma0) : (s.setDma0 d).phase = s.phase := rfl
@[simp] theorem State.setDma0_stack (s : State) (d : Dma0) : (s.setDma0 d).stack = s.stack := rfl
@[simp] theorem State.setDma0_lastFailure (s : State) (d : Dma0) : (s.setDma0 d).lastFailure = s.lastFailure := rfl
@[simp] theorem State.setDma0_cseq (s : State) (d : Dma0) : (s.setDma0 d).cseq = s.cseq := rfl
@[simp] theorem State.setDma0_dseq (s : State) (d : Dma0) : (s.setDma0 d).dseq = s.dseq := rfl
@[simp] theorem State.setDma0_lanes (s : State) (d : Dma0) : (s.setDma0 d).lanes = s.lanes := rfl
@[simp] theorem State.setDma0_kseq (s : State) (d : Dma0) : (s.setDma0 d).kseq = s.kseq := rfl
@[simp] theorem State.setDma0_dma0 (s : State) (d : Dma0) : (s.setDma0 d).dma0 = d := rfl
@[simp] theorem State.setDma0_dma1 (s : State) (d : Dma0) : (s.setDma0 d).dma1 = s.dma1 := rfl
@[simp] theorem State.setDma0_crc7Reg (s : State) (d : Dma0) : (s.setDma0 d).crc7Reg = s.crc7Reg := rfl
@[simp] theorem State.setDma0_crc16Reg (s : State) (d : Dma0) : (s.setDma0 d).crc16Reg = s.crc16Reg := rfl
@[simp] theorem State.setDma0_mem (s : State) (d : Dma0) : (s.setDma0 d).mem = s.mem := rfl
@[simp] theorem State.setDma0_host (s : State) (d : Dma0) : (s.setDma0 d).host = s.host := rfl
@[simp] theorem State.setDma0_result (s : State) (d : Dma0) : (s.setDma0 d).result = s.result := rfl
@[simp] theorem State.setDma0_done (s : State) (d : Dma0) : (s.setDma0 d).done = s.done := rfl
@[simp] theorem State.setDma0_history (s : State) (d : Dma0) : (s.setDma0 d).history = s.history := rfl
@[simp] theorem State.setDma0_appPrefix (s : State) (d : Dma0) : (s.setDma0 d).appPrefix = s.appPrefix := rfl
@[simp] theorem State.setDma0_card (s : State) (d : Dma0) : (s.setDma0 d).card = s.card := rfl
@[simp] theorem State.setDma0_free (s : State) (d : Dma0) : (s.setDma0 d).free = s.free := rfl
@[simp] theorem State.setDma0_freeCount (s : State) (d : Dma0) : (s.setDma0 d).freeCount = s.freeCount := rfl

/-! ## setDma1 -/

@[simp] theorem State.setDma1_cfg (s : State) (d : Dma1) : (s.setDma1 d).cfg = s.cfg := rfl
@[simp] theorem State.setDma1_session (s : State) (d : Dma1) : (s.setDma1 d).session = s.session := rfl
@[simp] theorem State.setDma1_ioInitialised (s : State) (d : Dma1) : (s.setDma1 d).ioInitialised = s.ioInitialised := rfl
@[simp] theorem State.setDma1_sessionValid (s : State) (d : Dma1) : (s.setDma1 d).sessionValid = s.sessionValid := rfl
@[simp] theorem State.setDma1_phase (s : State) (d : Dma1) : (s.setDma1 d).phase = s.phase := rfl
@[simp] theorem State.setDma1_stack (s : State) (d : Dma1) : (s.setDma1 d).stack = s.stack := rfl
@[simp] theorem State.setDma1_lastFailure (s : State) (d : Dma1) : (s.setDma1 d).lastFailure = s.lastFailure := rfl
@[simp] theorem State.setDma1_cseq (s : State) (d : Dma1) : (s.setDma1 d).cseq = s.cseq := rfl
@[simp] theorem State.setDma1_dseq (s : State) (d : Dma1) : (s.setDma1 d).dseq = s.dseq := rfl
@[simp] theorem State.setDma1_lanes (s : State) (d : Dma1) : (s.setDma1 d).lanes = s.lanes := rfl
@[simp] theorem State.setDma1_kseq (s : State) (d : Dma1) : (s.setDma1 d).kseq = s.kseq := rfl
@[simp] theorem State.setDma1_dma0 (s : State) (d : Dma1) : (s.setDma1 d).dma0 = s.dma0 := rfl
@[simp] theorem State.setDma1_dma1 (s : State) (d : Dma1) : (s.setDma1 d).dma1 = d := rfl
@[simp] theorem State.setDma1_crc7Reg (s : State) (d : Dma1) : (s.setDma1 d).crc7Reg = s.crc7Reg := rfl
@[simp] theorem State.setDma1_crc16Reg (s : State) (d : Dma1) : (s.setDma1 d).crc16Reg = s.crc16Reg := rfl
@[simp] theorem State.setDma1_mem (s : State) (d : Dma1) : (s.setDma1 d).mem = s.mem := rfl
@[simp] theorem State.setDma1_host (s : State) (d : Dma1) : (s.setDma1 d).host = s.host := rfl
@[simp] theorem State.setDma1_result (s : State) (d : Dma1) : (s.setDma1 d).result = s.result := rfl
@[simp] theorem State.setDma1_done (s : State) (d : Dma1) : (s.setDma1 d).done = s.done := rfl
@[simp] theorem State.setDma1_history (s : State) (d : Dma1) : (s.setDma1 d).history = s.history := rfl
@[simp] theorem State.setDma1_appPrefix (s : State) (d : Dma1) : (s.setDma1 d).appPrefix = s.appPrefix := rfl
@[simp] theorem State.setDma1_card (s : State) (d : Dma1) : (s.setDma1 d).card = s.card := rfl
@[simp] theorem State.setDma1_free (s : State) (d : Dma1) : (s.setDma1 d).free = s.free := rfl
@[simp] theorem State.setDma1_freeCount (s : State) (d : Dma1) : (s.setDma1 d).freeCount = s.freeCount := rfl

/-! ## setWidth -/

@[simp] theorem State.setWidth_cfg (s : State) (w : Width) : (s.setWidth w).cfg = s.cfg := rfl
@[simp] theorem State.setWidth_session (s : State) (w : Width) : (s.setWidth w).session = { s.session with dataWidth := w } := rfl
@[simp] theorem State.setWidth_ioInitialised (s : State) (w : Width) : (s.setWidth w).ioInitialised = s.ioInitialised := rfl
@[simp] theorem State.setWidth_sessionValid (s : State) (w : Width) : (s.setWidth w).sessionValid = s.sessionValid := rfl
@[simp] theorem State.setWidth_phase (s : State) (w : Width) : (s.setWidth w).phase = s.phase := rfl
@[simp] theorem State.setWidth_stack (s : State) (w : Width) : (s.setWidth w).stack = s.stack := rfl
@[simp] theorem State.setWidth_lastFailure (s : State) (w : Width) : (s.setWidth w).lastFailure = s.lastFailure := rfl
@[simp] theorem State.setWidth_cseq (s : State) (w : Width) : (s.setWidth w).cseq = s.cseq := rfl
@[simp] theorem State.setWidth_dseq (s : State) (w : Width) : (s.setWidth w).dseq = s.dseq := rfl
@[simp] theorem State.setWidth_lanes (s : State) (w : Width) : (s.setWidth w).lanes = w := rfl
@[simp] theorem State.setWidth_kseq (s : State) (w : Width) : (s.setWidth w).kseq = s.kseq := rfl
@[simp] theorem State.setWidth_dma0 (s : State) (w : Width) : (s.setWidth w).dma0 = s.dma0 := rfl
@[simp] theorem State.setWidth_dma1 (s : State) (w : Width) : (s.setWidth w).dma1 = s.dma1 := rfl
@[simp] theorem State.setWidth_crc7Reg (s : State) (w : Width) : (s.setWidth w).crc7Reg = s.crc7Reg := rfl
@[simp] theorem State.setWidth_crc16Reg (s : State) (w : Width) : (s.setWidth w).crc16Reg = s.crc16Reg := rfl
@[simp] theorem State.setWidth_mem (s : State) (w : Width) : (s.setWidth w).mem = s.mem := rfl
@[simp] theorem State.setWidth_host (s : State) (w : Width) : (s.setWidth w).host = s.host := rfl
@[simp] theorem State.setWidth_result (s : State) (w : Width) : (s.setWidth w).result = s.result := rfl
@[simp] theorem State.setWidth_done (s : State) (w : Width) : (s.setWidth w).done = s.done := rfl
@[simp] theorem State.setWidth_history (s : State) (w : Width) : (s.setWidth w).history = s.history := rfl
@[simp] theorem State.setWidth_appPrefix (s : State) (w : Width) : (s.setWidth w).appPrefix = s.appPrefix := rfl
@[simp] theorem State.setWidth_card (s : State) (w : Width) : (s.setWidth w).card = s.card := rfl
@[simp] theorem State.setWidth_free (s : State) (w : Width) : (s.setWidth w).free = s.free := rfl
@[simp] theorem State.setWidth_freeCount (s : State) (w : Width) : (s.setWidth w).freeCount = s.freeCount := rfl

/-! ## drive -/

@[simp] theorem State.drive_cfg (s : State) (e : PinEvent) : (s.drive e).cfg = s.cfg := rfl
@[simp] theorem State.drive_session (s : State) (e : PinEvent) : (s.drive e).session = s.session := rfl
@[simp] theorem State.drive_ioInitialised (s : State) (e : PinEvent) : (s.drive e).ioInitialised = s.ioInitialised := rfl
@[simp] theorem State.drive_sessionValid (s : State) (e : PinEvent) : (s.drive e).sessionValid = s.sessionValid := rfl
@[simp] theorem State.drive_phase (s : State) (e : PinEvent) : (s.drive e).phase = s.phase := rfl
@[simp] theorem State.drive_stack (s : State) (e : PinEvent) : (s.drive e).stack = s.stack := rfl
@[simp] theorem State.drive_lastFailure (s : State) (e : PinEvent) : (s.drive e).lastFailure = s.lastFailure := rfl
@[simp] theorem State.drive_cseq (s : State) (e : PinEvent) : (s.drive e).cseq = s.cseq := rfl
@[simp] theorem State.drive_dseq (s : State) (e : PinEvent) : (s.drive e).dseq = s.dseq := rfl
@[simp] theorem State.drive_lanes (s : State) (e : PinEvent) : (s.drive e).lanes = s.lanes := rfl
@[simp] theorem State.drive_kseq (s : State) (e : PinEvent) : (s.drive e).kseq = s.kseq := rfl
@[simp] theorem State.drive_dma0 (s : State) (e : PinEvent) : (s.drive e).dma0 = s.dma0 := rfl
@[simp] theorem State.drive_dma1 (s : State) (e : PinEvent) : (s.drive e).dma1 = s.dma1 := rfl
@[simp] theorem State.drive_crc7Reg (s : State) (e : PinEvent) : (s.drive e).crc7Reg = s.crc7Reg := rfl
@[simp] theorem State.drive_crc16Reg (s : State) (e : PinEvent) : (s.drive e).crc16Reg = s.crc16Reg := rfl
@[simp] theorem State.drive_mem (s : State) (e : PinEvent) : (s.drive e).mem = s.mem := rfl
@[simp] theorem State.drive_host (s : State) (e : PinEvent) : (s.drive e).host = s.host := rfl
@[simp] theorem State.drive_result (s : State) (e : PinEvent) : (s.drive e).result = s.result := rfl
@[simp] theorem State.drive_done (s : State) (e : PinEvent) : (s.drive e).done = s.done := rfl
@[simp] theorem State.drive_history (s : State) (e : PinEvent) : (s.drive e).history = e :: s.history := rfl
@[simp] theorem State.drive_appPrefix (s : State) (e : PinEvent) : (s.drive e).appPrefix = s.appPrefix := rfl
@[simp] theorem State.drive_card (s : State) (e : PinEvent) : (s.drive e).card = s.card := rfl
@[simp] theorem State.drive_free (s : State) (e : PinEvent) : (s.drive e).free = s.free := rfl
@[simp] theorem State.drive_freeCount (s : State) (e : PinEvent) : (s.drive e).freeCount = s.freeCount := rfl

/-! ## raise -/

@[simp] theorem State.raise_cfg (s : State) (c : Cause) : (s.raise c).cfg = s.cfg := rfl
@[simp] theorem State.raise_session (s : State) (c : Cause) : (s.raise c).session = s.session := rfl
@[simp] theorem State.raise_ioInitialised (s : State) (c : Cause) : (s.raise c).ioInitialised = s.ioInitialised := rfl
@[simp] theorem State.raise_sessionValid (s : State) (c : Cause) : (s.raise c).sessionValid = s.sessionValid := rfl
@[simp] theorem State.raise_phase (s : State) (c : Cause) : (s.raise c).phase = s.phase := rfl
@[simp] theorem State.raise_stack (s : State) (c : Cause) : (s.raise c).stack = s.stack := rfl
@[simp] theorem State.raise_lastFailure (s : State) (c : Cause) : (s.raise c).lastFailure = some c := rfl
@[simp] theorem State.raise_cseq (s : State) (c : Cause) : (s.raise c).cseq = s.cseq := rfl
@[simp] theorem State.raise_dseq (s : State) (c : Cause) : (s.raise c).dseq = s.dseq := rfl
@[simp] theorem State.raise_lanes (s : State) (c : Cause) : (s.raise c).lanes = s.lanes := rfl
@[simp] theorem State.raise_kseq (s : State) (c : Cause) : (s.raise c).kseq = s.kseq := rfl
@[simp] theorem State.raise_dma0 (s : State) (c : Cause) : (s.raise c).dma0 = s.dma0 := rfl
@[simp] theorem State.raise_dma1 (s : State) (c : Cause) : (s.raise c).dma1 = s.dma1 := rfl
@[simp] theorem State.raise_crc7Reg (s : State) (c : Cause) : (s.raise c).crc7Reg = s.crc7Reg := rfl
@[simp] theorem State.raise_crc16Reg (s : State) (c : Cause) : (s.raise c).crc16Reg = s.crc16Reg := rfl
@[simp] theorem State.raise_mem (s : State) (c : Cause) : (s.raise c).mem = s.mem := rfl
@[simp] theorem State.raise_host (s : State) (c : Cause) : (s.raise c).host = s.host := rfl
@[simp] theorem State.raise_result (s : State) (c : Cause) : (s.raise c).result = s.result := rfl
@[simp] theorem State.raise_done (s : State) (c : Cause) : (s.raise c).done = s.done := rfl
@[simp] theorem State.raise_history (s : State) (c : Cause) : (s.raise c).history = s.history := rfl
@[simp] theorem State.raise_appPrefix (s : State) (c : Cause) : (s.raise c).appPrefix = s.appPrefix := rfl
@[simp] theorem State.raise_card (s : State) (c : Cause) : (s.raise c).card = s.card := rfl
@[simp] theorem State.raise_free (s : State) (c : Cause) : (s.raise c).free = s.free := rfl
@[simp] theorem State.raise_freeCount (s : State) (c : Cause) : (s.raise c).freeCount = s.freeCount := rfl

/-! ## notePrefix -/

@[simp] theorem State.notePrefix_cfg (s : State) (b : Bool) : (s.notePrefix b).cfg = s.cfg := rfl
@[simp] theorem State.notePrefix_session (s : State) (b : Bool) : (s.notePrefix b).session = s.session := rfl
@[simp] theorem State.notePrefix_ioInitialised (s : State) (b : Bool) : (s.notePrefix b).ioInitialised = s.ioInitialised := rfl
@[simp] theorem State.notePrefix_sessionValid (s : State) (b : Bool) : (s.notePrefix b).sessionValid = s.sessionValid := rfl
@[simp] theorem State.notePrefix_phase (s : State) (b : Bool) : (s.notePrefix b).phase = s.phase := rfl
@[simp] theorem State.notePrefix_stack (s : State) (b : Bool) : (s.notePrefix b).stack = s.stack := rfl
@[simp] theorem State.notePrefix_lastFailure (s : State) (b : Bool) : (s.notePrefix b).lastFailure = s.lastFailure := rfl
@[simp] theorem State.notePrefix_cseq (s : State) (b : Bool) : (s.notePrefix b).cseq = s.cseq := rfl
@[simp] theorem State.notePrefix_dseq (s : State) (b : Bool) : (s.notePrefix b).dseq = s.dseq := rfl
@[simp] theorem State.notePrefix_lanes (s : State) (b : Bool) : (s.notePrefix b).lanes = s.lanes := rfl
@[simp] theorem State.notePrefix_kseq (s : State) (b : Bool) : (s.notePrefix b).kseq = s.kseq := rfl
@[simp] theorem State.notePrefix_dma0 (s : State) (b : Bool) : (s.notePrefix b).dma0 = s.dma0 := rfl
@[simp] theorem State.notePrefix_dma1 (s : State) (b : Bool) : (s.notePrefix b).dma1 = s.dma1 := rfl
@[simp] theorem State.notePrefix_crc7Reg (s : State) (b : Bool) : (s.notePrefix b).crc7Reg = s.crc7Reg := rfl
@[simp] theorem State.notePrefix_crc16Reg (s : State) (b : Bool) : (s.notePrefix b).crc16Reg = s.crc16Reg := rfl
@[simp] theorem State.notePrefix_mem (s : State) (b : Bool) : (s.notePrefix b).mem = s.mem := rfl
@[simp] theorem State.notePrefix_host (s : State) (b : Bool) : (s.notePrefix b).host = s.host := rfl
@[simp] theorem State.notePrefix_result (s : State) (b : Bool) : (s.notePrefix b).result = s.result := rfl
@[simp] theorem State.notePrefix_done (s : State) (b : Bool) : (s.notePrefix b).done = s.done := rfl
@[simp] theorem State.notePrefix_history (s : State) (b : Bool) : (s.notePrefix b).history = s.history := rfl
@[simp] theorem State.notePrefix_appPrefix (s : State) (b : Bool) : (s.notePrefix b).appPrefix = b := rfl
@[simp] theorem State.notePrefix_card (s : State) (b : Bool) : (s.notePrefix b).card = s.card := rfl
@[simp] theorem State.notePrefix_free (s : State) (b : Bool) : (s.notePrefix b).free = s.free := rfl
@[simp] theorem State.notePrefix_freeCount (s : State) (b : Bool) : (s.notePrefix b).freeCount = s.freeCount := rfl

/-! ## finish -/

@[simp] theorem State.finish_cfg (s : State) (r : OpResult) : (s.finish r).cfg = s.cfg := rfl
@[simp] theorem State.finish_session (s : State) (r : OpResult) : (s.finish r).session = s.session := rfl
@[simp] theorem State.finish_ioInitialised (s : State) (r : OpResult) : (s.finish r).ioInitialised = s.ioInitialised := rfl
@[simp] theorem State.finish_sessionValid (s : State) (r : OpResult) : (s.finish r).sessionValid = s.sessionValid := rfl
@[simp] theorem State.finish_phase (s : State) (r : OpResult) : (s.finish r).phase = .idle := rfl
@[simp] theorem State.finish_stack (s : State) (r : OpResult) : (s.finish r).stack = [] := rfl
@[simp] theorem State.finish_lastFailure (s : State) (r : OpResult) : (s.finish r).lastFailure = s.lastFailure := rfl
@[simp] theorem State.finish_cseq (s : State) (r : OpResult) : (s.finish r).cseq = s.cseq := rfl
@[simp] theorem State.finish_dseq (s : State) (r : OpResult) : (s.finish r).dseq = s.dseq := rfl
@[simp] theorem State.finish_lanes (s : State) (r : OpResult) : (s.finish r).lanes = s.lanes := rfl
@[simp] theorem State.finish_kseq (s : State) (r : OpResult) : (s.finish r).kseq = s.kseq := rfl
@[simp] theorem State.finish_dma0 (s : State) (r : OpResult) : (s.finish r).dma0 = s.dma0 := rfl
@[simp] theorem State.finish_dma1 (s : State) (r : OpResult) : (s.finish r).dma1 = s.dma1 := rfl
@[simp] theorem State.finish_crc7Reg (s : State) (r : OpResult) : (s.finish r).crc7Reg = s.crc7Reg := rfl
@[simp] theorem State.finish_crc16Reg (s : State) (r : OpResult) : (s.finish r).crc16Reg = s.crc16Reg := rfl
@[simp] theorem State.finish_mem (s : State) (r : OpResult) : (s.finish r).mem = s.mem := rfl
@[simp] theorem State.finish_host (s : State) (r : OpResult) : (s.finish r).host = s.host := rfl
@[simp] theorem State.finish_result (s : State) (r : OpResult) : (s.finish r).result = r := rfl
@[simp] theorem State.finish_done (s : State) (r : OpResult) : (s.finish r).done = true := rfl
@[simp] theorem State.finish_history (s : State) (r : OpResult) : (s.finish r).history = s.history := rfl
@[simp] theorem State.finish_appPrefix (s : State) (r : OpResult) : (s.finish r).appPrefix = s.appPrefix := rfl
@[simp] theorem State.finish_card (s : State) (r : OpResult) : (s.finish r).card = s.card := rfl
@[simp] theorem State.finish_free (s : State) (r : OpResult) : (s.finish r).free = s.free := rfl
@[simp] theorem State.finish_freeCount (s : State) (r : OpResult) : (s.finish r).freeCount = s.freeCount := rfl

/-! ## turnTaken -/

@[simp] theorem State.turnTaken_cfg (s : State) : (s.turnTaken).cfg = s.cfg := rfl
@[simp] theorem State.turnTaken_session (s : State) : (s.turnTaken).session = s.session := rfl
@[simp] theorem State.turnTaken_ioInitialised (s : State) : (s.turnTaken).ioInitialised = s.ioInitialised := rfl
@[simp] theorem State.turnTaken_sessionValid (s : State) : (s.turnTaken).sessionValid = s.sessionValid := rfl
@[simp] theorem State.turnTaken_phase (s : State) : (s.turnTaken).phase = s.phase := rfl
@[simp] theorem State.turnTaken_stack (s : State) : (s.turnTaken).stack = s.stack := rfl
@[simp] theorem State.turnTaken_lastFailure (s : State) : (s.turnTaken).lastFailure = s.lastFailure := rfl
@[simp] theorem State.turnTaken_cseq (s : State) : (s.turnTaken).cseq = s.cseq := rfl
@[simp] theorem State.turnTaken_dseq (s : State) : (s.turnTaken).dseq = s.dseq := rfl
@[simp] theorem State.turnTaken_lanes (s : State) : (s.turnTaken).lanes = s.lanes := rfl
@[simp] theorem State.turnTaken_kseq (s : State) : (s.turnTaken).kseq = s.kseq := rfl
@[simp] theorem State.turnTaken_dma0 (s : State) : (s.turnTaken).dma0 = s.dma0 := rfl
@[simp] theorem State.turnTaken_dma1 (s : State) : (s.turnTaken).dma1 = s.dma1 := rfl
@[simp] theorem State.turnTaken_crc7Reg (s : State) : (s.turnTaken).crc7Reg = s.crc7Reg := rfl
@[simp] theorem State.turnTaken_crc16Reg (s : State) : (s.turnTaken).crc16Reg = s.crc16Reg := rfl
@[simp] theorem State.turnTaken_mem (s : State) : (s.turnTaken).mem = s.mem := rfl
@[simp] theorem State.turnTaken_host (s : State) : (s.turnTaken).host = s.host := rfl
@[simp] theorem State.turnTaken_result (s : State) : (s.turnTaken).result = s.result := rfl
@[simp] theorem State.turnTaken_done (s : State) : (s.turnTaken).done = s.done := rfl
@[simp] theorem State.turnTaken_history (s : State) : (s.turnTaken).history = s.history := rfl
@[simp] theorem State.turnTaken_appPrefix (s : State) : (s.turnTaken).appPrefix = s.appPrefix := rfl
@[simp] theorem State.turnTaken_card (s : State) : (s.turnTaken).card = s.card.tail := rfl
@[simp] theorem State.turnTaken_free (s : State) : (s.turnTaken).free = s.free := rfl
@[simp] theorem State.turnTaken_freeCount (s : State) : (s.turnTaken).freeCount = s.freeCount := rfl

/-! ## drawn -/

@[simp] theorem State.drawn_cfg (s : State) : s.drawn.cfg = s.cfg := by unfold State.drawn; cases s.free <;> rfl
@[simp] theorem State.drawn_session (s : State) : s.drawn.session = s.session := by unfold State.drawn; cases s.free <;> rfl
@[simp] theorem State.drawn_ioInitialised (s : State) : s.drawn.ioInitialised = s.ioInitialised := by unfold State.drawn; cases s.free <;> rfl
@[simp] theorem State.drawn_sessionValid (s : State) : s.drawn.sessionValid = s.sessionValid := by unfold State.drawn; cases s.free <;> rfl
@[simp] theorem State.drawn_phase (s : State) : s.drawn.phase = s.phase := by unfold State.drawn; cases s.free <;> rfl
@[simp] theorem State.drawn_stack (s : State) : s.drawn.stack = s.stack := by unfold State.drawn; cases s.free <;> rfl
@[simp] theorem State.drawn_lastFailure (s : State) : s.drawn.lastFailure = s.lastFailure := by unfold State.drawn; cases s.free <;> rfl
@[simp] theorem State.drawn_cseq (s : State) : s.drawn.cseq = s.cseq := by unfold State.drawn; cases s.free <;> rfl
@[simp] theorem State.drawn_dseq (s : State) : s.drawn.dseq = s.dseq := by unfold State.drawn; cases s.free <;> rfl
@[simp] theorem State.drawn_lanes (s : State) : s.drawn.lanes = s.lanes := by unfold State.drawn; cases s.free <;> rfl
@[simp] theorem State.drawn_kseq (s : State) : s.drawn.kseq = s.kseq := by unfold State.drawn; cases s.free <;> rfl
@[simp] theorem State.drawn_dma0 (s : State) : s.drawn.dma0 = s.dma0 := by unfold State.drawn; cases s.free <;> rfl
@[simp] theorem State.drawn_dma1 (s : State) : s.drawn.dma1 = s.dma1 := by unfold State.drawn; cases s.free <;> rfl
@[simp] theorem State.drawn_crc7Reg (s : State) : s.drawn.crc7Reg = s.crc7Reg := by unfold State.drawn; cases s.free <;> rfl
@[simp] theorem State.drawn_crc16Reg (s : State) : s.drawn.crc16Reg = s.crc16Reg := by unfold State.drawn; cases s.free <;> rfl
@[simp] theorem State.drawn_mem (s : State) : s.drawn.mem = s.mem := by unfold State.drawn; cases s.free <;> rfl
@[simp] theorem State.drawn_host (s : State) : s.drawn.host = s.host := by unfold State.drawn; cases s.free <;> rfl
@[simp] theorem State.drawn_result (s : State) : s.drawn.result = s.result := by unfold State.drawn; cases s.free <;> rfl
@[simp] theorem State.drawn_done (s : State) : s.drawn.done = s.done := by unfold State.drawn; cases s.free <;> rfl
@[simp] theorem State.drawn_history (s : State) : s.drawn.history = s.history := by unfold State.drawn; cases s.free <;> rfl
@[simp] theorem State.drawn_appPrefix (s : State) : s.drawn.appPrefix = s.appPrefix := by unfold State.drawn; cases s.free <;> rfl
@[simp] theorem State.drawn_card (s : State) : s.drawn.card = s.card := by unfold State.drawn; cases s.free <;> rfl

/-! ## kseqSetClkdiv and kseqStart -/

@[simp] theorem kseqSetClkdiv_cfg (d : Nat) (s : State) : (kseqSetClkdiv d s).cfg = s.cfg := rfl
@[simp] theorem kseqSetClkdiv_session (d : Nat) (s : State) : (kseqSetClkdiv d s).session = s.session := rfl
@[simp] theorem kseqSetClkdiv_ioInitialised (d : Nat) (s : State) : (kseqSetClkdiv d s).ioInitialised = s.ioInitialised := rfl
@[simp] theorem kseqSetClkdiv_sessionValid (d : Nat) (s : State) : (kseqSetClkdiv d s).sessionValid = s.sessionValid := rfl
@[simp] theorem kseqSetClkdiv_phase (d : Nat) (s : State) : (kseqSetClkdiv d s).phase = s.phase := rfl
@[simp] theorem kseqSetClkdiv_stack (d : Nat) (s : State) : (kseqSetClkdiv d s).stack = s.stack := rfl
@[simp] theorem kseqSetClkdiv_lastFailure (d : Nat) (s : State) : (kseqSetClkdiv d s).lastFailure = s.lastFailure := rfl
@[simp] theorem kseqSetClkdiv_cseq (d : Nat) (s : State) : (kseqSetClkdiv d s).cseq = s.cseq := rfl
@[simp] theorem kseqSetClkdiv_dseq (d : Nat) (s : State) : (kseqSetClkdiv d s).dseq = s.dseq := rfl
@[simp] theorem kseqSetClkdiv_lanes (d : Nat) (s : State) : (kseqSetClkdiv d s).lanes = s.lanes := rfl
@[simp] theorem kseqSetClkdiv_kseq (d : Nat) (s : State) : (kseqSetClkdiv d s).kseq = { s.kseq with clkdiv := d } := rfl
@[simp] theorem kseqSetClkdiv_dma0 (d : Nat) (s : State) : (kseqSetClkdiv d s).dma0 = s.dma0 := rfl
@[simp] theorem kseqSetClkdiv_dma1 (d : Nat) (s : State) : (kseqSetClkdiv d s).dma1 = s.dma1 := rfl
@[simp] theorem kseqSetClkdiv_crc7Reg (d : Nat) (s : State) : (kseqSetClkdiv d s).crc7Reg = s.crc7Reg := rfl
@[simp] theorem kseqSetClkdiv_crc16Reg (d : Nat) (s : State) : (kseqSetClkdiv d s).crc16Reg = s.crc16Reg := rfl
@[simp] theorem kseqSetClkdiv_mem (d : Nat) (s : State) : (kseqSetClkdiv d s).mem = s.mem := rfl
@[simp] theorem kseqSetClkdiv_host (d : Nat) (s : State) : (kseqSetClkdiv d s).host = s.host := rfl
@[simp] theorem kseqSetClkdiv_result (d : Nat) (s : State) : (kseqSetClkdiv d s).result = s.result := rfl
@[simp] theorem kseqSetClkdiv_done (d : Nat) (s : State) : (kseqSetClkdiv d s).done = s.done := rfl
@[simp] theorem kseqSetClkdiv_history (d : Nat) (s : State) : (kseqSetClkdiv d s).history = s.history := rfl
@[simp] theorem kseqSetClkdiv_appPrefix (d : Nat) (s : State) : (kseqSetClkdiv d s).appPrefix = s.appPrefix := rfl
@[simp] theorem kseqSetClkdiv_card (d : Nat) (s : State) : (kseqSetClkdiv d s).card = s.card := rfl
@[simp] theorem kseqSetClkdiv_free (d : Nat) (s : State) : (kseqSetClkdiv d s).free = s.free := rfl
@[simp] theorem kseqSetClkdiv_freeCount (d : Nat) (s : State) : (kseqSetClkdiv d s).freeCount = s.freeCount := rfl

@[simp] theorem kseqStart_cfg (s : State) : (kseqStart s).cfg = s.cfg := rfl
@[simp] theorem kseqStart_session (s : State) : (kseqStart s).session = s.session := rfl
@[simp] theorem kseqStart_ioInitialised (s : State) : (kseqStart s).ioInitialised = s.ioInitialised := rfl
@[simp] theorem kseqStart_sessionValid (s : State) : (kseqStart s).sessionValid = s.sessionValid := rfl
@[simp] theorem kseqStart_phase (s : State) : (kseqStart s).phase = s.phase := rfl
@[simp] theorem kseqStart_stack (s : State) : (kseqStart s).stack = s.stack := rfl
@[simp] theorem kseqStart_lastFailure (s : State) : (kseqStart s).lastFailure = s.lastFailure := rfl
@[simp] theorem kseqStart_cseq (s : State) : (kseqStart s).cseq = s.cseq := rfl
@[simp] theorem kseqStart_dseq (s : State) : (kseqStart s).dseq = s.dseq := rfl
@[simp] theorem kseqStart_lanes (s : State) : (kseqStart s).lanes = s.lanes := rfl
@[simp] theorem kseqStart_kseq (s : State) : (kseqStart s).kseq = { s.kseq with running := true } := rfl
@[simp] theorem kseqStart_dma0 (s : State) : (kseqStart s).dma0 = s.dma0 := rfl
@[simp] theorem kseqStart_dma1 (s : State) : (kseqStart s).dma1 = s.dma1 := rfl
@[simp] theorem kseqStart_crc7Reg (s : State) : (kseqStart s).crc7Reg = s.crc7Reg := rfl
@[simp] theorem kseqStart_crc16Reg (s : State) : (kseqStart s).crc16Reg = s.crc16Reg := rfl
@[simp] theorem kseqStart_mem (s : State) : (kseqStart s).mem = s.mem := rfl
@[simp] theorem kseqStart_host (s : State) : (kseqStart s).host = s.host := rfl
@[simp] theorem kseqStart_result (s : State) : (kseqStart s).result = s.result := rfl
@[simp] theorem kseqStart_done (s : State) : (kseqStart s).done = s.done := rfl
@[simp] theorem kseqStart_history (s : State) : (kseqStart s).history = s.history := rfl
@[simp] theorem kseqStart_appPrefix (s : State) : (kseqStart s).appPrefix = s.appPrefix := rfl
@[simp] theorem kseqStart_card (s : State) : (kseqStart s).card = s.card := rfl
@[simp] theorem kseqStart_free (s : State) : (kseqStart s).free = s.free := rfl
@[simp] theorem kseqStart_freeCount (s : State) : (kseqStart s).freeCount = s.freeCount := rfl

/-! ## The steps of KSEQ and of the card -/

/-- One CLK period, by KSEQ's step. -/
theorem clkTick_eq (t : Tick) (s : State) :
    clkTick t s = dmaRun (if s.kseq.running then dseqTick t (cseqTick t s) else s) := rfl

@[simp] theorem cardStep_fst (s : State) : (cardStep s).1 = s.turn := rfl
@[simp] theorem cardStep_snd (s : State) : (cardStep s).2 = s.turnTaken := rfl

/-! ## Draws into memory -/

/-- What scrambling does: `n` words of unknown value, and the draws they took. -/
theorem scramble_spec (s : State) (a : Word) (n : Nat) :
    ∃ ws free freeCount, ws.length = n ∧ s.scramble a n =
      { s with mem := s.mem.writeWords a ws, free := free, freeCount := freeCount } := by
  induction n generalizing s a with
  | zero => exact ⟨[], s.free, s.freeCount, rfl, rfl⟩
  | succ n ih =>
    obtain ⟨ws, f, c, hl, h⟩ := ih (s.drawn.setMem (s.mem.writeWord a s.drawValue)) (a + 4#32)
    refine ⟨s.drawValue :: ws, f, c, by simp [hl], ?_⟩
    rw [State.scramble, h, Memory.writeWords]
    unfold State.drawn
    cases hf : s.free <;> simp [State.setMem]

/-- The words are the draws themselves, whatever they are. -/
theorem scramble_draws (s : State) (a : Word) (ws rest : List Word) :
    ({ s with free := ws ++ rest } : State).scramble a ws.length = { s with mem := s.mem.writeWords a ws, free := rest } := by
  induction ws generalizing s a with
  | nil => rfl
  | cons w ws ih => exact ih { s with mem := s.mem.writeWord a w } (a + 4#32)

/-- What a failed read leaves in its write extent: any words in the data buffer and at the CRC destination (R80, U22). -/
theorem readLost_spec (o : ReadOp) (s : State) :
    ∃ ws cs free freeCount, ws.length = o.count * o.dataWords ∧ cs.length = o.width.crcWords ∧ readLost o s =
      { s with mem := (s.mem.writeWords o.buffer ws).writeWords o.crcDst cs, free := free, freeCount := freeCount } := by
  obtain ⟨ws, f, k, hl, he⟩ := scramble_spec s o.buffer (o.count * o.dataWords)
  obtain ⟨cs, f', k', hl', he'⟩ := scramble_spec (s.scramble o.buffer (o.count * o.dataWords)) o.crcDst o.width.crcWords
  exact ⟨ws, cs, f', k', hl, hl', by rw [readLost, he', he]⟩

@[simp] theorem readLost_phase (o : ReadOp) (s : State) : (readLost o s).phase = s.phase := by
  obtain ⟨ws, cs, f, k, -, -, e⟩ := readLost_spec o s
  rw [e]

end Sys2Proof.Machine
end

