-- ==== Sys2Proof/Laws/Frame.lean ====
section
/-! SUPPORT. What a CLK period leaves alone: everything but the sequencers, the DMA channels, host memory, the event
history and the environment draws. -/

namespace Sys2Proof.Machine

/-- The fields no CLK period touches are the same in both states. -/
structure SameControl (s t : State) : Prop where
  cfg : t.cfg = s.cfg
  session : t.session = s.session
  ioInitialised : t.ioInitialised = s.ioInitialised
  sessionValid : t.sessionValid = s.sessionValid
  phase : t.phase = s.phase
  stack : t.stack = s.stack
  lastFailure : t.lastFailure = s.lastFailure
  lanes : t.lanes = s.lanes
  kseq : t.kseq = s.kseq
  crc7Reg : t.crc7Reg = s.crc7Reg
  crc16Reg : t.crc16Reg = s.crc16Reg
  host     : t.host = s.host
  result : t.result = s.result
  done : t.done = s.done
  appPrefix : t.appPrefix = s.appPrefix
  card : t.card = s.card

theorem SameControl.refl (s : State) : SameControl s s := by constructor <;> rfl

theorem SameControl.trans {s t u : State} (h : SameControl s t) (k : SameControl t u) : SameControl s u := by
  constructor
  · exact k.cfg.trans h.cfg
  · exact k.session.trans h.session
  · exact k.ioInitialised.trans h.ioInitialised
  · exact k.sessionValid.trans h.sessionValid
  · exact k.phase.trans h.phase
  · exact k.stack.trans h.stack
  · exact k.lastFailure.trans h.lastFailure
  · exact k.lanes.trans h.lanes
  · exact k.kseq.trans h.kseq
  · exact k.crc7Reg.trans h.crc7Reg
  · exact k.crc16Reg.trans h.crc16Reg
  · exact k.host.trans h.host
  · exact k.result.trans h.result
  · exact k.done.trans h.done
  · exact k.appPrefix.trans h.appPrefix
  · exact k.card.trans h.card

theorem SameControl.setCseq (s : State) (q : Seq) : SameControl s (s.setCseq q) := by constructor <;> rfl
theorem SameControl.setDseq (s : State) (q : Seq) : SameControl s (s.setDseq q) := by constructor <;> rfl
theorem SameControl.setDma0 (s : State) (d : Dma0) : SameControl s (s.setDma0 d) := by constructor <;> rfl
theorem SameControl.setDma1 (s : State) (d : Dma1) : SameControl s (s.setDma1 d) := by constructor <;> rfl
theorem SameControl.setMem (s : State) (m : Memory) : SameControl s (s.setMem m) := by constructor <;> rfl
theorem SameControl.drive (s : State) (e : PinEvent) : SameControl s (s.drive e) := by constructor <;> rfl
theorem SameControl.drawn (s : State) : SameControl s s.drawn := by constructor <;> simp

/-! ## The sequencers -/

theorem cseqTick_same (t : Tick) (s : State) : SameControl s (cseqTick t s) := by
  unfold cseqTick
  split
  · exact .refl s
  · exact .refl s
  · exact (SameControl.setCseq _ _).trans (.drive _ _)
  · exact .setCseq _ _
  · exact .setCseq _ _

theorem dseqPad_same (s : State) : SameControl s (dseqPad s) := by
  unfold dseqPad
  split
  · exact (SameControl.drawn s).trans (.setDseq _ _)
  · exact .refl s

theorem dseqEnd_same (s : State) : SameControl s (dseqEnd s) := .setDseq _ _

theorem dseqTick_same (t : Tick) (s : State) : SameControl s (dseqTick t s) := by
  unfold dseqTick
  split
  · exact .refl s
  · exact .refl s
  · exact (SameControl.setDseq _ _).trans (.drive _ _)
  · split
    · exact .refl s
    · exact .setDseq _ _
  · split
    · exact dseqEnd_same s
    · exact (SameControl.setDseq _ _).trans (dseqPad_same _)

theorem cseqPad_same (s : State) : SameControl s (cseqPad s) := by
  unfold cseqPad
  split
  · exact (SameControl.drawn s).trans (.setCseq _ _)
  · exact .refl _

/-! ## The DMA channels -/

theorem dma1Trigger_same (s : State) : SameControl s (dma1Trigger s) := by
  unfold dma1Trigger
  simp only
  split <;> constructor <;> rfl

theorem dma0Pop_same (s : State) : SameControl s (dma0Pop s) := by
  unfold dma0Pop
  split
  · exact .refl s
  · exact .setCseq _ _
  · exact .setDseq _ _
  · exact .refl s

theorem dma0Put_same (w : Word) (s : State) : SameControl s (dma0Put w s) := by
  unfold dma0Put
  split
  · exact .setMem _ _
  · exact .setDseq _ _
  · exact .refl s
  · exact .refl s

theorem dma0Move_same (s : State) : SameControl s (dma0Move s) :=
  ((dma0Pop_same s).trans (dma0Put_same _ _)).trans (.setDma0 _ _)

theorem dma0Step_same (s : State) : SameControl s (dma0Step s) := by
  unfold dma0Step
  split
  · exact (dma0Move_same s).trans (dma1Trigger_same _)
  · exact dma0Move_same s

theorem dma0Steps_same (n : Nat) (s : State) : SameControl s (dma0Steps n s) := by
  induction n generalizing s with
  | zero => exact .refl s
  | succ n ih =>
    unfold dma0Steps
    split
    · exact (dma0Step_same s).trans (ih _)
    · exact .refl s

theorem dmaRun_same (s : State) : SameControl s (dmaRun s) := by
  unfold dmaRun
  split
  · exact dma0Steps_same _ _
  · exact .refl s

/-! ## CLK periods -/

theorem clkTick_same (t : Tick) (s : State) : SameControl s (clkTick t s) := by
  rw [clkTick_eq]
  split
  · exact ((cseqTick_same t s).trans (dseqTick_same t _)).trans (dmaRun_same _)
  · exact dmaRun_same s

theorem clkTicks_same (ts : List Tick) (s : State) : SameControl s (clkTicks ts s) := by
  induction ts generalizing s with
  | nil => exact .refl s
  | cons t ts ih => exact (clkTick_same t s).trans (ih _)

theorem awaitCapture_same (ts : List Tick) (s : State) : SameControl s (awaitCapture ts s).2 := by
  induction ts generalizing s with
  | nil => exact .refl s
  | cons t ts ih =>
    unfold awaitCapture
    split
    · exact .refl s
    · exact (clkTick_same t s).trans (ih _)

theorem scramble_same (a : Word) (n : Nat) (s : State) : SameControl s (s.scramble a n) := by
  induction n generalizing a s with
  | zero => exact .refl s
  | succ n ih => exact ((SameControl.drawn s).trans (.setMem _ _)).trans (ih _ _)

theorem awaitDma0_same (n : Nat) (s : State) : SameControl s (awaitDma0 n s) := by
  induction n generalizing s with
  | zero => exact .refl s
  | succ n ih =>
    unfold awaitDma0
    split
    · exact (clkTick_same _ s).trans (ih _)
    · exact .refl s

theorem pushDseq_same (w : Word) (n : Nat) (s : State) : SameControl s (pushDseq w n s) := by
  induction n generalizing s with
  | zero => exact .setDseq _ _
  | succ n ih =>
    unfold pushDseq
    split
    · exact .setDseq _ _
    · exact (clkTick_same _ s).trans (ih _)

theorem awaitDseqIdle_same (n : Nat) (s : State) : SameControl s (awaitDseqIdle n s) := by
  induction n generalizing s with
  | zero => exact .refl s
  | succ n ih =>
    unfold awaitDseqIdle
    split
    · exact .refl s
    · exact (clkTick_same _ s).trans (ih _)

/-! ## The canonical form of memory through a CLK period -/

@[simp] theorem cseqTick_mem (t : Tick) (s : State) : (cseqTick t s).mem = s.mem := by
  unfold cseqTick; split <;> rfl

@[simp] theorem dseqPad_mem (s : State) : (dseqPad s).mem = s.mem := by
  unfold dseqPad
  split
  · simp
  · rfl

@[simp] theorem dseqEnd_mem (s : State) : (dseqEnd s).mem = s.mem := rfl

@[simp] theorem dseqTick_mem (t : Tick) (s : State) : (dseqTick t s).mem = s.mem := by
  unfold dseqTick
  split
  · rfl
  · rfl
  · rfl
  · split <;> rfl
  · split <;> simp

@[simp] theorem cseqPad_mem (s : State) : (cseqPad s).mem = s.mem := by
  unfold cseqPad; split <;> simp

@[simp] theorem dma1Trigger_mem (s : State) : (dma1Trigger s).mem = s.mem := by
  unfold dma1Trigger; simp only; split <;> rfl

@[simp] theorem dma0Pop_mem (s : State) : (dma0Pop s).mem = s.mem := by
  unfold dma0Pop; split <;> rfl

theorem dma0Put_wf {w : Word} {s : State} (h : s.mem.wf = true) : (dma0Put w s).mem.wf = true := by
  unfold dma0Put
  split
  · exact Memory.wf_writeWord h _ _
  · exact h
  · exact h
  · exact h

theorem dma0Move_wf {s : State} (h : s.mem.wf = true) : (dma0Move s).mem.wf = true :=
  dma0Put_wf (by simpa using h)

theorem dma0Step_wf {s : State} (h : s.mem.wf = true) : (dma0Step s).mem.wf = true := by
  unfold dma0Step
  split
  · simpa using dma0Move_wf h
  · exact dma0Move_wf h

theorem dma0Steps_wf {n : Nat} {s : State} (h : s.mem.wf = true) : (dma0Steps n s).mem.wf = true := by
  induction n generalizing s with
  | zero => exact h
  | succ n ih =>
    unfold dma0Steps
    split
    · exact ih (dma0Step_wf h)
    · exact h

theorem dmaRun_wf {s : State} (h : s.mem.wf = true) : (dmaRun s).mem.wf = true := by
  unfold dmaRun
  split
  · exact dma0Steps_wf h
  · exact h

theorem clkTick_wf {t : Tick} {s : State} (h : s.mem.wf = true) : (clkTick t s).mem.wf = true := by
  rw [clkTick_eq]
  split
  · exact dmaRun_wf (by simpa using h)
  · exact dmaRun_wf h

theorem clkTicks_wf {ts : List Tick} {s : State} (h : s.mem.wf = true) : (clkTicks ts s).mem.wf = true := by
  induction ts generalizing s with
  | nil => exact h
  | cons t ts ih => exact ih (clkTick_wf h)

theorem awaitCapture_wf {ts : List Tick} {s : State} (h : s.mem.wf = true) : (awaitCapture ts s).2.mem.wf = true := by
  induction ts generalizing s with
  | nil => exact h
  | cons t ts ih =>
    unfold awaitCapture
    split
    · exact h
    · exact ih (clkTick_wf h)

theorem scramble_wf {a : Word} {n : Nat} {s : State} (h : s.mem.wf = true) : (s.scramble a n).mem.wf = true := by
  induction n generalizing a s with
  | zero => exact h
  | succ n ih => exact ih (Memory.wf_writeWord h _ _)

theorem awaitDma0_wf {n : Nat} {s : State} (h : s.mem.wf = true) : (awaitDma0 n s).mem.wf = true := by
  induction n generalizing s with
  | zero => exact h
  | succ n ih =>
    unfold awaitDma0
    split
    · exact ih (clkTick_wf h)
    · exact h

theorem pushDseq_wf {w : Word} {n : Nat} {s : State} (h : s.mem.wf = true) : (pushDseq w n s).mem.wf = true := by
  induction n generalizing s with
  | zero => exact h
  | succ n ih =>
    unfold pushDseq
    split
    · exact h
    · exact ih (clkTick_wf h)

theorem awaitDseqIdle_wf {n : Nat} {s : State} (h : s.mem.wf = true) : (awaitDseqIdle n s).mem.wf = true := by
  induction n generalizing s with
  | zero => exact h
  | succ n ih =>
    unfold awaitDseqIdle
    split
    · exact h
    · exact ih (clkTick_wf h)

end Sys2Proof.Machine
end

