-- ==== Sys2Proof/Laws/Control.lean ====
section
/-! SUPPORT. What every operation keeps, whatever the card does: `Held` (configuration, port, result, done indication,
call stack, canonical memory, `DSEQ.lanes = data_width`), and `Kept`, which adds what only STORAGE_INIT writes. -/

namespace Sys2Proof.Machine

/-! ## The two relations -/

/-- What no operation changes before it returns. -/
structure Held (s t : State) : Prop where
  cfg      : t.cfg = s.cfg
  host     : t.host = s.host
  result   : t.result = s.result
  done     : t.done = s.done
  stack    : t.stack = s.stack
  wf       : s.mem.wf = true → t.mem.wf = true
  lanes    : s.lanes = s.session.dataWidth → t.lanes = t.session.dataWidth

/-- What no operation but STORAGE_INIT changes. -/
structure Kept (s t : State) : Prop extends Held s t where
  io       : t.ioInitialised = s.ioInitialised
  valid    : t.sessionValid = s.sessionValid
  kseq     : t.kseq = s.kseq
  claimed0 : t.dma0.claimed = s.dma0.claimed
  claimed1 : t.dma1.claimed = s.dma1.claimed

theorem Held.refl (s : State) : Held s s := ⟨rfl, rfl, rfl, rfl, rfl, id, id⟩

theorem Held.trans {s t u : State} (h : Held s t) (k : Held t u) : Held s u :=
  ⟨k.cfg.trans h.cfg, k.host.trans h.host, k.result.trans h.result, k.done.trans h.done, k.stack.trans h.stack,
    fun w => k.wf (h.wf w), fun l => k.lanes (h.lanes l)⟩

theorem Kept.refl (s : State) : Kept s s := ⟨Held.refl s, rfl, rfl, rfl, rfl, rfl⟩

theorem Kept.trans {s t u : State} (h : Kept s t) (k : Kept t u) : Kept s u :=
  ⟨h.toHeld.trans k.toHeld, k.io.trans h.io, k.valid.trans h.valid, k.kseq.trans h.kseq, k.claimed0.trans h.claimed0,
    k.claimed1.trans h.claimed1⟩

/-! ## Small updates -/

theorem Kept.setPhase (s : State) (p : Phase) : Kept s (s.setPhase p) := ⟨⟨rfl, rfl, rfl, rfl, rfl, id, id⟩, rfl, rfl, rfl, rfl, rfl⟩

theorem Kept.setCseq (s : State) (q : Seq) : Kept s (s.setCseq q) := ⟨⟨rfl, rfl, rfl, rfl, rfl, id, id⟩, rfl, rfl, rfl, rfl, rfl⟩

theorem Kept.setDseq (s : State) (q : Seq) : Kept s (s.setDseq q) := ⟨⟨rfl, rfl, rfl, rfl, rfl, id, id⟩, rfl, rfl, rfl, rfl, rfl⟩

theorem Kept.setDma0 {s : State} {d : Dma0} (h : d.claimed = s.dma0.claimed) : Kept s (s.setDma0 d) :=
  ⟨⟨rfl, rfl, rfl, rfl, rfl, id, id⟩, rfl, rfl, rfl, h, rfl⟩

theorem Kept.setDma1 {s : State} {d : Dma1} (h : d.claimed = s.dma1.claimed) : Kept s (s.setDma1 d) :=
  ⟨⟨rfl, rfl, rfl, rfl, rfl, id, id⟩, rfl, rfl, rfl, rfl, h⟩

theorem Kept.setMem {s : State} {m : Memory} (h : s.mem.wf = true → m.wf = true) : Kept s (s.setMem m) :=
  ⟨⟨rfl, rfl, rfl, rfl, rfl, h, id⟩, rfl, rfl, rfl, rfl, rfl⟩

theorem Kept.raise (s : State) (c : Cause) : Kept s (s.raise c) := ⟨⟨rfl, rfl, rfl, rfl, rfl, id, id⟩, rfl, rfl, rfl, rfl, rfl⟩

theorem Kept.drawn (s : State) : Kept s s.drawn := ⟨⟨by simp, by simp, by simp, by simp, by simp, by simp, by simp⟩,
  by simp, by simp, by simp, by simp, by simp⟩

theorem Kept.card (s : State) (c : List Turn) : Kept s { s with card := c } := ⟨⟨rfl, rfl, rfl, rfl, rfl, id, id⟩, rfl, rfl, rfl, rfl, rfl⟩

theorem Kept.setWidth (s : State) (w : Width) : Kept s (s.setWidth w) :=
  ⟨⟨rfl, rfl, rfl, rfl, rfl, id, fun _ => rfl⟩, rfl, rfl, rfl, rfl, rfl⟩

/-! ## The claims on the channels -/

/-- The claims of both channels are as they were. -/
def SameClaims (s t : State) : Prop := t.dma0.claimed = s.dma0.claimed ∧ t.dma1.claimed = s.dma1.claimed

theorem SameClaims.trans {s t u : State} (h : SameClaims s t) (k : SameClaims t u) : SameClaims s u :=
  ⟨k.1.trans h.1, k.2.trans h.2⟩

theorem cseqTick_claims (t : Tick) (s : State) : SameClaims s (cseqTick t s) := by
  unfold cseqTick; split <;> exact ⟨rfl, rfl⟩

theorem dseqPad_claims (s : State) : SameClaims s (dseqPad s) := by
  unfold dseqPad
  split
  · exact ⟨by simp, by simp⟩
  · exact ⟨rfl, rfl⟩

theorem dseqTick_claims (t : Tick) (s : State) : SameClaims s (dseqTick t s) := by
  unfold dseqTick
  split
  · exact ⟨rfl, rfl⟩
  · exact ⟨rfl, rfl⟩
  · exact ⟨rfl, rfl⟩
  · split <;> exact ⟨rfl, rfl⟩
  · split
    · exact ⟨rfl, rfl⟩
    · exact dseqPad_claims _

theorem dma1Trigger_claims (s : State) : SameClaims s (dma1Trigger s) := by
  unfold dma1Trigger; simp only; split <;> exact ⟨rfl, rfl⟩

theorem dma0Move_claims (s : State) : SameClaims s (dma0Move s) := by
  have hp : SameClaims s (dma0Pop s) := by unfold dma0Pop; split <;> exact ⟨rfl, rfl⟩
  have hq : SameClaims (dma0Pop s) (dma0Put (dma0Value s) (dma0Pop s)) := by unfold dma0Put; split <;> exact ⟨rfl, rfl⟩
  exact ⟨rfl, (hp.trans hq).2⟩

theorem dma0Step_claims (s : State) : SameClaims s (dma0Step s) := by
  unfold dma0Step
  split
  · exact (dma0Move_claims s).trans (dma1Trigger_claims _)
  · exact dma0Move_claims s

theorem dma0Steps_claims (n : Nat) (s : State) : SameClaims s (dma0Steps n s) := by
  induction n generalizing s with
  | zero => exact ⟨rfl, rfl⟩
  | succ n ih =>
    rw [dma0Steps]
    split
    · exact (dma0Step_claims s).trans (ih _)
    · exact ⟨rfl, rfl⟩

theorem dmaRun_claims (s : State) : SameClaims s (dmaRun s) := by
  unfold dmaRun
  split
  · exact dma0Steps_claims _ s
  · exact ⟨rfl, rfl⟩

theorem clkTick_claims (t : Tick) (s : State) : SameClaims s (clkTick t s) := by
  rw [clkTick_eq]
  split
  · exact ((cseqTick_claims t s).trans (dseqTick_claims t _)).trans (dmaRun_claims _)
  · exact dmaRun_claims _

/-! ## CLK periods, draws and waits -/

theorem Kept.of_same {s t : State} (h : SameControl s t) (c : SameClaims s t) (w : s.mem.wf = true → t.mem.wf = true) :
    Kept s t :=
  ⟨⟨h.cfg, h.host, h.result, h.done, h.stack, w, fun l => h.lanes.trans (l.trans (by rw [h.session]))⟩,
    h.ioInitialised, h.sessionValid, h.kseq, c.1, c.2⟩

theorem dmaRun_kept (s : State) : Kept s (dmaRun s) := .of_same (dmaRun_same s) (dmaRun_claims s) dmaRun_wf

theorem clkTick_kept (t : Tick) (s : State) : Kept s (clkTick t s) := .of_same (clkTick_same t s) (clkTick_claims t s) clkTick_wf

theorem clkTicks_kept (ts : List Tick) (s : State) : Kept s (clkTicks ts s) := by
  induction ts generalizing s with
  | nil => exact .refl s
  | cons t ts ih => exact (clkTick_kept t s).trans (ih _)

theorem awaitCapture_kept (ts : List Tick) (s : State) : Kept s (awaitCapture ts s).2 := by
  induction ts generalizing s with
  | nil => exact .refl s
  | cons t ts ih =>
    rw [awaitCapture]
    split
    · exact .refl s
    · exact (clkTick_kept t s).trans (ih _)

theorem cseqPad_kept (s : State) : Kept s (cseqPad s) := by
  unfold cseqPad
  split
  · exact (Kept.drawn s).trans (.setCseq _ _)
  · exact .refl s

theorem scramble_kept (a : Word) (n : Nat) (s : State) : Kept s (s.scramble a n) := by
  induction n generalizing a s with
  | zero => exact .refl s
  | succ n ih =>
    rw [State.scramble]
    refine ((Kept.drawn s).trans (Kept.setMem ?_)).trans (ih _ _)
    intro h
    exact Memory.wf_writeWord (by simpa using h) _ _

theorem awaitDma0_kept (n : Nat) (s : State) : Kept s (awaitDma0 n s) := by
  induction n generalizing s with
  | zero => exact .refl s
  | succ n ih =>
    rw [awaitDma0]
    split
    · exact (clkTick_kept _ s).trans (ih _)
    · exact .refl s

theorem pushDseq_kept (w : Word) (n : Nat) (s : State) : Kept s (pushDseq w n s) := by
  induction n generalizing s with
  | zero => exact .setDseq _ _
  | succ n ih =>
    rw [pushDseq]
    split
    · exact .setDseq _ _
    · exact (clkTick_kept _ s).trans (ih _)

theorem awaitDseqIdle_kept (n : Nat) (s : State) : Kept s (awaitDseqIdle n s) := by
  induction n generalizing s with
  | zero => exact .refl s
  | succ n ih =>
    rw [awaitDseqIdle]
    split
    · exact .refl s
    · exact (clkTick_kept _ s).trans (ih _)

/-! ## The command engine -/

theorem cmdBuild_kept (cmd : BitVec 6) (param : Word) (s : State) : Kept s (cmdBuild cmd param s) :=
  (Kept.setPhase s .cmdBuild).trans
    ⟨⟨rfl, rfl, rfl, rfl, rfl, fun h => Memory.wf_writeBytes h _ _, id⟩, rfl, rfl, rfl, rfl, rfl⟩

theorem cmdArm_kept (cmd : BitVec 6) (param : Word) (res : ResSize) (dst : Word) (s : State) :
    Kept s (cmdArm cmd param res dst s) := by
  unfold cmdArm
  cases res <;>
    exact ⟨⟨rfl, rfl, rfl, rfl, rfl, id, id⟩, rfl, rfl, rfl, rfl, rfl⟩

theorem cmdStart_kept (s : State) : Kept s (cmdStart s) := ⟨⟨rfl, rfl, rfl, rfl, rfl, id, id⟩, rfl, rfl, rfl, rfl, rfl⟩

theorem notePrefix_kept (s : State) (b : Bool) : Kept s (s.notePrefix b) :=
  ⟨⟨rfl, rfl, rfl, rfl, rfl, id, id⟩, rfl, rfl, rfl, rfl, rfl⟩

theorem cmdAbort_kept (res : ResSize) (dst : Word) (s : State) : Kept s (cmdAbort res dst s) := by
  unfold cmdAbort
  refine Kept.trans ?_ (Kept.raise _ _)
  refine Kept.trans ?_ (scramble_kept _ _ _)
  exact ⟨⟨rfl, rfl, rfl, rfl, rfl, id, id⟩, rfl, rfl, rfl, rfl, rfl⟩

theorem cmdCapture_kept (res : ResSize) (s : State) : Kept s (cmdCapture res s).2 := by
  unfold cmdCapture
  simp only
  have h := ((Kept.card s s.card.tail).trans (clkTicks_kept s.turn.frameTicks s.turnTaken)).trans
    (awaitCapture_kept (s.turn.waitTicks res.bits) _)
  split
  · exact (h.trans (cseqPad_kept _)).trans (dmaRun_kept _)
  · exact h

theorem sdCommand_kept (cmd : BitVec 6) (param : Word) (res : ResSize) (dst : Word) (s : State) :
    Kept s (sdCommand cmd param res dst s).2 := by
  have h0 := ((cmdBuild_kept cmd param s).trans (cmdArm_kept cmd param res dst _)).trans
    ((cmdStart_kept _).trans (Kept.setPhase _ .cmdWait))
  unfold sdCommand
  simp only
  cases res with
  | none => exact (h0.trans (clkTicks_kept _ _)).trans (notePrefix_kept _ _)
  | short =>
    simp only
    have h := h0.trans (cmdCapture_kept .short _)
    split
    · exact ((h.trans (Kept.setPhase _ _)).trans (Kept.setMem fun w => Memory.wf_writeWords w _ _)).trans (notePrefix_kept _ _)
    · exact (h.trans (cmdAbort_kept _ _ _)).trans (notePrefix_kept _ _)
  | long =>
    simp only
    have h := h0.trans (cmdCapture_kept .long _)
    split
    · exact ((h.trans (Kept.setPhase _ _)).trans (Kept.setMem fun w => Memory.wf_writeWords w _ _)).trans (notePrefix_kept _ _)
    · exact (h.trans (cmdAbort_kept _ _ _)).trans (notePrefix_kept _ _)

theorem ownCommand_kept (cmd : BitVec 6) (param : Word) (s : State) : Kept s (ownCommand cmd param s).2 :=
  sdCommand_kept _ _ _ _ _

theorem checkedCommand_kept (cmd : BitVec 6) (param : Word) (s : State) : Kept s (checkedCommand cmd param s).2 := by
  have h := ownCommand_kept cmd param s
  unfold checkedCommand
  simp only
  split
  · split
    · exact h
    · exact h.trans (Kept.raise _ _)
  · exact h

/-! ## Operations that may wait -/

/-- An operation from `s` keeps what `R` says: when it ends, and when it waits, which it does with its locals on the call
stack and the engine at a waiting step. -/
inductive Run.Keeps {α : Type} (R : State → State → Prop) (s : State) : Run α → Prop where
  | done {a : α} {t : State} (h : R s t) : Run.Keeps R s (.done a t)
  | waiting {fs : List Frame} {t : State} (h : R s t) (hf : fs ≠ []) (hp : t.phase ≠ .idle) : Run.Keeps R s (.waiting fs t)
  | refused {r : Refusal} : Run.Keeps R s (.refused r)

variable {α β : Type} {R : State → State → Prop}

theorem Run.Keeps.from {s t : State} {r : Run α} (ht : ∀ {a b c}, R a b → R b c → R a c) (h : R s t) (k : r.Keeps R t) :
    r.Keeps R s := by
  cases k with
  | done k => exact .done (ht h k)
  | waiting k hf hp => exact .waiting (ht h k) hf hp
  | refused => exact .refused

theorem Run.Keeps.andThen {s : State} {r : Run α} {f : Frame} {k : α → State → Run β}
    (ht : ∀ {a b c}, R a b → R b c → R a c) (h : r.Keeps R s) (hk : ∀ a t, (k a t).Keeps R t) :
    (r.andThen f k).Keeps R s := by
  cases h with
  | done h => exact (hk _ _).from ht h
  | waiting h hf hp => exact .waiting h (by simp) hp
  | refused => exact .refused

theorem Run.Keeps.mono {R' : State → State → Prop} {s : State} {r : Run α} (hr : ∀ {a b}, R a b → R' a b)
    (h : r.Keeps R s) : r.Keeps R' s := by
  cases h with
  | done h => exact .done (hr h)
  | waiting h hf hp => exact .waiting (hr h) hf hp
  | refused => exact .refused

theorem waitNotBusy_keeps {label : Phase} (hl : label ≠ .idle) (s : State) : (waitNotBusy label s).Keeps Kept s := by
  unfold waitNotBusy
  simp only
  split
  · exact .done ⟨⟨rfl, rfl, rfl, rfl, rfl, id, id⟩, rfl, rfl, rfl, rfl, rfl⟩
  · exact .done ⟨⟨rfl, rfl, rfl, rfl, rfl, id, id⟩, rfl, rfl, rfl, rfl, rfl⟩
  · exact .waiting ⟨⟨rfl, rfl, rfl, rfl, rfl, id, id⟩, rfl, rfl, rfl, rfl, rfl⟩ (by simp) hl

/-! ## The block engine -/

theorem readCleanup_kept (s : State) : Kept s (readCleanup s) := ⟨⟨rfl, rfl, rfl, rfl, rfl, id, id⟩, rfl, rfl, rfl, rfl, rfl⟩

theorem readLost_kept (o : ReadOp) (s : State) : Kept s (readLost o s) := (scramble_kept _ _ _).trans (scramble_kept _ _ _)

theorem readFail_kept (o : ReadOp) (c : Cause) (s : State) : Kept s (readFail o c s) :=
  ((readCleanup_kept s).trans (readLost_kept _ _)).trans (Kept.raise _ _)

theorem feedOne_kept (o : ReadOp) (fed : Nat) (s : State) : Kept s (feedOne o fed s).2 := by
  unfold feedOne; split
  · exact .setDseq _ _
  · exact .refl s

theorem awaitBlocks_kept (o : ReadOp) (ts : List Tick) (fed : Nat) (s : State) : Kept s (awaitBlocks o ts fed s).2.2 := by
  induction ts generalizing fed s with
  | nil => exact (feedOne_kept o fed s).trans (.setPhase _ _)
  | cons t ts ih =>
    rw [awaitBlocks]
    simp only
    split
    · exact (feedOne_kept o fed s).trans (.setPhase _ _)
    · exact ((feedOne_kept o fed s).trans (clkTick_kept t _)).trans (ih _ _)

theorem readEnd_kept (o : ReadOp) (b : Bool) (s : State) : Kept s (readEnd o b s).2 := by
  unfold readEnd
  split
  · exact (readLost_kept _ _).trans (.raise _ _)
  · split
    · exact (readLost_kept _ _).trans (.raise _ _)
    · exact .refl s

theorem readStopped_kept (o : ReadOp) (b high : Bool) (s : State) : Kept s (readStopped o b high s).2 := by
  unfold readStopped; split
  · exact readEnd_kept _ _ _
  · exact readLost_kept _ _

theorem readEnd_phase (o : ReadOp) (b : Bool) (s : State) : (readEnd o b s).2.phase = s.phase := by
  unfold readEnd
  split
  · exact readLost_phase o s
  · split
    · exact readLost_phase o s
    · rfl

theorem readStopped_phase (o : ReadOp) (b high : Bool) (s : State) : (readStopped o b high s).2.phase = s.phase := by
  unfold readStopped
  split
  · exact readEnd_phase o b s
  · exact readLost_phase o s

theorem rdStop_keeps (o : ReadOp) (s : State) : (rdStop o s).Keeps Kept s := by
  unfold rdStop
  simp only
  split
  · have h := (Kept.setPhase s .rdStop).trans (ownCommand_kept 12#6 0#32 _)
    split
    · exact Run.Keeps.from Kept.trans h
        (Run.Keeps.andThen Kept.trans (waitNotBusy_keeps (by decide) _) fun a t => .done (readStopped_kept _ _ _ _))
    · exact .done (h.trans (readLost_kept _ _))
  · exact .done ((Kept.setPhase s .rdStop).trans (readEnd_kept _ _ _))

theorem dataPhase_idle (o : ReadOp) (fed : Nat) : dataPhase o fed ≠ .idle := by unfold dataPhase; split <;> decide

theorem awaitBlocks_phase (o : ReadOp) (ts : List Tick) (fed : Nat) (s : State) : (awaitBlocks o ts fed s).2.2.phase ≠ .idle := by
  induction ts generalizing fed s with
  | nil => exact dataPhase_idle _ _
  | cons t ts ih =>
    rw [awaitBlocks]
    simp only
    split
    · exact show Phase.rdWait ≠ _ by decide
    · exact ih _ _

theorem readData_keeps (o : ReadOp) (ts : List Turn) (fed : Nat) (s : State) : (readData o ts fed s).Keeps Kept s := by
  induction ts generalizing fed s with
  | nil =>
    unfold readData
    simp only
    have h := awaitBlocks_kept o (List.replicate o.bits Tick.quiet) fed s
    split
    · exact (rdStop_keeps o _).from Kept.trans (h.trans (.setDseq _ _))
    · split
      · exact .done (h.trans (readFail_kept _ _ _))
      · exact .waiting h (by simp) (awaitBlocks_phase _ _ _ _)
  | cons t ts ih =>
    unfold readData
    simp only
    have h : ∀ us, Kept s (awaitBlocks o us fed { s with card := ts }).2.2 := fun us =>
      (Kept.card s ts).trans (awaitBlocks_kept o us fed _)
    generalize (if s.cfg.readDataBounded = true then t.waitTicks o.bits else t.ticks) = us
    split
    · exact (rdStop_keeps o _).from Kept.trans ((h _).trans (.setDseq _ _))
    · split
      · exact .done ((h _).trans (readFail_kept _ _ _))
      · exact (ih _ _).from Kept.trans (h _)

theorem rdStream_keeps (o : ReadOp) (s : State) : (rdStream o s).Keeps Kept s := by
  unfold rdStream
  simp only
  refine (readData_keeps o _ _ _).from Kept.trans ?_
  refine Kept.trans ?_ (dmaRun_kept _)
  have h1 : Kept s ((s.drawn.setPhase .rdStream).setDma0 ((s.drawn.setPhase .rdStream).dma0.config .dseqRxf
      (.mem s.drawValue) 0#32 false true true .dseqRx .dma1)) :=
    ((Kept.drawn s).trans (.setPhase _ _)).trans (Kept.setDma0 rfl)
  refine h1.trans ?_
  unfold dma1Start
  refine Kept.trans (t := State.setDma1 _ _) (Kept.setDma1 ?_) (Kept.of_same (dma1Trigger_same _) (dma1Trigger_claims _) (by simp [State.setDma1]))
  rfl

theorem rdTable_kept (o : ReadOp) (s : State) : Kept s (rdTable o s) := by
  unfold rdTable
  exact ((Kept.drawn s).trans (.setPhase _ _)).trans (Kept.setMem fun h => Memory.wf_writeWords (by simpa using h) _ _)

theorem rdArm_kept (o : ReadOp) (s : State) : Kept s (rdArm o s) := (Kept.setPhase s _).trans (.setDseq _ _)

theorem rdCmd_keeps (o : ReadOp) (s : State) : (rdCmd o s).Keeps Kept s := by
  have h := (Kept.setPhase s .rdCmd).trans (ownCommand_kept o.cmd o.addr _)
  unfold rdCmd
  simp only
  split
  · split
    · exact (rdStream_keeps o _).from Kept.trans h
    · exact .done (h.trans (readFail_kept _ _ _))
  · exact .done (h.trans (readFail_kept _ _ _))

theorem readBlock_keeps (cmd : BitVec 6) (addr buffer : Word) (count : Nat) (crc : Word) (s : State) :
    (readBlock cmd addr buffer count crc s).Keeps Kept s := by
  unfold readBlock
  simp only
  split
  · exact .done ((Kept.setPhase s _).trans (Kept.raise _ _))
  · exact (rdCmd_keeps _ _).from Kept.trans (((Kept.setPhase s _).trans (rdTable_kept _ _)).trans (rdArm_kept _ _))

theorem wrStream_kept (buffer : Word) (c : BitVec 16) (s : State) : Kept s (wrStream buffer c s) := by
  unfold wrStream
  simp only
  refine Kept.trans ?_ (pushDseq_kept _ _ _)
  refine Kept.trans ?_ (awaitDma0_kept _ _)
  refine Kept.trans ?_ (dmaRun_kept _)
  exact ⟨⟨rfl, rfl, rfl, rfl, rfl, id, id⟩, rfl, rfl, rfl, rfl, rfl⟩

theorem writeBlock_keeps (addr buffer : Word) (s : State) : (writeBlock addr buffer s).Keeps Kept s := by
  have h0 : Kept s ((({ s.setPhase .wrCrc with crc16Reg := crc16 (s.mem.readBytes buffer blockLenBytes) } : State).setPhase
      .wrArm).setDseq (s.dseq.arm (.send writeStreamBits))) := ⟨⟨rfl, rfl, rfl, rfl, rfl, id, id⟩, rfl, rfl, rfl, rfl, rfl⟩
  have h := (h0.trans (Kept.setPhase _ .wrCmd)).trans (checkedCommand_kept 24#6 addr _)
  unfold writeBlock
  simp only
  split
  · have hw : ∀ u, (wrWait u).Keeps Kept u := fun u =>
      Run.Keeps.from Kept.trans ((Kept.setPhase u .wrWait).trans (awaitDseqIdle_kept _ _))
        (Run.Keeps.andThen Kept.trans (waitNotBusy_keeps (by decide) _) fun a t => .done (Kept.refl t))
    exact (hw _).from Kept.trans (h.trans (wrStream_kept _ _ _))
  · exact .done (h.trans (.setDseq _ _))

/-! ## Wire commands and the session -/

theorem setWidthOp_kept (w : Width) (s : State) : Kept s (setWidthOp w s) := by
  unfold setWidthOp
  split
  · exact .refl s
  · simp only
    have h := checkedCommand_kept 55#6 (rcaArg s.session.cardRca) s
    split
    · refine h.trans ?_
      unfold setBusWidth
      simp only
      have h6 := checkedCommand_kept 6#6 (widthArg (decide (w = .four))) (appCmd s.session.cardRca s).2
      split
      · exact h6.trans (.setWidth _ _)
      · exact h6
    · exact h

theorem setBusWidth_kept (wide : Bool) (s : State) : Kept s (setBusWidth wide s).2 := by
  have h := checkedCommand_kept 6#6 (widthArg wide) s
  unfold setBusWidth
  simp only
  split
  · exact h.trans (.setWidth _ _)
  · exact h

theorem Kept.session (s : State) (x : Session) (h : x.dataWidth = s.session.dataWidth) : Kept s { s with session := x } :=
  ⟨⟨rfl, rfl, rfl, rfl, rfl, id, fun l => l.trans h.symm⟩, rfl, rfl, rfl, rfl, rfl⟩

theorem sendRelativeAddr_kept (s : State) : Kept s (sendRelativeAddr s).2 := by
  have h := ownCommand_kept 3#6 0#32 s
  unfold sendRelativeAddr
  simp only
  split
  · exact h.trans (.session _ _ rfl)
  · exact h

theorem sendIfCond_kept (s : State) : Kept s (sendIfCond s).2 := by
  have h := ownCommand_kept 8#6 ifCondPattern s
  unfold sendIfCond
  simp only
  split
  · split
    · exact h
    · exact h.trans (.raise _ _)
  · exact h

theorem sendOpCond_kept (arg : Word) (s : State) : Kept s (sendOpCond arg s).2 := by
  have h := ownCommand_kept 41#6 arg s
  unfold sendOpCond
  simp only
  split
  · split
    · exact h.trans (.session _ _ rfl)
    · exact h
  · exact h

theorem appCmd_kept (rca : BitVec 16) (s : State) : Kept s (appCmd rca s).2 := checkedCommand_kept _ _ _

theorem goIdle_kept (s : State) : Kept s (goIdle s).2 := sdCommand_kept _ _ _ _ _

theorem allSendCid_kept (s : State) : Kept s (allSendCid s).2 := sdCommand_kept _ _ _ _ _

theorem busyEnded_kept (ok high : Bool) (s : State) : Kept s (busyEnded ok high s).2 := by
  unfold busyEnded
  split
  · split
    · exact .refl s
    · exact .raise _ _
  · exact .refl s

theorem selectCard_keeps {label : Phase} (hl : label ≠ .idle) (rca : BitVec 16) (f : Frame) (s : State) :
    (selectCard rca label f s).Keeps Kept s := by
  have h := checkedCommand_kept 7#6 (rcaArg rca) s
  unfold selectCard
  simp only
  split
  · exact Run.Keeps.from Kept.trans h (Run.Keeps.andThen Kept.trans (waitNotBusy_keeps hl _) fun a t => .done (Kept.refl t))
  · exact .done h

theorem stopTransmission_keeps (s : State) : (stopTransmission s).Keeps Kept s := by
  have h := ownCommand_kept 12#6 0#32 s
  unfold stopTransmission
  simp only
  split
  · exact Run.Keeps.from Kept.trans h
      (Run.Keeps.andThen Kept.trans (waitNotBusy_keeps (by decide) _) fun a t => .done (busyEnded_kept _ _ _))
  · exact .done h

theorem blocksResult_keeps (n : Nat) (s : State) : (blocksResult n s).Keeps Kept s := by
  unfold blocksResult; split
  · exact .done (Kept.refl s)
  · exact .done (Kept.drawn s)

theorem parseCsd_keeps (a : Word) (s : State) : (parseCsd a s).Keeps Kept s := by
  unfold parseCsd
  simp only
  split
  · exact blocksResult_keeps _ s
  · split
    · exact blocksResult_keeps _ s
    · exact .refused

theorem sendCsd_keeps (rca : BitVec 16) (s : State) : (sendCsd rca s).Keeps Kept s := by
  have h := sdCommand_kept 9#6 (rcaArg rca) .long s.cfg.respAddr s
  unfold sendCsd
  simp only
  split
  · generalize hr : parseCsd (sdCommand 9#6 (rcaArg rca) .long s.cfg.respAddr s).2.cfg.respAddr
      (sdCommand 9#6 (rcaArg rca) .long s.cfg.respAddr s).2 = p
    have hp := parseCsd_keeps (sdCommand 9#6 (rcaArg rca) .long s.cfg.respAddr s).2.cfg.respAddr
      (sdCommand 9#6 (rcaArg rca) .long s.cfg.respAddr s).2
    rw [hr] at hp
    cases hp with
    | done hp => exact .done ((h.trans hp).trans (.session _ _ rfl))
    | waiting hp hf hi => exact .waiting (h.trans hp) hf hi
    | refused => exact .refused
  · exact .done h

/-! ## The loops of the block device -/

theorem readShort_keeps (buffer : Word) (total done : Nat) (s : State) : (readShort buffer total done s).Keeps Kept s :=
  .done (scramble_kept _ _ _)

theorem readLoop_keeps (block buffer : Word) (total fuel done : Nat) (s : State) :
    (readLoop block buffer total fuel done s).Keeps Kept s := by
  induction fuel generalizing done s with
  | zero => exact .done (Kept.refl s)
  | succ fuel ih =>
    rw [readLoop]
    split
    · exact .done (Kept.refl s)
    · refine Run.Keeps.andThen Kept.trans (readBlock_keeps _ _ _ _ _ _) fun a t => ?_
      split
      · exact ih _ _
      · exact readShort_keeps _ _ _ _

theorem writeLoop_keeps (block buffer : Word) (total fuel done : Nat) (s : State) :
    (writeLoop block buffer total fuel done s).Keeps Kept s := by
  induction fuel generalizing done s with
  | zero => exact .done (Kept.refl s)
  | succ fuel ih =>
    rw [writeLoop]
    split
    · exact .done (Kept.refl s)
    · refine Run.Keeps.andThen Kept.trans (writeBlock_keeps _ _ _) fun a t => ?_
      split
      · exact ih _ _
      · exact .done (Kept.refl t)

theorem storageRead_keeps (block buffer : Word) (total : Nat) (s : State) : (storageRead block buffer total s).Keeps Kept s :=
  (readLoop_keeps _ _ _ _ _ _).from Kept.trans (setWidthOp_kept _ _)

theorem storageWrite_keeps (block buffer : Word) (total : Nat) (s : State) : (storageWrite block buffer total s).Keeps Kept s :=
  (writeLoop_keeps _ _ _ _ _ _).from Kept.trans (setWidthOp_kept _ _)

/-! ## STORAGE_INIT -/

theorem init12_keeps (hs : Bool) (s : State) : (init12 hs s).Keeps Held s := .done ⟨rfl, rfl, rfl, rfl, rfl, id, id⟩

theorem init11_keeps (s : State) : (init11 s).Keeps Held s :=
  Run.Keeps.andThen Held.trans
    (Run.Keeps.from Held.trans (Kept.setPhase s .init11).toHeld ((readBlock_keeps _ _ _ _ _ _).mono fun h => h.toHeld))
    fun _ t => init12_keeps _ t

theorem init10End_keeps (ok : Bool) (s : State) : (init10End ok s).Keeps Held s := by
  unfold init10End; split
  · exact init11_keeps s
  · exact .done (Held.refl s)

theorem init10_keeps (s : State) : (init10 s).Keeps Held s := by
  have h := Run.Keeps.from (R := Kept) Kept.trans (Kept.setPhase s .init10)
    (selectCard_keeps (label := .init10) (by decide) s.session.cardRca .initSelect (s.setPhase .init10))
  unfold init10
  cases hr : selectCard s.session.cardRca .init10 .initSelect (s.setPhase .init10) with
  | done ok t =>
    rw [hr] at h
    cases h with
    | done h => exact (init10End_keeps ok t).from Held.trans h.toHeld
  | waiting fs t =>
    rw [hr] at h
    cases h with
    | waiting h hf hp => exact .waiting h.toHeld hf hp
  | refused r => exact .refused

theorem init9_keeps (s : State) : (init9 s).Keeps Held s := by
  have h := Run.Keeps.from (R := Kept) Kept.trans (Kept.setPhase s .init9) (sendCsd_keeps s.session.cardRca (s.setPhase .init9))
  unfold init9
  cases hr : sendCsd s.session.cardRca (s.setPhase .init9) with
  | done ok t =>
    rw [hr] at h
    cases h with
    | done h =>
      simp only
      split
      · exact (init10_keeps t).from Held.trans h.toHeld
      · exact .done h.toHeld
  | waiting fs t =>
    rw [hr] at h
    cases h with
    | waiting h hf hp => exact .waiting h.toHeld hf hp
  | refused r => exact .refused

theorem init8_keeps (s : State) : (init8 s).Keeps Held s := by
  have h := (Kept.setPhase s .init8).trans (sendRelativeAddr_kept _)
  unfold init8
  simp only
  split
  · exact (init9_keeps _).from Held.trans h.toHeld
  · exact .done h.toHeld

theorem init7_keeps (s : State) : (init7 s).Keeps Held s := by
  have h := (Kept.setPhase s .init7).trans (allSendCid_kept _)
  unfold init7
  simp only
  split
  · exact (init8_keeps _).from Held.trans h.toHeld
  · exact .done h.toHeld

theorem init5Once_kept (s : State) : Kept s (init5Once s).2 := by
  have h := (Kept.setPhase s .init5).trans (appCmd_kept 0#16 _)
  unfold init5Once
  simp only
  split
  · exact h.trans (sendOpCond_kept _ _)
  · exact h

theorem init5_keeps (n : Nat) (s : State) : (init5 n s).Keeps Held s := by
  induction n generalizing s with
  | zero => exact .waiting (Kept.setPhase s .init5).toHeld (by simp) (by simp)
  | succ n ih =>
    have h := (init5Once_kept s).toHeld
    rw [init5]
    simp only
    split
    · exact (init7_keeps _).from Held.trans (h.trans (Kept.setPhase _ _).toHeld)
    · split
      · split
        · exact .done (h.trans ((Kept.card _ _).trans (Kept.raise _ _)).toHeld)
        · exact (ih _).from Held.trans (h.trans (Kept.card _ _).toHeld)
      · split
        · exact .waiting (h.trans (Kept.setPhase _ _).toHeld) (by simp) (by simp)
        · exact (ih _).from Held.trans h

theorem init1_held (s : State) : Held s (init1 s) := by
  unfold init1
  simp only
  split <;> exact ⟨rfl, rfl, rfl, rfl, rfl, id, fun _ => rfl⟩

theorem init2_held (s : State) : Held s (init2 s) := ⟨rfl, rfl, rfl, rfl, rfl, id, id⟩

theorem storageInit_eq {s u v : State} {b ok : Bool} (h : goIdle ((init2 (init1 s)).setPhase .init3) = (b, u))
    (h4 : sendIfCond (u.setPhase .init4) = (ok, v)) :
    storageInit s = if ok then init5Loop v else .done (.bool false) v := by
  unfold storageInit
  generalize init2 (init1 s) = a at h ⊢
  simp only [h, h4]

theorem storageInit_keeps (s : State) : (storageInit s).Keeps Held s := by
  have key : ∀ a, Held s a → init2 (init1 s) = a → (storageInit s).Keeps Held s := by
    intro a h0 ha
    cases hu : goIdle (a.setPhase .init3) with
    | mk b u =>
      cases hv : sendIfCond (u.setPhase .init4) with
      | mk ok v =>
        have h3 := ((Kept.setPhase a .init3).trans (goIdle_kept _)).toHeld
        have h4 := ((Kept.setPhase u .init4).trans (sendIfCond_kept _)).toHeld
        rw [hu] at h3
        rw [hv] at h4
        rw [storageInit_eq (by rw [ha]; exact hu) hv]
        have h := (h0.trans h3).trans h4
        split
        · exact (init5_keeps _ _).from Held.trans h
        · exact .done h
  have h0 : Held s (init2 (init1 s)) := Held.trans (init1_held s) (init2_held (init1 s))
  exact key _ h0 rfl

/-! ## Going on after a wait -/

theorem returnTo_keeps {k : List Frame} {b : Bool} {s : State} (hp : s.phase ≠ .idle) : (returnTo k b s).Keeps Held s := by
  induction k generalizing b s with
  | nil => exact .done (Held.refl s)
  | cons f k ih =>
    cases f with
    | polling => exact ih hp
    | busyOp =>
      cases k with
      | nil => exact .done (Held.refl s)
      | cons g k => exact .waiting (Held.refl s) (by simp) hp
    | wireBusy ok =>
      rw [returnTo]
      exact (ih (by unfold busyEnded; split <;> [split; skip] <;> exact hp)).from Held.trans (busyEnded_kept _ _ _).toHeld
    | readData o fed => exact ih hp
    | readStop o st =>
      rw [returnTo]
      refine (ih ?_).from Held.trans (readStopped_kept _ _ _ _).toHeld
      rw [readStopped_phase]
      exact hp
    | writeWait => exact ih hp
    | initPoll => exact init5_keeps _ s
    | initSelect => exact init10End_keeps _ s
    | initSwitch => exact init12_keeps _ s
    | switchRead => exact ih hp
    | storageRead block buffer total done chunk =>
      rw [returnTo]
      split
      · exact (readLoop_keeps _ _ _ _ _ _).mono fun h => h.toHeld
      · exact (readShort_keeps _ _ _ _).mono fun h => h.toHeld
    | storageWrite block buffer total done =>
      rw [returnTo]
      split
      · exact (writeLoop_keeps _ _ _ _ _ _).mono fun h => h.toHeld
      · exact .done (Held.refl s)

end Sys2Proof.Machine
end

