-- ==== Sys2Proof/Laws/Bits.lean ====
section
/-! SUPPORT. Bits, bytes and words in wire order: what a shift register holds after some bits, and what packing bits into
words and bytes into bits does. -/

namespace Sys2Proof.Machine

/-- The word with a bit in its lowest place. -/
abbrev bitWord (b : Bool) : Word := if b then 1#32 else 0#32

/-- A shift register after some bits, the first the highest in the end. -/
def shiftBits (w : Word) (bs : List Bool) : Word := bs.foldl (fun w b => (w <<< 1) ||| bitWord b) w

@[simp] theorem shiftBits_nil (w : Word) : shiftBits w [] = w := rfl

theorem shiftBits_append (w : Word) (bs cs : List Bool) : shiftBits w (bs ++ cs) = shiftBits (shiftBits w bs) cs := by
  simp [shiftBits]

theorem shiftBits_snoc (w : Word) (bs : List Bool) (b : Bool) :
    shiftBits w (bs ++ [b]) = (shiftBits w bs <<< 1) ||| bitWord b := by
  simp [shiftBits]

theorem bitWord_getLsbD (b : Bool) (i : Nat) : (bitWord b).getLsbD i = (decide (i = 0) && b) := by
  cases b
  · simp [bitWord]
  · cases i <;> simp [bitWord, BitVec.getLsbD_one]

/-- The bits of a shift register: the last bits shifted in, and above them what was there before. -/
theorem shiftBits_getLsbD (w : Word) (bs : List Bool) {i : Nat} (hi : i < 32) :
    (shiftBits w bs).getLsbD i =
      if i < bs.length then bs.getD (bs.length - 1 - i) false else w.getLsbD (i - bs.length) := by
  induction bs using List.reverseRecOn generalizing i with
  | nil => simp
  | append_singleton bs b ih =>
    rw [shiftBits_snoc, BitVec.getLsbD_or, bitWord_getLsbD, BitVec.getLsbD_shiftLeft]
    cases i with
    | zero => simp
    | succ i =>
      rw [ih (by omega)]
      simp only [List.length_append, List.length_cons, List.length_nil, Nat.zero_add, Nat.add_sub_cancel,
        Nat.succ_ne_zero, decide_false, Bool.false_and, Bool.or_false, hi, decide_true, Bool.true_and,
        Nat.add_lt_add_iff_right, Nat.add_sub_add_right]
      by_cases h : i < bs.length
      · rw [if_pos h, if_pos h, show bs.length - (i + 1) = bs.length - 1 - i by omega]
        rw [List.getD_eq_getElem?_getD, List.getD_eq_getElem?_getD, List.getElem?_append_left (by omega)]
        simp
      · simp [h]

/-- The word of up to 32 bits. -/
def bitsWord (bs : List Bool) : Word := shiftBits 0#32 bs

/-- After 32 bits nothing of the old contents is left. -/
theorem shiftBits_full (w : Word) {bs : List Bool} (h : bs.length = 32) : shiftBits w bs = bitsWord bs := by
  apply BitVec.eq_of_getLsbD_eq
  intro i hi
  rw [bitsWord, shiftBits_getLsbD _ _ hi, shiftBits_getLsbD _ _ hi, if_pos (by omega), if_pos (by omega)]

theorem bitsWord_getLsbD {bs : List Bool} {i : Nat} (hi : i < 32) :
    (bitsWord bs).getLsbD i = if i < bs.length then bs.getD (bs.length - 1 - i) false else false := by
  rw [bitsWord, shiftBits_getLsbD _ _ hi]; simp

/-! ## Packing bits into words -/

/-- `n` words packed from a bit sequence, 32 bits each, the first bit the highest. -/
def packWords (n : Nat) (bs : List Bool) : List Word := (List.range n).map fun i => bitsWord ((bs.drop (32 * i)).take 32)

@[simp] theorem packWords_length (n : Nat) (bs : List Bool) : (packWords n bs).length = n := by simp [packWords]

@[simp] theorem packWords_zero (bs : List Bool) : packWords 0 bs = [] := rfl

theorem packWords_succ (n : Nat) (bs : List Bool) :
    packWords (n + 1) bs = bitsWord (bs.take 32) :: packWords n (bs.drop 32) := by
  simp only [packWords, List.range_succ_eq_map, List.map_cons, List.map_map]
  congr 1
  apply List.map_congr_left
  intro i _
  simp [Nat.mul_add, Nat.add_comm]

theorem packWords_snoc (n : Nat) (bs : List Bool) :
    packWords (n + 1) bs = packWords n bs ++ [bitsWord ((bs.drop (32 * n)).take 32)] := by
  simp [packWords, List.range_succ]

/-- Bits past the end of the words do not matter. -/
theorem packWords_append {n : Nat} {bs : List Bool} (cs : List Bool) (h : 32 * n ≤ bs.length) :
    packWords n (bs ++ cs) = packWords n bs := by
  simp only [packWords]
  apply List.map_congr_left
  intro i hi
  have hi := List.mem_range.1 hi
  rw [List.drop_append_of_le_length (by omega), List.take_append_of_le_length (by rw [List.length_drop]; omega)]

/-- The bits of a word as the wire carries them. -/
def wordBits (w : Word) : List Bool := (List.range 32).map fun i => w.getLsbD (31 - i)

@[simp] theorem wordBits_length (w : Word) : (wordBits w).length = 32 := by simp [wordBits]

theorem wordBits_getD (w : Word) {i : Nat} (h : i < 32) : (wordBits w).getD i false = w.getLsbD (31 - i) := by
  simp [wordBits, h]

theorem bitsWord_wordBits (w : Word) : bitsWord (wordBits w) = w := by
  apply BitVec.eq_of_getLsbD_eq
  intro i hi
  rw [bitsWord_getLsbD hi, wordBits_length, if_pos hi, wordBits_getD _ (by omega)]
  congr 1; omega

theorem wordBits_bitsWord {bs : List Bool} (h : bs.length = 32) : wordBits (bitsWord bs) = bs := by
  apply List.ext_getElem?
  intro i
  by_cases hi : i < 32
  · simp only [wordBits, List.getElem?_map, List.getElem?_range hi, Option.map_some]
    rw [bitsWord_getLsbD (by omega), h, if_pos (by omega), show 32 - 1 - (31 - i) = i by omega]
    simp [h, hi]
  · rw [List.getElem?_eq_none (by simpa using hi), List.getElem?_eq_none (by omega)]

theorem wordBits_injective {v w : Word} (h : wordBits v = wordBits w) : v = w := by
  rw [← bitsWord_wordBits v, h, bitsWord_wordBits]

theorem wordBits_joinBE (a b c d : Byte) : wordBits (joinBE a b c d) = bytesBits [a, b, c, d] := by
  simp only [wordBits, List.range, List.range.loop, List.map, joinBE, BitVec.getLsbD_append, bytesBits, byteBits,
    List.flatMap_cons, List.flatMap_nil, List.append_nil, List.cons_append, List.nil_append]
  simp

theorem wordBits_eq_bytesBits (w : Word) : wordBits w = bytesBits (wordBytesBE w) := by
  conv_lhs => rw [← joinBE_wordByte w]
  exact wordBits_joinBE _ _ _ _

@[simp] theorem bytesBits_nil : bytesBits [] = [] := rfl

theorem bytesBits_append (bs cs : List Byte) : bytesBits (bs ++ cs) = bytesBits bs ++ bytesBits cs := by
  simp [bytesBits]

theorem bytesBits_cons (b : Byte) (bs : List Byte) : bytesBits (b :: bs) = byteBits b ++ bytesBits bs := rfl

@[simp] theorem byteBits_length (b : Byte) : (byteBits b).length = 8 := rfl

@[simp] theorem bytesBits_length (bs : List Byte) : (bytesBits bs).length = 8 * bs.length := by
  induction bs with
  | nil => rfl
  | cons b bs ih => rw [bytesBits_cons, List.length_append, ih, List.length_cons, byteBits_length]; omega

/-- Words in wire order, as bytes. -/
def wordsBytesBE (ws : List Word) : List Byte := ws.flatMap wordBytesBE

@[simp] theorem wordsBytesBE_length (ws : List Word) : (wordsBytesBE ws).length = 4 * ws.length := by
  induction ws with
  | nil => rfl
  | cons w ws ih => simp [wordsBytesBE] at ih ⊢; omega

theorem wordsBytesLE_map_bswap32 (ws : List Word) : wordsBytesLE (ws.map bswap32) = wordsBytesBE ws := by
  induction ws with
  | nil => rfl
  | cons w ws ih =>
    show wordBytesLE (bswap32 w) ++ wordsBytesLE (ws.map bswap32) = wordBytesBE w ++ wordsBytesBE ws
    rw [ih, wordBytesLE_bswap32]

/-- Packing the bits of bytes gives those bytes back. -/
theorem wordsBytesBE_packWords {n : Nat} {bs : List Byte} (h : bs.length = 4 * n) :
    wordsBytesBE (packWords n (bytesBits bs)) = bs := by
  induction n generalizing bs with
  | zero => simpa [wordsBytesBE] using (List.length_eq_zero_iff.1 (by omega)).symm
  | succ n ih =>
    match bs, h with
    | a :: b :: c :: d :: bs, h =>
      rw [show a :: b :: c :: d :: bs = [a, b, c, d] ++ bs from rfl, bytesBits_append, packWords_succ,
        List.take_append_of_le_length (by simp), List.take_of_length_le (by simp),
        List.drop_append_of_le_length (by simp), List.drop_of_length_le (by simp), List.nil_append]
      show wordBytesBE _ ++ wordsBytesBE (packWords n (bytesBits bs)) = _
      rw [ih (by simp at h; omega), ← wordBits_joinBE, bitsWord_wordBits, wordBytesBE_joinBE]

/-- Every bit sequence of whole bytes is that of some bytes. -/
theorem exists_bytesBits {n : Nat} {bs : List Bool} (h : bs.length = 8 * n) : ∃ cs : List Byte, cs.length = n ∧ bytesBits cs = bs := by
  induction n generalizing bs with
  | zero => exact ⟨[], rfl, by simpa using (List.length_eq_zero_iff.1 (by omega)).symm⟩
  | succ n ih =>
    match bs, h with
    | a :: b :: c :: d :: e :: f :: g :: i :: bs, h =>
      obtain ⟨cs, hc, hb⟩ := ih (bs := bs) (by simp at h; omega)
      refine ⟨BitVec.ofBoolListBE [a, b, c, d, e, f, g, i] :: cs, by simp [hc], ?_⟩
      rw [bytesBits_cons, hb]
      cases a <;> cases b <;> cases c <;> cases d <;> cases e <;> cases f <;> cases g <;> cases i <;> rfl

/-! ## RESP_FIX on bits -/

/-- The reassembled words are the captured bits with one bit put before them. -/
theorem fixWords_packWords (n : Nat) (before : Word) {bs : List Bool} (h : 32 * n ≤ bs.length) :
    fixWords before (packWords n bs) = packWords n (before.getLsbD 0 :: bs) := by
  induction n generalizing before bs with
  | zero => rfl
  | succ n ih =>
    rw [packWords_succ, packWords_succ, fixWords]
    have h32 : (bs.take 32).length = 32 := by simp; omega
    congr 1
    · apply wordBits_injective
      apply List.ext_getElem?
      intro i
      by_cases hi : i < 32
      · rw [wordBits_bitsWord (by simp; omega)]
        simp only [wordBits, List.getElem?_map, List.getElem?_range hi, Option.map_some, BitVec.getLsbD_or,
          BitVec.getLsbD_ushiftRight, BitVec.getLsbD_shiftLeft]
        cases i with
        | zero => rw [BitVec.getLsbD_of_ge _ (1 + (31 - 0)) (by omega)]; simp
        | succ i =>
          rw [bitsWord_getLsbD (by omega), h32, if_pos (by omega), show 32 - 1 - (1 + (31 - (i + 1))) = i by omega,
            show (decide (31 - (i + 1) < 31)) = true by simp; omega]
          simp [show i < 31 by omega, show i < 32 by omega, show i < bs.length by omega]
      · rw [List.getElem?_eq_none (by simpa using hi), List.getElem?_eq_none (by simp; omega)]
    · rw [ih _ (by rw [List.length_drop]; omega)]
      congr 1
      rw [bitsWord_getLsbD (by omega), h32, if_pos (by omega), List.drop_succ_cons,
        List.drop_eq_getElem_cons (show 31 < bs.length by omega)]
      simp [show 31 < bs.length by omega]

end Sys2Proof.Machine
end

