-- ==== Sys2Proof/Laws/Send.lean ====
section
/-! SUPPORT. A sequencer that sends (spec/41_sequencers.md R152): the bits it drives are those of its shift register and
its FIFO, in order; and the 48 CLK periods in which a command frame goes out. -/

namespace Sys2Proof.Machine

/-- The bits a sequencer has still to drive from its shift register and its FIFO. -/
def Seq.pending (q : Seq) : List Bool := (wordBits q.osr).take q.osrCount ++ q.txf.flatMap wordBits

theorem wordBits_eq_cons (w : Word) : wordBits w = w.msb :: (wordBits (w <<< 1)).take 31 := by
  apply List.ext_getElem?
  intro i
  cases i with
  | zero => simp [wordBits, BitVec.msb_eq_getLsbD_last]
  | succ i =>
    rw [List.getElem?_cons_succ]
    by_cases hi : i < 31
    · rw [List.getElem?_take_of_lt hi]
      simp only [wordBits, List.getElem?_map, List.getElem?_range (show i + 1 < 32 by omega),
        List.getElem?_range (show i < 32 by omega), Option.map_some, BitVec.getLsbD_shiftLeft]
      simp only [show (decide (31 - i < 32)) = true by simp; omega, show (decide (31 - i < 1)) = false by simp; omega,
        Bool.not_false, Bool.true_and]
      rw [show 31 - (i + 1) = 31 - i - 1 by omega]
    · rw [List.getElem?_eq_none (by simp; omega), List.getElem?_eq_none (by simp; omega)]

theorem wordBits_take_succ (w : Word) {c : Nat} (h : c < 32) :
    (wordBits w).take (c + 1) = w.msb :: (wordBits (w <<< 1)).take c := by
  rw [wordBits_eq_cons, List.take_succ_cons, List.take_take, show min c 31 = c by omega]

/-- One CLK period of a send that has a bit to drive. -/
theorem Seq.sendTick_spec {q : Seq} {b : Bool} {bs : List Bool} {n : Nat} (hp : q.pending = b :: bs)
    (hc : q.osrCount ≤ 32) (hb : q.bitsLeft = n + 1) :
    ∃ osr oc tx, oc ≤ 32 ∧
      (let q' := { q with level := b, bitsLeft := n, osr := osr, osrCount := oc, txf := tx }
       q'.pending = bs ∧
       q.sendTick = if n = 0 then { q' with dir := .input, osrCount := 0 }.nextProgram else q') := by
  obtain ⟨c, hload⟩ : ∃ c, c < 32 ∧ ∃ w tx, q.load = { q with osr := w, osrCount := c + 1, txf := tx } ∧
      (wordBits w).take (c + 1) ++ tx.flatMap wordBits = b :: bs := by
    unfold Seq.load
    by_cases h0 : q.osrCount = 0
    · rw [if_pos h0]
      match ht : q.txf with
      | [] => simp [Seq.pending, h0, ht] at hp
      | w :: ws =>
        refine ⟨31, by omega, w, ws, rfl, ?_⟩
        rw [List.take_of_length_le (by simp)]
        simpa [Seq.pending, h0, ht] using hp
    · rw [if_neg h0]
      refine ⟨q.osrCount - 1, by omega, q.osr, q.txf, ?_, ?_⟩
      · rw [Nat.sub_add_cancel (by omega)]
      · rw [Nat.sub_add_cancel (by omega)]; exact hp
  obtain ⟨hc', w, tx, hl, hp'⟩ := hload
  rw [wordBits_take_succ w hc', List.cons_append, List.cons.injEq] at hp'
  obtain ⟨hb', hbs⟩ := hp'
  refine ⟨w <<< 1, c, tx, by omega, hbs, ?_⟩
  unfold Seq.sendTick
  simp only [hl, Nat.add_sub_cancel, hb, Nat.succ_ne_zero, if_false]
  rw [hb']

@[simp] theorem Seq.nextProgram_level (q : Seq) : q.nextProgram.level = q.level := by
  unfold Seq.nextProgram; split
  · unfold Seq.begin; split <;> rfl
  · rfl

/-! ## The rest of the block while a sequencer sends -/

/-- DSEQ does nothing in a CLK period: it is at rest, or it hunts and DAT0 is high. -/
def DseqStill (q : Seq) (t : Tick) : Prop :=
  q.mode = .wait ∨ q.mode = .unprogrammed ∨ (q.mode = .recvHunt ∧ t.dat.getLsbD 0 = true)

theorem dseqTick_still {t : Tick} {s : State} (h : DseqStill s.dseq t) : dseqTick t s = s := by
  unfold dseqTick
  rcases h with h | h | ⟨h, hd⟩ <;> simp [h]
  exact fun hd' => absurd hd (by simp [hd'])

/-- DMA0 has nothing to move. -/
def DmaStill (s : State) : Prop := s.dma0.busy = false ∨ (s.dma0.pace = .cseqRx ∧ s.cseq.rxf = [])

theorem dmaRun_still {s : State} (h : DmaStill s) : dmaRun s = s := by
  unfold dmaRun dma0Ready
  rcases h with h | ⟨h, hr⟩ <;> simp [h]
  simp [hr]

theorem Tick.quiet_still {q : Seq} (h : q.mode = .wait ∨ q.mode = .unprogrammed ∨ q.mode = .recvHunt) :
    DseqStill q Tick.quiet := by
  rcases h with h | h | h
  · exact .inl h
  · exact .inr (.inl h)
  · exact .inr (.inr ⟨h, rfl⟩)

/-! ## A frame goes out -/

/-- One CLK period in which CSEQ sends and nothing else moves. -/
theorem clkTick_send {t : Tick} {s : State} (hk : s.kseq.running = true) (hm : s.cseq.mode = .send)
    (hd : DseqStill s.dseq t) (hx : s.dma0.busy = false ∨ s.dma0.pace = .cseqRx) (hr : s.cseq.sendTick.rxf = []) :
    clkTick t s = (s.setCseq s.cseq.sendTick).drive (.cmd s.cseq.sendTick.level) := by
  have hc : cseqTick t s = (s.setCseq s.cseq.sendTick).drive (.cmd s.cseq.sendTick.level) := by
    unfold cseqTick; rw [hm]
  rw [clkTick_eq]
  rw [if_pos hk, hc, dseqTick_still (by simpa using hd), dmaRun_still]
  rcases hx with hx | hx
  · exact .inl hx
  · exact .inr ⟨hx, hr⟩

@[simp] theorem Seq.nextProgram_rxf (q : Seq) : q.nextProgram.rxf = q.rxf := by
  unfold Seq.nextProgram; split
  · unfold Seq.begin; split <;> rfl
  · rfl

/-- The CLK periods of a whole send program on CSEQ: its bits are driven, and the next program begins. -/
theorem clkTicks_send {ts : List Tick} {s : State} {bs rest : List Bool} (hk : s.kseq.running = true)
    (hm : s.cseq.mode = .send) (hd : ∀ t ∈ ts, DseqStill s.dseq t) (hx : s.dma0.busy = false ∨ s.dma0.pace = .cseqRx)
    (hr : s.cseq.rxf = []) (hc : s.cseq.osrCount ≤ 32) (hp : s.cseq.pending = bs ++ rest) (hb : s.cseq.bitsLeft = bs.length)
    (ht : ts.length = bs.length) (hpos : bs ≠ []) :
    ∃ osr oc tx, (wordBits osr).take oc ++ tx.flatMap wordBits = rest ∧ oc ≤ 32 ∧
      clkTicks ts s = { s with
        cseq := Seq.nextProgram { s.cseq with
          level := bs.getLastD s.cseq.level, bitsLeft := 0, osr := osr, osrCount := 0, txf := tx, dir := .input }
        history := (bs.map PinEvent.cmd).reverse ++ s.history } := by
  induction ts generalizing s bs with
  | nil => cases bs with
    | nil => exact absurd rfl hpos
    | cons b bs => simp at ht
  | cons t ts ih =>
    match bs, hpos with
    | b :: bs, _ =>
      obtain ⟨osr, oc, tx, hoc, hq, hs⟩ := Seq.sendTick_spec (q := s.cseq) (n := bs.length) hp hc (by simpa using hb)
      have hr' : s.cseq.sendTick.rxf = [] := by rw [hs]; split <;> simp [hr]
      have hl : s.cseq.sendTick.level = b := by rw [hs]; split <;> simp
      rw [clkTicks, clkTick_send hk hm (hd t (by simp)) hx hr', hl]
      cases bs with
      | nil =>
        have : ts = [] := by cases ts with
          | nil => rfl
          | cons a l => simp at ht
        subst this
        refine ⟨osr, oc, tx, hq, hoc, ?_⟩
        rw [hs, if_pos (by simp)]
        rfl
      | cons c bs =>
        rw [if_neg (by simp)] at hs
        obtain ⟨osr', oc', tx', hq', hoc', h⟩ := ih
          (s := (s.setCseq s.cseq.sendTick).drive (.cmd b)) (bs := c :: bs) (by simpa using hk)
          (by simp [hs, hm]) (fun u hu => by simpa using hd u (by simp [hu])) (by simpa using hx) (by simp [hr'])
          (by simp [hs, hoc]) (by simp only [State.drive_cseq, State.setCseq_cseq, hs]; exact hq)
          (by simp [hs]) (by simpa using ht) (by simp)
        refine ⟨osr', oc', tx', hq', hoc', ?_⟩
        rw [h]
        simp [State.drive, State.setCseq, hs, -List.getLastD_eq_getLast?, List.getLastD_cons]

end Sys2Proof.Machine
end

