-- ==== Sys2Proof/Laws/Capture.lean ====
section
/-! SUPPORT. The capture of a response (spec/41_sequencers.md R154, R155; spec/43_command_response.md R193): the bits CSEQ
shifts in land in memory as packed words, whatever the card drives. -/

namespace Sys2Proof.Machine

/-- A state in which DMA0 moves the words CSEQ captures to `a`, `W` of them. -/
structure Capturing (s : State) (a : Word) (W : Nat) : Prop where
  clock : s.kseq.running = true
  armed : s.cseq.armed = []
  rxf   : s.cseq.rxf = []
  count : s.cseq.isrCount = 0
  room  : 1 ≤ s.cfg.fifoDepth
  dma   : s.dma0 = { s.dma0 with
    src := .cseqRxf, dst := .mem a, count := BitVec.ofNat 32 W, incDst := true, bswap := false, pace := .cseqRx,
    chain := .none, busy := true }

/-- The state after the bits `done` of `N` have been shifted in. -/
def captured (s : State) (a : Word) (W N : Nat) (done : List Bool) : State :=
  { s with
    cseq := { s.cseq with
      mode := if done.length = N then .wait else .recvShift, bitsLeft := N - done.length,
      isr := shiftBits s.cseq.isr done, isrCount := done.length % 32 }
    dma0 := { s.dma0 with
      dst := .mem (a + BitVec.ofNat 32 (4 * (done.length / 32))), count := BitVec.ofNat 32 (W - done.length / 32) }
    mem := s.mem.writeWords a (packWords (done.length / 32) done) }

theorem Memory.writeWords_append (m : Memory) (a : Word) (vs ws : List Word) :
    m.writeWords a (vs ++ ws) = (m.writeWords a vs).writeWords (a + BitVec.ofNat 32 (4 * vs.length)) ws := by
  rw [Memory.writeWords_eq, Memory.writeWords_eq, Memory.writeWords_eq]
  rw [show wordsBytesLE (vs ++ ws) = wordsBytesLE vs ++ wordsBytesLE ws by simp [wordsBytesLE],
    Memory.writeBytes_append, wordsBytesLE_length]

theorem Memory.writeWords_singleton (m : Memory) (a w : Word) : m.writeWords a [w] = m.writeWord a w := rfl

/-- 32 bits after the last whole word make the next word. -/
theorem shiftBits_word (w : Word) {bs : List Bool} {k : Nat} (h : bs.length = 32 * (k + 1)) :
    shiftBits w bs = bitsWord ((bs.drop (32 * k)).take 32) := by
  conv_lhs => rw [← List.take_append_drop (32 * k) bs]
  have hl : (bs.drop (32 * k)).length = 32 := by rw [List.length_drop]; omega
  rw [shiftBits_append, List.take_of_length_le (l := bs.drop (32 * k)) (by omega)]
  exact shiftBits_full _ hl

/-- One word moved by DMA0 from CSEQ to memory. -/
theorem dmaRun_capture {s : State} {a : Word} {w : Word} (hb : s.dma0.busy = true) (hp : s.dma0.pace = .cseqRx)
    (hs : s.dma0.src = .cseqRxf) (hd : s.dma0.dst = .mem a) (hi : s.dma0.incDst = true) (hw : s.dma0.bswap = false)
    (hc : s.dma0.chain = .none) (hr : s.cseq.rxf = [w]) :
    dmaRun s = { s with
      cseq := { s.cseq with rxf := [] }
      dma0 := { s.dma0 with
        dst := .mem (a + 4#32), count := s.dma0.count - 1#32, busy := decide (s.dma0.count ≠ 1#32) }
      mem := s.mem.writeWord a w } := by
  have h1 : dma0Move s = { s with
      cseq := { s.cseq with rxf := [] }
      dma0 := { s.dma0 with
        dst := .mem (a + 4#32), count := s.dma0.count - 1#32, busy := decide (s.dma0.count ≠ 1#32) }
      mem := s.mem.writeWord a w } := by
    simp [dma0Move, dma0Put, dma0Pop, dma0Value, dma0Word, Dma0.moved, DmaEnd.advance, hb, hs, hd, hi, hw, hr,
      State.setCseq, State.setMem, State.setDma0]
  have h2 : dma0Step s = dma0Move s := by
    unfold dma0Step
    rw [if_neg]
    rw [h1]
    simp [hc]
  unfold dmaRun
  rw [if_pos (by simp [dma0Ready, hb, hp, hr])]
  have hroom : dma0Room s = 1 := by simp [dma0Room, hp, hr]
  rw [hroom, dma0Steps, if_pos (by simp [dma0Ready, hb, hp, hr]), dma0Steps, h2, h1]

/-- One CLK period of a capture: one more bit. -/
theorem clkTick_captured {s : State} {a : Word} {W N : Nat} {done : List Bool} {t : Tick} (h : Capturing s a W)
    (hd : DseqStill s.dseq t) (hlt : done.length < N) (hW : N < 32 * W) (hW' : W < 2 ^ 32) :
    clkTick t (captured s a W N done) = captured s a W N (done ++ [t.cmd]) := by
  have hmode : (captured s a W N done).cseq.mode = .recvShift := by
    simp [captured]; omega
  have hc : cseqTick t (captured s a W N done) =
      (captured s a W N done).setCseq ((captured s a W N done).cseq.cmdRecvTick s.cfg.fifoDepth t.cmd) := by
    unfold cseqTick; rw [hmode]; rfl
  have hdma := h.dma
  have hbusy : s.dma0.busy = true := by rw [hdma]
  have hpace : s.dma0.pace = .cseqRx := by rw [hdma]
  rw [clkTick_eq]
  rw [if_pos (by simpa [captured] using h.clock), hc, dseqTick_still (by simpa [captured] using hd)]
  unfold Seq.cmdRecvTick
  rw [hmode]
  simp only
  by_cases hfull : (done.length + 1) % 32 = 0
  · -- the word is full
    have hdiv : (done.length + 1) / 32 = done.length / 32 + 1 := by omega
    have h31 : done.length % 32 = 31 := by omega
    have hst : (captured s a W N done).cseq.shiftTick s.cfg.fifoDepth 1 (bitWord t.cmd) =
        { (captured s a W N done).cseq with
          bitsLeft := N - (done.length + 1), isr := shiftBits s.cseq.isr (done ++ [t.cmd]), isrCount := 0,
          rxf := [shiftBits s.cseq.isr (done ++ [t.cmd])] } := by
      have hroom : (0 : Nat) < s.cfg.fifoDepth := h.room
      simp [Seq.shiftTick, Seq.autopush, Seq.shiftIn, Seq.rxRoom, captured, h31, h.rxf, hroom, shiftBits_snoc,
        show ¬ (N - done.length = 0) by omega]
      omega
    rw [hst]
    have hq : (if N - (done.length + 1) = 0 ∧ (0 : Nat) ≠ 32 then
          Seq.nextProgram { (captured s a W N done).cseq with
            bitsLeft := N - (done.length + 1), isr := shiftBits s.cseq.isr (done ++ [t.cmd]), isrCount := 0,
            rxf := [shiftBits s.cseq.isr (done ++ [t.cmd])] }
        else { (captured s a W N done).cseq with
            bitsLeft := N - (done.length + 1), isr := shiftBits s.cseq.isr (done ++ [t.cmd]), isrCount := 0,
            rxf := [shiftBits s.cseq.isr (done ++ [t.cmd])] }) =
        { (captured s a W N (done ++ [t.cmd])).cseq with rxf := [shiftBits s.cseq.isr (done ++ [t.cmd])] } := by
      by_cases hN : done.length + 1 = N
      · rw [if_pos (by omega)]
        simp [Seq.nextProgram, captured, h.armed, hN]
        omega
      · rw [if_neg (by omega)]
        simp [captured, hN, hfull]
        omega
    rw [hq]
    rw [dmaRun_capture (a := a + BitVec.ofNat 32 (4 * (done.length / 32)))
      (w := shiftBits s.cseq.isr (done ++ [t.cmd])) (by simpa [captured] using hbusy) (by simpa [captured] using hpace)
      (by simp [captured]; rw [hdma]) (by simp [captured]) (by simp [captured]; rw [hdma])
      (by simp [captured]; rw [hdma]) (by simp [captured]; rw [hdma]) (by simp)]
    have hcount : BitVec.ofNat 32 (W - done.length / 32) - 1#32 = BitVec.ofNat 32 (W - (done.length + 1) / 32) := by
      rw [hdiv]; apply BitVec.eq_of_toNat_eq; simp [BitVec.toNat_sub]; omega
    have hne : BitVec.ofNat 32 (W - done.length / 32) ≠ 1#32 := by
      intro he
      have := congrArg BitVec.toNat he
      simp at this; omega
    have hmem : (s.mem.writeWords a (packWords (done.length / 32) done)).writeWord
        (a + BitVec.ofNat 32 (4 * (done.length / 32))) (shiftBits s.cseq.isr (done ++ [t.cmd])) =
        s.mem.writeWords a (packWords ((done.length + 1) / 32) (done ++ [t.cmd])) := by
      rw [hdiv, packWords_snoc, packWords_append _ (by omega), Memory.writeWords_append, packWords_length,
        Memory.writeWords_singleton, shiftBits_word (k := done.length / 32) _ (by simp; omega)]
    have haddr : a + BitVec.ofNat 32 (4 * (done.length / 32)) + 4#32 = a + BitVec.ofNat 32 (4 * ((done.length + 1) / 32)) := by
      rw [show (4#32 : Word) = BitVec.ofNat 32 4 from rfl, word_add_assoc, hdiv, Nat.mul_add]
    simp [captured, h.rxf, hcount, hne, hmem, haddr, hbusy, State.setCseq]
  · -- the word is not full
    have hdiv : (done.length + 1) / 32 = done.length / 32 := by omega
    have hmod : (done.length + 1) % 32 = done.length % 32 + 1 := by omega
    have hst : (captured s a W N done).cseq.shiftTick s.cfg.fifoDepth 1 (bitWord t.cmd) =
        { (captured s a W N done).cseq with
          bitsLeft := N - (done.length + 1), isr := shiftBits s.cseq.isr (done ++ [t.cmd]),
          isrCount := (done.length + 1) % 32 } := by
      simp [Seq.shiftTick, Seq.autopush, Seq.shiftIn, captured, hmod, shiftBits_snoc,
        show ¬ (N - done.length = 0) by omega, show ¬ (done.length % 32 = 31) by omega,
        show ¬ (done.length % 32 = 32) by omega]
      omega
    rw [hst]
    have hq : (if N - (done.length + 1) = 0 ∧ (done.length + 1) % 32 ≠ 32 then
          Seq.nextProgram { (captured s a W N done).cseq with
            bitsLeft := N - (done.length + 1), isr := shiftBits s.cseq.isr (done ++ [t.cmd]),
            isrCount := (done.length + 1) % 32 }
        else { (captured s a W N done).cseq with
            bitsLeft := N - (done.length + 1), isr := shiftBits s.cseq.isr (done ++ [t.cmd]),
            isrCount := (done.length + 1) % 32 }) =
        (captured s a W N (done ++ [t.cmd])).cseq := by
      by_cases hN : done.length + 1 = N
      · rw [if_pos (by omega)]
        simp [Seq.nextProgram, captured, h.armed, hN]
      · rw [if_neg (by omega)]
        simp [captured, hN]
        omega
    rw [hq, dmaRun_still (.inr ⟨by simpa [captured] using hpace, by simp [captured, h.rxf]⟩)]
    have hmem : packWords (done.length / 32) (done ++ [t.cmd]) = packWords (done.length / 32) done :=
      packWords_append _ (by omega)
    simp [captured, hdiv, hmem, State.setCseq]

/-! ## The hunt -/

/-- A high level leaves a hunting CSEQ hunting. -/
theorem clkTick_hunt_high {s : State} {a : Word} {W : Nat} {t : Tick} (h : Capturing s a W) (hd : DseqStill s.dseq t)
    (hm : s.cseq.mode = .recvHunt) (hl : t.cmd = true) : clkTick t s = s := by
  have hc : cseqTick t s = s := by
    unfold cseqTick; rw [hm]; simp [Seq.cmdRecvTick, hm, hl, State.setCseq]
  rw [clkTick_eq]
  rw [if_pos h.clock, hc, dseqTick_still hd, dmaRun_still (.inr ⟨by rw [h.dma], h.rxf⟩)]

/-- The start bit: counted, not shifted in. -/
theorem clkTick_hunt_low {s : State} {a : Word} {W N : Nat} {t : Tick} (h : Capturing s a W) (hd : DseqStill s.dseq t)
    (hm : s.cseq.mode = .recvHunt) (hb : s.cseq.bitsLeft = N + 1) (hN : 0 < N) (hl : t.cmd = false) :
    clkTick t s = captured s a W N [] := by
  have hc : cseqTick t s = s.setCseq { s.cseq with mode := .recvShift, bitsLeft := N } := by
    unfold cseqTick; rw [hm]; simp [Seq.cmdRecvTick, hm, hl, hb, hN.ne']
  have hdma : DmaStill (s.setCseq { s.cseq with mode := .recvShift, bitsLeft := N }) :=
    .inr ⟨by rw [State.setCseq_dma0, h.dma], h.rxf⟩
  rw [clkTick_eq]
  rw [if_pos h.clock, hc, dseqTick_still (by simpa using hd), dmaRun_still hdma]
  have h1 : s.dma0 = { s.dma0 with dst := .mem a, count := BitVec.ofNat 32 W } := by
    conv_lhs => rw [h.dma]
    conv_rhs => rw [h.dma]
  simp [captured, State.setCseq, h.count, show ¬ (0 = N) by omega, Memory.writeWords]
  exact h1

/-! ## "await" over the card's levels -/

theorem captured_idle {s : State} {a : Word} {W N : Nat} {done : List Bool} (h : Capturing s a W) :
    (captured s a W N done).cseq.idle = decide (done.length = N) := by
  by_cases hN : done.length = N <;> simp [captured, Seq.idle, h.armed, hN]

/-- The wait, once the start bit is in. -/
theorem awaitCapture_captured {s : State} {a : Word} {W N : Nat} {done : List Bool} {ts : List Tick} (h : Capturing s a W)
    (hd : ∀ t ∈ ts, DseqStill s.dseq t) (hle : done.length ≤ N) (hW : N < 32 * W) (hW' : W < 2 ^ 32) :
    awaitCapture ts (captured s a W N done) =
      (decide (N ≤ done.length + ts.length), captured s a W N (done ++ (ts.map Tick.cmd).take (N - done.length))) := by
  induction ts generalizing done with
  | nil =>
    simp only [awaitCapture, captured_idle h, List.map_nil, List.take_nil, List.append_nil, List.length_nil, Nat.add_zero]
    congr 1
    simp; omega
  | cons t ts ih =>
    rw [awaitCapture, captured_idle h]
    by_cases hN : done.length = N
    · simp [hN]
    · rw [if_neg (by simpa using hN), clkTick_captured h (hd t (by simp)) (by omega) hW hW',
        ih (fun u hu => hd u (by simp [hu])) (by simp; omega)]
      obtain ⟨k, hk⟩ : ∃ k, N - done.length = k + 1 := ⟨N - done.length - 1, by omega⟩
      have hk' : N - (done ++ [t.cmd]).length = k := by simp; omega
      rw [hk, hk', List.map_cons, List.take_succ_cons]
      simp [Nat.add_assoc, Nat.add_comm 1]

/-- The bits a receiver gets from the levels of its line: those after the first low one. -/
def startedBits (levels : List Bool) : List Bool := (levels.dropWhile id).drop 1

/-- The wait from the hunt on, over any levels: the capture completes exactly when enough bits follow a start bit. -/
theorem awaitCapture_hunt {s : State} {a : Word} {W N : Nat} {ts : List Tick} (h : Capturing s a W)
    (hd : ∀ t ∈ ts, DseqStill s.dseq t) (hm : s.cseq.mode = .recvHunt) (hb : s.cseq.bitsLeft = N + 1) (hN : 0 < N)
    (hW : N < 32 * W) (hW' : W < 2 ^ 32) :
    if N ≤ (startedBits (ts.map Tick.cmd)).length then
      awaitCapture ts s = (true, captured s a W N ((startedBits (ts.map Tick.cmd)).take N))
    else
      (awaitCapture ts s = (false, s) ∨
        awaitCapture ts s = (false, captured s a W N (startedBits (ts.map Tick.cmd)))) := by
  induction ts with
  | nil =>
    rw [if_neg (by simp [startedBits]; omega)]
    left
    simp [awaitCapture, Seq.idle, hm]
  | cons t ts ih =>
    have hidle : s.cseq.idle = false := by simp [Seq.idle, hm]
    have hstep : awaitCapture (t :: ts) s = awaitCapture ts (clkTick t s) := by rw [awaitCapture]; simp [hidle]
    rw [hstep]
    cases hl : t.cmd with
    | true =>
      rw [clkTick_hunt_high h (hd t (by simp)) hm hl]
      have : startedBits ((t :: ts).map Tick.cmd) = startedBits (ts.map Tick.cmd) := by simp [startedBits, hl]
      rw [this]
      exact ih fun u hu => hd u (by simp [hu])
    | false =>
      rw [clkTick_hunt_low h (hd t (by simp)) hm hb hN hl]
      have hs : startedBits ((t :: ts).map Tick.cmd) = ts.map Tick.cmd := by simp [startedBits, hl]
      rw [hs, awaitCapture_captured h (fun u hu => hd u (by simp [hu])) (by simp) hW hW']
      simp only [List.length_nil, Nat.zero_add, List.nil_append, Nat.sub_zero, List.length_map]
      by_cases hle : N ≤ ts.length
      · rw [if_pos hle]; simp [hle]
      · rw [if_neg hle]
        right
        rw [List.take_of_length_le (by simp; omega)]
        simp [hle]

/-! ## The partial word -/

/-- Padding a shift register with the high bits of a draw. -/
theorem shiftBits_pad (w d : Word) (bs : List Bool) {m : Nat} (hm : m ≤ 32) :
    (shiftBits w bs <<< m) ||| (d >>> (32 - m)) = shiftBits w (bs ++ (wordBits d).take m) := by
  apply BitVec.eq_of_getLsbD_eq
  intro i hi
  have hlen : ((wordBits d).take m).length = m := by simp [hm]
  rw [shiftBits_append, shiftBits_getLsbD _ _ hi, hlen, BitVec.getLsbD_or, BitVec.getLsbD_shiftLeft,
    BitVec.getLsbD_ushiftRight]
  by_cases h : i < m
  · rw [if_pos h, List.getD_eq_getElem?_getD, List.getElem?_take_of_lt (by omega), ← List.getD_eq_getElem?_getD,
      wordBits_getD _ (by omega), show 32 - m + i = 31 - (m - 1 - i) by omega]
    simp [h]
  · rw [if_neg h, BitVec.getLsbD_of_ge d _ (by omega)]
    simp [h, hi]

/-- The end of a capture: the partial word is padded from a draw and the last word moves (R157, R193). -/
theorem capture_end {s : State} {a : Word} {W N : Nat} {done : List Bool} (h : Capturing s a W) (hN : done.length = N)
    (hr : 0 < N % 32) (hW : W = N / 32 + 1) :
    dmaRun (cseqPad (captured s a W N done)) = { s.drawn with
      cseq := { s.cseq with
        mode := .wait, bitsLeft := 0, isr := shiftBits s.cseq.isr (done ++ (wordBits s.drawValue).take (32 - N % 32)),
        isrCount := 0 }
      dma0 := { s.dma0 with dst := .mem (a + BitVec.ofNat 32 (4 * W)), count := 0#32, busy := false }
      mem := s.mem.writeWords a (packWords W (done ++ (wordBits s.drawValue).take (32 - N % 32))) } := by
  subst hN
  have hdraw : (captured s a W done.length done).drawValue = s.drawValue := rfl
  have hpad : cseqPad (captured s a W done.length done) = { (captured s a W done.length done).drawn with
      cseq := { (captured s a W done.length done).cseq with
        isr := shiftBits s.cseq.isr (done ++ (wordBits s.drawValue).take (32 - done.length % 32)), isrCount := 0,
        rxf := [shiftBits s.cseq.isr (done ++ (wordBits s.drawValue).take (32 - done.length % 32))] } } := by
    have hroom : (0 : Nat) < s.cfg.fifoDepth := h.room
    have hp : (captured s a W done.length done).cseq.partialWord = true := by
      simp [captured, Seq.partialWord]; omega
    have e := shiftBits_pad s.cseq.isr s.drawValue done (m := 32 - done.length % 32) (by omega)
    rw [show 32 - (32 - done.length % 32) = done.length % 32 by omega] at e
    rw [cseqPad, if_pos hp, hdraw]
    simp [Seq.padWith, Seq.autopush, Seq.rxRoom, captured, h.rxf, hroom, e, State.setCseq]
  have hdma := h.dma
  have hpace : s.dma0.pace = .cseqRx := by rw [hdma]
  rw [hpad, dmaRun_capture (a := a + BitVec.ofNat 32 (4 * (done.length / 32)))
    (w := shiftBits s.cseq.isr (done ++ (wordBits s.drawValue).take (32 - done.length % 32)))
    (by simp [captured]; rw [hdma]) (by simp [captured, hpace])
    (by simp [captured]; rw [hdma]) (by simp [captured]) (by simp [captured]; rw [hdma])
    (by simp [captured]; rw [hdma]) (by simp [captured]; rw [hdma]) (by simp)]
  have hl : (done ++ (wordBits s.drawValue).take (32 - done.length % 32)).length = 32 * (done.length / 32 + 1) := by
    simp; omega
  have hmem : (s.mem.writeWords a (packWords (done.length / 32) done)).writeWord
      (a + BitVec.ofNat 32 (4 * (done.length / 32)))
      (shiftBits s.cseq.isr (done ++ (wordBits s.drawValue).take (32 - done.length % 32))) =
      s.mem.writeWords a (packWords W (done ++ (wordBits s.drawValue).take (32 - done.length % 32))) := by
    rw [hW, packWords_snoc, packWords_append _ (by omega), Memory.writeWords_append, packWords_length,
      Memory.writeWords_singleton, shiftBits_word (k := done.length / 32) _ hl]
  have haddr : a + BitVec.ofNat 32 (4 * (done.length / 32)) + 4#32 = a + BitVec.ofNat 32 (4 * W) := by
    rw [show (4#32 : Word) = BitVec.ofNat 32 4 from rfl, word_add_assoc, hW, Nat.mul_add]
  have hcnt : W - done.length / 32 = 1 := by omega
  have hdr : (captured s a W done.length done).drawn = { s.drawn with
      cseq := (captured s a W done.length done).cseq, dma0 := (captured s a W done.length done).dma0,
      mem := (captured s a W done.length done).mem } := by
    unfold State.drawn
    cases hf : s.free <;> simp [captured, hf]
  rw [hdr]
  simp [captured, h.rxf, hcnt, hmem, haddr]

end Sys2Proof.Machine
end

