-- ==== Sys2Proof/Laws/Command.lean ====
section
/-! SUPPORT. The command engine (spec/43_command_response.md): everything SD_COMMAND can do, from any state in which a
command can be sent and for any behaviour of the card on CMD. -/

namespace Sys2Proof.Machine

/-- A state in which SD_COMMAND can run, DSEQ aside. -/
structure Sendable (s : State) : Prop where
  clock : s.kseq.running = true
  mode  : s.cseq.mode = .wait
  armed : s.cseq.armed = []
  txf   : s.cseq.txf = []
  rxf   : s.cseq.rxf = []
  room  : 1 ≤ s.cfg.fifoDepth
  dma   : s.dma0.busy = false

/-- Memory with the frame in the engine's frame buffer (R31, R190). -/
def frameMem (cmd : BitVec 6) (param : Word) (s : State) : Memory := s.mem.writeBytes s.cfg.frameAddr (frameBytes cmd param)

/-- CSEQ after CMD_START: it sends, and the receive program for the response waits behind. -/
def sendingSeq (cmd : BitVec 6) (param : Word) (armed : List SeqProg) (q : Seq) : Seq :=
  { q with
    mode := .send, dir := .out, bitsLeft := cmdFrameBits, osrCount := 0, isrCount := 0, armed := armed,
    txf := [frameWord0 cmd param, frameWord1 cmd param] }

/-- The state in CMD_WAIT, before the frame goes out, with the receive programs `armed` and the channel `d`. -/
def sendingState (cmd : BitVec 6) (param : Word) (armed : List SeqProg) (d : Dma0) (s : State) : State :=
  { s with
    phase := .cmdWait, mem := frameMem cmd param s, crc7Reg := crc7Reg (frameHead cmd param),
    cseq := sendingSeq cmd param armed s.cseq, dma0 := d }

/-- DMA0 as SD_COMMAND configures it (R191). -/
def captureDma (dst : Word) (W : Nat) (d : Dma0) : Dma0 :=
  { d with
    src := .cseqRxf, dst := .mem dst, count := BitVec.ofNat 32 W, incSrc := false, incDst := true, bswap := false,
    pace := .cseqRx, chain := .none, busy := true }

theorem cmdStart_none {cmd : BitVec 6} {param dst : Word} {s : State} (h : Sendable s) :
    (cmdStart (cmdArm cmd param .none dst (cmdBuild cmd param s))).setPhase .cmdWait =
      sendingState cmd param [] s.dma0 s := by
  simp [cmdStart, cmdArm, cmdBuild, buildFrame, Seq.arm, Seq.armRoom, Seq.start, Seq.begin, Seq.pushTx, h.mode, h.armed,
    h.txf, sendingState, sendingSeq, frameMem, State.setPhase, State.setCseq]

theorem cmdStart_response {cmd : BitVec 6} {param dst : Word} {res : ResSize} {s : State} (h : Sendable s)
    (hr : res ≠ .none) :
    (cmdStart (cmdArm cmd param res dst (cmdBuild cmd param s))).setPhase .cmdWait =
      sendingState cmd param [.recv res.bits] (captureDma dst res.words s.dma0) s := by
  cases res with
  | none => exact absurd rfl hr
  | short =>
    simp [cmdStart, cmdArm, cmdBuild, buildFrame, Seq.arm, Seq.armRoom, Seq.start, Seq.begin, Seq.pushTx, h.mode,
      h.armed, h.txf, sendingState, sendingSeq, frameMem, State.setPhase, State.setCseq, State.setDma0, Dma0.config,
      Dma0.trigger, captureDma, ResSize.words]
  | long =>
    simp [cmdStart, cmdArm, cmdBuild, buildFrame, Seq.arm, Seq.armRoom, Seq.start, Seq.begin, Seq.pushTx, h.mode,
      h.armed, h.txf, sendingState, sendingSeq, frameMem, State.setPhase, State.setCseq, State.setDma0, Dma0.config,
      Dma0.trigger, captureDma, ResSize.words]

/-! ## The frame -/

@[simp] theorem frameBytes_length (cmd : BitVec 6) (param : Word) : (frameBytes cmd param).length = 6 := rfl

/-- The two FIFO words carry the frame, and 16 bits that are not sent (spec/30_encoding.md R103). -/
theorem frameWords_bits (cmd : BitVec 6) (param : Word) :
    wordBits (frameWord0 cmd param) ++ wordBits (frameWord1 cmd param) =
      bytesBits (frameBytes cmd param) ++ bytesBits [0#8, 0#8] := by
  rw [frameWord0, frameWord1, wordBits_joinBE, wordBits_joinBE, ← bytesBits_append, ← bytesBits_append]
  rfl

/-- CSEQ after the frame, hunting for the response or at rest. -/
def sentSeq (osr : Word) (level : Bool) (armed : List SeqProg) (q : Seq) : Seq :=
  Seq.nextProgram
    { q with level := level, bitsLeft := 0, osr := osr, osrCount := 0, isrCount := 0, txf := [], dir := .input, armed := armed }

/-- The 48 CLK periods of a frame (R207). -/
theorem clkTicks_frame {cmd : BitVec 6} {param : Word} {armed : List SeqProg} {d : Dma0} {s : State} {ts : List Tick}
    (h : Sendable s) (hd : d.busy = false ∨ d.pace = .cseqRx) (hs : ∀ t ∈ ts, DseqStill s.dseq t)
    (ht : ts.length = cmdFrameBits) :
    ∃ osr level, clkTicks ts (sendingState cmd param armed d s) = { sendingState cmd param armed d s with
      cseq := sentSeq osr level armed { s.cseq with mode := .send }
      history := frameEvents cmd param ++ s.history } := by
  have hp : (sendingState cmd param armed d s).cseq.pending =
      bytesBits (frameBytes cmd param) ++ bytesBits [0#8, 0#8] := by
    rw [← frameWords_bits]
    simp [Seq.pending, sendingState, sendingSeq]
  obtain ⟨osr, oc, tx, hrest, hoc, hq⟩ := clkTicks_send (ts := ts) (s := sendingState cmd param armed d s)
    (bs := bytesBits (frameBytes cmd param)) (rest := bytesBits [0#8, 0#8]) h.clock rfl hs hd h.rxf (by simp [sendingState, sendingSeq])
    hp (by simp [sendingState, sendingSeq, cmdFrameBits]) (by rw [ht]; simp [cmdFrameBits])
    (by intro he; have := congrArg List.length he; simp at this)
  have htx : tx = [] := by
    cases tx with
    | nil => rfl
    | cons w ws =>
      have := congrArg List.length hrest
      simp at this
      omega
  subst htx
  refine ⟨osr, (bytesBits (frameBytes cmd param)).getLastD (sendingState cmd param armed d s).cseq.level, ?_⟩
  rw [hq]
  simp [sentSeq, sendingState, sendingSeq, frameEvents]

/-- CMD0's form of SD_COMMAND: the frame goes out and nothing is awaited (R194). -/
theorem sdCommand_none {cmd : BitVec 6} {param dst : Word} {s : State} (h : Sendable s)
    (hs : DseqStill s.dseq Tick.quiet) :
    ∃ osr level, sdCommand cmd param .none dst s = (true, { s with
      phase := .cmdWait, mem := frameMem cmd param s, crc7Reg := crc7Reg (frameHead cmd param)
      cseq := { s.cseq with
        bitsLeft := 0, osr := osr, osrCount := 0, isrCount := 0, dir := .input, level := level }
      history := frameEvents cmd param ++ s.history, appPrefix := false }) := by
  obtain ⟨osr, level, hq⟩ := clkTicks_frame (cmd := cmd) (param := param) (armed := []) (d := s.dma0)
    (ts := List.replicate cmdFrameBits Tick.quiet) h (.inl h.dma)
    (fun t ht => by rw [List.eq_of_mem_replicate ht]; exact hs) (by simp)
  refine ⟨osr, level, ?_⟩
  simp only [sdCommand, cmdStart_none h, hq]
  simp [sendingState, sentSeq, Seq.nextProgram, State.notePrefix, h.mode, h.txf, h.armed]

/-! ## The response -/

/-- The hunt for a response of `bits` bits begins. -/
theorem sentSeq_recv (osr : Word) (level : Bool) (n : Nat) (q : Seq) :
    sentSeq osr level [.recv n] q =
      { q with
        level := level, bitsLeft := n, osr := osr, osrCount := 0, isrCount := 0, txf := [], dir := .input, armed := [],
        mode := .recvHunt } := rfl

/-- The state in which CSEQ hunts for the response. -/
def huntingState (cmd : BitVec 6) (param dst : Word) (res : ResSize) (osr : Word) (level : Bool) (s : State) : State :=
  { s with
    phase := .cmdWait, mem := frameMem cmd param s, crc7Reg := crc7Reg (frameHead cmd param)
    cseq := { s.cseq with
      mode := .recvHunt, bitsLeft := res.bits, armed := [], osr := osr, osrCount := 0, isrCount := 0, txf := [],
      dir := .input, level := level }
    dma0 := captureDma dst res.words s.dma0
    history := frameEvents cmd param ++ s.history, card := s.card.tail }

theorem huntingState_capturing {cmd : BitVec 6} {param dst osr : Word} {res : ResSize} {level : Bool} {s : State}
    (h : Sendable s) : Capturing (huntingState cmd param dst res osr level s) dst res.words where
  clock := h.clock
  armed := rfl
  rxf   := h.rxf
  count := rfl
  room  := h.room
  dma   := rfl

theorem Turn.frameTicks_length (t : Turn) : t.frameTicks.length = cmdFrameBits := by
  simp [Turn.frameTicks, cmdFrameBits]

theorem Turn.frameTicks_still {q : Seq} {t : Turn} (hq : DseqStill q Tick.quiet) (h : ∀ u ∈ t.lead, DseqStill q u) :
    ∀ u ∈ t.frameTicks, DseqStill q u := by
  intro u hu
  rcases List.mem_append.1 (List.mem_of_mem_take hu) with hu | hu
  · exact h u hu
  · rw [List.eq_of_mem_replicate hu]; exact hq

theorem Turn.waitTicks_still {q : Seq} {t : Turn} {n : Nat} (hq : DseqStill q Tick.quiet) (h : ∀ u ∈ t.ticks, DseqStill q u) :
    ∀ u ∈ t.waitTicks n, DseqStill q u := by
  intro u hu
  unfold Turn.waitTicks at hu
  split at hu
  · exact h u hu
  · rcases List.mem_append.1 hu with hu | hu
    · exact h u hu
    · rw [List.eq_of_mem_replicate hu]; exact hq

/-- DSEQ stays still through the card's next Turn. -/
structure StillTurn (s : State) : Prop where
  quiet : DseqStill s.dseq Tick.quiet
  lead  : ∀ u ∈ s.turn.lead, DseqStill s.dseq u
  ticks : ∀ u ∈ s.turn.ticks, DseqStill s.dseq u

/-- A DSEQ at rest stays still whatever the card drives. -/
theorem StillTurn.of_rest {s : State} (h : s.dseq.mode = .wait ∨ s.dseq.mode = .unprogrammed) : StillTurn s := by
  have hall : ∀ u, DseqStill s.dseq u := fun u => h.elim .inl fun h => .inr (.inl h)
  exact ⟨hall _, fun u _ => hall u, fun u _ => hall u⟩

/-- The number of response bits that are shifted in. -/
def ResSize.shifted (r : ResSize) : Nat := r.bits - 1

theorem ResSize.shifted_pos {r : ResSize} (h : r ≠ .none) : 0 < r.shifted ∧ r.bits = r.shifted + 1 ∧
    r.shifted < 32 * r.words ∧ r.words < 2 ^ 32 ∧ 0 < r.shifted % 32 ∧ r.words = r.shifted / 32 + 1 := by
  cases r with
  | none => exact absurd rfl h
  | short => decide
  | long => decide

/-- The bits a response wait delivers: those after the start bit, undriven lines included. -/
def Turn.captureBits (t : Turn) (res : ResSize) : List Bool := startedBits ((t.waitTicks res.bits).map Tick.cmd)

/-- A wait over the hunt: what CMD_WAIT does when its frame has gone out. -/
theorem sdCommand_hunting {cmd : BitVec 6} {param dst : Word} {res : ResSize} {s : State} (h : Sendable s)
    (hr : res ≠ .none) (ht : StillTurn s) :
    ∃ osr level, ∀ b u, awaitCapture (s.turn.waitTicks res.bits) (huntingState cmd param dst res osr level s) = (b, u) →
      sdCommand cmd param res dst s =
        if b = true ∧ (dmaRun (cseqPad u)).dma0.busy = false then
          (true, (((dmaRun (cseqPad u)).setPhase .cmdFix).setMem (respFixMem (dmaRun (cseqPad u)).mem dst res.words)).notePrefix
            (decide (cmd = 55#6) &&
              statusOk (payload ((respFixMem (dmaRun (cseqPad u)).mem dst res.words).readBytes dst 5))))
        else (false, (cmdAbort res dst (if b then dmaRun (cseqPad u) else u)).notePrefix false) := by
  obtain ⟨osr, level, hq⟩ := clkTicks_frame (cmd := cmd) (param := param) (armed := [.recv res.bits])
    (d := captureDma dst res.words s.dma0) (s := s.turnTaken) (ts := s.turn.frameTicks)
    ⟨h.clock, h.mode, h.armed, h.txf, h.rxf, h.room, h.dma⟩ (.inr rfl)
    (Turn.frameTicks_still ht.quiet ht.lead) (Turn.frameTicks_length _)
  refine ⟨osr, level, fun b u hu => ?_⟩
  have hq' : clkTicks s.turn.frameTicks
      (sendingState cmd param [.recv res.bits] (captureDma dst res.words s.dma0) s).turnTaken =
      huntingState cmd param dst res osr level s := hq
  have hturn : (sendingState cmd param [.recv res.bits] (captureDma dst res.words s.dma0) s).turn = s.turn := rfl
  have hcap : cmdCapture res (sendingState cmd param [.recv res.bits] (captureDma dst res.words s.dma0) s) =
      if b then (!(dmaRun (cseqPad u)).dma0.busy, dmaRun (cseqPad u)) else (false, u) := by
    simp only [cmdCapture, cardStep_fst, cardStep_snd, hturn, hq', hu]
  cases res with
  | none => exact absurd rfl hr
  | short =>
    simp only [sdCommand, cmdStart_response h hr, hcap]
    cases b <;> cases hb : (dmaRun (cseqPad u)).dma0.busy <;> simp [checkAt]
  | long =>
    simp only [sdCommand, cmdStart_response h hr, hcap]
    cases b <;> cases hb : (dmaRun (cseqPad u)).dma0.busy <;> simp [checkAt]

/-- The bytes RESP_FIX leaves of a capture: a 0 for the start bit, the bits, and some pad. -/
theorem respFixMem_capture {m : Memory} (h : m.wf = true) {a : Word} {W : Nat} {bits : List Bool}
    (hl : 32 * W ≤ bits.length) (ha : a.toNat + 4 * W ≤ 2 ^ 32) :
    respFixMem (m.writeWords a (packWords W bits)) a W = m.writeBytes a (wordsBytesBE (packWords W (false :: bits))) := by
  have hb : (wordsBytesLE (packWords W bits)).length = 4 * W := by simp
  have hread : (m.writeWords a (packWords W bits)).readBytes a (4 * (packWords W bits).length) =
      wordsBytesLE (packWords W bits) := by
    rw [Memory.writeWords_eq, packWords_length, ← hb]
    exact Memory.readBytes_writeBytes h (by rw [hb]; exact ha)
  have hwords := Memory.readWords_eq hread
  rw [packWords_length] at hwords
  rw [respFixMem, hwords, fixWords_packWords _ _ hl, Memory.writeWords_eq, Memory.writeWords_eq,
    wordsBytesLE_map_bswap32, Memory.writeBytes_writeBytes h (by simp) (by rw [hb]; exact ha)]
  simp

/-- SD_COMMAND when enough bits follow a start bit before the deadline: true, the bits in memory (R193, R196). -/
theorem sdCommand_captured {cmd : BitVec 6} {param dst : Word} {res : ResSize} {s : State} (h : Sendable s)
    (hm : s.mem.wf = true) (hr : res ≠ .none) (ht : StillTurn s) (ha : dst.toNat + 4 * res.words ≤ 2 ^ 32)
    (hc : res.shifted ≤ (s.turn.captureBits res).length) :
    let got := false :: (s.turn.captureBits res).take res.shifted ++ (wordBits s.drawValue).take (32 - res.shifted % 32)
    let m := (frameMem cmd param s).writeBytes dst (wordsBytesBE (packWords res.words got))
    ∃ osr isr level, sdCommand cmd param res dst s = (true, { s.drawn with
      phase := .cmdFix, mem := m, crc7Reg := crc7Reg (frameHead cmd param)
      cseq := { s.cseq with
        bitsLeft := 0, osr := osr, osrCount := 0, isr := isr, isrCount := 0, dir := .input, level := level }
      dma0 := { captureDma dst res.words s.dma0 with
        dst := .mem (dst + BitVec.ofNat 32 (4 * res.words)), count := 0#32, busy := false }
      history := frameEvents cmd param ++ s.history, card := s.card.tail
      appPrefix := decide (cmd = 55#6) && statusOk (payload (m.readBytes dst 5)) }) := by
  intro got m
  obtain ⟨hN, hbits, hlt, hW32, hmod, hW⟩ := ResSize.shifted_pos hr
  obtain ⟨osr, level, hsd⟩ := sdCommand_hunting (cmd := cmd) (param := param) (dst := dst) h hr ht
  have hcap := huntingState_capturing (cmd := cmd) (param := param) (dst := dst) (osr := osr) (res := res) (level := level) h
  have haw := awaitCapture_hunt (N := res.shifted) hcap (ts := s.turn.waitTicks res.bits)
    (Turn.waitTicks_still ht.quiet ht.ticks) rfl hbits hN hlt hW32
  rw [if_pos (by exact hc)] at haw
  have hend := capture_end (N := res.shifted) (done := (s.turn.captureBits res).take res.shifted) hcap
    (by rw [List.length_take]; omega) hmod hW
  have := hsd _ _ haw
  rw [show startedBits ((s.turn.waitTicks res.bits).map Tick.cmd) = s.turn.captureBits res from rfl, hend] at this
  have hdv : (huntingState cmd param dst res osr level s).drawValue = s.drawValue := rfl
  have hfm : (frameMem cmd param s).wf = true := Memory.wf_writeBytes hm _ _
  have hfix : respFixMem ((frameMem cmd param s).writeWords dst (packWords res.words
        ((s.turn.captureBits res).take res.shifted ++ (wordBits s.drawValue).take (32 - res.shifted % 32)))) dst res.words =
      m := by
    rw [respFixMem_capture hfm _ ha]
    · rfl
    · rw [List.length_append, List.length_take, List.length_take, wordBits_length]
      omega
  have hdr : (huntingState cmd param dst res osr level s).drawn =
      { huntingState cmd param dst res osr level s with free := s.drawn.free, freeCount := s.drawn.freeCount } := by
    unfold State.drawn
    cases hf : s.free <;> simp [huntingState, hf]
  rw [hdv, hdr] at this
  refine ⟨osr, shiftBits s.cseq.isr ((s.turn.captureBits res).take res.shifted ++
    (wordBits s.drawValue).take (32 - res.shifted % 32)), level, ?_⟩
  rw [this, if_pos ⟨rfl, rfl⟩]
  simp [huntingState, hfix, State.setPhase, State.setMem, State.notePrefix, h.mode, h.armed, h.txf, m]

/-! ## The abort -/

/-- Scrambling hides what was written at the start of its extent before. -/
theorem scramble_over {s : State} (hm : s.mem.wf = true) {a : Word} {n : Nat} {ws : List Word} (hl : ws.length ≤ n)
    (ha : a.toNat + 4 * n ≤ 2 ^ 32) : (s.setMem (s.mem.writeWords a ws)).scramble a n = s.scramble a n := by
  induction n generalizing s a ws with
  | zero =>
    have : ws = [] := List.length_eq_zero_iff.1 (by omega)
    subst this; rfl
  | succ n ih =>
    cases ws with
    | nil => rfl
    | cons w ws =>
      have hd : (s.setMem (s.mem.writeWords a (w :: ws))).drawn = s.drawn.setMem (s.mem.writeWords a (w :: ws)) := by
        unfold State.drawn; cases hf : s.free <;> simp [State.setMem, hf]
      have hv : (s.setMem (s.mem.writeWords a (w :: ws))).drawValue = s.drawValue := rfl
      simp only [List.length_cons] at hl
      rw [State.scramble, State.scramble, hd, hv]
      by_cases hn : n = 0
      · subst hn
        have : ws = [] := List.length_eq_zero_iff.1 (by omega)
        subst this
        simp only [State.scramble, State.setMem_mem, Memory.writeWords, Memory.writeWord]
        rw [Memory.writeBytes_writeBytes hm (by simp) (by simp; omega)]
        rfl
      · have ha4 : (a + 4#32).toNat = a.toNat + 4 := word_add_toNat (n := 4) (by omega)
        have hmem : (s.mem.writeWords a (w :: ws)).writeWord a s.drawValue =
            ((s.mem.writeWord a s.drawValue).writeWords (a + 4#32) ws) := by
          rw [Memory.writeWords, Memory.writeWords_eq, Memory.writeWords_eq, Memory.writeWord, Memory.writeWord, Memory.writeWord,
            Memory.writeBytes_comm (Memory.wf_writeBytes hm _ _) (by rw [ha4, wordsBytesLE_length]; omega)
              (by simp; omega) (by rw [ha4, wordsBytesLE_length, wordBytesLE_length]; omega),
            Memory.writeBytes_writeBytes hm (by simp) (by simp; omega)]
        have := ih (s := s.drawn.setMem (s.mem.writeWord a s.drawValue)) (a := a + 4#32) (ws := ws)
          (by simpa using Memory.wf_writeWord hm _ _) (by omega) (by omega)
        rw [← this, State.setMem_mem, hmem]
        rfl

/-- SD_COMMAND when not enough bits follow a start bit before the deadline: false, CMD_TIMEOUT, the response buffer
unspecified (R193, R195, R80). -/
theorem sdCommand_failed {cmd : BitVec 6} {param dst : Word} {res : ResSize} {s : State} (h : Sendable s)
    (hm : s.mem.wf = true) (hr : res ≠ .none) (ht : StillTurn s) (ha : dst.toNat + 4 * res.words ≤ 2 ^ 32)
    (hc : (s.turn.captureBits res).length < res.shifted) :
    ∃ osr isr level d ws free freeCount, ws.length = res.words ∧ d.busy = false ∧
      d.claimed = s.dma0.claimed ∧ d.chain = .none ∧
      sdCommand cmd param res dst s = (false, { s with
        phase := .cmdAbort, mem := (frameMem cmd param s).writeWords dst ws, crc7Reg := crc7Reg (frameHead cmd param)
        cseq := { s.cseq with
          bitsLeft := 0, osr := osr, osrCount := 0, isr := isr, isrCount := 0, dir := .input, level := level }
        dma0 := d, history := frameEvents cmd param ++ s.history, card := s.card.tail, lastFailure := some .cmdTimeout
        appPrefix := false, free := free, freeCount := freeCount }) := by
  obtain ⟨hN, hbits, hlt, hW32, hmod, hW⟩ := ResSize.shifted_pos hr
  obtain ⟨osr, level, hsd⟩ := sdCommand_hunting (cmd := cmd) (param := param) (dst := dst) h hr ht
  have hcap := huntingState_capturing (cmd := cmd) (param := param) (dst := dst) (osr := osr) (res := res) (level := level) h
  have haw := awaitCapture_hunt (N := res.shifted) hcap (ts := s.turn.waitTicks res.bits)
    (Turn.waitTicks_still ht.quiet ht.ticks) rfl hbits hN hlt hW32
  rw [show startedBits ((s.turn.waitTicks res.bits).map Tick.cmd) = s.turn.captureBits res from rfl,
    if_neg (by omega)] at haw
  have hfm : (frameMem cmd param s).wf = true := Memory.wf_writeBytes hm _ _
  rcases haw with haw | haw
  · have := hsd _ _ haw
    rw [if_neg (by simp)] at this
    simp only [Bool.false_eq_true, if_false] at this
    obtain ⟨ws, f, c, hl, hs⟩ := scramble_spec
      (((((huntingState cmd param dst res osr level s).setPhase .cmdAbort).setDma0
        (huntingState cmd param dst res osr level s).dma0.abort)).setCseq
        (huntingState cmd param dst res osr level s).cseq.clearRx.forceWait) dst res.words
    refine ⟨osr, s.cseq.isr, level, (huntingState cmd param dst res osr level s).dma0.abort, ws, f, c, hl, rfl,
      rfl, rfl, ?_⟩
    rw [this, cmdAbort]
    simp only [State.setDma0_cseq, State.setPhase_cseq]
    rw [hs]
    simp [huntingState, Seq.clearRx, Seq.forceWait, State.setPhase, State.setDma0, State.setCseq, State.raise,
      State.notePrefix, h.mode, h.armed, h.txf, h.rxf]
  · have := hsd _ _ haw
    rw [if_neg (by simp)] at this
    simp only [Bool.false_eq_true, if_false] at this
    have hover := scramble_over
      (s := { (((((huntingState cmd param dst res osr level s).setPhase .cmdAbort).setDma0
        (captured (huntingState cmd param dst res osr level s) dst res.words res.shifted
          (s.turn.captureBits res)).dma0.abort)).setCseq
        (captured (huntingState cmd param dst res osr level s) dst res.words res.shifted
          (s.turn.captureBits res)).cseq.clearRx.forceWait) with mem := frameMem cmd param s }) (a := dst) (n := res.words)
      (ws := packWords ((s.turn.captureBits res).length / 32) (s.turn.captureBits res)) hfm (by simp; omega) ha
    obtain ⟨ws, f, c, hl, hs⟩ := scramble_spec
      ({ (((((huntingState cmd param dst res osr level s).setPhase .cmdAbort).setDma0
        (captured (huntingState cmd param dst res osr level s) dst res.words res.shifted
          (s.turn.captureBits res)).dma0.abort)).setCseq
        (captured (huntingState cmd param dst res osr level s) dst res.words res.shifted
          (s.turn.captureBits res)).cseq.clearRx.forceWait) with mem := frameMem cmd param s } : State) dst res.words
    refine ⟨osr, shiftBits s.cseq.isr (s.turn.captureBits res), level,
      (captured (huntingState cmd param dst res osr level s) dst res.words res.shifted
          (s.turn.captureBits res)).dma0.abort, ws, f, c, hl, rfl, rfl, rfl, ?_⟩
    rw [this, cmdAbort]
    have e : ((((captured (huntingState cmd param dst res osr level s) dst res.words res.shifted
          (s.turn.captureBits res)).setPhase .cmdAbort).setDma0
        (captured (huntingState cmd param dst res osr level s) dst res.words res.shifted
          (s.turn.captureBits res)).dma0.abort).setCseq
        (captured (huntingState cmd param dst res osr level s) dst res.words res.shifted
          (s.turn.captureBits res)).cseq.clearRx.forceWait) =
        ({ (((((huntingState cmd param dst res osr level s).setPhase .cmdAbort).setDma0
        (captured (huntingState cmd param dst res osr level s) dst res.words res.shifted
          (s.turn.captureBits res)).dma0.abort)).setCseq
        (captured (huntingState cmd param dst res osr level s) dst res.words res.shifted
          (s.turn.captureBits res)).cseq.clearRx.forceWait) with mem := frameMem cmd param s } : State).setMem
          ((frameMem cmd param s).writeWords dst
            (packWords ((s.turn.captureBits res).length / 32) (s.turn.captureBits res))) := by
      simp [captured, huntingState, State.setPhase, State.setDma0, State.setCseq, State.setMem]
    simp only [State.setDma0_cseq, State.setPhase_cseq]
    rw [e]
    rw [show (frameMem cmd param s) = ({ (((((huntingState cmd param dst res osr level s).setPhase .cmdAbort).setDma0
        (captured (huntingState cmd param dst res osr level s) dst res.words res.shifted
          (s.turn.captureBits res)).dma0.abort)).setCseq
        (captured (huntingState cmd param dst res osr level s) dst res.words res.shifted
          (s.turn.captureBits res)).cseq.clearRx.forceWait) with mem := frameMem cmd param s } : State).mem from rfl,
      hover, hs]
    simp [captured, huntingState, Seq.clearRx, Seq.forceWait, State.setPhase, State.setDma0, State.setCseq, State.raise,
      State.notePrefix, h.mode, h.armed, h.txf, h.rxf, show ¬ ((s.turn.captureBits res).length = res.shifted) by omega]

/-! ## An answer, and silence -/

theorem ResSize.bytes_bits {r : ResSize} (h : r ≠ .none) : r.bits = 8 * r.bytes ∧ r.bytes ≤ 4 * r.words ∧
    8 * r.bytes + (32 - r.shifted % 32) = 32 * r.words + 1 ∧ 6 ≤ r.bytes := by
  cases r with
  | none => exact absurd rfl h
  | short => decide
  | long => decide

theorem startedBits_answer (latency : Nat) {bits : List Bool} (more : List Bool) (h : bits.head? = some false) :
    startedBits (List.replicate latency true ++ (bits ++ more)) = bits.drop 1 ++ more := by
  induction latency with
  | zero =>
    cases bits with
    | nil => simp at h
    | cons b bs =>
      simp only [List.head?_cons, Option.some.injEq] at h
      subst h
      rfl
  | succ n ih => simpa [startedBits, List.replicate_succ] using ih

theorem startedBits_quiet (n : Nat) : startedBits (List.replicate n true) = [] := by
  induction n with
  | zero => rfl
  | succ n ih => simp [startedBits]

theorem bytesBits_head {r : List Byte} (hl : r ≠ []) (h : (r.headD 0#8).getLsbD 7 = false) :
    (bytesBits r).head? = some false := by
  cases r with
  | nil => exact absurd rfl hl
  | cons b bs => simpa [bytesBits_cons, byteBits] using h

theorem Turn.captureBits_answer {latency : Nat} {r : List Byte} {res : ResSize} (hl : r ≠ [])
    (h : (r.headD 0#8).getLsbD 7 = false) :
    (Turn.answer latency r).captureBits res = (bytesBits r).drop 1 ++ List.replicate res.bits true := by
  have : ((Turn.answer latency r).waitTicks res.bits).map Tick.cmd =
      List.replicate latency true ++ (bytesBits r ++ List.replicate res.bits true) := by
    simp [Turn.waitTicks, Turn.answer, answerTicks, Tick.quiet, Function.comp_def, Tick.onCmd]
  rw [Turn.captureBits, this, startedBits_answer _ _ (bytesBits_head hl h)]

theorem answer_still {q : Seq} (hq : DseqStill q Tick.quiet) {s : State} {latency : Nat} {r : List Byte} {rest : List Turn}
    (hd : s.dseq = q) (hc : s.card = Turn.answer latency r :: rest) : StillTurn s := by
  have ht : s.turn = Turn.answer latency r := by simp [State.turn, hc]
  subst hd
  refine ⟨hq, ?_, ?_⟩
  · rw [ht]; intro u hu; simp [Turn.answer] at hu
  · rw [ht]
    intro u hu
    simp only [Turn.answer, answerTicks, List.mem_append, List.mem_replicate, List.mem_map] at hu
    rcases hu with ⟨_, rfl⟩ | ⟨b, _, rfl⟩
    · exact hq
    · rcases hq with hq | hq | ⟨hq, _⟩
      · exact .inl hq
      · exact .inr (.inl hq)
      · exact .inr (.inr ⟨hq, by simp [Tick.onCmd]⟩)

/-- SD_COMMAND answered in time (R191): true, the response in memory byte for byte, then unspecified bytes (R32). -/
theorem sdCommand_answered {cmd : BitVec 6} {param dst : Word} {res : ResSize} {s : State} {latency : Nat} {r : List Byte}
    {rest : List Turn} (h : Sendable s) (hm : s.mem.wf = true) (hr : res ≠ .none) (hq : DseqStill s.dseq Tick.quiet)
    (hc : s.card = Turn.answer latency r :: rest) (hl : r.length = res.bytes) (hs : (r.headD 0#8).getLsbD 7 = false)
    (ha : dst.toNat + 4 * res.words ≤ 2 ^ 32) :
    ∃ osr isr level pad, pad.length = 4 * res.words - res.bytes ∧ sdCommand cmd param res dst s = (true, { s.drawn with
      phase := .cmdFix, mem := (frameMem cmd param s).writeBytes dst (r ++ pad), crc7Reg := crc7Reg (frameHead cmd param)
      cseq := { s.cseq with
        bitsLeft := 0, osr := osr, osrCount := 0, isr := isr, isrCount := 0, dir := .input, level := level }
      dma0 := { captureDma dst res.words s.dma0 with
        dst := .mem (dst + BitVec.ofNat 32 (4 * res.words)), count := 0#32, busy := false }
      history := frameEvents cmd param ++ s.history, card := rest
      appPrefix := decide (cmd = 55#6) && statusOk (payload r) }) := by
  obtain ⟨hN, hbits, hlt, hW32, hmod, hW⟩ := ResSize.shifted_pos hr
  obtain ⟨h8, h4, h33, h6⟩ := ResSize.bytes_bits hr
  have hne : r ≠ [] := by intro he; rw [he] at hl; simp at hl; omega
  have ht : s.turn = Turn.answer latency r := by simp [State.turn, hc]
  have hb := Turn.captureBits_answer (latency := latency) (res := res) hne hs
  obtain ⟨osr, isr, level, he⟩ := sdCommand_captured (cmd := cmd) (param := param) h hm hr (answer_still hq rfl hc) ha
    (by rw [ht, hb]; simp; omega)
  have htake : (s.turn.captureBits res).take res.shifted = (bytesBits r).drop 1 := by
    rw [ht, hb, List.take_append_of_le_length (by simp; omega), List.take_of_length_le (by simp; omega)]
  have hcons : false :: (bytesBits r).drop 1 = bytesBits r := by
    have := bytesBits_head hne hs
    cases hbr : bytesBits r with
    | nil => rw [hbr] at this; simp at this
    | cons b bs =>
      rw [hbr] at this
      simp only [List.head?_cons, Option.some.injEq] at this
      rw [this]; rfl
  obtain ⟨pad, hpl, hpb⟩ := exists_bytesBits (n := 4 * res.words - res.bytes)
    (bs := (wordBits s.drawValue).take (31 - res.shifted % 32)) (by simp; omega)
  have hbytes : wordsBytesBE (packWords res.words (false :: (s.turn.captureBits res).take res.shifted ++
      (wordBits s.drawValue).take (32 - res.shifted % 32))) = r ++ pad := by
    rw [htake, hcons]
    have hsplit : (wordBits s.drawValue).take (32 - res.shifted % 32) =
        (wordBits s.drawValue).take (31 - res.shifted % 32) ++
          ((wordBits s.drawValue).take (32 - res.shifted % 32)).drop (31 - res.shifted % 32) := by
      conv_lhs => rw [← List.take_append_drop (31 - res.shifted % 32)
        ((wordBits s.drawValue).take (32 - res.shifted % 32))]
      rw [List.take_take, show min (31 - res.shifted % 32) (32 - res.shifted % 32) = 31 - res.shifted % 32 by omega]
    rw [hsplit, ← List.append_assoc, packWords_append _ (by simp; omega), ← hpb, ← bytesBits_append]
    exact wordsBytesBE_packWords (by simp; omega)
  rw [hbytes] at he
  have hlen : (r ++ pad).length = 4 * res.words := by simp; omega
  have hpay : payload (((frameMem cmd param s).writeBytes dst (r ++ pad)).readBytes dst 5) = payload r := by
    rw [Memory.readBytes_writeBytes_take (m := frameMem cmd param s) (Memory.wf_writeBytes hm _ _)
      (by rw [hlen]; exact ha) (by rw [hlen]; omega), List.take_append_of_le_length (by omega)]
    simp [payload, List.getD_eq_getElem?_getD]
  rw [hpay] at he
  exact ⟨osr, isr, level, pad, hpl, by rw [he, hc]; rfl⟩

/-- The card gives no response in the next wait: it has nothing more to say, or its Turn says so. -/
def NoAnswer (n : Nat) (card : List Turn) : Prop := card = [] ∨ ∃ t, card = t :: card.tail ∧ Unanswers n t

theorem NoAnswer.cons {n : Nat} {t : Turn} {rest : List Turn} (h : Unanswers n t) : NoAnswer n (t :: rest) :=
  .inr ⟨t, rfl, h⟩

theorem NoAnswer.turn {res : ResSize} {s : State} (h : NoAnswer res.bits s.card) (hr : res ≠ .none)
    (hq : DseqStill s.dseq Tick.quiet) : StillTurn s ∧ (s.turn.captureBits res).length < res.shifted := by
  obtain ⟨hN, hb, -⟩ := ResSize.shifted_pos hr
  have quiet : s.turn.lead = [] → s.turn.ticks = [] → StillTurn s ∧ (s.turn.captureBits res).length < res.shifted := by
    intro h1 h2
    refine ⟨⟨hq, by simp [h1], by simp [h2]⟩, ?_⟩
    have : (s.turn.waitTicks res.bits).map Tick.cmd = List.replicate (if s.turn.expired then 0 else res.bits) true := by
      unfold Turn.waitTicks
      split <;> simp [h2, Tick.quiet]
    rw [Turn.captureBits, this, startedBits_quiet]
    exact hN
  rcases h with h | ⟨t, h, hu⟩
  · have ht : s.turn = ⟨[], [], false, false⟩ := by rw [State.turn, h]
    exact quiet (by rw [ht]) (by rw [ht])
  · have ht : s.turn = t := by rw [State.turn, h]
    cases hu with
    | silent => exact quiet (by rw [ht]; rfl) (by rw [ht]; rfl)
    | cutOff latency bits hl =>
      refine ⟨⟨hq, by rw [ht]; simp [Turn.cutOff], ?_⟩, ?_⟩
      · rw [ht]
        intro u hu
        simp only [Turn.cutOff, List.mem_append, List.mem_replicate, List.mem_map] at hu
        rcases hu with ⟨_, rfl⟩ | ⟨b, _, rfl⟩
        · exact hq
        · rcases hq with hq | hq | ⟨hq, _⟩
          · exact .inl hq
          · exact .inr (.inl hq)
          · exact .inr (.inr ⟨hq, by simp [Tick.onCmd]⟩)
      · have : ((Turn.cutOff latency bits).waitTicks res.bits).map Tick.cmd =
            List.replicate latency true ++ ((false :: bits) ++ []) := by
          simp [Turn.waitTicks, Turn.cutOff, Tick.quiet, Tick.onCmd, Function.comp_def]
        rw [ht, Turn.captureBits, this, startedBits_answer _ _ rfl]
        simp; omega

/-- SD_COMMAND with a card that gives no response (R193, R195). -/
theorem sdCommand_unanswered {cmd : BitVec 6} {param dst : Word} {res : ResSize} {s : State} (h : Sendable s)
    (hm : s.mem.wf = true) (hr : res ≠ .none) (hq : DseqStill s.dseq Tick.quiet) (hc : NoAnswer res.bits s.card)
    (ha : dst.toNat + 4 * res.words ≤ 2 ^ 32) :
    ∃ osr isr level d ws free freeCount, ws.length = res.words ∧ d.busy = false ∧
      d.claimed = s.dma0.claimed ∧ d.chain = .none ∧
      sdCommand cmd param res dst s = (false, { s with
        phase := .cmdAbort, mem := (frameMem cmd param s).writeWords dst ws, crc7Reg := crc7Reg (frameHead cmd param)
        cseq := { s.cseq with
          bitsLeft := 0, osr := osr, osrCount := 0, isr := isr, isrCount := 0, dir := .input, level := level }
        dma0 := d, history := frameEvents cmd param ++ s.history, card := s.card.tail, lastFailure := some .cmdTimeout
        appPrefix := false, free := free, freeCount := freeCount }) :=
  sdCommand_failed h hm hr (hc.turn hr hq).1 ha (hc.turn hr hq).2

end Sys2Proof.Machine
end

