-- ==== Sys2Proof/Laws/Own.lean ====
section
/-! SUPPORT. A command of the engine's own (spec/43_command_response.md R191, R201): its response lands in the engine's
buffer, and the block is as it was but for what is named here. -/

namespace Sys2Proof.Machine

/-! ## The engine's storage -/

/-- Where the engine's buffers lie. -/
structure StorageAt (c : Config) : Prop where
  frame  : c.frameAddr.toNat = c.storageBase.toNat
  resp   : c.respAddr.toNat = c.storageBase.toNat + 8
  sw     : c.swAddr.toNat = c.storageBase.toNat + 0x20
  crcBuf : c.crcBufAddr.toNat = c.storageBase.toNat + 0x100
  table  : c.tableAddr.toNat = c.storageBase.toNat + 0x108
  fits   : c.storageBase.toNat + 0x310 ≤ 2 ^ 32
  pos    : 0 < c.storageBase.toNat

theorem storageAt_of_wf {c : Config} (h : c.wf) : StorageAt c := by
  obtain ⟨-, -, hb, -, hz, hf⟩ := h
  have hp : 2 ^ c.addrBits ≤ 2 ^ 32 := Nat.pow_le_pow_right (by decide) hb
  have hs : storageSize = 0x310 := rfl
  rw [hs] at hf
  refine ⟨rfl, ?_, ?_, ?_, ?_, by omega, hz⟩
  · exact word_add_toNat (n := 8) (by omega)
  · exact word_add_toNat (n := 0x20) (by omega)
  · exact word_add_toNat (n := 0x100) (by omega)
  · exact word_add_toNat (n := 0x108) (by omega)

/-! ## Sequencers at rest -/

/-- A sequencer brought back to rest from `q₀`. -/
structure SeqRest (q₀ q : Seq) : Prop where
  mode     : q.mode = .wait
  bitsLeft : q.bitsLeft = 0
  armed    : q.armed = []
  osrCount : q.osrCount = 0
  isrCount : q.isrCount = 0
  txf      : q.txf = []
  rxf      : q.rxf = []
  dir      : q.dir = .input
  owner    : q.owner = q₀.owner

theorem SeqRest.trans {p q r : Seq} (h : SeqRest p q) (k : SeqRest q r) : SeqRest p r :=
  ⟨k.mode, k.bitsLeft, k.armed, k.osrCount, k.isrCount, k.txf, k.rxf, k.dir, k.owner.trans h.owner⟩

theorem drawn_eq (s : State) : s.drawn = { s with free := s.drawn.free, freeCount := s.drawn.freeCount } := by
  unfold State.drawn; cases s.free <;> rfl

/-! ## An answered command -/

/-- Memory after an answered command of the engine's own: the frame, the response, unspecified bytes (R31, R32). -/
def ownMem (cmd : BitVec 6) (param : Word) (c : Config) (r pad : List Byte) (m : Memory) : Memory :=
  (m.writeBytes c.frameAddr (frameBytes cmd param)).writeBytes c.respAddr (r ++ pad)

/-- The state after an answered command of the engine's own. -/
def ownState (cmd : BitVec 6) (param : Word) (cq : Seq) (d : Dma0) (f : List Word) (fc : Nat) (m : Memory)
    (rest : List Turn) (app : Bool) (s : State) : State :=
  { s with
    phase := .cmdFix, cseq := cq, dma0 := d, free := f, freeCount := fc, crc7Reg := crc7Reg (frameHead cmd param)
    history := frameEvents cmd param ++ s.history, card := rest, appPrefix := app, mem := m }

theorem sdCommand_own {cmd : BitVec 6} {param : Word} {res : ResSize} {s : State} {latency : Nat} {r : List Byte}
    {rest : List Turn} (h : Sendable s) (hm : s.mem.wf = true) (hcfg : s.cfg.wf)
    (hr : res ≠ .none) (hq : DseqStill s.dseq Tick.quiet) (hc : s.card = Turn.answer latency r :: rest)
    (hl : r.length = res.bytes) (hs : (r.headD 0#8).getLsbD 7 = false) :
    ∃ cq d f fc pad, SeqRest s.cseq cq ∧ d.busy = false ∧ d.claimed = s.dma0.claimed ∧
      pad.length = 4 * res.words - res.bytes ∧
      sdCommand cmd param res s.cfg.respAddr s = (true, ownState cmd param cq d f fc (ownMem cmd param s.cfg r pad s.mem) rest
        (decide (cmd = 55#6) && statusOk (payload r)) s) := by
  have hst := storageAt_of_wf hcfg
  have := hst.resp; have := hst.fits
  have hw : 4 * res.words ≤ 20 := by cases res <;> decide
  obtain ⟨osr, isr, level, pad, hpl, he⟩ := sdCommand_answered (cmd := cmd) (param := param) (dst := s.cfg.respAddr) h hm hr
    hq hc hl hs (by omega)
  rw [drawn_eq] at he
  refine ⟨{ s.cseq with
      bitsLeft := 0, osr := osr, osrCount := 0, isr := isr, isrCount := 0, dir := .input, level := level },
    { captureDma s.cfg.respAddr res.words s.dma0 with
      dst := .mem (s.cfg.respAddr + BitVec.ofNat 32 (4 * res.words)), count := 0#32, busy := false },
    s.drawn.free, s.drawn.freeCount, pad, ⟨h.mode, rfl, h.armed, rfl, rfl, h.txf, h.rxf, rfl, rfl⟩, rfl, rfl, hpl, ?_⟩
  rw [he]; rfl

/-- What the engine reads back of the response. -/
theorem ownMem_response {cmd : BitVec 6} {param : Word} {c : Config} {r pad : List Byte} {m : Memory} (hm : m.wf = true)
    (hc : c.wf) {n : Nat} (hn : n ≤ r.length) (hl : (r ++ pad).length ≤ 24) :
    (ownMem cmd param c r pad m).readBytes c.respAddr n = r.take n := by
  have hst := storageAt_of_wf hc
  have := hst.resp; have := hst.fits
  rw [ownMem, Memory.readBytes_writeBytes_take (Memory.wf_writeBytes hm _ _) (by omega) (by rw [List.length_append]; omega),
    List.take_append_of_le_length hn]

theorem ownMem_wf {cmd : BitVec 6} {param : Word} {c : Config} {r pad : List Byte} {m : Memory} (hm : m.wf = true) :
    (ownMem cmd param c r pad m).wf = true := Memory.wf_writeBytes (Memory.wf_writeBytes hm _ _) _ _

/-- Nothing outside the frame and response buffers changes. -/
theorem ownMem_read {cmd : BitVec 6} {param : Word} {c : Config} {r pad : List Byte} {m : Memory} (hm : m.wf = true)
    (hc : c.wf) (hl : (r ++ pad).length ≤ 24) {x : Nat} (hx : ¬ inHead c x) :
    (ownMem cmd param c r pad m).read x = m.read x := by
  have hst := storageAt_of_wf hc
  have := hst.resp; have := hst.fits; have := hst.frame
  unfold inHead at hx
  rw [ownMem, Memory.read_writeBytes (Memory.wf_writeBytes hm _ _) (by omega), if_neg (by omega),
    Memory.read_writeBytes hm (by simp; omega), if_neg (by simp; omega)]

theorem payload_take {r : List Byte} {n : Nat} (h : 5 ≤ n) : payload (r.take n) = payload r := by
  simp [payload, List.getD_eq_getElem?_getD, List.getElem?_take_of_lt (show 1 < n by omega),
    List.getElem?_take_of_lt (show 2 < n by omega), List.getElem?_take_of_lt (show 3 < n by omega),
    List.getElem?_take_of_lt (show 4 < n by omega)]

/-- A command of the engine's own with a 48-bit response, answered. -/
theorem ownCommand_answered {cmd : BitVec 6} {param : Word} {s : State} {latency : Nat} {r : List Byte}
    {rest : List Turn} (h : Sendable s) (hm : s.mem.wf = true) (hcfg : s.cfg.wf)
    (hq : DseqStill s.dseq Tick.quiet) (hc : s.card = Turn.answer latency r :: rest)
    (hl : r.length = 6) (hs : (r.headD 0#8).getLsbD 7 = false) :
    ∃ cq d f fc pad, SeqRest s.cseq cq ∧ d.busy = false ∧ d.claimed = s.dma0.claimed ∧ pad.length = 2 ∧
      ownCommand cmd param s = (true, ownState cmd param cq d f fc (ownMem cmd param s.cfg r pad s.mem) rest
        (decide (cmd = 55#6) && statusOk (payload r)) s) :=
  sdCommand_own (res := .short) h hm hcfg (by decide) hq hc hl hs

theorem ownState_checkAt {cmd : BitVec 6} {param : Word} {cq : Seq} {d : Dma0} {f : List Word} {fc : Nat}
    {r pad : List Byte} {rest : List Turn} {app : Bool} {s : State} (hm : s.mem.wf = true) (hcfg : s.cfg.wf)
    (hl : r.length = 6) (hp : pad.length = 2) :
    checkAt (ownState cmd param cq d f fc (ownMem cmd param s.cfg r pad s.mem) rest app s) s.cfg.respAddr =
      statusOk (payload r) := by
  unfold checkAt ownState
  simp only
  rw [ownMem_response hm hcfg (by omega) (by simp; omega), payload_take (by omega)]

/-- A checked command, answered with a status that passes (R201). -/
theorem checkedCommand_answered {cmd : BitVec 6} {param : Word} {s : State} {latency : Nat} {r : List Byte}
    {rest : List Turn} (h : Sendable s) (hm : s.mem.wf = true) (hcfg : s.cfg.wf)
    (hq : DseqStill s.dseq Tick.quiet) (hc : s.card = Turn.answer latency r :: rest)
    (hl : r.length = 6) (hs : (r.headD 0#8).getLsbD 7 = false) (hok : statusOk (payload r) = true) :
    ∃ cq d f fc pad, SeqRest s.cseq cq ∧ d.busy = false ∧ d.claimed = s.dma0.claimed ∧ pad.length = 2 ∧
      checkedCommand cmd param s = (true, ownState cmd param cq d f fc (ownMem cmd param s.cfg r pad s.mem) rest
        (decide (cmd = 55#6)) s) := by
  obtain ⟨cq, d, f, fc, pad, hcq, hd, hdc, hp, he⟩ := ownCommand_answered (cmd := cmd) (param := param) h hm hcfg hq hc hl hs
  refine ⟨cq, d, f, fc, pad, hcq, hd, hdc, hp, ?_⟩
  unfold checkedCommand
  rw [he, hok]
  simp only [if_true, Bool.and_true]
  have hcfg' : (ownState cmd param cq d f fc (ownMem cmd param s.cfg r pad s.mem) rest (decide (cmd = 55#6)) s).cfg = s.cfg := rfl
  rw [hcfg', ownState_checkAt hm hcfg hl hp, hok]
  rfl

/-- After an answered command the next one can be sent. -/
theorem ownState_sendable {cmd : BitVec 6} {param : Word} {cq : Seq} {d : Dma0} {f : List Word} {fc : Nat} {m : Memory}
    {rest : List Turn} {app : Bool} {s : State} (h : Sendable s) (hq : SeqRest s.cseq cq) (hd : d.busy = false) :
    Sendable (ownState cmd param cq d f fc m rest app s) :=
  ⟨h.clock, hq.mode, hq.armed, hq.txf, hq.rxf, h.room, hd⟩

/-! ## WAIT_NOT_BUSY -/

theorem pollTurn_busy (bounded : Bool) (n : Nat) : pollTurn bounded (Turn.busy n) = .high := by
  simp [pollTurn, Turn.busy, Tick.quiet]

/-- A poll that finds the line high ends the wait (R203). -/
theorem waitNotBusy_high {label : Phase} {s : State} (hc : pollTurn s.cfg.busyTimeout.isSome s.turn = .high)
    (ho : s.cseq.owner = .seq) : waitNotBusy label s = .done true { s with phase := label, card := s.card.tail } := by
  have hq : ({ s.cseq with owner := .seq } : Seq) = s.cseq := by rw [← ho]
  have ht : (cardStep ((s.setPhase label).setCseq { s.cseq with owner := .engine })).1 = s.turn := rfl
  unfold waitNotBusy
  simp only [ht, State.setCseq_cfg, State.setPhase_cfg, hc]
  simp only [cardStep_snd, State.turnTaken, State.setCseq, State.setPhase, hq]

/-- The line goes high after some polls (R203). -/
theorem waitNotBusy_busy {label : Phase} {s : State} {n : Nat} {rest : List Turn} (hc : s.card = Turn.busy n :: rest)
    (ho : s.cseq.owner = .seq) : waitNotBusy label s = .done true { s with phase := label, card := rest } := by
  have ht : s.turn = Turn.busy n := by rw [State.turn, hc]
  rw [waitNotBusy_high (by rw [ht]; exact pollTurn_busy _ _) ho, hc, List.tail_cons]

end Sys2Proof.Machine
end

