-- ==== Sys2Proof/Laws/Request.lean ====
section
/-! SUPPORT. Requests as `exec` runs them: accepting one (spec/60_exceptions.md R294), a command sent in it
(spec/43_command_response.md R199), and the frame of a request that only sends commands. -/

namespace Sys2Proof.Machine

/-! ## Accepting and returning -/

/-- The engine busy with a request (R294). -/
abbrev State.busy (s : State) : State := { s with done := false }

theorem accept_idle {s : State} (h : s.phase = .idle) (k : State → Run OpResult) :
    s.accept k = (k s.busy).outcome := by unfold State.accept; rw [if_pos h]

@[simp] theorem outcome_done (v : OpResult) (s : State) : (Run.done v s).outcome = .next (s.finish v) := rfl

@[simp] theorem outcome_waiting (fs : List Frame) (s : State) :
    (Run.waiting fs s : Run OpResult).outcome = .next { s with stack := fs } := rfl

@[simp] theorem outcome_refused (r : Refusal) : (Run.refused r : Run OpResult).outcome = .refused r := rfl

@[simp] theorem bool_done (b : Bool) (s : State) : (Run.done b s).bool = .done (.bool b) s := rfl

@[simp] theorem guardRun_true {α : Type} (r : Refusal) (k : Run α) : guardRun true r k = k := rfl

@[simp] theorem guardRun_false {α : Type} (r : Refusal) (k : Run α) : guardRun false r k = .refused r := rfl

theorem guardRun_of {α : Type} {ok : Bool} (h : ok = true) (r : Refusal) (k : Run α) : guardRun ok r k = k := by
  subst h; rfl

theorem Seq.programmed_of {q : Seq} (h : q.mode = .wait) : q.programmed = true := by
  unfold Seq.programmed; rw [h]; rfl

/-- A wire command on a programmed engine at rest. -/
theorem wire_of {s : State} (hi : s.phase = .idle) (hc : s.cseq.mode = .wait) (k : State → Run Bool) :
    s.wire k = (k s.busy).bool.outcome := by
  unfold State.wire
  rw [accept_idle hi, guardRun_of (Seq.programmed_of hc)]

/-! ## Ready -/

theorem State.Ready.stack {s : State} (h : s.Ready) : s.stack = [] := h.inv.idle.1 h.idle

theorem State.Ready.done {s : State} (h : s.Ready) : s.done = true := h.inv.done.2 h.stack

theorem State.Ready.sendable {s : State} (h : s.Ready) : Sendable s.busy :=
  ⟨h.clock, h.cwaits, h.cseq.armed, h.cseq.txf, h.cseq.rxf, h.cfg.2.1, h.dma0⟩

theorem State.Ready.still {s : State} (h : s.Ready) : DseqStill s.dseq Tick.quiet := Tick.quiet_still (.inl h.dwaits)

theorem State.Ready.busy_finish {s : State} (h : s.Ready) (v : OpResult) : s.busy.finish v = { s with result := v } := by
  simp [State.finish, ← h.idle, ← h.stack, ← h.done]

theorem State.Inv.busy_finish {s : State} (h : s.Inv) (hi : s.phase = .idle) (v : OpResult) :
    s.busy.finish v = { s with result := v } := by
  have hs := h.idle.1 hi
  have hd := h.done.2 hs
  simp [State.finish, ← hi, ← hs, ← hd]

theorem SeqRest.quiet {q₀ q : Seq} (h : SeqRest q₀ q) (ho : q₀.owner = .seq) : q.Quiet :=
  ⟨.inl h.mode, h.armed, h.txf, h.rxf, h.dir, h.owner.trans ho⟩

/-! ## Commands sent -/

/-- The state `u` inside a request in which, from `s`, some commands were sent: only CSEQ, DMA0, CRC7's register, memory at
`touched`, draws, the card, the history, and what the last parameters name, have changed; and the next command can be
sent. -/
structure Sent (touched : Nat → Prop) (s u : State) (x : Session) (f : Option Cause) (rest : List Turn) (a : Bool)
    (ev : List PinEvent) : Prop where
  cfg      : u.cfg = s.cfg
  session  : u.session = x
  io       : u.ioInitialised = s.ioInitialised
  valid    : u.sessionValid = s.sessionValid
  failure  : u.lastFailure = f
  lanes    : u.lanes = x.dataWidth
  kseq     : u.kseq = s.kseq
  host     : u.host = s.host
  result   : u.result = s.result
  done     : u.done = false
  stack    : u.stack = s.stack
  dseq     : u.dseq = s.dseq
  dma1     : u.dma1 = s.dma1
  crc16    : u.crc16Reg = s.crc16Reg
  cseq     : u.cseq.Quiet
  cwaits   : u.cseq.mode = .wait
  dma0     : u.dma0.busy = false
  claimed0 : u.dma0.claimed = s.dma0.claimed
  wf       : u.mem.wf = true
  mem      : ∀ x, ¬ touched x → u.mem.read x = s.mem.read x
  card     : u.card = rest
  app      : u.appPrefix = a
  history  : u.history = ev ++ s.history

/-- What a request that sends commands starts from: CSEQ's and DMA0's part is in `Sent`. -/
structure SendBase (s : State) : Prop where
  dseq   : s.dseq.Quiet
  dwaits : s.dseq.mode = .wait
  dma1   : s.dma1.busy = false
  clock  : s.kseq.running = true
  cfg    : s.cfg.wf

theorem State.Ready.base {s : State} (h : s.Ready) : SendBase s := ⟨h.dseq, h.dwaits, h.dma1, h.clock, h.cfg⟩

variable {touched : Nat → Prop} {s u t : State} {x : Session} {f : Option Cause} {rest : List Turn} {app : Bool}
  {ev : List PinEvent}

theorem Sent.start (touched : Nat → Prop) (hs : s.Ready) :
    Sent touched s s.busy s.session s.lastFailure s.card s.appPrefix [] :=
  ⟨rfl, rfl, rfl, rfl, rfl, hs.inv.lanes, rfl, rfl, rfl, rfl, rfl, rfl, rfl, rfl, hs.cseq, hs.cwaits, hs.dma0, rfl,
    hs.inv.mem, fun _ _ => rfl, rfl, rfl, rfl⟩

theorem Sent.setPhase (h : Sent touched s u x f rest app ev) (p : Phase) : Sent touched s (u.setPhase p) x f rest app ev :=
  ⟨h.cfg, h.session, h.io, h.valid, h.failure, h.lanes, h.kseq, h.host, h.result, h.done, h.stack, h.dseq, h.dma1, h.crc16,
    h.cseq, h.cwaits, h.dma0, h.claimed0, h.wf, h.mem, h.card, h.app, h.history⟩

theorem Sent.raise (h : Sent touched s u x f rest app ev) (c : Cause) :
    Sent touched s (u.raise c) x (some c) rest app ev :=
  ⟨h.cfg, h.session, h.io, h.valid, rfl, h.lanes, h.kseq, h.host, h.result, h.done, h.stack, h.dseq, h.dma1, h.crc16,
    h.cseq, h.cwaits, h.dma0, h.claimed0, h.wf, h.mem, h.card, h.app, h.history⟩

theorem Sent.setCard (h : Sent touched s u x f rest app ev) (c : List Turn) :
    Sent touched s { u with card := c } x f c app ev :=
  ⟨h.cfg, h.session, h.io, h.valid, h.failure, h.lanes, h.kseq, h.host, h.result, h.done, h.stack, h.dseq, h.dma1, h.crc16,
    h.cseq, h.cwaits, h.dma0, h.claimed0, h.wf, h.mem, rfl, h.app, h.history⟩

theorem Sent.setSession (h : Sent touched s u x f rest app ev) {y : Session} (hw : y.dataWidth = x.dataWidth) :
    Sent touched s { u with session := y } y f rest app ev :=
  ⟨h.cfg, rfl, h.io, h.valid, h.failure, h.lanes.trans hw.symm, h.kseq, h.host, h.result, h.done, h.stack, h.dseq, h.dma1,
    h.crc16, h.cseq, h.cwaits, h.dma0, h.claimed0, h.wf, h.mem, h.card, h.app, h.history⟩

theorem Sent.setWidth (h : Sent touched s u x f rest app ev) (w : Width) :
    Sent touched s (u.setWidth w) { x with dataWidth := w } f rest app ev :=
  ⟨h.cfg, by rw [← h.session]; rfl, h.io, h.valid, h.failure, rfl, h.kseq, h.host, h.result, h.done, h.stack, h.dseq,
    h.dma1, h.crc16, h.cseq, h.cwaits, h.dma0, h.claimed0, h.wf, h.mem, h.card, h.app, h.history⟩

/-- Between the commands of a request the next one can be sent. -/
theorem Sent.sendable (h : Sent touched s u x f rest app ev) (hs : SendBase s) : Sendable u :=
  ⟨by rw [h.kseq]; exact hs.clock, h.cwaits, h.cseq.armed, h.cseq.txf, h.cseq.rxf, by rw [h.cfg]; exact hs.cfg.2.1, h.dma0⟩

theorem Sent.still (h : Sent touched s u x f rest app ev) (hs : SendBase s) : DseqStill u.dseq Tick.quiet := by
  rw [h.dseq]; exact Tick.quiet_still (.inl hs.dwaits)

/-- The frame of a request that returns after sending commands. -/
theorem Sent.frame (h : Sent touched s u x f rest app ev) (hs : SendBase s) (v : OpResult) :
    CommandFrame touched s (u.finish v) :=
  ⟨⟨rfl, rfl, rfl, h.cfg, h.io, h.valid, h.lanes.trans (by rw [← h.session]; rfl), h.kseq, h.host, h.cseq, h.cwaits,
    h.dseq ▸ hs.dseq, h.dseq ▸ hs.dwaits, h.dma0, h.claimed0, h.dma1 ▸ hs.dma1, h.dma1 ▸ rfl, h.wf, h.mem⟩,
    h.dseq, h.dma1, h.crc16⟩

theorem Sent.returned (h : Sent touched s u x f rest app ev) (v : OpResult) :
    Returned (u.finish v) v x f app rest (ev ++ s.history) :=
  ⟨rfl, h.session, h.failure, h.app, h.card, h.history⟩

/-! ## One command of the engine's own -/

/-- The frame and a response area lie in the engine's head region. -/
theorem inHead_write {c : Config} {m : Memory} (hm : m.wf = true) (hc : c.wf) {cmd : BitVec 6} {param : Word} {n : Nat}
    (hn : n ≤ 5) {ws : List Word} (hl : ws.length = n) :
    ((m.writeBytes c.frameAddr (frameBytes cmd param)).writeWords c.respAddr ws).wf = true ∧
      ∀ x, ¬ inHead c x →
        ((m.writeBytes c.frameAddr (frameBytes cmd param)).writeWords c.respAddr ws).read x = m.read x := by
  have hst := storageAt_of_wf hc
  have := hst.resp; have := hst.fits; have := hst.frame
  refine ⟨Memory.wf_writeWords (Memory.wf_writeBytes hm _ _) _ _, fun x hx => ?_⟩
  unfold inHead at hx
  rw [Memory.writeWords_eq, Memory.read_writeBytes (Memory.wf_writeBytes hm _ _) (by simp; omega), if_neg (by simp; omega),
    Memory.read_writeBytes hm (by simp; omega), if_neg (by simp; omega)]

variable {cmd : BitVec 6} {param : Word} {res : ResSize} {latency : Nat} {r : List Byte}

/-- A command of the engine's own with a response, answered. -/
theorem Sent.answered (h : Sent touched s u x f (Turn.answer latency r :: rest) app ev) (hs : SendBase s)
    (ht : ∀ y, inHead s.cfg y → touched y) (hr : res ≠ .none) (hcap : Captured res.bytes r) :
    ∃ v, sdCommand cmd param res s.cfg.respAddr u = (true, v) ∧
      Sent touched s v x f rest (decide (cmd = 55#6) && statusOk (payload r)) (frameEvents cmd param ++ ev) ∧
      ∀ n ≤ res.bytes, v.mem.readBytes s.cfg.respAddr n = r.take n := by
  obtain ⟨hl, h0⟩ := hcap
  have hcfg : u.cfg.wf := by rw [h.cfg]; exact hs.cfg
  obtain ⟨cq, d, fr, fc, pad, hcq, hd, hdc, hp, he⟩ := sdCommand_own (cmd := cmd) (param := param) (res := res)
    (h.sendable hs) h.wf hcfg hr (h.still hs) h.card hl h0
  have hb := ResSize.bytes_bits hr
  have hw : 4 * res.words ≤ 20 := by cases res <;> decide
  have hlen : (r ++ pad).length ≤ 24 := by rw [List.length_append, hp, hl]; omega
  rw [h.cfg] at he
  refine ⟨_, he, ?_, fun n hn => ownMem_response h.wf hs.cfg (by omega) hlen⟩
  exact ⟨h.cfg, h.session, h.io, h.valid, h.failure, h.lanes, h.kseq, h.host, h.result, h.done, h.stack, h.dseq, h.dma1,
    h.crc16, hcq.quiet h.cseq.owner, hcq.mode, hd, hdc.trans h.claimed0, ownMem_wf h.wf,
    fun y hy => (ownMem_read h.wf hs.cfg hlen fun k => hy (ht y k)).trans (h.mem y hy), rfl, rfl, by
      show frameEvents cmd param ++ u.history = _; rw [h.history, List.append_assoc]⟩

/-- A command of the engine's own with a response, unanswered (R195). -/
theorem Sent.silent (h : Sent touched s u x f rest app ev) (hs : SendBase s) (ht : ∀ y, inHead s.cfg y → touched y)
    (hr : res ≠ .none) (hc : NoAnswer res.bits rest) :
    ∃ v, sdCommand cmd param res s.cfg.respAddr u = (false, v) ∧
      Sent touched s v x (some .cmdTimeout) rest.tail false (frameEvents cmd param ++ ev) := by
  have hst := storageAt_of_wf hs.cfg
  have := hst.resp; have := hst.fits
  have hw : res.words ≤ 5 := by cases res <;> decide
  obtain ⟨osr, isr, level, d, ws, fr, fc, hl, hd, hdc, -, he⟩ := sdCommand_unanswered (cmd := cmd) (param := param)
    (dst := s.cfg.respAddr) (res := res) (h.sendable hs) h.wf hr (h.still hs) (by rw [h.card]; exact hc) (by omega)
  obtain ⟨hwf, hread⟩ := inHead_write h.wf hs.cfg (cmd := cmd) (param := param) hw hl
  have hfm : frameMem cmd param u = u.mem.writeBytes s.cfg.frameAddr (frameBytes cmd param) := by rw [frameMem, h.cfg]
  refine ⟨_, he, ?_⟩
  exact ⟨h.cfg, h.session, h.io, h.valid, rfl, h.lanes, h.kseq, h.host, h.result, h.done, h.stack, h.dseq, h.dma1,
    h.crc16, ⟨h.cseq.mode, h.cseq.armed, h.cseq.txf, h.cseq.rxf, rfl, h.cseq.owner⟩, h.cwaits, hd, hdc.trans h.claimed0,
    by show Memory.wf (Memory.writeWords _ _ _) = true; rw [hfm]; exact hwf,
    fun y hy => by
      show Memory.read (Memory.writeWords _ _ _) y = _
      rw [hfm, hread y fun k => hy (ht y k), h.mem y hy],
    by show u.card.tail = _; rw [h.card], rfl, by
      show frameEvents cmd param ++ u.history = _; rw [h.history, List.append_assoc]⟩

/-- A command without a response (R194). -/
theorem Sent.noResponse (h : Sent touched s u x f rest app ev) (hs : SendBase s)
    (ht : ∀ y, inExtent s.cfg.frameAddr 6 y → touched y) (dst : Word) :
    ∃ v, sdCommand cmd param .none dst u = (true, v) ∧ v.dma0 = u.dma0 ∧
      Sent touched s v x f rest false (frameEvents cmd param ++ ev) := by
  have hst := storageAt_of_wf hs.cfg
  have := hst.frame; have := hst.fits
  obtain ⟨osr, level, he⟩ := sdCommand_none (cmd := cmd) (param := param) (dst := dst) (h.sendable hs) (h.still hs)
  have hfm : frameMem cmd param u = u.mem.writeBytes s.cfg.frameAddr (frameBytes cmd param) := by rw [frameMem, h.cfg]
  refine ⟨_, he, rfl, ?_⟩
  exact ⟨h.cfg, h.session, h.io, h.valid, h.failure, h.lanes, h.kseq, h.host, h.result, h.done, h.stack, h.dseq, h.dma1,
    h.crc16, ⟨h.cseq.mode, h.cseq.armed, h.cseq.txf, h.cseq.rxf, rfl, h.cseq.owner⟩, h.cwaits, h.dma0, h.claimed0,
    Memory.wf_writeBytes h.wf _ _,
    fun y hy => by
      show Memory.read (frameMem cmd param u) y = _
      rw [hfm, Memory.read_writeBytes h.wf (by simp; omega), if_neg, h.mem y hy]
      intro k; exact hy (ht y (by simpa [inExtent] using k)),
    h.card, rfl, by show frameEvents cmd param ++ u.history = _; rw [h.history, List.append_assoc]⟩

/-- The frame lies in the engine's head region. -/
theorem inHead_of_frame {c : Config} (hc : c.wf) {y : Nat} (h : inExtent c.frameAddr 6 y) : inHead c y := by
  have := (storageAt_of_wf hc).frame
  unfold inExtent at h; unfold inHead; omega

/-! ## SD_COMMAND into any buffer -/

/-- Memory outside the frame and the response extent. -/
theorem read_response {m : Memory} (hm : m.wf = true) {c : Config} (hc : c.wf) {dst : Word} {bs : List Byte} {n : Nat}
    (hl : bs.length = n) (ha : dst.toNat + n ≤ 2 ^ 32) {y : Nat}
    (hf : ¬ inExtent c.frameAddr 6 y) (hd : ¬ inExtent dst n y) :
    ((m.writeBytes c.frameAddr (frameBytes cmd param)).writeBytes dst bs).read y = m.read y := by
  have hst := storageAt_of_wf hc
  have := hst.fits; have := hst.frame
  unfold inExtent at hf hd
  rw [Memory.read_writeBytes (Memory.wf_writeBytes hm _ _) (by omega), if_neg (by omega),
    Memory.read_writeBytes hm (by simp; omega), if_neg (by simpa using hf)]

/-- A command with a response, whatever the card does in its Turn (R193, R195, R199). -/
theorem Sent.any (h : Sent touched s u x f rest app ev) (hs : SendBase s) {dst : Word}
    (ht : ∀ y, inExtent s.cfg.frameAddr 6 y ∨ inExtent dst (4 * res.words) y → touched y) (hr : res ≠ .none)
    (ha : dst.toNat + 4 * res.words ≤ 2 ^ 32) :
    ∃ b v, sdCommand cmd param res dst u = (b, v) ∧
      Sent touched s v x (if b then f else some .cmdTimeout) rest.tail v.appPrefix (frameEvents cmd param ++ ev) := by
  have hfm : frameMem cmd param u = u.mem.writeBytes s.cfg.frameAddr (frameBytes cmd param) := by rw [frameMem, h.cfg]
  have hstill : StillTurn u := .of_rest (by rw [h.dseq]; exact .inl hs.dwaits)
  by_cases hc : res.shifted ≤ (u.turn.captureBits res).length
  · obtain ⟨osr, isr, level, he⟩ := sdCommand_captured (cmd := cmd) (param := param) (h.sendable hs) h.wf hr hstill ha hc
    rw [drawn_eq] at he
    refine ⟨true, _, he, ?_⟩
    exact ⟨h.cfg, h.session, h.io, h.valid, h.failure, h.lanes, h.kseq, h.host, h.result, h.done, h.stack, h.dseq, h.dma1,
      h.crc16, ⟨.inl h.cwaits, h.cseq.armed, h.cseq.txf, h.cseq.rxf, rfl, h.cseq.owner⟩, h.cwaits, rfl, h.claimed0,
      by show Memory.wf (Memory.writeBytes _ _ _) = true; rw [hfm]; exact Memory.wf_writeBytes (Memory.wf_writeBytes h.wf _ _) _ _,
      fun y hy => by
        show Memory.read (Memory.writeBytes _ _ _) y = _
        rw [hfm, read_response h.wf hs.cfg (by simp) ha (fun k => hy (ht y (.inl k))) (fun k => hy (ht y (.inr k))), h.mem y hy],
      by show u.card.tail = _; rw [h.card], rfl, by show frameEvents cmd param ++ u.history = _; rw [h.history, List.append_assoc]⟩
  · obtain ⟨osr, isr, level, d, ws, fr, fc, hl, hd, hdc, -, he⟩ := sdCommand_failed (cmd := cmd) (param := param)
      (h.sendable hs) h.wf hr hstill ha (by omega)
    refine ⟨false, _, he, ?_⟩
    exact ⟨h.cfg, h.session, h.io, h.valid, rfl, h.lanes, h.kseq, h.host, h.result, h.done, h.stack, h.dseq, h.dma1,
      h.crc16, ⟨.inl h.cwaits, h.cseq.armed, h.cseq.txf, h.cseq.rxf, rfl, h.cseq.owner⟩, h.cwaits, hd, hdc.trans h.claimed0,
      by show Memory.wf (Memory.writeWords _ _ _) = true; rw [hfm]; exact Memory.wf_writeWords (Memory.wf_writeBytes h.wf _ _) _ _,
      fun y hy => by
        show Memory.read (Memory.writeWords _ _ _) y = _
        rw [hfm, Memory.writeWords_eq, read_response h.wf hs.cfg (by simp [hl]) ha (fun k => hy (ht y (.inl k)))
          (fun k => hy (ht y (.inr k))), h.mem y hy],
      by show u.card.tail = _; rw [h.card], rfl, by show frameEvents cmd param ++ u.history = _; rw [h.history, List.append_assoc]⟩

/-- A command with a response, answered, into any buffer (R193, R196). -/
theorem Sent.answeredAt (h : Sent touched s u x f (Turn.answer latency r :: rest) app ev) (hs : SendBase s) {dst : Word}
    (ht : ∀ y, inExtent s.cfg.frameAddr 6 y ∨ inExtent dst (4 * res.words) y → touched y) (hr : res ≠ .none)
    (ha : dst.toNat + 4 * res.words ≤ 2 ^ 32) (hcap : Captured res.bytes r) :
    ∃ v, sdCommand cmd param res dst u = (true, v) ∧
      Sent touched s v x f rest (decide (cmd = 55#6) && statusOk (payload r)) (frameEvents cmd param ++ ev) ∧
      v.mem.readBytes dst res.bytes = r := by
  have hfm : frameMem cmd param u = u.mem.writeBytes s.cfg.frameAddr (frameBytes cmd param) := by rw [frameMem, h.cfg]
  obtain ⟨hl, h0⟩ := hcap
  have hb := ResSize.bytes_bits hr
  obtain ⟨osr, isr, level, pad, hp, he⟩ := sdCommand_answered (cmd := cmd) (param := param) (h.sendable hs) h.wf hr (h.still hs)
    h.card hl h0 ha
  rw [drawn_eq] at he
  have hlen : (r ++ pad).length = 4 * res.words := by rw [List.length_append, hp, hl]; omega
  refine ⟨_, he, ?_, ?_⟩
  · exact ⟨h.cfg, h.session, h.io, h.valid, h.failure, h.lanes, h.kseq, h.host, h.result, h.done, h.stack, h.dseq, h.dma1,
      h.crc16, ⟨.inl h.cwaits, h.cseq.armed, h.cseq.txf, h.cseq.rxf, rfl, h.cseq.owner⟩, h.cwaits, rfl, h.claimed0,
      by show Memory.wf (Memory.writeBytes _ _ _) = true; rw [hfm]; exact Memory.wf_writeBytes (Memory.wf_writeBytes h.wf _ _) _ _,
      fun y hy => by
        show Memory.read (Memory.writeBytes _ _ _) y = _
        rw [hfm, read_response h.wf hs.cfg hlen ha (fun k => hy (ht y (.inl k))) (fun k => hy (ht y (.inr k))), h.mem y hy],
      rfl, rfl, by show frameEvents cmd param ++ u.history = _; rw [h.history, List.append_assoc]⟩
  · show Memory.readBytes (Memory.writeBytes _ _ _) dst _ = r
    rw [hfm, Memory.readBytes_writeBytes_take (Memory.wf_writeBytes h.wf _ _) (by omega) (by omega), ← hl, List.take_left']
    rfl

/-! ## Checked commands (R201) -/

/-- What the status check reads of an answered command. -/
theorem Sent.checkAt_of (h : Sent touched s u x f rest app ev) {n : Nat} (hn : 5 ≤ n)
    (hr : ∀ k ≤ n, u.mem.readBytes s.cfg.respAddr k = r.take k) : checkAt u u.cfg.respAddr = statusOk (payload r) := by
  unfold checkAt
  rw [h.cfg, hr 5 (by omega), payload_take (by omega)]

theorem Sent.response_of (h : Sent touched s u x f rest app ev) {n : Nat} (hn : 6 ≤ n) (hl : r.length = 6)
    (hr : ∀ k ≤ n, u.mem.readBytes s.cfg.respAddr k = r.take k) : u.response 6 = r := by
  unfold State.response
  rw [h.cfg, hr 6 hn, List.take_of_length_le (by omega)]

/-- The engine's own command with a 48-bit response, answered. -/
theorem Sent.own (h : Sent touched s u x f (Turn.answer latency r :: rest) app ev) (hs : SendBase s)
    (ht : ∀ y, inHead s.cfg y → touched y) (hcap : Captured 6 r) :
    ∃ v, ownCommand cmd param u = (true, v) ∧
      Sent touched s v x f rest (decide (cmd = 55#6) && statusOk (payload r)) (frameEvents cmd param ++ ev) ∧
      v.response 6 = r ∧ checkAt v v.cfg.respAddr = statusOk (payload r) ∧
      v.mem.readBytes s.cfg.respAddr 6 = r := by
  obtain ⟨v, he, hv, hm⟩ := h.answered (cmd := cmd) (param := param) (res := .short) hs ht (by decide) hcap
  refine ⟨v, ?_, hv, hv.response_of (n := 6) (by omega) hcap.1 hm, hv.checkAt_of (n := 6) (by omega) hm, ?_⟩
  · unfold ownCommand; rw [h.cfg]; exact he
  · rw [hm 6 (Nat.le_refl _), List.take_of_length_le (Nat.le_of_eq hcap.1)]

/-- The engine's own command with a 48-bit response, unanswered. -/
theorem Sent.ownSilent (h : Sent touched s u x f rest app ev) (hs : SendBase s) (ht : ∀ y, inHead s.cfg y → touched y)
    (hc : NoAnswer 48 rest) :
    ∃ v, ownCommand cmd param u = (false, v) ∧
      Sent touched s v x (some .cmdTimeout) rest.tail false (frameEvents cmd param ++ ev) := by
  obtain ⟨v, he, hv⟩ := h.silent (cmd := cmd) (param := param) (res := .short) hs ht (by decide) hc
  exact ⟨v, by unfold ownCommand; rw [h.cfg]; exact he, hv⟩

/-- A checked command whose status passes. -/
theorem Sent.checkedPasses (h : Sent touched s u x f (Turn.answer latency r :: rest) app ev) (hs : SendBase s)
    (ht : ∀ y, inHead s.cfg y → touched y) (hp : Passes r) :
    ∃ v, checkedCommand cmd param u = (true, v) ∧
      Sent touched s v x f rest (decide (cmd = 55#6)) (frameEvents cmd param ++ ev) := by
  obtain ⟨v, he, hv, -, hok, -⟩ := h.own (cmd := cmd) (param := param) hs ht hp.1
  rw [hp.2] at hok hv
  rw [Bool.and_true] at hv
  exact ⟨v, by unfold checkedCommand; rw [he]; simp only [if_true, hok], hv⟩

/-- A checked command that fails (R281). -/
theorem Sent.checkedFails {t : Turn} {c : Cause} (h : Sent touched s u x f (t :: rest) app ev) (hs : SendBase s)
    (ht : ∀ y, inHead s.cfg y → touched y) (hf : Fails t c) :
    ∃ v, checkedCommand cmd param u = (false, v) ∧
      Sent touched s v x (some c) rest false (frameEvents cmd param ++ ev) := by
  cases hf with
  | timeout _ hu =>
    obtain ⟨v, he, hv⟩ := h.ownSilent (cmd := cmd) (param := param) hs ht (.cons hu)
    exact ⟨v, by unfold checkedCommand; rw [he]; rfl, hv⟩
  | status latency r hc hb =>
    obtain ⟨v, he, hv, -, hok, -⟩ := h.own (cmd := cmd) (param := param) hs ht hc
    rw [hb] at hok hv
    rw [Bool.and_false] at hv
    exact ⟨v.raise .statusError, by unfold checkedCommand; rw [he]; simp [hok], hv.raise _⟩

/-! ## Busy -/

/-- The busy wait of a request ends (R203). -/
theorem Sent.busyEnds {n : Nat} (h : Sent touched s u x f (Turn.busy n :: rest) app ev) (label : Phase) :
    ∃ v, waitNotBusy label u = .done true v ∧ Sent touched s v x f rest app ev ∧ v.mem = u.mem :=
  ⟨_, waitNotBusy_busy h.card h.cseq.owner, (h.setPhase label).setCard rest, rfl⟩

/-! ## SET_WIDTH -/

theorem setWidthOp_same {w : Width} {u : State} (h : w = u.session.dataWidth) : setWidthOp w u = u := by
  unfold setWidthOp; rw [if_pos h]

theorem setWidthOp_change {w : Width} {u a : State} {ok : Bool} (h : w ≠ u.session.dataWidth)
    (ha : checkedCommand 55#6 (rcaArg u.session.cardRca) u = (ok, a)) :
    setWidthOp w u = if ok then (setBusWidth (decide (w = .four)) a).2 else a := by
  have : appCmd u.session.cardRca u = (ok, a) := ha
  unfold setWidthOp; rw [if_neg h]; simp only [this]

theorem setBusWidth_snd {wide : Bool} {a b : State} {ok : Bool} (h : checkedCommand 6#6 (widthArg wide) a = (ok, b)) :
    (setBusWidth wide a).2 = if ok then b.setWidth (if wide then .four else .one) else b := by
  unfold setBusWidth; simp only [h]; cases ok <;> rfl

/-- A change of width whose two statuses pass (R230). -/
theorem Sent.widthPasses {w : Width} {l5 l6 : Nat} {r5 r6 : List Byte}
    (h : Sent touched s u x f (Turn.answer l5 r5 :: Turn.answer l6 r6 :: rest) app ev) (hs : SendBase s)
    (ht : ∀ y, inHead s.cfg y → touched y) (hw : w ≠ x.dataWidth) (h5 : Passes r5) (h6 : Passes r6) :
    Sent touched s (setWidthOp w u) { x with dataWidth := w } f rest false
      (frameEvents 6#6 (widthArg (decide (w = .four))) ++ (frameEvents 55#6 (rcaArg x.cardRca) ++ ev)) := by
  obtain ⟨a, he, ha⟩ := h.checkedPasses (cmd := 55#6) (param := rcaArg x.cardRca) hs ht h5
  obtain ⟨b, hf, hb⟩ := ha.checkedPasses (cmd := 6#6) (param := widthArg (decide (w = .four))) hs ht h6
  have e := setWidthOp_change (w := w) (u := u) (a := a) (ok := true) (by rw [h.session]; exact hw) (by rw [h.session]; exact he)
  rw [if_pos rfl, setBusWidth_snd hf, if_pos rfl] at e
  have hw' : (if decide (w = .four) then Width.four else .one) = w := by cases w <;> rfl
  rw [e, hw']
  exact hb.setWidth w

/-- A change of width whose CMD55 fails (R230). -/
theorem Sent.widthFails55 {w : Width} {t : Turn} {c : Cause} (h : Sent touched s u x f (t :: rest) app ev) (hs : SendBase s)
    (ht : ∀ y, inHead s.cfg y → touched y) (hw : w ≠ x.dataWidth) (hf : Fails t c) :
    Sent touched s (setWidthOp w u) x (some c) rest false (frameEvents 55#6 (rcaArg x.cardRca) ++ ev) := by
  obtain ⟨a, he, ha⟩ := h.checkedFails (cmd := 55#6) (param := rcaArg x.cardRca) hs ht hf
  have e := setWidthOp_change (w := w) (u := u) (a := a) (ok := false) (by rw [h.session]; exact hw) (by rw [h.session]; exact he)
  rw [if_neg (by decide)] at e
  rw [e]; exact ha

/-- A change of width whose ACMD6 fails (R230). -/
theorem Sent.widthFails6 {w : Width} {t : Turn} {c : Cause} (h : Sent touched s u x f (Turn.answer latency r :: t :: rest) app ev)
    (hs : SendBase s) (ht : ∀ y, inHead s.cfg y → touched y) (hw : w ≠ x.dataWidth) (hp : Passes r) (hf : Fails t c) :
    Sent touched s (setWidthOp w u) x (some c) rest false
      (frameEvents 6#6 (widthArg (decide (w = .four))) ++ (frameEvents 55#6 (rcaArg x.cardRca) ++ ev)) := by
  obtain ⟨a, he, ha⟩ := h.checkedPasses (cmd := 55#6) (param := rcaArg x.cardRca) hs ht hp
  obtain ⟨b, hb, hbs⟩ := ha.checkedFails (cmd := 6#6) (param := widthArg (decide (w = .four))) hs ht hf
  have e := setWidthOp_change (w := w) (u := u) (a := a) (ok := true) (by rw [h.session]; exact hw) (by rw [h.session]; exact he)
  rw [if_pos rfl, setBusWidth_snd hb, if_neg (by decide)] at e
  rw [e]; exact hbs

end Sys2Proof.Machine
end

