-- ==== Sys2Proof/Laws/Beside.lean ====
section
/-! SUPPORT. SD_COMMAND while DSEQ is at work (spec/44_block_transfer.md R212): the command engine and a DSEQ that receives
do not meet, so that the command runs as it does with DSEQ at rest, and DSEQ keeps whatever its own steps keep. -/

namespace Sys2Proof.Machine

/-- On `w` lines, a step of DSEQ from a state with `P` changes DSEQ and draws alone, and keeps `P`. -/
def DseqAlone (P : Seq → Prop) (w : Width) : Prop :=
  ∀ (t : Tick) (s : State), s.lanes = w → P s.dseq →
    ∃ q f c, P q ∧ dseqTick t s = { s with dseq := q, free := f, freeCount := c }

/-- DMA0 is idle, or set up for CSEQ's response (spec/43_command_response.md R191). -/
structure ForCseq (d : Dma0) : Prop where
  work : d.busy = false ∨ (d.pace = .cseqRx ∧ d.src = .cseqRxf ∧ (∃ a, d.dst = .mem a) ∧ d.chain = .none)

/-- A state with another DSEQ and other draws. -/
def State.besides (s : State) (q : Seq) (f : List Word) (c : Nat) : State := { s with dseq := q, free := f, freeCount := c }

variable {P : Seq → Prop} {w : Width} {q : Seq} {f : List Word} {c : Nat}

theorem cseqTick_besides (t : Tick) (s : State) : cseqTick t (s.besides q f c) = (cseqTick t s).besides q f c := by
  unfold cseqTick State.besides
  simp only
  cases s.cseq.mode <;> rfl

theorem dma0Ready_besides {s : State} (h : ForCseq s.dma0) : dma0Ready (s.besides q f c) = dma0Ready s := by
  unfold dma0Ready State.besides
  simp only
  rcases h.work with h | ⟨h, -⟩
  · rw [h]; rfl
  · rw [h]

theorem dma0Step_besides {s : State} (h : ForCseq s.dma0) (hr : dma0Ready s = true) :
    dma0Step (s.besides q f c) = (dma0Step s).besides q f c ∧ ForCseq (dma0Step s).dma0 := by
  have hb : s.dma0.busy = true := by
    unfold dma0Ready at hr; simp only [Bool.and_eq_true] at hr; exact hr.1
  obtain ⟨hp, hs, ⟨a, hd⟩, hc⟩ := h.work.resolve_left (by rw [hb]; simp)
  have hm : dma0Move (s.besides q f c) = (dma0Move s).besides q f c := by
    unfold dma0Move dma0Value dma0Word dma0Pop dma0Put State.besides
    simp only [hs, hd, State.setCseq, State.setDma0, State.setMem]
  have hch : (dma0Move s).dma0.chain = .none := hc
  have e1 : dma0Step s = dma0Move s := by unfold dma0Step; rw [if_neg (by rw [hch]; simp)]
  have e2 : dma0Step (s.besides q f c) = dma0Move (s.besides q f c) := by
    unfold dma0Step
    rw [if_neg (by rw [hm]; show ¬ (_ ∧ (dma0Move s).dma0.chain = _); rw [hch]; simp)]
  refine ⟨by rw [e1, e2, hm], ?_⟩
  rw [e1]
  refine ⟨.inr ⟨hp, ?_, ?_, hc⟩⟩
  · show s.dma0.src.advance _ = _
    rw [hs]; rfl
  · exact ⟨_, by show s.dma0.dst.advance _ = _; rw [hd]; rfl⟩

theorem dma0Steps_besides (n : Nat) {s : State} (h : ForCseq s.dma0) :
    dma0Steps n (s.besides q f c) = (dma0Steps n s).besides q f c ∧ ForCseq (dma0Steps n s).dma0 := by
  induction n generalizing s with
  | zero => exact ⟨rfl, h⟩
  | succ n ih =>
    rw [dma0Steps, dma0Steps, dma0Ready_besides h]
    cases hr : dma0Ready s with
    | false => exact ⟨rfl, h⟩
    | true =>
      obtain ⟨h1, h2⟩ := dma0Step_besides (q := q) (f := f) (c := c) h hr
      simp only [if_true]
      rw [h1]
      exact ih h2

theorem dmaRun_besides {s : State} (h : ForCseq s.dma0) :
    dmaRun (s.besides q f c) = (dmaRun s).besides q f c ∧ ForCseq (dmaRun s).dma0 := by
  unfold dmaRun
  rw [dma0Ready_besides h]
  cases hr : dma0Ready s with
  | false => exact ⟨rfl, h⟩
  | true =>
    have hb : s.dma0.busy = true := by
      unfold dma0Ready at hr; simp only [Bool.and_eq_true] at hr; exact hr.1
    have hp := (h.work.resolve_left (by rw [hb]; simp)).1
    have hroom : dma0Room (s.besides q f c) = dma0Room s := by
      unfold dma0Room State.besides; simp only [hp]
    simp only [if_true]
    rw [hroom]
    exact dma0Steps_besides _ h

/-! ## CLK periods -/

/-- `a` is `b` but for a DSEQ at work and draws; in `b` DSEQ waits. -/
structure Beside (P : Seq → Prop) (w : Width) (a b : State) : Prop where
  lanes : b.lanes = w
  waits : b.dseq.mode = .wait
  dma   : ForCseq b.dma0
  apart : ∃ q f c, P q ∧ a = b.besides q f c

theorem dseqTick_wait {t : Tick} {s : State} (h : s.dseq.mode = .wait) : dseqTick t s = s := by
  unfold dseqTick; rw [h]

theorem cseqTick_fixed (t : Tick) (s : State) : (cseqTick t s).lanes = s.lanes ∧ (cseqTick t s).dseq = s.dseq ∧
    (cseqTick t s).dma0 = s.dma0 ∧ (cseqTick t s).free = s.free ∧ (cseqTick t s).freeCount = s.freeCount ∧
    (cseqTick t s).kseq = s.kseq := by
  unfold cseqTick; cases s.cseq.mode <;> exact ⟨rfl, rfl, rfl, rfl, rfl, rfl⟩

/-- DMA0 set up for CSEQ moves words of CSEQ only. -/
theorem dmaRun_cseq {s : State} (h : ForCseq s.dma0) : (dmaRun s).dseq = s.dseq ∧ (dmaRun s).free = s.free ∧
    (dmaRun s).freeCount = s.freeCount := by
  have := (dmaRun_besides (q := s.dseq) (f := s.free) (c := s.freeCount) h).1
  have e : s.besides s.dseq s.free s.freeCount = s := rfl
  rw [e] at this
  rw [this]
  exact ⟨rfl, rfl, rfl⟩

theorem Beside.tick {a b : State} (hP : DseqAlone P w) (h : Beside P w a b) (hk : b.kseq.running = true) (t : Tick) :
    Beside P w (clkTick t a) (clkTick t b) ∧ (clkTick t b).free = b.free ∧ (clkTick t b).freeCount = b.freeCount ∧
      (clkTick t b).dseq = b.dseq ∧ (clkTick t b).kseq = b.kseq := by
  obtain ⟨hl, hw, hd, q, f, c, hq, rfl⟩ := h
  obtain ⟨e1, e2, e3, e4, e5, e6⟩ := cseqTick_fixed t b
  have hb : clkTick t b = dmaRun (cseqTick t b) := by
    rw [clkTick_eq, if_pos hk, dseqTick_wait (by rw [e2]; exact hw)]
  have hka : (b.besides q f c).kseq.running = true := hk
  obtain ⟨q', f', c', hq', ha⟩ := hP t ((cseqTick t b).besides q f c) (e1.trans hl) hq
  have ha' : clkTick t (b.besides q f c) = dmaRun ((cseqTick t b).besides q' f' c') := by
    rw [clkTick_eq, if_pos hka, cseqTick_besides, ha]
    rfl
  have hfc : ForCseq (cseqTick t b).dma0 := by rw [e3]; exact hd
  obtain ⟨hrun, hfor⟩ := dmaRun_besides (q := q') (f := f') (c := c') hfc
  obtain ⟨g1, g2, g3⟩ := dmaRun_cseq hfc
  refine ⟨⟨?_, ?_, ?_, q', f', c', hq', ?_⟩, ?_, ?_, ?_, (clkTick_same t b).kseq⟩
  · rw [(clkTick_same t b).lanes]; exact hl
  · rw [hb, g1, e2]; exact hw
  · rw [hb]; exact hfor
  · rw [ha', hb]; exact hrun
  · rw [hb, g2, e4]
  · rw [hb, g3, e5]
  · rw [hb, g1, e2]

theorem Beside.cseq {a b : State} (h : Beside P w a b) : a.cseq = b.cseq := by
  obtain ⟨-, -, -, q, f, c, -, rfl⟩ := h; rfl

/-- What the command engine's waits make of a DSEQ at work. -/
structure Passed (P : Seq → Prop) (w : Width) (a b b₀ : State) : Prop where
  beside : Beside P w a b
  free   : b.free = b₀.free ∧ b.freeCount = b₀.freeCount
  dseq   : b.dseq = b₀.dseq
  kseq   : b.kseq = b₀.kseq

theorem Beside.ticks {a b : State} (hP : DseqAlone P w) (h : Beside P w a b) (hk : b.kseq.running = true) (ts : List Tick) :
    Passed P w (clkTicks ts a) (clkTicks ts b) b := by
  induction ts generalizing a b with
  | nil => exact ⟨h, ⟨rfl, rfl⟩, rfl, rfl⟩
  | cons t ts ih =>
    obtain ⟨h1, h2, h3, h4, h5⟩ := h.tick hP hk t
    have := ih h1 (by rw [h5]; exact hk)
    exact ⟨this.beside, ⟨this.free.1.trans h2, this.free.2.trans h3⟩, this.dseq.trans h4, this.kseq.trans h5⟩

theorem Beside.await {a b : State} (hP : DseqAlone P w) (h : Beside P w a b) (hk : b.kseq.running = true) (ts : List Tick) :
    (awaitCapture ts a).1 = (awaitCapture ts b).1 ∧ Passed P w (awaitCapture ts a).2 (awaitCapture ts b).2 b := by
  induction ts generalizing a b with
  | nil =>
    refine ⟨?_, h, ⟨rfl, rfl⟩, rfl, rfl⟩
    show a.cseq.idle = b.cseq.idle
    rw [h.cseq]
  | cons t ts ih =>
    rw [awaitCapture, awaitCapture, h.cseq]
    split
    · exact ⟨rfl, h, ⟨rfl, rfl⟩, rfl, rfl⟩
    · obtain ⟨h1, h2, h3, h4, h5⟩ := h.tick hP hk t
      obtain ⟨i1, i2⟩ := ih h1 (by rw [h5]; exact hk)
      exact ⟨i1, i2.beside, ⟨i2.free.1.trans h2, i2.free.2.trans h3⟩, i2.dseq.trans h4, i2.kseq.trans h5⟩

/-! ## The rest of SD_COMMAND looks at no DSEQ -/

theorem drawn_dseq (s : State) (q : Seq) : (s.setDseq q).drawn = s.drawn.setDseq q := by
  cases hf : s.free <;> simp [State.drawn, State.setDseq, hf]

theorem cseqPad_dseq (s : State) (q : Seq) : cseqPad (s.setDseq q) = (cseqPad s).setDseq q := by
  unfold cseqPad
  simp only [State.setDseq_cseq, drawn_dseq]
  split <;> rfl

theorem scramble_dseq (n : Nat) (a : Word) (s : State) (q : Seq) : (s.setDseq q).scramble a n = (s.scramble a n).setDseq q := by
  induction n generalizing a s with
  | zero => rfl
  | succ n ih =>
    rw [State.scramble, State.scramble, drawn_dseq]
    exact ih (a + 4#32) (s.drawn.setMem (s.mem.writeWord a s.drawValue))

theorem dmaRun_dseq {s : State} (h : ForCseq s.dma0) (q : Seq) : dmaRun (s.setDseq q) = (dmaRun s).setDseq q := by
  have h1 := (dmaRun_besides (q := q) (f := s.free) (c := s.freeCount) h).1
  obtain ⟨-, g2, g3⟩ := dmaRun_cseq h
  have e : s.besides q s.free s.freeCount = s.setDseq q := rfl
  rw [e] at h1
  rw [h1, State.besides, State.setDseq, ← g2, ← g3]

theorem cmdAbort_dseq (res : ResSize) (dst : Word) (s : State) (q : Seq) :
    cmdAbort res dst (s.setDseq q) = (cmdAbort res dst s).setDseq q := by
  unfold cmdAbort
  refine congrArg (fun x : State => x.raise .cmdTimeout) (Eq.trans ?_ (scramble_dseq _ _ _ q))
  rfl

/-- CMD_WAIT up to its verdict: the frame goes out and the response is awaited (R193). -/
def captureWait (res : ResSize) (s : State) : Bool × State :=
  awaitCapture (s.turn.waitTicks res.bits) (clkTicks s.turn.frameTicks s.turnTaken)

/-- What SD_COMMAND does after that (R193, R195, R196). -/
def captureEnd (cmd : BitVec 6) (res : ResSize) (dst : Word) (r : Bool × State) : Bool × State :=
  if r.1 then
    if (dmaRun (cseqPad r.2)).dma0.busy then (false, (cmdAbort res dst (dmaRun (cseqPad r.2))).notePrefix false)
    else
      let s := ((dmaRun (cseqPad r.2)).setPhase .cmdFix).setMem (respFixMem (dmaRun (cseqPad r.2)).mem dst res.words)
      (true, s.notePrefix (decide (cmd = 55#6) && checkAt s dst))
  else (false, (cmdAbort res dst r.2).notePrefix false)

/-- SD_COMMAND in these parts. -/
theorem sdCommand_parts {cmd : BitVec 6} {param dst : Word} {res : ResSize} {s : State} (h : Sendable s) (hr : res ≠ .none) :
    sdCommand cmd param res dst s = captureEnd cmd res dst (captureWait res
      (sendingState cmd param [.recv res.bits] (captureDma dst res.words s.dma0) s)) := by
  have e := cmdStart_response (cmd := cmd) (param := param) (dst := dst) h hr
  generalize sendingState cmd param [.recv res.bits] (captureDma dst res.words s.dma0) s = u at *
  cases res with
  | none => exact absurd rfl hr
  | short =>
    unfold sdCommand cmdCapture captureEnd captureWait
    simp only [cardStep_fst, cardStep_snd, e]
    generalize awaitCapture _ _ = r
    obtain ⟨b, v⟩ := r
    cases b with
    | false => rfl
    | true => cases (dmaRun (cseqPad v)).dma0.busy <;> simp
  | long =>
    unfold sdCommand cmdCapture captureEnd captureWait
    simp only [cardStep_fst, cardStep_snd, e]
    generalize awaitCapture _ _ = r
    obtain ⟨b, v⟩ := r
    cases b with
    | false => rfl
    | true => cases (dmaRun (cseqPad v)).dma0.busy <;> simp

theorem captureEnd_dseq {cmd : BitVec 6} {res : ResSize} {dst : Word} {ok : Bool} {s : State} (h : ForCseq s.dma0) (q : Seq) :
    captureEnd cmd res dst (ok, s.setDseq q) =
      ((captureEnd cmd res dst (ok, s)).1, (captureEnd cmd res dst (ok, s)).2.setDseq q) := by
  have hpad : ForCseq (cseqPad s).dma0 := by
    have : (cseqPad s).dma0 = s.dma0 := by unfold cseqPad; split <;> simp
    rw [this]; exact h
  unfold captureEnd
  simp only [cseqPad_dseq, dmaRun_dseq hpad, cmdAbort_dseq]
  cases ok with
  | false => rfl
  | true =>
    simp only [if_true]
    generalize dmaRun (cseqPad s) = v
    have e : ∀ x y : Bool × State, (if (v.setDseq q).dma0.busy = true then x else y) = if v.dma0.busy = true then x else y :=
      fun _ _ => rfl
    rw [e]
    cases v.dma0.busy <;> rfl

/-- SD_COMMAND with DSEQ at work does what it does with DSEQ waiting, for some draws, and DSEQ ends in a state that its own
steps lead to. -/
theorem sdCommand_beside {cmd : BitVec 6} {param dst : Word} {res : ResSize} {b : State} (hP : DseqAlone P b.lanes) (hq : P q)
    (hs : Sendable b) (hw : b.dseq.mode = .wait) (hr : res ≠ .none) :
    ∃ q' f c, P q' ∧ sdCommand cmd param res dst (b.setDseq q) =
      ((sdCommand cmd param res dst { b with free := f, freeCount := c }).1,
        (sdCommand cmd param res dst { b with free := f, freeCount := c }).2.setDseq q') := by
  rw [sdCommand_parts (s := b.setDseq q) ⟨hs.clock, hs.mode, hs.armed, hs.txf, hs.rxf, hs.room, hs.dma⟩ hr]
  generalize hA0 : sendingState cmd param [.recv res.bits] (captureDma dst res.words (b.setDseq q).dma0) (b.setDseq q) = A0
  generalize hB0 : sendingState cmd param [.recv res.bits] (captureDma dst res.words b.dma0) b = B0
  have hAB : A0 = B0.setDseq q := by rw [← hA0, ← hB0]; rfl
  have hBl : B0.lanes = b.lanes := by rw [← hB0]; rfl
  have hBw : B0.dseq.mode = .wait := by rw [← hB0]; exact hw
  have hBd : ForCseq B0.dma0 := by rw [← hB0]; exact ⟨.inr ⟨rfl, rfl, ⟨dst, rfl⟩, rfl⟩⟩
  have hBk : B0.kseq.running = true := by rw [← hB0]; exact hs.clock
  have hB : ∀ f c, sdCommand cmd param res dst { b with free := f, freeCount := c } =
      captureEnd cmd res dst (captureWait res { B0 with free := f, freeCount := c }) := by
    intro f c
    rw [sdCommand_parts (s := { b with free := f, freeCount := c }) ⟨hs.clock, hs.mode, hs.armed, hs.txf, hs.rxf, hs.room, hs.dma⟩ hr,
      ← hB0]
    rfl
  -- the two waits, side by side, for any draws
  have wait : ∀ f c, (captureWait res A0).1 = (captureWait res { B0 with free := f, freeCount := c }).1 ∧
      Passed P b.lanes (captureWait res A0).2 (captureWait res { B0 with free := f, freeCount := c }).2
        { B0 with free := f, freeCount := c } := by
    intro f c
    have side : Beside P b.lanes A0.turnTaken ({ B0 with free := f, freeCount := c } : State).turnTaken :=
      ⟨hBl, hBw, hBd, q, B0.free, B0.freeCount, hq, by rw [hAB]; rfl⟩
    have turn : A0.turn = ({ B0 with free := f, freeCount := c } : State).turn := by rw [hAB]; rfl
    unfold captureWait
    rw [turn]
    have h1 := side.ticks hP hBk ({ B0 with free := f, freeCount := c } : State).turn.frameTicks
    obtain ⟨h2, h3⟩ := h1.beside.await hP (by rw [h1.kseq]; exact hBk)
      (({ B0 with free := f, freeCount := c } : State).turn.waitTicks res.bits)
    exact ⟨h2, h3.beside, ⟨h3.free.1.trans h1.free.1, h3.free.2.trans h1.free.2⟩, h3.dseq.trans h1.dseq, h3.kseq.trans h1.kseq⟩
  -- with the draws that the run ends with
  generalize captureWait res A0 = A at wait ⊢
  obtain ⟨h1, h2⟩ := wait A.2.free A.2.freeCount
  obtain ⟨q', f', c', hq', ha⟩ := h2.beside.apart
  have hset : A.2 = (captureWait res { B0 with free := A.2.free, freeCount := A.2.freeCount }).2.setDseq q' := by
    have e1 : A.2.free = f' := by rw [ha]; rfl
    have e2 : A.2.freeCount = c' := by rw [ha]; rfl
    have e3 := h2.free.1
    have e4 := h2.free.2
    generalize captureWait res { B0 with free := A.2.free, freeCount := A.2.freeCount } = B at *
    simp only at e3 e4
    rw [ha, State.besides, State.setDseq, ← e1, ← e2, ← e3, ← e4]
  refine ⟨q', A.2.free, A.2.freeCount, hq', ?_⟩
  rw [hB]
  have hd := h2.beside.dma
  generalize captureWait res { B0 with free := A.2.free, freeCount := A.2.freeCount } = B at *
  obtain ⟨ok, u⟩ := B
  rw [show A = (ok, u.setDseq q') from Prod.ext h1 hset]
  exact captureEnd_dseq hd q'

end Sys2Proof.Machine
end

