-- ==== Sys2Proof/Laws/Receive.lean ====
section
/-! SUPPORT. DSEQ receiving a data block (spec/41_sequencers.md R155 to R157) and DMA0 moving its words along the
descriptor chain (spec/42_dma.md R172, R176): one CLK period, one word, one block. -/

namespace Sys2Proof.Machine

/-! ## What one CLK period shifts in -/

/-- The bits DSEQ shifts in from one CLK period, the first the highest (R155). -/
def tickBits (w : Width) (t : Tick) : List Bool :=
  match w with
  | .one => [t.dat.getLsbD 0]
  | .four => [t.dat.getLsbD 3, t.dat.getLsbD 2, t.dat.getLsbD 1, t.dat.getLsbD 0]

@[simp] theorem tickBits_length (w : Width) (t : Tick) : (tickBits w t).length = w.lines := by cases w <;> rfl

theorem laneSample_shift (w : Width) (t : Tick) (v : Word) :
    (v <<< w.lines) ||| laneSample w t.dat = shiftBits v (tickBits w t) := by
  cases w with
  | one => rfl
  | four =>
    show (v <<< 4) ||| t.dat.setWidth 32 = shiftBits v [t.dat.getLsbD 3, t.dat.getLsbD 2, t.dat.getLsbD 1, t.dat.getLsbD 0]
    apply BitVec.eq_of_getLsbD_eq
    intro i hi
    rw [shiftBits_getLsbD _ _ hi, BitVec.getLsbD_or, BitVec.getLsbD_shiftLeft]
    simp only [List.length_cons, List.length_nil, BitVec.getLsbD_setWidth, hi, decide_true, Bool.true_and]
    by_cases h : i < 4
    · rw [if_pos (by omega)]
      simp only [h, decide_true, Bool.not_true, Bool.false_and, Bool.false_or]
      interval_cases i <;> rfl
    · rw [if_neg (by omega), BitVec.getLsbD_of_ge _ i (by omega)]
      simp [h]

/-- A state in which DSEQ receives on `w` lines and DMA0 takes its words. -/
structure Receiving (w : Width) (s : State) : Prop where
  clock : s.kseq.running = true
  cseq  : s.cseq.mode = .wait
  lanes : s.lanes = w
  rxf   : s.dseq.rxf = []
  room  : 1 ≤ s.cfg.fifoDepth
  dma   : s.dma0 = { s.dma0 with
    src := .dseqRxf, incDst := true, bswap := true, pace := .dseqRx, chain := .dma1 }

theorem Receiving.setDseq {w : Width} {s : State} {q : Seq} (h : Receiving w s) (hq : q.rxf = []) :
    Receiving w (s.setDseq q) := ⟨h.clock, h.cseq, h.lanes, hq, h.room, h.dma⟩

theorem Receiving.pace {w : Width} {s : State} (h : Receiving w s) : s.dma0.pace = .dseqRx := by rw [h.dma]

theorem cseqTick_wait {t : Tick} {s : State} (h : s.cseq.mode = .wait) : cseqTick t s = s := by
  unfold cseqTick; rw [h]

theorem dmaRun_empty {s : State} (hp : s.dma0.pace = .dseqRx) (hr : s.dseq.rxf = []) : dmaRun s = s := by
  unfold dmaRun dma0Ready
  simp [hp, hr]

/-- A CLK period with DAT0 high leaves a hunting DSEQ hunting. -/
theorem clkTick_gap {w : Width} {s : State} {t : Tick} (h : Receiving w s) (hm : s.dseq.mode = .recvHunt)
    (ht : t.dat.getLsbD 0 = true) : clkTick t s = s := by
  rw [clkTick_eq]
  rw [if_pos h.clock, cseqTick_wait h.cseq, dseqTick_still (.inr (.inr ⟨hm, ht⟩)), dmaRun_empty h.pace h.rxf]

/-- The start bit (R156). -/
theorem clkTick_start {w : Width} {s : State} {t : Tick} (h : Receiving w s) (hm : s.dseq.mode = .recvHunt)
    (ht : t.dat.getLsbD 0 = false) : clkTick t s = s.setDseq { s.dseq with mode := .recvShift } := by
  rw [clkTick_eq]
  rw [if_pos h.clock, cseqTick_wait h.cseq]
  have : dseqTick t s = s.setDseq { s.dseq with mode := .recvShift } := by
    unfold dseqTick; rw [hm]; simp only [ht, Bool.false_eq_true, if_false]
  rw [this, dmaRun_empty (by simpa using h.pace) (by simpa using h.rxf)]

/-- DSEQ after some more bits inside a word. -/
def partSeq (bits : List Bool) (q : Seq) : Seq :=
  { q with
    isr := shiftBits q.isr bits, isrCount := q.isrCount + bits.length, bitsLeft := q.bitsLeft - bits.length }

theorem partSeq_append (bs cs : List Bool) (q : Seq) : partSeq cs (partSeq bs q) = partSeq (bs ++ cs) q := by
  simp [partSeq, shiftBits_append, Nat.add_assoc, Nat.sub_sub]

/-- A CLK period inside a word. -/
theorem clkTick_inWord {w : Width} {s : State} {t : Tick} (h : Receiving w s) (hm : s.dseq.mode = .recvShift)
    (hc : s.dseq.isrCount + w.lines < 32) (hb : w.lines < s.dseq.bitsLeft) :
    clkTick t s = s.setDseq (partSeq (tickBits w t) s.dseq) := by
  have hs : s.dseq.shiftTick s.cfg.fifoDepth s.lanes.lines (laneSample s.lanes t.dat) =
      partSeq (tickBits w t) s.dseq := by
    rw [h.lanes]
    simp [partSeq, Seq.shiftTick, Seq.autopush, Seq.shiftIn, laneSample_shift, show ¬ (s.dseq.isrCount = 32) by omega,
      show ¬ (s.dseq.bitsLeft = 0) by omega, show ¬ (s.dseq.isrCount + w.lines = 32) by omega]
  have hd : dseqTick t s = s.setDseq (partSeq (tickBits w t) s.dseq) := by
    unfold dseqTick
    rw [hm]
    simp only
    rw [if_neg (by omega), hs, dseqPad, if_neg (by simp [partSeq]; omega)]
  rw [clkTick_eq]
  rw [if_pos h.clock, cseqTick_wait h.cseq, hd,
    dmaRun_empty (s := s.setDseq (partSeq (tickBits w t) s.dseq)) h.pace h.rxf]

/-- DSEQ once a word is complete and nothing is left in its shift register. -/
def wordSeq (w : Width) (t : Tick) (q : Seq) : Seq :=
  { q with
    isr := shiftBits q.isr (tickBits w t), isrCount := 0, bitsLeft := q.bitsLeft - w.lines,
    rxf := [shiftBits q.isr (tickBits w t)] }

/-- The CLK period that completes a word, in a block or at its end. -/
theorem clkTick_word {w : Width} {s : State} {t : Tick} (h : Receiving w s) (hm : s.dseq.mode = .recvShift)
    (hc : s.dseq.isrCount + w.lines = 32) (hb : w.lines ≤ s.dseq.bitsLeft) :
    clkTick t s = dmaRun (s.setDseq (wordSeq w t s.dseq)) := by
  have hl : 0 < w.lines := by cases w <;> decide
  have hroom : (0 : Nat) < s.cfg.fifoDepth := h.room
  have hs : s.dseq.shiftTick s.cfg.fifoDepth s.lanes.lines (laneSample s.lanes t.dat) = { s.dseq with
      isr := shiftBits s.dseq.isr (tickBits w t), isrCount := 0, bitsLeft := s.dseq.bitsLeft - w.lines,
      rxf := [shiftBits s.dseq.isr (tickBits w t)] } := by
    rw [h.lanes]
    simp [Seq.shiftTick, Seq.autopush, Seq.shiftIn, Seq.rxRoom, laneSample_shift, h.rxf, hroom,
      show ¬ (s.dseq.isrCount = 32) by omega, show ¬ (s.dseq.bitsLeft = 0) by omega, hc]
  have hd : dseqTick t s = s.setDseq (wordSeq w t s.dseq) := by
    unfold dseqTick
    rw [hm]
    simp only
    rw [if_neg (by omega), hs, dseqPad, if_neg (by simp [Seq.partialWord])]
    rfl
  rw [clkTick_eq]
  rw [if_pos h.clock, cseqTick_wait h.cseq, hd]

/-- The last CLK period of a block that ends inside a word: DSEQ pads it from a draw and pushes it (R156, R157). -/
theorem clkTick_partial {w : Width} {s : State} {t : Tick} (h : Receiving w s) (hm : s.dseq.mode = .recvShift)
    (hc : s.dseq.isrCount + w.lines < 32) (hb : s.dseq.bitsLeft = w.lines) :
    clkTick t s = dmaRun (s.drawn.setDseq { s.dseq with
      isr := shiftBits s.dseq.isr (tickBits w t ++ (wordBits s.drawValue).take (32 - (s.dseq.isrCount + w.lines))),
      isrCount := 0, bitsLeft := 0,
      rxf := [shiftBits s.dseq.isr
        (tickBits w t ++ (wordBits s.drawValue).take (32 - (s.dseq.isrCount + w.lines)))] }) := by
  have hl : 0 < w.lines := by cases w <;> decide
  have hroom : (0 : Nat) < s.cfg.fifoDepth := h.room
  have hs : s.dseq.shiftTick s.cfg.fifoDepth s.lanes.lines (laneSample s.lanes t.dat) = { s.dseq with
      isr := shiftBits s.dseq.isr (tickBits w t), isrCount := s.dseq.isrCount + w.lines,
      bitsLeft := 0 } := by
    rw [h.lanes]
    simp [Seq.shiftTick, Seq.autopush, Seq.shiftIn, laneSample_shift, show ¬ (s.dseq.isrCount = 32) by omega, hb,
      show ¬ (s.dseq.isrCount + w.lines = 32) by omega, hl.ne']
  have e := shiftBits_pad s.dseq.isr s.drawValue (tickBits w t) (m := 32 - (s.dseq.isrCount + w.lines)) (by omega)
  rw [show 32 - (32 - (s.dseq.isrCount + w.lines)) = s.dseq.isrCount + w.lines by omega] at e
  have hd : dseqTick t s = s.drawn.setDseq { s.dseq with
      isr := shiftBits s.dseq.isr (tickBits w t ++ (wordBits s.drawValue).take (32 - (s.dseq.isrCount + w.lines))),
      isrCount := 0, bitsLeft := 0,
      rxf := [shiftBits s.dseq.isr
        (tickBits w t ++ (wordBits s.drawValue).take (32 - (s.dseq.isrCount + w.lines)))] } := by
    unfold dseqTick
    rw [hm]
    simp only
    rw [if_neg (by omega), hs, dseqPad]
    have hp : (s.setDseq { s.dseq with
      isr := shiftBits s.dseq.isr (tickBits w t), isrCount := s.dseq.isrCount + w.lines, bitsLeft := 0 }).dseq.partialWord =
        true :=
      (Bool.and_eq_true _ _).mpr ⟨decide_eq_true (show 0 < s.dseq.isrCount + w.lines by omega), decide_eq_true hc⟩
    have hv : (s.setDseq { s.dseq with
      isr := shiftBits s.dseq.isr (tickBits w t), isrCount := s.dseq.isrCount + w.lines,
      bitsLeft := 0 }).drawValue = s.drawValue := rfl
    have hdr : (s.setDseq { s.dseq with
      isr := shiftBits s.dseq.isr (tickBits w t), isrCount := s.dseq.isrCount + w.lines,
      bitsLeft := 0 }).drawn = s.drawn.setDseq { s.dseq with
      isr := shiftBits s.dseq.isr (tickBits w t), isrCount := s.dseq.isrCount + w.lines, bitsLeft := 0 } := by
      unfold State.drawn; cases hf : s.free <;> simp [State.setDseq, hf]
    rw [if_pos ⟨rfl, hp⟩, hv, hdr]
    simp [Seq.padWith, Seq.autopush, Seq.rxRoom, h.rxf, hroom, e, State.setDseq]
  rw [clkTick_eq]
  rw [if_pos h.clock, cseqTick_wait h.cseq, hd]

/-! ## One word moved -/

/-- A word moves to memory, swapped, and more of the transfer is left. -/
theorem dmaRun_word {s : State} {a v : Word} (hs : s.dma0 = { s.dma0 with
      src := .dseqRxf, incDst := true, bswap := true, pace := .dseqRx, chain := .dma1 })
    (hb : s.dma0.busy = true) (hd : s.dma0.dst = .mem a) (hr : s.dseq.rxf = [v]) :
    dmaRun s =
      let u := { s with
        dseq := { s.dseq with rxf := [] }
        dma0 := { s.dma0 with
          dst := .mem (a + 4#32), count := s.dma0.count - 1#32, busy := decide (s.dma0.count ≠ 1#32) }
        mem := s.mem.writeWord a (bswap32 v) }
      if s.dma0.count = 1#32 then dma1Trigger u else u := by
  have hp : s.dma0.pace = .dseqRx := by rw [hs]
  have hsrc : s.dma0.src = .dseqRxf := by rw [hs]
  have hi : s.dma0.incDst = true := by rw [hs]
  have hw : s.dma0.bswap = true := by rw [hs]
  have hc : s.dma0.chain = .dma1 := by rw [hs]
  have h1 : dma0Move s = { s with
      dseq := { s.dseq with rxf := [] }
      dma0 := { s.dma0 with
        dst := .mem (a + 4#32), count := s.dma0.count - 1#32, busy := decide (s.dma0.count ≠ 1#32) }
      mem := s.mem.writeWord a (bswap32 v) } := by
    simp [dma0Move, dma0Put, dma0Pop, dma0Value, dma0Word, Dma0.moved, DmaEnd.advance, hb, hsrc, hd, hi, hw, hr,
      State.setDseq, State.setMem, State.setDma0]
  have hz : s.dma0.count - 1#32 = 0#32 ↔ s.dma0.count = 1#32 := by
    constructor
    · intro h
      have := congrArg (· + 1#32) h
      simpa using this
    · intro h; rw [h]; rfl
  have h2 : dma0Step s = if s.dma0.count = 1#32 then dma1Trigger (dma0Move s) else dma0Move s := by
    unfold dma0Step
    have : ((dma0Move s).dma0.count = 0#32 ∧ (dma0Move s).dma0.chain = .dma1) ↔ s.dma0.count = 1#32 := by
      rw [h1]; simp [hc, hz]
    simp only [this]
  have hroom : dma0Room s = 1 := by simp [dma0Room, hp, hr]
  unfold dmaRun
  rw [if_pos (by simp [dma0Ready, hb, hp, hr]), hroom, dma0Steps, if_pos (by simp [dma0Ready, hb, hp, hr]), dma0Steps, h2, h1]

/-! ## One word received -/

/-- The bits of some CLK periods. -/
def ticksBits (w : Width) (ts : List Tick) : List Bool := ts.flatMap (tickBits w)

@[simp] theorem ticksBits_length (w : Width) (ts : List Tick) : (ticksBits w ts).length = ts.length * w.lines := by
  induction ts with
  | nil => simp [ticksBits]
  | cons t ts ih =>
    have : ticksBits w (t :: ts) = tickBits w t ++ ticksBits w ts := rfl
    rw [this, List.length_append, ih, tickBits_length, List.length_cons, Nat.succ_mul, Nat.add_comm]

theorem ticksBits_append (w : Width) (ts us : List Tick) : ticksBits w (ts ++ us) = ticksBits w ts ++ ticksBits w us := by
  simp [ticksBits]

/-- The engine has no receive program to feed now (R215). -/
def NoFeed (o : ReadOp) (fed : Nat) (s : State) : Prop := ¬ (fed + 1 < o.count ∧ s.dseq.armed = [])

theorem feedOne_none {o : ReadOp} {fed : Nat} {s : State} (h : NoFeed o fed s) : feedOne o fed s = (fed, s) := by
  unfold feedOne; rw [if_neg h]

theorem awaitBlocks_busy {o : ReadOp} {fed : Nat} {s : State} {t : Tick} {ts : List Tick} (h : NoFeed o fed s)
    (hb : s.dma0.busy = true) : awaitBlocks o (t :: ts) fed s = awaitBlocks o ts fed (clkTick t s) := by
  rw [awaitBlocks, feedOne_none h]
  simp [State.dmaIdle, hb]

/-- CLK periods inside a word. -/
theorem awaitBlocks_inWord {o : ReadOp} {fed : Nat} {s : State} {ts rest : List Tick} (h : Receiving o.width s)
    (hm : s.dseq.mode = .recvShift) (hf : NoFeed o fed s) (hb : s.dma0.busy = true)
    (hc : s.dseq.isrCount + ts.length * o.width.lines < 32) (hl : ts.length * o.width.lines < s.dseq.bitsLeft) :
    awaitBlocks o (ts ++ rest) fed s =
      awaitBlocks o rest fed (s.setDseq (partSeq (ticksBits o.width ts) s.dseq)) := by
  induction ts generalizing s with
  | nil => simp [ticksBits, State.setDseq, partSeq]
  | cons t ts ih =>
    rw [List.length_cons, Nat.succ_mul] at hc hl
    have e : ticksBits o.width (t :: ts) = tickBits o.width t ++ ticksBits o.width ts := rfl
    rw [List.cons_append, awaitBlocks_busy hf hb, clkTick_inWord h hm (by omega) (by omega),
      ih (h.setDseq (q := partSeq (tickBits o.width t) s.dseq) h.rxf) hm hf hb (by simp [partSeq]; omega)
        (by simp [partSeq]; omega), State.setDseq_dseq, partSeq_append, e]
    rfl

/-- DSEQ with the word `v` complete and pushed. -/
def pushedSeq (v : Word) (q : Seq) : Seq := { q with isr := v, isrCount := 0, bitsLeft := q.bitsLeft - 32, rxf := [v] }

/-- The CLK periods of one word. -/
theorem awaitBlocks_word {o : ReadOp} {fed : Nat} {s : State} {ts rest : List Tick} (h : Receiving o.width s)
    (hm : s.dseq.mode = .recvShift) (hf : NoFeed o fed s) (hb : s.dma0.busy = true) (hc : s.dseq.isrCount = 0)
    (hts : ts.length * o.width.lines = 32) (hl : 32 ≤ s.dseq.bitsLeft) :
    awaitBlocks o (ts ++ rest) fed s =
      awaitBlocks o rest fed (dmaRun (s.setDseq (pushedSeq (bitsWord (ticksBits o.width ts)) s.dseq))) := by
  have hlp : 0 < o.width.lines := by cases o.width <;> decide
  have hne : ts ≠ [] := by intro he; subst he; simp at hts
  obtain ⟨us, t, rfl⟩ : ∃ us t, ts = us ++ [t] := ⟨ts.dropLast, ts.getLast hne, (List.dropLast_append_getLast hne).symm⟩
  rw [List.length_append, List.length_singleton, Nat.add_mul, Nat.one_mul] at hts
  rw [List.append_assoc, awaitBlocks_inWord h hm hf hb (by omega) (by omega), List.singleton_append,
    awaitBlocks_busy (s := s.setDseq (partSeq (ticksBits o.width us) s.dseq)) hf hb,
    clkTick_word (h.setDseq (q := partSeq (ticksBits o.width us) s.dseq) h.rxf) hm (by simp [partSeq]; omega)
      (by simp [partSeq]; omega)]
  have hv : shiftBits (shiftBits s.dseq.isr (ticksBits o.width us)) (tickBits o.width t) =
      bitsWord (ticksBits o.width (us ++ [t])) := by
    rw [← shiftBits_append, show ticksBits o.width us ++ tickBits o.width t = ticksBits o.width (us ++ [t]) by
      simp [ticksBits]]
    exact shiftBits_full _ (by simp; rw [Nat.add_mul]; omega)
  have hw : wordSeq o.width t (partSeq (ticksBits o.width us) s.dseq) =
      pushedSeq (bitsWord (ticksBits o.width (us ++ [t]))) s.dseq := by
    have e : s.dseq.bitsLeft - us.length * o.width.lines - o.width.lines = s.dseq.bitsLeft - 32 := by omega
    simp only [wordSeq, pushedSeq, partSeq, ticksBits_length, hv, e]
  rw [State.setDseq_dseq, hw]
  rfl

/-- DSEQ and DMA0 after some words of a transfer. -/
def afterWords (s : State) (a : Word) (ws : List Word) : State :=
  { s with
    dseq := { s.dseq with
      isr := ws.getLastD s.dseq.isr, isrCount := 0, bitsLeft := s.dseq.bitsLeft - 32 * ws.length, rxf := [] }
    dma0 := { s.dma0 with
      dst := .mem (a + BitVec.ofNat 32 (4 * ws.length)), count := s.dma0.count - BitVec.ofNat 32 ws.length }
    mem := s.mem.writeWords a (ws.map bswap32) }

theorem Receiving.afterWords {w : Width} {s : State} {a : Word} {ws : List Word} (h : Receiving w s) :
    Receiving w (afterWords s a ws) :=
  ⟨h.clock, h.cseq, h.lanes, rfl, h.room, by rw [Machine.afterWords, h.dma]⟩

theorem afterWords_cons (s : State) (a v : Word) (ws : List Word) :
    afterWords (afterWords s a [v]) (a + 4#32) ws = afterWords s a (v :: ws) := by
  have hcount : s.dma0.count - 1#32 - BitVec.ofNat 32 ws.length = s.dma0.count - BitVec.ofNat 32 (ws.length + 1) := by
    apply BitVec.eq_of_toNat_eq
    simp only [BitVec.toNat_sub, BitVec.toNat_ofNat]
    omega
  have haddr : a + 4#32 + BitVec.ofNat 32 (4 * ws.length) = a + BitVec.ofNat 32 (4 * (ws.length + 1)) := by
    rw [show (4#32 : Word) = BitVec.ofNat 32 4 from rfl, word_add_assoc]; congr 2; omega
  have hbits : s.dseq.bitsLeft - 32 * 1 - 32 * ws.length = s.dseq.bitsLeft - 32 * (ws.length + 1) := by omega
  simp only [afterWords, List.length_cons, List.length_nil, Nat.zero_add, List.getLastD_cons, List.getLastD_nil,
    List.map_cons, List.map_nil, Memory.writeWords, hcount, haddr, hbits]

/-- The CLK periods of some words, fewer than the transfer has and than end the program. -/
theorem awaitBlocks_words {o : ReadOp} {fed : Nat} {s : State} {a : Word} {n : Nat} {ts rest : List Tick}
    (h : Receiving o.width s) (hm : s.dseq.mode = .recvShift) (hf : NoFeed o fed s) (hb : s.dma0.busy = true)
    (hd : s.dma0.dst = .mem a) (hc : s.dseq.isrCount = 0) (hts : ts.length * o.width.lines = 32 * n)
    (hl : 32 * n < s.dseq.bitsLeft) (hn : n < s.dma0.count.toNat) :
    awaitBlocks o (ts ++ rest) fed s =
      awaitBlocks o rest fed (afterWords s a (packWords n (ticksBits o.width ts))) := by
  have hlp : o.width.lines ∣ 32 ∧ 0 < o.width.lines := by cases o.width <;> decide
  obtain ⟨⟨k, hk⟩, hlp⟩ := hlp
  induction n generalizing s a ts with
  | zero =>
    have : ts = [] := by
      cases ts with
      | nil => rfl
      | cons t ts => simp [Nat.succ_mul] at hts; omega
    subst this
    have e : afterWords s a [] = s := by
      have h1 : s.dma0 = { s.dma0 with dst := .mem a } := by rw [← hd]
      have h2 : s.dseq = { s.dseq with isrCount := 0, rxf := [] } := by rw [← hc, ← h.rxf]
      simp [afterWords, Memory.writeWords]
      rw [← h1, ← h2]
    simp [e]
  | succ n ih =>
    have hkl : k ≤ ts.length := by
      by_contra hlt
      have : ts.length * o.width.lines < k * o.width.lines := Nat.mul_lt_mul_of_pos_right (by omega) hlp
      rw [hts, Nat.mul_comm k, ← hk] at this
      omega
    have h1 : (ts.take k).length * o.width.lines = 32 := by
      rw [List.length_take, Nat.min_eq_left hkl, Nat.mul_comm, ← hk]
    have h2 : (ts.drop k).length * o.width.lines = 32 * n := by
      rw [List.length_drop, Nat.sub_mul, hts, Nat.mul_comm k, ← hk]
      omega
    conv_lhs => rw [← List.take_append_drop k ts]
    rw [List.append_assoc, awaitBlocks_word h hm hf hb hc h1 (by omega)]
    have hp : pushedSeq (bitsWord (ticksBits o.width (ts.take k))) s.dseq = { s.dseq with
        isr := bitsWord (ticksBits o.width (ts.take k)), isrCount := 0, bitsLeft := s.dseq.bitsLeft - 32,
        rxf := [bitsWord (ticksBits o.width (ts.take k))] } := by
      rfl
    have hne : s.dma0.count ≠ 1#32 := by
      intro he; rw [he] at hn; simp at hn
    have hr : dmaRun (s.setDseq (pushedSeq (bitsWord (ticksBits o.width (ts.take k))) s.dseq)) =
        afterWords s a [bitsWord (ticksBits o.width (ts.take k))] := by
      have := dmaRun_word (s := s.setDseq (pushedSeq (bitsWord (ticksBits o.width (ts.take k))) s.dseq))
        (a := a) (v := bitsWord (ticksBits o.width (ts.take k))) h.dma hb hd (by rw [hp]; rfl)
      rw [this, hp]
      simp [afterWords, State.setDseq, Memory.writeWords, hb, hne]
    have hcnt : (s.dma0.count - 1#32).toNat = s.dma0.count.toNat - 1 := by
      rw [BitVec.toNat_sub]; simp; omega
    rw [hr, ih (a := a + 4#32) (ts := ts.drop k) h.afterWords hm hf hb rfl rfl h2
      (by simp only [afterWords, List.length_singleton]; omega)
      (by simp only [afterWords, List.length_singleton]; rw [show BitVec.ofNat 32 1 = 1#32 from rfl, hcnt]; omega),
      afterWords_cons]
    have hbits : ticksBits o.width ts = ticksBits o.width (ts.take k) ++ ticksBits o.width (ts.drop k) := by
      rw [← ticksBits_append, List.take_append_drop]
    have hlen : (ticksBits o.width (ts.take k)).length = 32 := by rw [ticksBits_length]; exact h1
    rw [packWords_succ, hbits, List.take_left' hlen, List.drop_left' hlen]

/-! ## A whole transfer, and the descriptor after it -/

/-- The state in which a transfer of DMA0 has just ended, before DMA1 is triggered. -/
def transferred (s : State) (a : Word) (ws : List Word) : State :=
  { afterWords s a ws with
    dma0 := { (afterWords s a ws).dma0 with busy := false } }

theorem afterWords_snoc (s : State) (a v : Word) (ws : List Word) :
    afterWords (afterWords s a ws) (a + BitVec.ofNat 32 (4 * ws.length)) [v] = afterWords s a (ws ++ [v]) := by
  have hcount : s.dma0.count - BitVec.ofNat 32 ws.length - BitVec.ofNat 32 1 =
      s.dma0.count - BitVec.ofNat 32 (ws.length + 1) := by
    apply BitVec.eq_of_toNat_eq
    simp only [BitVec.toNat_sub, BitVec.toNat_ofNat]
    omega
  have haddr : a + BitVec.ofNat 32 (4 * ws.length) + BitVec.ofNat 32 (4 * 1) = a + BitVec.ofNat 32 (4 * (ws.length + 1)) := by
    rw [word_add_assoc]; rfl
  have hbits : s.dseq.bitsLeft - 32 * ws.length - 32 * 1 = s.dseq.bitsLeft - 32 * (ws.length + 1) := by omega
  simp only [afterWords, List.length_append, List.length_cons, List.length_nil, Nat.zero_add, List.map_append,
    Memory.writeWords_append, List.length_map, hcount, haddr, hbits, List.map_cons, List.map_nil]
  simp

/-- The CLK periods of a whole transfer: its words land, then DMA1 is triggered. -/
theorem awaitBlocks_transfer {o : ReadOp} {fed : Nat} {s : State} {a : Word} {n : Nat} {ts rest : List Tick}
    (h : Receiving o.width s) (hm : s.dseq.mode = .recvShift) (hf : NoFeed o fed s) (hb : s.dma0.busy = true)
    (hd : s.dma0.dst = .mem a) (hc : s.dseq.isrCount = 0) (hts : ts.length * o.width.lines = 32 * n)
    (hl : 32 * n ≤ s.dseq.bitsLeft) (hn : s.dma0.count = BitVec.ofNat 32 n) (hpos : 0 < n) (hsmall : n < 2 ^ 32) :
    awaitBlocks o (ts ++ rest) fed s =
      awaitBlocks o rest fed (dma1Trigger (transferred s a (packWords n (ticksBits o.width ts)))) := by
  have hlp : o.width.lines ∣ 32 ∧ 0 < o.width.lines := by cases o.width <;> decide
  obtain ⟨⟨k, hk⟩, hlp⟩ := hlp
  obtain ⟨m, rfl⟩ : ∃ m, n = m + 1 := ⟨n - 1, by omega⟩
  have hlen : ts.length = k * (m + 1) := by
    apply Nat.eq_of_mul_eq_mul_right hlp
    rw [hts, Nat.mul_right_comm, Nat.mul_comm k, ← hk]
  have h1 : (ts.take (k * m)).length * o.width.lines = 32 * m := by
    rw [List.length_take, hlen, Nat.min_eq_left (Nat.mul_le_mul_left k (by omega)), Nat.mul_right_comm,
      Nat.mul_comm k, ← hk]
  have h2 : (ts.drop (k * m)).length * o.width.lines = 32 := by
    rw [List.length_drop, hlen, Nat.mul_add, Nat.mul_one, Nat.add_sub_cancel_left, Nat.mul_comm, ← hk]
  have hcnt : s.dma0.count.toNat = m + 1 := by rw [hn]; simp; omega
  conv_lhs => rw [← List.take_append_drop (k * m) ts]
  have hbits : ticksBits o.width ts = ticksBits o.width (ts.take (k * m)) ++ ticksBits o.width (ts.drop (k * m)) := by
    rw [← ticksBits_append, List.take_append_drop]
  have hl1 : (ticksBits o.width (ts.take (k * m))).length = 32 * m := by rw [ticksBits_length]; exact h1
  have hl2 : (ticksBits o.width (ts.drop (k * m))).length = 32 := by rw [ticksBits_length]; exact h2
  have hpk : packWords (m + 1) (ticksBits o.width ts) = packWords m (ticksBits o.width (ts.take (k * m))) ++
      [bitsWord (ticksBits o.width (ts.drop (k * m)))] := by
    rw [packWords_snoc, hbits, packWords_append _ (by omega), List.drop_left' hl1,
      List.take_of_length_le (l := ticksBits o.width (ts.drop (k * m))) (by omega)]
  rw [List.append_assoc, awaitBlocks_words h hm hf hb hd hc h1 (by omega) (by omega),
    awaitBlocks_word h.afterWords hm hf hb rfl h2 (by simp [afterWords]; omega)]
  congr 1
  generalize hws : packWords m (ticksBits o.width (ts.take (k * m))) = ws at *
  have hwl : ws.length = m := by rw [← hws]; simp
  generalize hv : bitsWord (ticksBits o.width (ts.drop (k * m))) = v at *
  have hone : (afterWords s a ws).dma0.count = 1#32 := by
    simp only [afterWords, hn, hwl]
    apply BitVec.eq_of_toNat_eq
    simp only [BitVec.toNat_sub, BitVec.toNat_ofNat]
    omega
  have hR := (h.afterWords (a := a) (ws := ws)).dma
  have := dmaRun_word (s := (afterWords s a ws).setDseq (pushedSeq v (afterWords s a ws).dseq))
    (a := a + BitVec.ofNat 32 (4 * ws.length)) (v := v) hR hb rfl rfl
  rw [this, State.setDseq_dma0, hone, hpk, transferred, ← afterWords_snoc]
  simp only [if_true]
  congr 1
  have hz : BitVec.ofNat 32 (m + 1) - BitVec.ofNat 32 m - 1#32 = 0#32 := by
    apply BitVec.eq_of_toNat_eq
    simp only [BitVec.toNat_sub, BitVec.toNat_ofNat]
    omega
  simp [afterWords, pushedSeq, State.setDseq, hwl, hn, hz, Memory.writeWords]

/-! ## A block -/

theorem ticksBits_dataTicks (w : Width) (bs : List Byte) : ticksBits w (dataTicks w bs) = bytesBits bs := by
  cases w with
  | one =>
    simp only [ticksBits, dataTicks, List.flatMap_map]
    have : ∀ b, tickBits .one (Tick.onDat0 b) = [b] := by
      intro b; cases b <;> rfl
    simp [this]
  | four =>
    induction bs with
    | nil => rfl
    | cons b bs ih =>
      have h1 : ticksBits .four (dataTicks .four (b :: bs)) =
          (tickBits .four (Tick.onDat (b.extractLsb' 4 4)) ++ tickBits .four (Tick.onDat (b.extractLsb' 0 4))) ++
            ticksBits .four (dataTicks .four bs) := by
        simp [ticksBits, dataTicks, byteNibbles]
      rw [h1, ih, bytesBits_cons]
      congr 1
      simp [tickBits, Tick.onDat, byteBits]

theorem dataTicks_append (w : Width) (bs cs : List Byte) : dataTicks w (bs ++ cs) = dataTicks w bs ++ dataTicks w cs := by
  cases w <;> simp [dataTicks, bytesBits_append]

theorem dataTicks_length (w : Width) (bs : List Byte) : (dataTicks w bs).length * w.lines = 8 * bs.length := by
  have := congrArg List.length (ticksBits_dataTicks w bs)
  rwa [ticksBits_length, bytesBits_length] at this

/-- The words of a transfer whose bits are those of some bytes land as those bytes. -/
theorem writeWords_packed {m : Memory} {a : Word} {n : Nat} {bs : List Byte} (h : bs.length = 4 * n) :
    m.writeWords a ((packWords n (bytesBits bs)).map bswap32) = m.writeBytes a bs := by
  rw [Memory.writeWords_eq, wordsBytesLE_map_bswap32, wordsBytesBE_packWords h]

/-- DMA1 triggered with the pair `(d, c)` at its pointer (R176). -/
theorem dma1Trigger_pair {s : State} {d c : Word} (hd : s.mem.readWord s.dma1.rd = d)
    (hc : s.mem.readWord (s.dma1.rd + 4#32) = c) (hb : s.dma0.busy = false) :
    dma1Trigger s = { s with
      dma0 := { s.dma0 with dst := .mem d, count := c, busy := decide (c ≠ 0#32) }
      dma1 := { s.dma1 with rd := s.dma1.rd + 8#32, busy := s.dma1.busy && decide (c ≠ 0#32) } } := by
  subst hd hc
  unfold dma1Trigger
  by_cases h : s.mem.readWord (s.dma1.rd + 4#32) = 0#32 <;> simp [h, hb]

/-- The state in which the chain waits for a block whose data go to `buf`, with DMA1 at the pair after it. -/
structure AtBlock (o : ReadOp) (buf rd : Word) (s : State) : Prop where
  rx    : Receiving o.width s
  mode  : s.dseq.mode = .recvHunt
  bits  : s.dseq.bitsLeft = o.bits
  count : s.dseq.isrCount = 0
  dst   : s.dma0.dst = .mem buf
  words : s.dma0.count = BitVec.ofNat 32 o.dataWords
  busy  : s.dma0.busy = true
  rd    : s.dma1.rd = rd
  chain : s.dma1.busy = true
  wf    : s.mem.wf = true

/-- The extents of a block's data, of its CRC and of the two pairs read after it lie apart. -/
structure BlockApart (o : ReadOp) (buf rd : Word) : Prop where
  bufIn  : buf.toNat + o.blockLen ≤ 2 ^ 32
  crcIn  : o.crcDst.toNat + 4 * o.width.crcWords ≤ 2 ^ 32
  rdIn   : rd.toNat + 16 ≤ 2 ^ 32
  bufRd  : buf.toNat + o.blockLen ≤ rd.toNat ∨ rd.toNat + 16 ≤ buf.toNat
  crcRd  : o.crcDst.toNat + 4 * o.width.crcWords ≤ rd.toNat ∨ rd.toNat + 16 ≤ o.crcDst.toNat

/-- The two pairs DMA1 reads while a block comes in: its CRC's, then `(d, c)`. -/
structure PairsAt (o : ReadOp) (rd d c : Word) (m : Memory) : Prop where
  crcDst   : m.readWord rd = o.crcDst
  crcWords : m.readWord (rd + 4#32) = BitVec.ofNat 32 o.width.crcWords
  dst      : m.readWord (rd + 8#32) = d
  count    : m.readWord (rd + 12#32) = c

/-- The state after a block has landed: the end bit is still to come. -/
def afterBlock (s : State) (d c isr : Word) (m : Memory) (free : List Word) (freeCount : Nat) : State :=
  { s with
    dseq := { s.dseq with mode := .recvShift, isr := isr, isrCount := 0, bitsLeft := 0, rxf := [] }
    dma0 := { s.dma0 with dst := .mem d, count := c, busy := decide (c ≠ 0#32) }
    dma1 := { s.dma1 with rd := s.dma1.rd + 16#32, busy := decide (c ≠ 0#32) }
    mem := m, free := free, freeCount := freeCount }

theorem ReadOp.dataWords_pos (o : ReadOp) : 0 < o.dataWords ∧ o.dataWords < 2 ^ 32 ∧ o.blockLen = 4 * o.dataWords ∧
    o.bits = 32 * o.dataWords + 16 * o.width.lines := by
  unfold ReadOp.dataWords ReadOp.bits ReadOp.blockLen switchBlockLenBytes blockLenBytes
  split <;> omega

/-- The gap before a block. -/
theorem awaitBlocks_gap {o : ReadOp} {fed n : Nat} {s : State} {rest : List Tick} (h : Receiving o.width s)
    (hm : s.dseq.mode = .recvHunt) (hf : NoFeed o fed s) (hb : s.dma0.busy = true) :
    awaitBlocks o (List.replicate n Tick.quiet ++ rest) fed s = awaitBlocks o rest fed s := by
  induction n with
  | zero => rfl
  | succ n ih => rw [List.replicate_succ, List.cons_append, awaitBlocks_busy hf hb, clkTick_gap h hm rfl, ih]

theorem readWord_writeBytes_apart {m : Memory} (h : m.wf = true) {a b : Word} {bs : List Byte}
    (ha : a.toNat + bs.length ≤ 2 ^ 32) (hb : b.toNat + 4 ≤ 2 ^ 32)
    (hd : a.toNat + bs.length ≤ b.toNat ∨ b.toNat + 4 ≤ a.toNat) : (m.writeBytes a bs).readWord b = m.readWord b :=
  Memory.readWord_congr (Memory.readBytes_writeBytes_apart h ha hb hd)

/-- Storing a block's data keeps the pairs. -/
theorem PairsAt.writeBytes {o : ReadOp} {rd d c a : Word} {m : Memory} {bs : List Byte} (h : PairsAt o rd d c m)
    (hm : m.wf = true) (ha : a.toNat + bs.length ≤ 2 ^ 32) (hr : rd.toNat + 16 ≤ 2 ^ 32)
    (hd : a.toNat + bs.length ≤ rd.toNat ∨ rd.toNat + 16 ≤ a.toNat) : PairsAt o rd d c (m.writeBytes a bs) := by
  have e4 : (rd + 4#32).toNat = rd.toNat + 4 := word_add_toNat (n := 4) (by omega)
  have e8 : (rd + 8#32).toNat = rd.toNat + 8 := word_add_toNat (n := 8) (by omega)
  have e12 : (rd + 12#32).toNat = rd.toNat + 12 := word_add_toNat (n := 12) (by omega)
  constructor
  · rw [readWord_writeBytes_apart hm ha (by omega) (by omega)]; exact h.crcDst
  · rw [readWord_writeBytes_apart hm ha (by omega) (by omega)]; exact h.crcWords
  · rw [readWord_writeBytes_apart hm ha (by omega) (by omega)]; exact h.dst
  · rw [readWord_writeBytes_apart hm ha (by omega) (by omega)]; exact h.count

/-- The end bit's period (R156): whatever is on the lines, nothing is sampled, and the next program begins. -/
theorem clkTick_endBit {w : Width} {s : State} {t : Tick} (h : Receiving w s) (hm : s.dseq.mode = .recvShift)
    (hb : s.dseq.bitsLeft = 0) (hc : s.dseq.isrCount = 0) : clkTick t s = s.setDseq s.dseq.nextProgram := by
  have hq : s.dseq.autopush s.cfg.fifoDepth = s.dseq := by
    unfold Seq.autopush; rw [if_neg (by omega)]
  have hd : dseqTick t s = s.setDseq s.dseq.nextProgram := by
    unfold dseqTick
    rw [hm]
    simp only
    rw [if_pos hb, dseqEnd, hq, if_pos hc]
  rw [clkTick_eq, if_pos h.clock, cseqTick_wait h.cseq, hd,
    dmaRun_empty (s := s.setDseq s.dseq.nextProgram) h.pace (by simp [h.rxf])]

/-- The CLK periods of a block's CRC: its words land, the block's program ends, and DMA1 loads the next pair. -/
theorem awaitBlocks_crc {o : ReadOp} {fed : Nat} {s : State} {buf rd d c : Word} {crc : List Byte} {rest : List Tick}
    (h : Receiving o.width s) (hm : s.dseq.mode = .recvShift) (hf : NoFeed o fed s) (hb : s.dma0.busy = true)
    (hd : s.dma0.dst = .mem o.crcDst) (hn : s.dma0.count = BitVec.ofNat 32 o.width.crcWords) (hi : s.dseq.isrCount = 0)
    (hl : s.dseq.bitsLeft = 16 * o.width.lines) (hrd : s.dma1.rd = rd + 8#32) (hch : s.dma1.busy = true)
    (hp : PairsAt o rd d c s.mem) (hwf : s.mem.wf = true) (ha : BlockApart o buf rd)
    (hc : crc.length = 2 * o.width.lines) :
    ∃ isr free freeCount pad, pad.length = 4 * o.width.crcWords - 2 * o.width.lines ∧
      awaitBlocks o (dataTicks o.width crc ++ rest) fed s = awaitBlocks o rest fed { s with
        dseq := { s.dseq with isr := isr, isrCount := 0, bitsLeft := 0, rxf := [] }
        dma0 := { s.dma0 with dst := .mem d, count := c, busy := decide (c ≠ 0#32) }
        dma1 := { s.dma1 with rd := rd + 16#32, busy := decide (c ≠ 0#32) }
        mem := s.mem.writeBytes o.crcDst (crc ++ pad), free := free, freeCount := freeCount } := by
  have hadd : rd + 8#32 + 4#32 = rd + 12#32 := by rw [BitVec.add_assoc]; rfl
  have hadd' : rd + 8#32 + 8#32 = rd + 16#32 := by rw [BitVec.add_assoc]; rfl
  have hci := ha.crcIn
  have hcr := ha.crcRd
  have htl : (dataTicks o.width crc).length * o.width.lines = 16 * o.width.lines := by rw [dataTicks_length, hc]; omega
  by_cases hw : o.width = .four
  · -- two whole words
    have h4 : o.width.crcWords = 2 ∧ o.width.lines = 4 := by rw [hw]; exact ⟨rfl, rfl⟩
    obtain ⟨hw2, hl4⟩ := h4
    have htr := awaitBlocks_transfer (o := o) (fed := fed) (s := s) (a := o.crcDst) (n := 2)
      (ts := dataTicks o.width crc) (rest := rest) h hm hf hb hd hi (by omega) (by omega) (by rw [hn, hw2]) (by decide)
      (by decide)
    rw [ticksBits_dataTicks] at htr
    have hmem : (transferred s o.crcDst (packWords 2 (bytesBits crc))).mem = s.mem.writeBytes o.crcDst crc :=
      writeWords_packed (by omega)
    have hP : PairsAt o rd d c (transferred s o.crcDst (packWords 2 (bytesBits crc))).mem := by
      rw [hmem]; exact hp.writeBytes hwf (by omega) ha.rdIn (by omega)
    have hrd' : (transferred s o.crcDst (packWords 2 (bytesBits crc))).dma1 = s.dma1 := rfl
    have htrig := dma1Trigger_pair (s := transferred s o.crcDst (packWords 2 (bytesBits crc))) (d := d) (c := c)
      (by rw [hrd', hrd]; exact hP.dst) (by rw [hrd', hrd, hadd]; exact hP.count) rfl
    refine ⟨(packWords 2 (bytesBits crc)).getLastD s.dseq.isr, s.free, s.freeCount, [], by simp; omega, ?_⟩
    rw [htr, htrig, hmem, hrd', hrd, hadd', hch]
    simp [transferred, afterWords, hl, hl4]
  · -- a partial word
    have hw : o.width = .one := by cases hw' : o.width <;> simp_all
    have h1 : o.width.crcWords = 1 ∧ o.width.lines = 1 := by rw [hw]; exact ⟨rfl, rfl⟩
    obtain ⟨hw1, hl1⟩ := h1
    rw [hl1] at htl
    have hne : dataTicks o.width crc ≠ [] := by intro he; rw [he] at htl; simp at htl
    obtain ⟨us, t, hut⟩ : ∃ us t, dataTicks o.width crc = us ++ [t] :=
      ⟨_, _, (List.dropLast_append_getLast hne).symm⟩
    have hul : us.length = 15 := by
      have := congrArg List.length hut
      simp only [List.length_append, List.length_singleton] at this
      omega
    have hbits : ticksBits o.width us ++ tickBits o.width t = bytesBits crc := by
      rw [← ticksBits_dataTicks o.width crc, hut, ticksBits_append]
      simp [ticksBits]
    have hq : (partSeq (ticksBits o.width us) s.dseq).isrCount = 15 := by simp [partSeq, hi, hul, hl1]
    have hq' : (partSeq (ticksBits o.width us) s.dseq).bitsLeft = 1 := by simp [partSeq, hl, hul, hl1]
    rw [hut, List.append_assoc, awaitBlocks_inWord h hm hf hb (by rw [hi, hul, hl1]; decide)
      (by rw [hul, hl, hl1]; decide), List.singleton_append,
      awaitBlocks_busy (s := s.setDseq (partSeq (ticksBits o.width us) s.dseq)) hf hb,
      clkTick_partial (h.setDseq (q := partSeq (ticksBits o.width us) s.dseq) h.rxf) hm
        (by rw [State.setDseq_dseq, hq, hl1]; decide) (by rw [State.setDseq_dseq, hq', hl1])]
    rw [State.setDseq_dseq, hq, hl1]
    have hdv : (s.setDseq (partSeq (ticksBits o.width us) s.dseq)).drawValue = s.drawValue := rfl
    have hdr : (s.setDseq (partSeq (ticksBits o.width us) s.dseq)).drawn =
        s.drawn.setDseq (partSeq (ticksBits o.width us) s.dseq) := by
      unfold State.drawn; cases hf : s.free <;> simp [State.setDseq, hf]
    rw [hdv, hdr]
    have hv : shiftBits (partSeq (ticksBits o.width us) s.dseq).isr
        (tickBits o.width t ++ (wordBits s.drawValue).take (32 - (15 + 1))) =
        bitsWord (bytesBits crc ++ (wordBits s.drawValue).take 16) := by
      rw [show (partSeq (ticksBits o.width us) s.dseq).isr = shiftBits s.dseq.isr (ticksBits o.width us) from rfl,
        ← shiftBits_append, ← List.append_assoc, hbits]
      exact shiftBits_full _ (by simp; omega)
    rw [hv]
    generalize hV : bitsWord (bytesBits crc ++ (wordBits s.drawValue).take 16) = v
    have hrun := dmaRun_word (s := (s.drawn.setDseq (partSeq (ticksBits o.width us) s.dseq)).setDseq
        { partSeq (ticksBits o.width us) s.dseq with
          isr := v, isrCount := 0, bitsLeft := 0, rxf := [v] }) (a := o.crcDst) (v := v)
      (by simpa using h.dma) (by simpa using hb) (by simpa using hd) (by simp)
    obtain ⟨pad, hpl, hpb⟩ := exists_bytesBits (n := 2) (bs := (wordBits s.drawValue).take 16) (by simp)
    have hmem : s.mem.writeWord o.crcDst (bswap32 v) = s.mem.writeBytes o.crcDst (crc ++ pad) := by
      rw [← Memory.writeWords_singleton, show [bswap32 v] = (packWords 1 (bytesBits (crc ++ pad))).map bswap32 by
        rw [packWords_succ, bytesBits_append, hpb, List.take_of_length_le (by simp; omega), hV]
        rfl]
      exact writeWords_packed (by simp; omega)
    have hone : s.dma0.count = 1#32 := by rw [hn, hw1]
    have hP : PairsAt o rd d c (s.mem.writeBytes o.crcDst (crc ++ pad)) :=
      hp.writeBytes hwf (by simp; omega) ha.rdIn (by simp; omega)
    refine ⟨v, s.drawn.free, s.drawn.freeCount, pad, by omega, ?_⟩
    simp only [State.setDseq_dma0, State.drawn_dma0, hone] at hrun
    rw [hrun, if_pos trivial]
    rw [dma1Trigger_pair (d := d) (c := c) (by simp [hrd, hmem]; exact hP.dst)
      (by simp [hrd, hmem, hadd]; exact hP.count) (by simp)]
    congr 1
    simp [State.setDseq, partSeq, hmem, hrd, hadd', hch]

/-- The CLK periods of a whole block, up to its end bit. -/
theorem awaitBlocks_block {o : ReadOp} {fed : Nat} {s : State} {buf rd d c : Word} {data crc : List Byte} {n : Nat}
    {rest : List Tick} (h : AtBlock o buf rd s) (hf : NoFeed o fed s) (ha : BlockApart o buf rd)
    (hp : PairsAt o rd d c s.mem) (hd : data.length = o.blockLen) (hc : crc.length = 2 * o.width.lines) :
    ∃ isr free freeCount pad, pad.length = 4 * o.width.crcWords - 2 * o.width.lines ∧
      awaitBlocks o (List.replicate n Tick.quiet ++ startTick o.width :: (dataTicks o.width (data ++ crc) ++ rest)) fed s =
        awaitBlocks o rest fed (afterBlock s d c isr ((s.mem.writeBytes buf data).writeBytes o.crcDst (crc ++ pad))
          free freeCount) := by
  obtain ⟨hpos, hsmall, hlen, hbits⟩ := o.dataWords_pos
  have hlp : 0 < o.width.lines := by cases o.width <;> decide
  have hstart : (startTick o.width).dat.getLsbD 0 = false := by cases o.width <;> rfl
  rw [awaitBlocks_gap h.rx h.mode hf h.busy, awaitBlocks_busy hf h.busy, clkTick_start h.rx h.mode hstart,
    dataTicks_append, List.append_assoc]
  have hR : Receiving o.width (s.setDseq { s.dseq with mode := .recvShift }) :=
    h.rx.setDseq (q := { s.dseq with mode := .recvShift }) h.rx.rxf
  have htr := awaitBlocks_transfer (o := o) (fed := fed) (s := s.setDseq { s.dseq with mode := .recvShift }) (a := buf)
    (n := o.dataWords) (ts := dataTicks o.width data) (rest := dataTicks o.width crc ++ rest) hR rfl hf h.busy h.dst
    h.count (by rw [dataTicks_length, hd, hlen]; omega) (by simp [h.bits]; omega) h.words hpos hsmall
  rw [ticksBits_dataTicks] at htr
  have hcw : BitVec.ofNat 32 o.width.crcWords ≠ 0#32 := by cases o.width <;> decide
  have hmem : (transferred (s.setDseq { s.dseq with mode := .recvShift }) buf
      (packWords o.dataWords (bytesBits data))).mem = s.mem.writeBytes buf data := writeWords_packed (by omega)
  have hP : PairsAt o rd d c (s.mem.writeBytes buf data) :=
    hp.writeBytes h.wf (by rw [hd]; exact ha.bufIn) ha.rdIn (by rw [hd]; exact ha.bufRd)
  have hrd' : (transferred (s.setDseq { s.dseq with mode := .recvShift }) buf
      (packWords o.dataWords (bytesBits data))).dma1 = s.dma1 := rfl
  have htrig := dma1Trigger_pair (s := transferred (s.setDseq { s.dseq with mode := .recvShift }) buf
      (packWords o.dataWords (bytesBits data))) (d := o.crcDst) (c := BitVec.ofNat 32 o.width.crcWords)
    (by rw [hrd', h.rd, hmem]; exact hP.crcDst) (by rw [hrd', h.rd, hmem]; exact hP.crcWords) rfl
  rw [htr, htrig]
  have hne : ¬ (o.bits = 32 * o.dataWords) := by omega
  have hsub : o.bits - 32 * o.dataWords = 16 * o.width.lines := by omega
  generalize hU : ({ transferred (s.setDseq { s.dseq with mode := .recvShift }) buf
      (packWords o.dataWords (bytesBits data)) with dma0 := _, dma1 := _ } : State) = U
  have hUeq : U = { s with
      dseq := { s.dseq with
        mode := .recvShift, isr := (packWords o.dataWords (bytesBits data)).getLastD s.dseq.isr, isrCount := 0,
        bitsLeft := 16 * o.width.lines, rxf := [] }
      dma0 := { s.dma0 with dst := .mem o.crcDst, count := BitVec.ofNat 32 o.width.crcWords, busy := true }
      dma1 := { s.dma1 with rd := rd + 8#32, busy := true }
      mem := s.mem.writeBytes buf data } := by
    rw [← hU, hrd', h.rd, h.chain, ← hmem]
    simp [transferred, afterWords, h.bits, hsub, hcw, State.setDseq]
  subst hUeq
  obtain ⟨isr, f, fc, pad, hpl, he⟩ := awaitBlocks_crc (o := o) (fed := fed) (buf := buf) (rd := rd) (d := d) (c := c)
    (crc := crc) (rest := rest) (s := { s with
      dseq := { s.dseq with
        mode := .recvShift, isr := (packWords o.dataWords (bytesBits data)).getLastD s.dseq.isr, isrCount := 0,
        bitsLeft := 16 * o.width.lines, rxf := [] }
      dma0 := { s.dma0 with dst := .mem o.crcDst, count := BitVec.ofNat 32 o.width.crcWords, busy := true }
      dma1 := { s.dma1 with rd := rd + 8#32, busy := true }
      mem := s.mem.writeBytes buf data })
    ⟨h.rx.clock, h.rx.cseq, h.rx.lanes, rfl, h.rx.room, by simp only; rw [h.rx.dma]⟩ rfl hf rfl rfl rfl rfl rfl rfl rfl hP
    (Memory.wf_writeBytes h.wf _ _) ha hc
  refine ⟨isr, f, fc, pad, hpl, ?_⟩
  rw [he]
  congr 1
  simp only [afterBlock, h.rd]

end Sys2Proof.Machine
end

