-- ==== Sys2Proof/Laws/Read.lean ====
section
/-! SUPPORT. READ_BLOCK (spec/44_block_transfer.md R210 to R219) with a card that sends its blocks: the data land where the
descriptor table says. -/

namespace Sys2Proof.Machine

/-! ## The chain over several blocks -/

theorem TableAt.writeBytes {o : ReadOp} {table a : Word} {m : Memory} {bs : List Byte} (h : TableAt o table m)
    (hm : m.wf = true) (ha : a.toNat + bs.length ≤ 2 ^ 32) (hr : table.toNat + (16 * o.count + 8) ≤ 2 ^ 32)
    (hd : a.toNat + bs.length ≤ table.toNat ∨ table.toNat + (16 * o.count + 8) ≤ a.toNat) :
    TableAt o table (m.writeBytes a bs) := by
  have e : ∀ k, k + 4 ≤ 16 * o.count + 8 → (table + BitVec.ofNat 32 k).toNat = table.toNat + k := fun k hk =>
    word_add_toNat (by omega)
  have r : ∀ k, k + 4 ≤ 16 * o.count + 8 →
      (m.writeBytes a bs).readWord (table + BitVec.ofNat 32 k) = m.readWord (table + BitVec.ofNat 32 k) := fun k hk =>
    readWord_writeBytes_apart hm ha (by rw [e k hk]; omega) (by rw [e k hk]; omega)
  constructor
  · intro j hj; rw [r _ (by omega)]; exact h.dst j hj
  · intro j hj; rw [r _ (by omega)]; exact h.words j hj
  · intro j hj; rw [r _ (by omega)]; exact h.crcDst j hj
  · intro j hj; rw [r _ (by omega)]; exact h.crcWords j hj
  · rw [r _ (by omega)]; exact h.last

/-- Memory after some blocks have landed, the first as block `j`, each with the bytes left at the CRC destination. -/
def landed (o : ReadOp) : Nat → List (List Byte × List Byte) → Memory → Memory
  | _, [], m => m
  | j, (data, crc) :: bs, m => landed o (j + 1) bs ((m.writeBytes (o.bufferAt j) data).writeBytes o.crcDst crc)

theorem ReadOp.bufferAt_toNat {o : ReadOp} {table : Word} (h : ReadApart o table) {j : Nat} (hj : j < o.count) :
    (o.bufferAt j).toNat = o.buffer.toNat + j * o.blockLen ∧ j * o.blockLen + o.blockLen ≤ o.count * o.blockLen := by
  obtain ⟨hpos, -, hlen, -⟩ := o.dataWords_pos
  have h1 : j * o.blockLen + o.blockLen ≤ o.count * o.blockLen := by
    rw [← Nat.succ_mul]; exact Nat.mul_le_mul_right _ hj
  have := h.bufIn
  exact ⟨word_add_toNat (by omega), h1⟩

/-- What DSEQ and the channels have become when only the receive path has worked. -/
structure ReadDone (s u : State) (m : Memory) : Prop where
  same : ∃ q d0 d1 free freeCount, u = { s with
    dseq := q, dma0 := d0, dma1 := d1, mem := m, free := free, freeCount := freeCount } ∧
    q = { s.dseq with
      mode := q.mode, bitsLeft := q.bitsLeft, armed := q.armed, isr := q.isr, isrCount := q.isrCount,
      osrCount := q.osrCount, dir := q.dir, rxf := [] } ∧
    q.mode ≠ .unprogrammed ∧
    d0 = { s.dma0 with dst := d0.dst, count := d0.count, busy := false } ∧
    d1 = { s.dma1 with rd := d1.rd, busy := false }

theorem seq_nextProgram_nil {q : Seq} (h : q.armed = []) : q.nextProgram = { q with mode := .wait } := by
  unfold Seq.nextProgram; rw [h]

theorem seq_nextProgram_recv {q : Seq} {n : Nat} (h : q.armed = [.recv n]) :
    q.nextProgram =
      { q with armed := [], mode := .recvHunt, dir := .input, bitsLeft := n, osrCount := 0, isrCount := 0 } := by
  unfold Seq.nextProgram; rw [h]; rfl

/-- Feeding twice at once is feeding once. -/
theorem awaitBlocks_feed {o : ReadOp} {fed : Nat} {s : State} (ts : List Tick) :
    awaitBlocks o ts (feedOne o fed s).1 (feedOne o fed s).2 = awaitBlocks o ts fed s := by
  have h : feedOne o (feedOne o fed s).1 (feedOne o fed s).2 = feedOne o fed s := by
    by_cases hf : fed + 1 < o.count ∧ s.dseq.armed = []
    · have h1 : feedOne o fed s = (fed + 1, s.setDseq (s.dseq.arm (.recv o.bits))) := by unfold feedOne; rw [if_pos hf]
      have h2 : (s.dseq.arm (.recv o.bits)).armed ≠ [] := by
        unfold Seq.arm Seq.armRoom
        rw [hf.2]
        split <;> simp
      rw [h1, feedOne_none]
      intro hn
      exact h2 hn.2
    · have h1 : feedOne o fed s = (fed, s) := by unfold feedOne; rw [if_neg hf]
      rw [h1]; exact h1
  cases ts with
  | nil => simp only [awaitBlocks, h]
  | cons t ts => simp only [awaitBlocks, h]

/-- A card that sends the remaining blocks ends the wait. -/
theorem awaitBlocks_blocks {o : ReadOp} {table : Word} {bs : List CardBlock} {j fed : Nat} {s : State} {rest : List Tick}
    (ha : ReadApart o table) (hbs : ∀ b ∈ bs, b.data.length = o.blockLen ∧ b.crc.length = 2 * o.width.lines)
    (hne : bs ≠ []) (hj : j + bs.length = o.count)
    (h : AtBlock o (o.bufferAt j) (table + BitVec.ofNat 32 (16 * j + 8)) s) (ht : TableAt o table s.mem)
    (hf : fed = min j (o.count - 1)) (harm : s.dseq.armed = []) :
    ∃ u crcs, crcs.length = bs.length ∧ (∀ c ∈ crcs, c.length = 4 * o.width.crcWords) ∧
      (∀ i < bs.length, (bs.getD i ⟨0, [], [], Tick.quiet⟩).crc <+: crcs.getD i []) ∧
      ReadDone s u (landed o j ((bs.map CardBlock.data).zip crcs) s.mem) ∧
      awaitBlocks o (bs.flatMap (CardBlock.ticks o.width) ++ rest) fed s = (true, o.count - 1, u.setPhase .rdWait) := by
  obtain ⟨hpos, hsmall, hlen, hbits⟩ := o.dataWords_pos
  induction bs generalizing j fed s with
  | nil => exact absurd rfl hne
  | cons b bs ih =>
    obtain ⟨hbd, hbc⟩ := hbs b (by simp)
    rw [List.length_cons] at hj
    obtain ⟨hbuf, hble⟩ := ReadOp.bufferAt_toNat ha (j := j) (by omega)
    have hb1 := ha.bufIn; have hb2 := ha.crcIn; have hb3 := ha.tableIn; have hb4 := ha.bufTable; have hb5 := ha.crcTable
    have hrd : (table + BitVec.ofNat 32 (16 * j + 8)).toNat = table.toNat + (16 * j + 8) := word_add_toNat (by omega)
    have hapart : BlockApart o (o.bufferAt j) (table + BitVec.ofNat 32 (16 * j + 8)) := by
      constructor <;> omega
    -- feeding
    rw [← awaitBlocks_feed]
    have hfeed : feedOne o fed s = (min (j + 1) (o.count - 1),
        if j + 1 < o.count then s.setDseq { s.dseq with armed := [.recv o.bits] } else s) := by
      unfold feedOne
      by_cases hm : j + 1 < o.count
      · rw [if_pos ⟨by omega, harm⟩, if_pos hm]
        have : s.dseq.arm (.recv o.bits) = { s.dseq with armed := [.recv o.bits] } := by
          unfold Seq.arm Seq.armRoom
          simp [harm]
        rw [this]
        congr 1; omega
      · rw [if_neg (by omega), if_neg hm]
        congr 1; omega
    rw [hfeed]
    simp only
    generalize hs1 : (if j + 1 < o.count then s.setDseq { s.dseq with armed := [.recv o.bits] } else s) = s1
    have hs1eq : s1 = s.setDseq { s.dseq with armed := if j + 1 < o.count then [.recv o.bits] else [] } := by
      rw [← hs1]; split
      · rfl
      · rw [← harm]; rfl
    have hA : AtBlock o (o.bufferAt j) (table + BitVec.ofNat 32 (16 * j + 8)) s1 := by
      rw [hs1eq]
      exact ⟨h.rx.setDseq h.rx.rxf, h.mode, h.bits, h.count, h.dst, h.words, h.busy, h.rd, h.chain, h.wf⟩
    have hmem1 : s1.mem = s.mem := by rw [hs1eq]; rfl
    have hNF : NoFeed o (min (j + 1) (o.count - 1)) s1 := by
      rw [hs1eq]
      intro hn
      have := hn.2
      simp only [State.setDseq_dseq] at this
      split at this
      · exact absurd this (by simp)
      · have := hn.1; omega
    have hpairs : PairsAt o (table + BitVec.ofNat 32 (16 * j + 8))
        (s.mem.readWord (table + BitVec.ofNat 32 (16 * (j + 1))))
        (if j + 1 < o.count then BitVec.ofNat 32 o.dataWords else 0#32) s1.mem := by
      rw [hmem1]
      refine ⟨ht.crcDst j (by omega), ?_, ?_, ?_⟩
      · rw [show (4#32 : Word) = BitVec.ofNat 32 4 from rfl, word_add_assoc]; exact ht.crcWords j (by omega)
      · rw [show (8#32 : Word) = BitVec.ofNat 32 8 from rfl, word_add_assoc]
        congr 2
      · rw [show (12#32 : Word) = BitVec.ofNat 32 12 from rfl, word_add_assoc,
          show 16 * j + 8 + 12 = 16 * (j + 1) + 4 by omega]
        split
        · exact ht.words (j + 1) (by omega)
        · rw [show j + 1 = o.count by omega]; exact ht.last
    have hflat : (b :: bs).flatMap (CardBlock.ticks o.width) ++ rest =
        List.replicate b.gap Tick.quiet ++ startTick o.width :: (dataTicks o.width (b.data ++ b.crc) ++
          (b.endBit :: (bs.flatMap (CardBlock.ticks o.width) ++ rest))) := by
      simp [CardBlock.ticks]
    obtain ⟨isr, f, fc, pad, hpl, he⟩ := awaitBlocks_block (n := b.gap)
      (rest := b.endBit :: (bs.flatMap (CardBlock.ticks o.width) ++ rest)) hA hNF hapart hpairs hbd hbc
    rw [hflat, he]
    have hcl : (b.crc ++ pad).length = 4 * o.width.crcWords := by
      rw [List.length_append, hbc, hpl]
      cases o.width <;> decide
    have hm1 : (s.mem.writeBytes (o.bufferAt j) b.data).wf = true := Memory.wf_writeBytes h.wf _ _
    have ht' : TableAt o table ((s.mem.writeBytes (o.bufferAt j) b.data).writeBytes o.crcDst (b.crc ++ pad)) := by
      refine (ht.writeBytes h.wf ?_ hb3 ?_).writeBytes hm1 ?_ hb3 ?_ <;> omega
    cases bs with
    | nil =>
      simp only [List.length_nil, Nat.zero_add] at hj
      have hlast : ¬ (j + 1 < o.count) := by omega
      rw [if_neg hlast]
      generalize hu : afterBlock s1 _ _ _ _ _ _ = u
      refine ⟨u, [b.crc ++ pad], rfl, by simpa using hcl, by
        intro i hi
        have : i = 0 := by simp at hi; exact hi
        subst this
        simp, ?_, ?_⟩
      · constructor
        refine ⟨u.dseq, u.dma0, u.dma1, u.free, u.freeCount, ?_, ?_, ?_, ?_, ?_⟩
        · rw [← hu, hmem1]; rw [hs1eq]; rfl
        · rw [← hu, hs1eq]; rfl
        · rw [← hu]; simp [afterBlock]
        · rw [← hu, hs1eq]; rfl
        · rw [← hu, hs1eq]; rfl
      · have hidle : u.dmaIdle = true := by rw [← hu]; rfl
        have hfn : NoFeed o (min (j + 1) (o.count - 1)) u := by intro hn; have := hn.1; omega
        rw [awaitBlocks, feedOne_none hfn]
        simp only [hidle, if_true]
        congr 2; omega
    | cons b' bs =>
      rw [List.length_cons] at hj
      have hmore : j + 1 < o.count := by omega
      rw [if_pos hmore]
      generalize hu0 : afterBlock s1 _ _ _ _ _ _ = u0
      have harm1 : s1.dseq.armed = [.recv o.bits] := by rw [hs1eq, if_pos hmore]; rfl
      obtain ⟨u, hu⟩ : ∃ u, u0.setDseq u0.dseq.nextProgram = u := ⟨_, rfl⟩
      have hend : ∀ ts, awaitBlocks o (b.endBit :: ts) (min (j + 1) (o.count - 1)) u0 =
          awaitBlocks o ts (min (j + 1) (o.count - 1)) u := by
        intro ts
        have hb0 : u0.dma0.busy = true := by
          rw [← hu0]
          refine decide_eq_true fun hc => ?_
          have := congrArg BitVec.toNat hc
          simp only [BitVec.toNat_ofNat] at this
          omega
        rw [awaitBlocks_busy (by rw [← hu0]; exact hNF) hb0, ← hu]
        congr 1
        refine clkTick_endBit (w := o.width) ?_ (by rw [← hu0]; rfl) (by rw [← hu0]; rfl) (by rw [← hu0]; rfl)
        rw [← hu0]
        exact ⟨hA.rx.clock, hA.rx.cseq, hA.rx.lanes, rfl, hA.rx.room, by simp only [afterBlock]; rw [hA.rx.dma]⟩
      rw [hend]
      have hud : u.dseq = { s.dseq with
          isr := isr, isrCount := 0, bitsLeft := o.bits, rxf := [], armed := [], mode := .recvHunt, dir := .input,
          osrCount := 0 } := by
        rw [← hu, ← hu0]
        simp only [afterBlock, State.setDseq_dseq]
        rw [seq_nextProgram_recv (n := o.bits) (by simpa using harm1), hs1eq]
        rfl
      have humem : u.mem = (s.mem.writeBytes (o.bufferAt j) b.data).writeBytes o.crcDst (b.crc ++ pad) := by
        rw [← hu, ← hu0, ← hmem1]; rfl
      have hc0 : BitVec.ofNat 32 o.dataWords ≠ 0#32 := by
        intro hc
        have := congrArg BitVec.toNat hc
        simp only [BitVec.toNat_ofNat] at this
        omega
      have hd0 : u.dma0 = { s.dma0 with
          dst := .mem (o.bufferAt (j + 1)), count := BitVec.ofNat 32 o.dataWords, busy := true } := by
        rw [← hu, ← hu0, hs1eq]
        simp only [afterBlock, State.setDseq_dma0, ht.dst (j + 1) hmore]
        simp [hc0]
      have hd1 : u.dma1 = { s.dma1 with rd := table + BitVec.ofNat 32 (16 * (j + 1) + 8), busy := true } := by
        rw [← hu, ← hu0, hs1eq]
        simp only [afterBlock, State.setDseq_dma1, h.rd]
        rw [show (16#32 : Word) = BitVec.ofNat 32 16 from rfl, word_add_assoc]
        simp [hc0]
        congr 1
      have hueq : u = { s with dseq := u.dseq, dma0 := u.dma0, dma1 := u.dma1, mem := u.mem, free := f, freeCount := fc } := by
        rw [← hu, ← hu0, hs1eq]; rfl
      have hux : Receiving o.width u := by
        rw [hueq]
        refine ⟨h.rx.clock, h.rx.cseq, h.rx.lanes, by rw [hud], h.rx.room, ?_⟩
        simp only
        rw [hd0, h.rx.dma]
      have hUA : AtBlock o (o.bufferAt (j + 1)) (table + BitVec.ofNat 32 (16 * (j + 1) + 8)) u := by
        refine ⟨hux, by rw [hud], by rw [hud], by rw [hud], by rw [hd0], by rw [hd0], by rw [hd0], by rw [hd1], by rw [hd1], ?_⟩
        rw [humem]; exact Memory.wf_writeBytes hm1 _ _
      obtain ⟨v, crcs, hcrl, hcra, hcrp, hrd', hev⟩ := ih (j := j + 1) (fed := min (j + 1) (o.count - 1)) (s := u)
        (fun x hx => hbs x (by simp [hx])) (by simp) (by simp; omega) hUA (by rw [humem]; exact ht') rfl (by rw [hud])
      refine ⟨v, (b.crc ++ pad) :: crcs, by simp [hcrl], ?_, ?_, ?_, ?_⟩
      · intro c hc
        rcases List.mem_cons.1 hc with rfl | hc
        · exact hcl
        · exact hcra c hc
      · intro i hi
        cases i with
        | zero => simp
        | succ i => simpa using hcrp i (by simpa using hi)
      · obtain ⟨q, e0, e1, f', fc', hv, hq, hqm, he0, he1⟩ := hrd'.same
        constructor
        refine ⟨q, e0, e1, f', fc', ?_, ?_, hqm, ?_, ?_⟩
        · rw [hv, humem, hueq]; rfl
        · rw [hq, hud]
        · rw [he0, hd0]
        · rw [he1, hd1]
      · exact hev

/-! ## What several blocks leave in memory -/

/-- The data of the blocks one after another, and at the CRC destination the last block's bytes (R216). -/
theorem landed_eq {o : ReadOp} {table : Word} {bs : List (List Byte × List Byte)} {j : Nat} {m : Memory}
    (ha : ReadApart o table) (hm : m.wf = true) (hne : bs ≠ []) (hj : j + bs.length ≤ o.count)
    (hd : ∀ b ∈ bs, b.1.length = o.blockLen ∧ b.2.length = 4 * o.width.crcWords) :
    landed o j bs m =
      (m.writeBytes (o.bufferAt j) (bs.flatMap Prod.fst)).writeBytes o.crcDst (bs.getLastD ([], [])).2 := by
  induction bs generalizing j m with
  | nil => exact absurd rfl hne
  | cons b bs ih =>
    obtain ⟨data, crc⟩ := b
    obtain ⟨hdl, hcl⟩ := hd (data, crc) (by simp)
    simp only at hdl hcl
    rw [List.length_cons] at hj
    obtain ⟨hbuf, hble⟩ := ReadOp.bufferAt_toNat ha (j := j) (by omega)
    have hb1 := ha.bufIn; have hb2 := ha.crcIn; have hb3 := ha.bufCrc
    cases bs with
    | nil => simp [landed]
    | cons b' bs =>
      rw [List.length_cons] at hj
      obtain ⟨hbuf', hble'⟩ := ReadOp.bufferAt_toNat ha (j := j + 1) (by omega)
      have hw : ((m.writeBytes (o.bufferAt j) data).writeBytes o.crcDst crc).wf = true :=
        Memory.wf_writeBytes (Memory.wf_writeBytes hm _ _) _ _
      have hlen : ∀ l : List (List Byte × List Byte), (∀ b ∈ l, b.1.length = o.blockLen ∧ b.2.length = 4 * o.width.crcWords) →
          (l.flatMap Prod.fst).length = l.length * o.blockLen := by
        intro l
        induction l with
        | nil => simp
        | cons x xs ihx =>
          intro hx
          rw [List.flatMap_cons, List.length_append, ihx fun y hy => hx y (by simp [hy]), (hx x (by simp)).1,
            List.length_cons, Nat.succ_mul, Nat.add_comm]
      have hlrest := hlen (b' :: bs) fun x hx => hd x (by simp [hx])
      have htot : (j + 1) * o.blockLen + (b' :: bs).length * o.blockLen ≤ o.count * o.blockLen := by
        rw [← Nat.add_mul]; exact Nat.mul_le_mul_right _ (by simp; omega)
      have hlast : ((b' :: bs).getLastD ([], [])).2.length = 4 * o.width.crcWords := by
        rw [List.getLastD_eq_getLast?, List.getLast?_eq_some_getLast (by simp), Option.getD_some]
        exact (hd _ (by simp [List.mem_cons, List.getLast_mem])).2
      rw [landed, ih hw (by simp) (by simp; omega) fun x hx => hd x (by simp [hx])]
      rw [Memory.writeBytes_comm (m := m.writeBytes (o.bufferAt j) data) (Memory.wf_writeBytes hm _ _) (by omega)
        (by rw [hlrest]; omega) (by rw [hlrest]; omega),
        Memory.writeBytes_writeBytes (Memory.wf_writeBytes (Memory.wf_writeBytes hm _ _) _ _) (by rw [hcl, hlast]) (by omega)]
      have hnext : o.bufferAt (j + 1) = o.bufferAt j + BitVec.ofNat 32 data.length := by
        unfold ReadOp.bufferAt
        rw [word_add_assoc, hdl, Nat.succ_mul]
      rw [hnext, ← Memory.writeBytes_append]
      simp only [List.flatMap_cons, List.getLastD_cons]

/-! ## The table (R210, R213) -/

theorem tablePairs_spec (o : ReadOp) (n : Nat) (buffer : Word) :
    (tablePairs o n buffer).length = 4 * n ∧ ∀ j < n,
      (tablePairs o n buffer)[4 * j]? = some (buffer + BitVec.ofNat 32 (j * o.blockLen)) ∧
      (tablePairs o n buffer)[4 * j + 1]? = some (BitVec.ofNat 32 o.dataWords) ∧
      (tablePairs o n buffer)[4 * j + 2]? = some o.crcDst ∧
      (tablePairs o n buffer)[4 * j + 3]? = some (BitVec.ofNat 32 o.width.crcWords) := by
  induction n generalizing buffer with
  | zero => exact ⟨rfl, fun j hj => absurd hj (by omega)⟩
  | succ n ih =>
    obtain ⟨hl, hg⟩ := ih (buffer + BitVec.ofNat 32 o.blockLen)
    refine ⟨by simp [tablePairs, hl]; omega, fun j hj => ?_⟩
    cases j with
    | zero => simp [tablePairs]
    | succ j =>
      obtain ⟨h0, h1, h2, h3⟩ := hg j (by omega)
      have e : ∀ k, (tablePairs o (n + 1) buffer)[4 * (j + 1) + k]? =
          (tablePairs o n (buffer + BitVec.ofNat 32 o.blockLen))[4 * j + k]? := by
        intro k
        rw [show 4 * (j + 1) + k = 4 * j + k + 1 + 1 + 1 + 1 by omega]
        simp [tablePairs]
      refine ⟨?_, (e 1).trans h1, (e 2).trans h2, (e 3).trans h3⟩
      rw [show 4 * (j + 1) = 4 * (j + 1) + 0 from rfl, e, Nat.add_zero, h0, word_add_assoc, Nat.succ_mul, Nat.add_comm]

/-- RD_TABLE leaves the table in memory. -/
theorem rdTable_tableAt {o : ReadOp} {table : Word} {m : Memory} (hm : m.wf = true) (any : Word)
    (ht : table.toNat + (16 * o.count + 8) ≤ 2 ^ 32) :
    TableAt o table (m.writeWords table (tablePairs o o.count o.buffer ++ [any, 0#32])) := by
  obtain ⟨hl, hg⟩ := tablePairs_spec o o.count o.buffer
  have hlen : (tablePairs o o.count o.buffer ++ [any, 0#32]).length = 4 * o.count + 2 := by simp [hl]
  have r : ∀ i < 4 * o.count + 2, (m.writeWords table (tablePairs o o.count o.buffer ++ [any, 0#32])).readWord
      (table + BitVec.ofNat 32 (4 * i)) = (tablePairs o o.count o.buffer ++ [any, 0#32]).getD i 0#32 := fun i hi =>
    Memory.readWord_writeWords hm (by rw [hlen]; omega) (by omega)
  have g : ∀ i < 4 * o.count, ∀ w, (tablePairs o o.count o.buffer)[i]? = some w →
      (tablePairs o o.count o.buffer ++ [any, 0#32]).getD i 0#32 = w := by
    intro i hi w hw
    rw [List.getD_eq_getElem?_getD, List.getElem?_append_left (by omega), hw]; rfl
  constructor
  · intro j hj
    rw [show 16 * j = 4 * (4 * j) by omega, r _ (by omega)]
    exact g _ (by omega) _ (hg j hj).1
  · intro j hj
    rw [show 16 * j + 4 = 4 * (4 * j + 1) by omega, r _ (by omega)]
    exact g _ (by omega) _ (hg j hj).2.1
  · intro j hj
    rw [show 16 * j + 8 = 4 * (4 * j + 2) by omega, r _ (by omega)]
    exact g _ (by omega) _ (hg j hj).2.2.1
  · intro j hj
    rw [show 16 * j + 12 = 4 * (4 * j + 3) by omega, r _ (by omega)]
    exact g _ (by omega) _ (hg j hj).2.2.2
  · rw [show 16 * o.count + 4 = 4 * (4 * o.count + 1) by omega, r _ (by omega), List.getD_eq_getElem?_getD,
      List.getElem?_append_right (by omega), hl, Nat.add_sub_cancel_left]
    rfl

end Sys2Proof.Machine
end

