-- ==== Sys2Proof/Laws/ReadBlock.lean ====
section
/-! SUPPORT. READ_BLOCK from its start to its return, with a card that answers and sends its blocks
(spec/44_block_transfer.md R210 to R219). -/

namespace Sys2Proof.Machine

/-- What READ_BLOCK needs of the state and of its operands. -/
structure ReadReady (o : ReadOp) (s : State) : Prop where
  send    : Sendable s
  wf      : s.mem.wf = true
  cfg     : s.cfg.wf
  dmode   : s.dseq.mode = .wait
  darmed  : s.dseq.armed = []
  dtxf    : s.dseq.txf = []
  drxf    : s.dseq.rxf = []
  lanes   : s.lanes = o.width
  count   : 1 ≤ o.count ∧ o.count ≤ 32
  apart   : ReadApart o s.cfg.tableAddr
  bufHead : o.buffer.toNat + o.count * o.blockLen ≤ s.cfg.storageBase.toNat ∨ s.cfg.storageBase.toNat + 32 ≤ o.buffer.toNat
  crcHead : o.crcDst.toNat + 4 * o.width.crcWords ≤ s.cfg.storageBase.toNat ∨
    s.cfg.storageBase.toNat + 32 ≤ o.crcDst.toNat

/-! ## Up to the command -/

/-- DSEQ hunting for the first block. -/
def huntingDseq (o : ReadOp) (q : Seq) : Seq :=
  { q with mode := .recvHunt, dir := .input, bitsLeft := o.bits, osrCount := 0, isrCount := 0 }

/-- Memory with the chain-descriptor table in it. -/
def tableMem (o : ReadOp) (s : State) : Memory :=
  s.mem.writeWords s.cfg.tableAddr (tablePairs o o.count o.buffer ++ [s.drawValue, 0#32])

/-- The state in RD_CMD: the table is in memory and DSEQ hunts. -/
def armedState (o : ReadOp) (s : State) : State :=
  { s with phase := .rdCmd, mem := tableMem o s, dseq := huntingDseq o s.dseq,
           free := s.drawn.free, freeCount := s.drawn.freeCount }

theorem rdArm_eq {o : ReadOp} {s : State} (h : ReadReady o s) :
    (rdArm o (rdTable o (s.setPhase .rdCheck))).setPhase .rdCmd = armedState o s := by
  have hd : (s.setPhase .rdCheck).drawn = s.drawn.setPhase .rdCheck := by
    unfold State.drawn; cases hf : s.free <;> simp [State.setPhase, hf]
  have hv : (s.setPhase .rdCheck).drawValue = s.drawValue := rfl
  have hq : (s.dseq.arm (.recv o.bits)).start = huntingDseq o s.dseq := by
    simp [Seq.arm, Seq.armRoom, Seq.start, Seq.begin, h.dmode, h.darmed, huntingDseq]
  rw [rdArm, rdTable, hd, hv, drawn_eq]
  simp [armedState, State.setPhase, State.setMem, State.setDseq, hq, tableMem]

theorem armedState_sendable {o : ReadOp} {s : State} (h : ReadReady o s) : Sendable (armedState o s) :=
  ⟨h.send.clock, h.send.mode, h.send.armed, h.send.txf, h.send.rxf, h.send.room, h.send.dma⟩

theorem tableMem_wf {o : ReadOp} {s : State} (h : ReadReady o s) : (tableMem o s).wf = true := Memory.wf_writeWords h.wf _ _

/-! ## The data phase -/

/-- Memory after the blocks have landed over `m`. -/
def blocksMem (o : ReadOp) (bs : List CardBlock) (last : List Byte) (m : Memory) : Memory :=
  (m.writeBytes o.buffer (bs.flatMap CardBlock.data)).writeBytes o.crcDst last

/-- The state when the data of a READ_BLOCK are in memory, DSEQ and both channels at rest. -/
structure ReadState (s v : State) (m : Memory) (rest : List Turn) (crc : BitVec 8) (ev : List PinEvent) : Prop where
  same : ∃ cq dq d0 d1 f fc, v = { s with
      phase := .rdWait, cseq := cq, dseq := dq, dma0 := d0, dma1 := d1, mem := m, free := f, freeCount := fc
      crc7Reg := crc, history := ev ++ s.history, card := rest, appPrefix := false } ∧
    SeqRest s.cseq cq ∧ SeqRest s.dseq dq ∧ d0.busy = false ∧ d0.claimed = s.dma0.claimed ∧ d1.busy = false ∧
    d1.claimed = s.dma1.claimed

theorem flatMap_data_length {o : ReadOp} {bs : List CardBlock} (h : ∀ b ∈ bs, b.data.length = o.blockLen) :
    (bs.flatMap CardBlock.data).length = bs.length * o.blockLen := by
  induction bs with
  | nil => simp
  | cons x xs ih =>
    rw [List.flatMap_cons, List.length_append, ih fun y hy => h y (by simp [hy]), h x (by simp), List.length_cons,
      Nat.succ_mul, Nat.add_comm]

theorem zip_flatMap_fst (bs : List CardBlock) (crcs : List (List Byte)) (h : crcs.length = bs.length) :
    ((bs.map CardBlock.data).zip crcs).flatMap Prod.fst = bs.flatMap CardBlock.data := by
  induction bs generalizing crcs with
  | nil => simp
  | cons b bs ih =>
    cases crcs with
    | nil => simp at h
    | cons c cs => simp [ih cs (by simpa using h)]

theorem zip_getLastD (bs : List CardBlock) (crcs : List (List Byte)) (hne : bs ≠ []) (h : crcs.length = bs.length) :
    (((bs.map CardBlock.data).zip crcs).getLastD ([], [])).2 = crcs.getD (bs.length - 1) [] := by
  have hl : ((bs.map CardBlock.data).zip crcs).length = bs.length := by simp [h]
  have hpos : 0 < bs.length := List.length_pos_iff.2 hne
  rw [List.getLastD_eq_getLast?, List.getLast?_eq_getElem?, hl, List.getD_eq_getElem?_getD,
    List.getElem?_eq_getElem (by rw [hl]; omega), List.getElem?_eq_getElem (by omega)]
  simp

/-- The state of RD_STREAM when the chain runs: DMA0 waits for the first block's words (R215). -/
def chainState (o : ReadOp) (b : State) : State :=
  { b with
    phase := .rdStream, free := b.drawn.free, freeCount := b.drawn.freeCount
    dma0 := { b.dma0 with
      src := .dseqRxf, dst := .mem (o.bufferAt 0), count := BitVec.ofNat 32 o.dataWords, incSrc := false, incDst := true,
      bswap := true, pace := .dseqRx, chain := .dma1, busy := true }
    dma1 := { b.dma1 with rd := b.cfg.tableAddr + 8#32, busy := true } }

theorem rdStream_start {o : ReadOp} {b : State} (hcount : 1 ≤ o.count) (hrxf : b.dseq.rxf = [])
    (ht : TableAt o b.cfg.tableAddr b.mem) : rdStream o b = readData o b.card 0 (chainState o b) := by
  obtain ⟨hpos, hsmall, hlen, hbits⟩ := o.dataWords_pos
  have h0 := ht.dst 0 (by omega)
  have h1 := ht.words 0 (by omega)
  simp only [Nat.mul_zero, Nat.zero_add] at h0 h1
  have hz : b.cfg.tableAddr + BitVec.ofNat 32 0 = b.cfg.tableAddr := BitVec.add_zero _
  rw [hz] at h0
  have hnz : BitVec.ofNat 32 o.dataWords ≠ 0#32 := by
    intro he
    have := congrArg BitVec.toNat he
    rw [BitVec.toNat_ofNat, Nat.mod_eq_of_lt hsmall] at this
    simp at this; omega
  have hstart : dmaRun (dma1Start b.cfg.tableAddr ((b.drawn.setPhase .rdStream).setDma0
      (b.dma0.config .dseqRxf (.mem b.drawValue) 0#32 false true true .dseqRx .dma1))) = chainState o b := by
    rw [drawn_eq, dma1Start]
    refine (congrArg dmaRun ?_).trans (dmaRun_empty ?_ ?_)
    rotate_left
    · rfl
    · exact hrxf
    refine (dma1Trigger_pair (d := o.bufferAt 0) (c := BitVec.ofNat 32 o.dataWords) ?_ ?_ rfl).trans ?_
    · exact h0
    · exact h1
    · rw [decide_eq_true hnz]; rfl
  unfold rdStream
  simp only [State.setPhase_dma0, State.drawn_dma0, State.setDma0_cfg, State.setPhase_cfg, State.drawn_cfg]
  rw [hstart]
  rfl

/-- RD_STREAM and RD_WAIT with a card that sends the blocks (R215 to R217), from the state in which the command has been
answered. -/
theorem rdStream_blocks {o : ReadOp} {b : State} {bs : List CardBlock} {rest : List Turn}
    (hr : Receiving o.width { b with dma0 := b.dma0.config .dseqRxf (.mem 0#32) 0#32 false true true .dseqRx .dma1 })
    (hmode : b.dseq = huntingDseq o b.dseq) (harm : b.dseq.armed = []) (hdtxf : b.dseq.txf = [])
    (ha : ReadApart o b.cfg.tableAddr) (hm : b.mem.wf = true) (ht : TableAt o b.cfg.tableAddr b.mem)
    (hc : b.card = Turn.blocks o.width bs :: rest) (hn : bs.length = o.count) (hne : bs ≠ [])
    (hbs : ∀ x ∈ bs, x.data.length = o.blockLen ∧ x.crc.length = 2 * o.width.lines) :
    ∃ last q d0 d1 f fc, last.length = 4 * o.width.crcWords ∧ (bs.getLastD ⟨0, [], [], Tick.quiet⟩).crc <+: last ∧
      SeqRest b.dseq q ∧ d0.busy = false ∧ d0.claimed = b.dma0.claimed ∧ d1.busy = false ∧ d1.claimed = b.dma1.claimed ∧
      rdStream o b = rdStop o { b with
        phase := .rdWait, dseq := q, dma0 := d0, dma1 := d1, mem := blocksMem o bs last b.mem, free := f, freeCount := fc
        card := rest } := by
  obtain ⟨hpos, hsmall, hlen, hbits⟩ := o.dataWords_pos
  have hcount : 1 ≤ o.count := by rw [← hn]; exact List.length_pos_iff.2 hne
  rw [rdStream_start (b := b) hcount hr.rxf ht, hc]
  unfold chainState
  simp only [readData]
  -- the wait
  have hticks : ∃ more, (if b.cfg.readDataBounded = true then (Turn.blocks o.width bs).waitTicks o.bits
      else (Turn.blocks o.width bs).ticks) = bs.flatMap (CardBlock.ticks o.width) ++ more := by
    by_cases hb : b.cfg.readDataBounded = true
    · exact ⟨List.replicate o.bits Tick.quiet, by simp [hb, Turn.waitTicks, Turn.blocks]⟩
    · exact ⟨[], by simp [hb, Turn.blocks]⟩
  obtain ⟨more, hmore⟩ := hticks
  rw [hmore]
  have hAt : AtBlock o (o.bufferAt 0) (b.cfg.tableAddr + BitVec.ofNat 32 (16 * 0 + 8)) ({ b with
        phase := .rdStream, free := b.drawn.free, freeCount := b.drawn.freeCount, card := rest
        dma0 := { b.dma0 with
          src := .dseqRxf, dst := .mem (o.bufferAt 0), count := BitVec.ofNat 32 o.dataWords, incSrc := false, incDst := true,
          bswap := true, pace := .dseqRx, chain := .dma1, busy := true }
        dma1 := { b.dma1 with rd := b.cfg.tableAddr + 8#32, busy := true } } : State) := by
    refine ⟨⟨hr.clock, hr.cseq, hr.lanes, hr.rxf, hr.room, rfl⟩, ?_, ?_, ?_, rfl, rfl, rfl, rfl, rfl, hm⟩
    · exact (congrArg Seq.mode hmode).trans rfl
    · exact (congrArg Seq.bitsLeft hmode).trans rfl
    · exact (congrArg Seq.isrCount hmode).trans rfl
  obtain ⟨u, crcs, hcl, hcw, hpre, ⟨q, d0, d1, f, fc, hu, hq, hqm, hd0, hd1⟩, hawait⟩ :=
    awaitBlocks_blocks (rest := more) ha hbs hne (by omega) hAt ht (fed := 0) (by omega) harm
  rw [hawait]
  have hpunctual : (Turn.blocks o.width bs).overdueAtOnce = false := rfl
  simp only [hpunctual, Bool.and_false, Bool.not_false, Bool.and_true, if_true]
  have hlast : (bs.getLastD ⟨0, [], [], Tick.quiet⟩).crc <+: crcs.getD (bs.length - 1) [] := by
    have hl : 0 < bs.length := by omega
    have h := hpre (bs.length - 1) (by omega)
    have he : bs.getLastD ⟨0, [], [], Tick.quiet⟩ = bs.getD (bs.length - 1) ⟨0, [], [], Tick.quiet⟩ := by
      rw [List.getLastD_eq_getLast?, List.getLast?_eq_getElem?, List.getD_eq_getElem?_getD]
    rw [he]; exact h
  refine ⟨crcs.getD (bs.length - 1) [], q.forceWait, d0, d1, f, fc, ?_, hlast, ?_, ?_, ?_, ?_, ?_, ?_⟩
  · have hl : bs.length - 1 < crcs.length := by omega
    rw [List.getD_eq_getElem?_getD, List.getElem?_eq_getElem hl]
    exact hcw _ (List.getElem_mem hl)
  · have hf : q.forceWait = { q with mode := .wait, armed := [], bitsLeft := 0, osrCount := 0, isrCount := 0, dir := .input } := by
      unfold Seq.forceWait; rw [if_neg hqm]
    rw [hf, hq]
    exact ⟨rfl, rfl, rfl, rfl, rfl, hdtxf, rfl, rfl, rfl⟩
  · rw [hd0]
  · rw [hd0]
  · rw [hd1]
  · rw [hd1]
  · have hland := landed_eq (bs := (bs.map CardBlock.data).zip crcs) (j := 0) ha hm
      (by intro he; have := congrArg List.length he; simp [hcl] at this; exact hne this) (by simp [hcl]; omega)
      (by
        intro x hx
        have h1 := List.of_mem_zip hx
        obtain ⟨y, hy, hyx⟩ := List.mem_map.1 h1.1
        exact ⟨by rw [← hyx]; exact (hbs y hy).1, hcw _ h1.2⟩)
    rw [zip_flatMap_fst _ _ hcl, zip_getLastD _ _ hne hcl, show o.bufferAt 0 = o.buffer by simp [ReadOp.bufferAt]] at hland
    simp only at hu
    rw [hland] at hu
    rw [hu]
    rfl

/-! ## READ_BLOCK up to RD_STOP -/

/-- The operands of a READ_BLOCK as RD_CHECK reads them (R210, R228). -/
def readOp (cmd : BitVec 6) (addr buffer : Word) (count : Nat) (crc : Word) (s : State) : ReadOp :=
  ⟨cmd, addr, buffer, count, if crc = 0#32 then s.cfg.crcBufAddr else crc, s.session.dataWidth⟩

/-- READ_BLOCK runs to RD_STOP. -/
theorem readBlock_data {cmd : BitVec 6} {addr buffer crc : Word} {count : Nat} {s : State} {latency : Nat} {r : List Byte}
    {bs : List CardBlock} {rest : List Turn} (h : ReadReady (readOp cmd addr buffer count crc s) s) (hcmd : cmd ≠ 55#6)
    (hc : s.card = Turn.answer latency r :: Turn.blocks s.session.dataWidth bs :: rest) (hl : r.length = 6)
    (hs : (r.headD 0#8).getLsbD 7 = false) (hok : statusOk (payload r) = true) (hn : bs.length = count)
    (hbs : ∀ x ∈ bs, x.data.length = (readOp cmd addr buffer count crc s).blockLen ∧
      x.crc.length = 2 * s.session.dataWidth.lines) :
    ∃ pad last cq dq d0 d1 f fc, pad.length = 2 ∧ last.length = 4 * s.session.dataWidth.crcWords ∧
      (bs.getLastD ⟨0, [], [], Tick.quiet⟩).crc <+: last ∧ SeqRest s.cseq cq ∧ SeqRest s.dseq dq ∧ d0.busy = false ∧
      d0.claimed = s.dma0.claimed ∧ d1.busy = false ∧ d1.claimed = s.dma1.claimed ∧
      readBlock cmd addr buffer count crc s = rdStop (readOp cmd addr buffer count crc s) { s with
        phase := .rdWait, cseq := cq, dseq := dq, dma0 := d0, dma1 := d1, free := f, freeCount := fc
        mem := blocksMem (readOp cmd addr buffer count crc s) bs last
          (ownMem cmd addr s.cfg r pad (tableMem (readOp cmd addr buffer count crc s) s))
        crc7Reg := crc7Reg (frameHead cmd addr), history := frameEvents cmd addr ++ s.history, card := rest
        appPrefix := false } := by
  have hst := storageAt_of_wf h.cfg
  have h1 := hst.resp; have h2 := hst.fits; have h3 := hst.table; have h4 := hst.frame
  have hcnt : 1 ≤ count ∧ count ≤ 32 := h.count
  have htw := tableMem_wf h
  generalize ho : readOp cmd addr buffer count crc s = o at *
  have hoc : o.cmd = cmd := by rw [← ho]; rfl
  have hoa : o.addr = addr := by rw [← ho]; rfl
  have hon : o.count = count := by rw [← ho]; rfl
  have how : o.width = s.session.dataWidth := by rw [← ho]; rfl
  obtain ⟨cq, d, f, fc, pad, hcq, hd, hdc, hp, he⟩ := ownCommand_answered (cmd := cmd) (param := addr)
    (armedState_sendable h) htw h.cfg (Tick.quiet_still (.inr (.inr rfl))) hc hl hs
  rw [decide_eq_false hcmd, Bool.false_and] at he
  generalize hb : ownState cmd addr cq d f fc (ownMem cmd addr (armedState o s).cfg r pad (armedState o s).mem)
    (Turn.blocks s.session.dataWidth bs :: rest) false (armedState o s) = b at he
  have hcheck : checkAt b b.cfg.respAddr = true := by
    rw [← hb, ← hok]
    exact ownState_checkAt (s := armedState o s) htw h.cfg hl hp
  have hbm : b.mem = ownMem cmd addr s.cfg r pad (tableMem o s) := by rw [← hb]; rfl
  have hbcfg : b.cfg = s.cfg := by rw [← hb]; rfl
  have hbd : b.dseq = huntingDseq o s.dseq := by rw [← hb]; rfl
  have hne : bs ≠ [] := by intro hx; rw [hx] at hn; simp at hn; omega
  have htab : TableAt o b.cfg.tableAddr b.mem := by
    rw [hbm, hbcfg]
    have hta : s.cfg.tableAddr.toNat + (16 * o.count + 8) ≤ 2 ^ 32 := by omega
    refine (TableAt.writeBytes (rdTable_tableAt h.wf _ hta) htw ?_ hta ?_).writeBytes (Memory.wf_writeBytes htw _ _) ?_ hta ?_
    · simp; omega
    · simp; omega
    · simp [hl, hp]; omega
    · simp [hl, hp]; omega
  have hrecv : Receiving o.width
      { b with dma0 := b.dma0.config .dseqRxf (.mem 0#32) 0#32 false true true .dseqRx .dma1 } := by
    rw [← hb]
    exact ⟨h.send.clock, hcq.mode, h.lanes, h.drxf, h.send.room, rfl⟩
  obtain ⟨last, q, d0, d1, f', fc', hll, hlp, hq, hd0, hdc0, hd1, hdc1, hrun⟩ := rdStream_blocks (b := b) (bs := bs)
    (rest := rest) hrecv (by rw [hbd]; rfl) (by rw [hbd]; exact h.darmed) (by rw [hbd]; exact h.dtxf)
    (by rw [hbcfg]; exact h.apart) (by rw [hbm]; exact ownMem_wf htw) htab (by rw [← hb, how]; rfl) (by omega) hne
    (by rw [how]; exact hbs)
  refine ⟨pad, last, cq, q, d0, d1, f', fc', hp, by rw [← how]; exact hll, hlp, hcq, ?_, hd0, ?_, hd1, ?_, ?_⟩
  · exact ⟨hq.mode, hq.bitsLeft, hq.armed, hq.osrCount, hq.isrCount, hq.txf, hq.rxf, hq.dir, hq.owner.trans (by rw [hbd]; rfl)⟩
  · rw [hdc0, ← hb]; exact hdc
  · rw [hdc1, ← hb]; rfl
  · have hbl : readBlock cmd addr buffer count crc s = rdCmd o (rdArm o (rdTable o (s.setPhase .rdCheck))) := by
      unfold readBlock
      simp only
      rw [if_neg (by have := hcnt.2; simp only [sdMaxReadBlocks]; omega), ← ho]
      rfl
    rw [hbl]
    unfold rdCmd
    rw [rdArm_eq h, hoc, hoa, he]
    simp only [if_true]
    rw [if_pos hcheck, hrun, ← hb]
    rfl

/-! ## What the blocks leave in memory -/

/-- The extents of a READ_BLOCK, its memory and its blocks, as the laws below need them. -/
structure Landing (o : ReadOp) (bs : List CardBlock) (last : List Byte) : Prop where
  bufIn  : o.buffer.toNat + o.count * o.blockLen ≤ 2 ^ 32
  crcIn  : o.crcDst.toNat + 4 * o.width.crcWords ≤ 2 ^ 32
  apart  : o.buffer.toNat + o.count * o.blockLen ≤ o.crcDst.toNat ∨ o.crcDst.toNat + 4 * o.width.crcWords ≤ o.buffer.toNat
  data   : (bs.flatMap CardBlock.data).length = o.count * o.blockLen
  last   : last.length = 4 * o.width.crcWords

variable {o : ReadOp} {bs : List CardBlock} {last : List Byte} {m : Memory}

theorem blocksMem_wf (hm : m.wf = true) : (blocksMem o bs last m).wf = true :=
  Memory.wf_writeBytes (Memory.wf_writeBytes hm _ _) _ _

theorem blocksMem_data (h : Landing o bs last) (hm : m.wf = true) :
    (blocksMem o bs last m).readBytes o.buffer (o.count * o.blockLen) = bs.flatMap CardBlock.data := by
  have := h.bufIn; have := h.crcIn; have := h.apart; have := h.last; have := h.data
  rw [blocksMem, Memory.readBytes_writeBytes_apart (Memory.wf_writeBytes hm _ _) (by omega) (by omega) (by omega), ← h.data]
  exact Memory.readBytes_writeBytes hm (by omega)

theorem blocksMem_crc (h : Landing o bs last) (hm : m.wf = true) {n : Nat} (hn : n ≤ last.length) :
    (blocksMem o bs last m).readBytes o.crcDst n = last.take n := by
  have := h.crcIn; have := h.last
  exact Memory.readBytes_writeBytes_take (Memory.wf_writeBytes hm _ _) (by omega) hn

theorem blocksMem_read (h : Landing o bs last) (hm : m.wf = true) {x : Nat}
    (h1 : ¬ (o.buffer.toNat ≤ x ∧ x < o.buffer.toNat + o.count * o.blockLen))
    (h2 : ¬ (o.crcDst.toNat ≤ x ∧ x < o.crcDst.toNat + 4 * o.width.crcWords)) :
    (blocksMem o bs last m).read x = m.read x := by
  have := h.bufIn; have := h.crcIn; have := h.last; have := h.data
  rw [blocksMem, Memory.read_writeBytes (Memory.wf_writeBytes hm _ _) (by omega), if_neg (by omega),
    Memory.read_writeBytes hm (by omega), if_neg (by omega)]

theorem readBytes_sub {m : Memory} {a : Word} {n k l : Nat} {bs : List Byte} (h : m.readBytes a n = bs)
    (hk : k + l ≤ n) : m.readBytes (a + BitVec.ofNat 32 k) l = (bs.drop k).take l := by
  subst h
  apply List.ext_getElem?
  intro i
  by_cases hi : i < l
  · rw [Memory.readBytes_getElem? _ _ hi, List.getElem?_take_of_lt hi, List.getElem?_drop,
      Memory.readBytes_getElem? _ _ (by omega), word_add_assoc]
  · rw [List.getElem?_eq_none (by simpa using hi), List.getElem?_eq_none (by simp; omega)]

theorem flatMap_data_last {L : Nat} (hne : bs ≠ []) (h : ∀ b ∈ bs, b.data.length = L) :
    ((bs.flatMap CardBlock.data).drop ((bs.length - 1) * L)).take L = (bs.getLastD ⟨0, [], [], Tick.quiet⟩).data := by
  induction bs with
  | nil => exact absurd rfl hne
  | cons b bs ih =>
    cases bs with
    | nil => simp [h b (by simp)]
    | cons b' bs =>
      have hb := h b (by simp)
      rw [List.flatMap_cons, show ((b :: b' :: bs).length - 1) * L = L + ((b' :: bs).length - 1) * L by
        simp [Nat.succ_mul, Nat.add_comm], ← List.drop_drop, List.drop_left' hb, ih (by simp) fun x hx => h x (by simp [hx])]
      rfl

/-- VERIFY_READ_CRC's comparison (R148) on memory that holds the blocks. -/
theorem lastCrcOk_good {s : State} (hd : s.mem.readBytes o.buffer (o.count * o.blockLen) = bs.flatMap CardBlock.data)
    (hl : last.length = 4 * o.width.crcWords) (hc : ∀ n ≤ last.length, s.mem.readBytes o.crcDst n = last.take n)
    (hne : bs ≠ []) (hn : bs.length = o.count)
    (hbs : ∀ b ∈ bs, b.data.length = o.blockLen ∧ b.crc.length = 2 * o.width.lines)
    (hp : (bs.getLastD ⟨0, [], [], Tick.quiet⟩).crc <+: last) (hg : (bs.getLastD ⟨0, [], [], Tick.quiet⟩).good o.width) :
    lastCrcOk o s = true := by
  have hmem : bs.getLastD ⟨0, [], [], Tick.quiet⟩ ∈ bs := by
    rw [List.getLastD_eq_getLast?, List.getLast?_eq_some_getLast hne]; exact List.getLast_mem hne
  have hcl := (hbs _ hmem).2
  have hpos : 0 < bs.length := List.length_pos_iff.2 hne
  have hdata : s.mem.readBytes (o.buffer + BitVec.ofNat 32 ((o.count - 1) * o.blockLen)) o.blockLen =
      (bs.getLastD ⟨0, [], [], Tick.quiet⟩).data := by
    rw [readBytes_sub hd (by
      rw [← Nat.succ_mul]; exact Nat.mul_le_mul_right _ (by omega)), ← hn]
    exact flatMap_data_last hne fun b hb => (hbs b hb).1
  obtain ⟨tail, ht⟩ := hp
  unfold lastCrcOk
  simp only [hdata]
  cases hw : o.width with
  | one =>
    rw [hw] at hcl hg hl
    simp only [Width.lines, Width.crcWords, CardBlock.good] at hcl hg hl
    simp only
    rw [hc 2 (by omega), ← ht, List.take_append_of_le_length (by omega), List.take_of_length_le (by omega), beq_iff_eq]
    exact hg
  | four =>
    rw [hw] at hcl hg hl
    simp only [Width.lines, Width.crcWords, CardBlock.good] at hcl hg hl
    have htl : tail = [] := by
      have := congrArg List.length ht
      rw [List.length_append] at this
      exact List.length_eq_zero_iff.1 (by omega)
    simp only
    rw [hc 8 (by omega), ← ht, htl, List.append_nil, List.take_of_length_le (by omega)]
    exact hg

/-- The end of a read whose last block verifies. -/
theorem readEnd_ok {s : State} (h : s.cfg.verifyReadCrc = true → lastCrcOk o s = true) : readEnd o true s = (true, s) := by
  unfold readEnd
  by_cases hv : s.cfg.verifyReadCrc = true
  · simp [hv, h hv]
  · simp [hv]

/-! ## READ_BLOCK -/

theorem rdStop_single {v : State} (h : o.cmd ≠ 18#6) (hv : v.cfg.verifyReadCrc = true → lastCrcOk o (v.setPhase .rdStop) = true) :
    rdStop o v = .done true (v.setPhase .rdStop) := by
  unfold rdStop
  simp only [if_neg h, readEnd_ok (s := v.setPhase .rdStop) hv]

theorem rdStop_multiple {v u : State} (h : o.cmd = 18#6) (hc : ownCommand 12#6 0#32 (v.setPhase .rdStop) = (true, u)) :
    rdStop o v = (waitNotBusy .rdStop u).andThen (.readStop o (checkAt u u.cfg.respAddr)) fun high s =>
      .done (readStopped o (checkAt u u.cfg.respAddr) high s).1 (readStopped o (checkAt u u.cfg.respAddr) high s).2 := by
  unfold rdStop
  simp only [if_pos h, hc, if_true]

/-- READ_BLOCK with CMD6 or CMD17 and a card that sends its block (R210). -/
theorem readBlock_single {cmd : BitVec 6} {addr buffer crc : Word} {s : State} {latency : Nat} {r : List Byte}
    {b : CardBlock} {rest : List Turn} (h : ReadReady (readOp cmd addr buffer 1 crc s) s) (hcmd : cmd ≠ 55#6)
    (h18 : cmd ≠ 18#6)
    (hc : s.card = Turn.answer latency r :: Turn.blocks s.session.dataWidth [b] :: rest) (hl : r.length = 6)
    (hs : (r.headD 0#8).getLsbD 7 = false) (hok : statusOk (payload r) = true)
    (hb : b.data.length = (readOp cmd addr buffer 1 crc s).blockLen ∧ b.crc.length = 2 * s.session.dataWidth.lines)
    (hv : s.cfg.verifyReadCrc = true → b.good s.session.dataWidth) :
    ∃ pad last cq dq d0 d1 f fc, pad.length = 2 ∧ last.length = 4 * s.session.dataWidth.crcWords ∧ b.crc <+: last ∧
      SeqRest s.cseq cq ∧ SeqRest s.dseq dq ∧ d0.busy = false ∧ d0.claimed = s.dma0.claimed ∧ d1.busy = false ∧
      d1.claimed = s.dma1.claimed ∧
      readBlock cmd addr buffer 1 crc s = .done true { s with
        phase := .rdStop, cseq := cq, dseq := dq, dma0 := d0, dma1 := d1, free := f, freeCount := fc
        mem := blocksMem (readOp cmd addr buffer 1 crc s) [b] last
          (ownMem cmd addr s.cfg r pad (tableMem (readOp cmd addr buffer 1 crc s) s))
        crc7Reg := crc7Reg (frameHead cmd addr), history := frameEvents cmd addr ++ s.history, card := rest
        appPrefix := false } := by
  obtain ⟨pad, last, cq, dq, d0, d1, f, fc, hp, hll, hlp, hcq, hdq, hd0, hc0, hd1, hc1, he⟩ :=
    readBlock_data (bs := [b]) h hcmd hc hl hs hok rfl (fun x hx => by rw [List.mem_singleton.1 hx]; exact hb)
  refine ⟨pad, last, cq, dq, d0, d1, f, fc, hp, hll, hlp, hcq, hdq, hd0, hc0, hd1, hc1, ?_⟩
  have hland : Landing (readOp cmd addr buffer 1 crc s) [b] last :=
    ⟨h.apart.bufIn, h.apart.crcIn, h.apart.bufCrc, by simp [hb.1, readOp], hll⟩
  have hwf := ownMem_wf (cmd := cmd) (param := addr) (c := s.cfg) (r := r) (pad := pad) (tableMem_wf h)
  rw [he]
  refine rdStop_single h18 ?_
  intro hvv
  exact lastCrcOk_good (bs := [b]) (last := last) (blocksMem_data hland hwf) hll
    (fun n hn => blocksMem_crc hland hwf hn) (by simp) rfl (fun x hx => by rw [List.mem_singleton.1 hx]; exact hb) hlp (hv hvv)

/-- READ_BLOCK with CMD18, a card that sends its blocks and then answers CMD12 (R210, R218). -/
theorem readBlock_multiple {addr buffer crc : Word} {count : Nat} {s : State} {latency latency2 busy : Nat}
    {r r2 : List Byte} {bs : List CardBlock} {rest : List Turn} (h : ReadReady (readOp 18#6 addr buffer count crc s) s)
    (hc : s.card = Turn.answer latency r :: Turn.blocks s.session.dataWidth bs :: Turn.answer latency2 r2 ::
      Turn.busy busy :: rest)
    (hl : r.length = 6) (hs : (r.headD 0#8).getLsbD 7 = false) (hok : statusOk (payload r) = true)
    (hl2 : r2.length = 6) (hs2 : (r2.headD 0#8).getLsbD 7 = false) (hok2 : statusOk (payload r2) = true)
    (hown : s.cseq.owner = .seq) (hn : bs.length = count)
    (hbs : ∀ x ∈ bs, x.data.length = 512 ∧ x.crc.length = 2 * s.session.dataWidth.lines)
    (hv : s.cfg.verifyReadCrc = true → (bs.getLastD ⟨0, [], [], Tick.quiet⟩).good s.session.dataWidth) :
    ∃ pad pad2 last cq dq d0 d1 f fc, pad.length = 2 ∧ pad2.length = 2 ∧ last.length = 4 * s.session.dataWidth.crcWords ∧
      (bs.getLastD ⟨0, [], [], Tick.quiet⟩).crc <+: last ∧ SeqRest s.cseq cq ∧ SeqRest s.dseq dq ∧ d0.busy = false ∧
      d0.claimed = s.dma0.claimed ∧ d1.busy = false ∧ d1.claimed = s.dma1.claimed ∧
      readBlock 18#6 addr buffer count crc s = .done true { s with
        phase := .rdStop, cseq := cq, dseq := dq, dma0 := d0, dma1 := d1, free := f, freeCount := fc
        mem := ownMem 12#6 0#32 s.cfg r2 pad2 (blocksMem (readOp 18#6 addr buffer count crc s) bs last
          (ownMem 18#6 addr s.cfg r pad (tableMem (readOp 18#6 addr buffer count crc s) s)))
        crc7Reg := crc7Reg (frameHead 12#6 0#32)
        history := frameEvents 12#6 0#32 ++ (frameEvents 18#6 addr ++ s.history), card := rest
        appPrefix := false } := by
  have hbl : (readOp 18#6 addr buffer count crc s).blockLen = 512 := rfl
  obtain ⟨pad, last, cq, dq, d0, d1, f, fc, hp, hll, hlp, hcq, hdq, hd0, hc0, hd1, hc1, he⟩ :=
    readBlock_data (bs := bs) h (by decide) hc hl hs hok hn hbs
  have hcnt : 1 ≤ count ∧ count ≤ 32 := h.count
  have hne : bs ≠ [] := by intro hx; rw [hx] at hn; simp at hn; omega
  have hland : Landing (readOp 18#6 addr buffer count crc s) bs last :=
    ⟨h.apart.bufIn, h.apart.crcIn, h.apart.bufCrc, by
      rw [flatMap_data_length (o := readOp 18#6 addr buffer count crc s) fun b hb => (hbs b hb).1, hn]; rfl, hll⟩
  have hwf := ownMem_wf (cmd := 18#6) (param := addr) (c := s.cfg) (r := r) (pad := pad) (tableMem_wf h)
  have hbwf := blocksMem_wf (o := readOp 18#6 addr buffer count crc s) (bs := bs) (last := last) hwf
  generalize hM : blocksMem (readOp 18#6 addr buffer count crc s) bs last
    (ownMem 18#6 addr s.cfg r pad (tableMem (readOp 18#6 addr buffer count crc s) s)) = M at *
  generalize hv1 : ({ s with
        phase := .rdStop, cseq := cq, dseq := dq, dma0 := d0, dma1 := d1, free := f, freeCount := fc, mem := M
        crc7Reg := crc7Reg (frameHead 18#6 addr), history := frameEvents 18#6 addr ++ s.history
        card := Turn.answer latency2 r2 :: Turn.busy busy :: rest, appPrefix := false } : State) = v
  have hvs : Sendable v := by
    rw [← hv1]
    exact ⟨h.send.clock, hcq.mode, hcq.armed, hcq.txf, hcq.rxf, h.send.room, hd0⟩
  obtain ⟨cq2, d2, f2, fc2, pad2, hcq2, hd2, hdc2, hp2, he2⟩ := ownCommand_answered (cmd := 12#6) (param := 0#32) (s := v)
    (latency := latency2) (r := r2) (rest := Turn.busy busy :: rest) hvs (by rw [← hv1]; exact hbwf)
    (by rw [← hv1]; exact h.cfg) (by rw [← hv1]; exact Tick.quiet_still (.inl hdq.mode)) (by rw [← hv1]) hl2 hs2
  have hcheck := ownState_checkAt (cmd := 12#6) (param := 0#32) (cq := cq2) (d := d2) (f := f2) (fc := fc2) (r := r2)
    (pad := pad2) (rest := Turn.busy busy :: rest) (app := decide (12#6 = 55#6) && statusOk (payload r2)) (s := v)
    (by rw [← hv1]; exact hbwf) (by rw [← hv1]; exact h.cfg) hl2 hp2
  rw [hok2] at hcheck he2
  refine ⟨pad, pad2, last, cq2, dq, d2, d1, f2, fc2, hp, hp2, hll, hlp, ?_, hdq, hd2, ?_, hd1, hc1, ?_⟩
  · exact SeqRest.trans hcq (by rw [← hv1] at hcq2; exact hcq2)
  · rw [hdc2, ← hv1]; exact hc0
  rw [he]
  have hst := storageAt_of_wf h.cfg
  have h1 := hst.resp; have h2 := hst.fits; have h3 := hst.frame
  have hbi := h.apart.bufIn; have hci := h.apart.crcIn; have hbh := h.bufHead; have hch := h.crcHead
  have hv2 : ({ s with
        phase := .rdWait, cseq := cq, dseq := dq, dma0 := d0, dma1 := d1, free := f, freeCount := fc, mem := M
        crc7Reg := crc7Reg (frameHead 18#6 addr), history := frameEvents 18#6 addr ++ s.history
        card := Turn.answer latency2 r2 :: Turn.busy busy :: rest, appPrefix := false } : State).setPhase .rdStop = v := hv1
  rw [← hv2] at he2
  rw [rdStop_multiple rfl he2, hv2]
  have hcfgv : (ownState 12#6 0#32 cq2 d2 f2 fc2 (ownMem 12#6 0#32 v.cfg r2 pad2 v.mem) (Turn.busy busy :: rest)
    (decide (12#6 = 55#6) && true) v).cfg = v.cfg := rfl
  rw [hcfgv, hcheck, waitNotBusy_busy (n := busy) (rest := rest) rfl
    (hcq2.owner.trans (by rw [← hv1]; exact hcq.owner.trans hown))]
  simp only [Run.andThen, readStopped, if_true]
  rw [readEnd_ok]
  · rw [← hv1, ← hM]; rfl
  · intro hvv
    have hMv : v.mem = M := by rw [← hv1]
    have hcv : v.cfg = s.cfg := by rw [← hv1]
    rw [show (ownState 12#6 0#32 cq2 d2 f2 fc2 (ownMem 12#6 0#32 v.cfg r2 pad2 v.mem) (Turn.busy busy :: rest)
      (decide (12#6 = 55#6) && true) v).cfg = s.cfg from hcv] at hvv
    have hsame : ∀ (a : Word) (n : Nat), a.toNat + n ≤ 2 ^ 32 →
        (a.toNat + n ≤ s.cfg.storageBase.toNat ∨ s.cfg.storageBase.toNat + 32 ≤ a.toNat) →
        (ownMem 12#6 0#32 s.cfg r2 pad2 M).readBytes a n = M.readBytes a n := by
      intro a n ha hd
      apply Memory.readBytes_congr
      intro i hi
      refine ownMem_read hbwf h.cfg (by simp [hl2, hp2]) ?_
      unfold inHead
      rw [word_add_toNat (by omega)]
      omega
    refine lastCrcOk_good (bs := bs) (last := last) ?_ hll ?_ hne hn hbs hlp (hv hvv)
    · show (ownMem 12#6 0#32 v.cfg r2 pad2 v.mem).readBytes _ _ = _
      rw [hMv, hcv, hsame _ _ hbi hbh, ← hM]
      exact blocksMem_data hland hwf
    · intro n hnl
      show (ownMem 12#6 0#32 v.cfg r2 pad2 v.mem).readBytes _ _ = _
      have : last.length = 4 * (readOp 18#6 addr buffer count crc s).width.crcWords := hll
      rw [hMv, hcv, hsame _ _ (by omega) (by omega), ← hM]
      exact blocksMem_crc hland hwf hnl

end Sys2Proof.Machine
end

