-- ==== Sys2Proof/Laws/Write.lean ====
section
/-! SUPPORT. The write stream (spec/44_block_transfer.md R220 to R223): DSEQ drives the gap, the data and the CRC word
without a stall, DMA0 keeping its FIFO full. -/

namespace Sys2Proof.Machine

/-- The `i`-th word DMA0 puts into the FIFO (R172). -/
def streamWord (m : Memory) (buffer : Word) (i : Nat) : Word := bswap32 (m.readWord (buffer + BitVec.ofNat 32 (4 * i)))

/-- The words of a write, from the `k`-th on. -/
def streamWords (m : Memory) (buffer : Word) (k n : Nat) : List Word := (List.range' k n).map (streamWord m buffer)

theorem streamWords_succ (m : Memory) (buffer : Word) (k n : Nat) :
    streamWords m buffer k (n + 1) = streamWord m buffer k :: streamWords m buffer (k + 1) n := rfl

@[simp] theorem streamWords_length (m : Memory) (buffer : Word) (k n : Nat) : (streamWords m buffer k n).length = n := by
  simp [streamWords]

@[simp] theorem streamBits_length (m : Memory) (buffer : Word) (k n : Nat) :
    ((streamWords m buffer k n).flatMap wordBits).length = 32 * n := by
  induction n generalizing k with
  | zero => rfl
  | succ n ih => rw [streamWords_succ, List.flatMap_cons, List.length_append, ih, wordBits_length]; omega

/-- DMA0 in a write of which `n` words are left after the first `k`. -/
def streamDma (d : Dma0) (buffer : Word) (k n : Nat) : Dma0 :=
  { d with
    src := .mem (buffer + BitVec.ofNat 32 (4 * k)), dst := .dseqTxf, count := BitVec.ofNat 32 n, incSrc := true,
    incDst := false, bswap := true, pace := .dseqTx, chain := .none, busy := decide (n ≠ 0) }

/-- A state in the write stream: `out` is what DSEQ has driven since `s`. -/
def streamState (s : State) (q : Seq) (d : Dma0) (out : List Bool) : State :=
  { s with dseq := q, dma0 := d, history := (out.map PinEvent.dat0).reverse ++ s.history }

/-- DMA0 moves one word of a write. -/
theorem dma0Step_stream {s : State} {q : Seq} {d : Dma0} {buffer : Word} {k n : Nat} {out : List Bool} (hn : n + 1 < 2 ^ 32) :
    dma0Step (streamState s q (streamDma d buffer k (n + 1)) out) =
      streamState s { q with txf := q.txf ++ [streamWord s.mem buffer k] } (streamDma d buffer (k + 1) n) out := by
  have hc : BitVec.ofNat 32 (n + 1) - 1#32 = BitVec.ofNat 32 n := by
    apply BitVec.eq_of_toNat_eq
    simp only [BitVec.toNat_sub, BitVec.toNat_ofNat]
    omega
  have hz : (BitVec.ofNat 32 (n + 1) ≠ 1#32) ↔ n ≠ 0 := by
    constructor
    · rintro h rfl; exact h rfl
    · intro h he
      have := congrArg BitVec.toNat he
      rw [BitVec.toNat_ofNat, Nat.mod_eq_of_lt hn] at this
      simp at this
      exact h this
  have ha : buffer + BitVec.ofNat 32 (4 * k) + 4#32 = buffer + BitVec.ofNat 32 (4 * (k + 1)) := by
    rw [show (4#32 : Word) = BitVec.ofNat 32 4 from rfl, word_add_assoc, Nat.mul_succ]
  have hm : dma0Move (streamState s q (streamDma d buffer k (n + 1)) out) =
      streamState s { q with txf := q.txf ++ [streamWord s.mem buffer k] } (streamDma d buffer (k + 1) n) out := by
    unfold dma0Move dma0Put dma0Pop dma0Value dma0Word Dma0.moved
    simp only [streamState, streamDma, DmaEnd.advance, State.setDma0, State.setDseq, Seq.pushTx, if_true, hc, ha, streamWord]
    have hz' : decide (BitVec.ofNat 32 (n + 1) ≠ 1#32) = decide (n ≠ 0) := decide_eq_decide.2 hz
    simp only [ne_eq] at hz'
    simp
    exact hz'.trans (by simp)
  unfold dma0Step
  rw [hm, if_neg]
  rintro ⟨-, h⟩
  cases h

/-- DMA0 fills the FIFO. -/
theorem dma0Steps_stream {s : State} {q : Seq} {d : Dma0} {buffer : Word} {k n : Nat} {out : List Bool} (room : Nat)
    (hn : n < 2 ^ 32) :
    ∃ j tx, j ≤ n ∧ tx.flatMap wordBits ++ (streamWords s.mem buffer (k + j) (n - j)).flatMap wordBits =
        q.txf.flatMap wordBits ++ (streamWords s.mem buffer k n).flatMap wordBits ∧
      (j = n ∨ s.cfg.fifoDepth ≤ tx.length ∨ s.cfg.fifoDepth - q.txf.length > room) ∧
      dma0Steps room (streamState s q (streamDma d buffer k n) out) =
        streamState s { q with txf := tx } (streamDma d buffer (k + j) (n - j)) out := by
  induction room generalizing q k n with
  | zero =>
    refine ⟨0, q.txf, by omega, by simp, ?_, by simp [dma0Steps]⟩
    by_cases h : s.cfg.fifoDepth ≤ q.txf.length
    · exact .inr (.inl h)
    · exact .inr (.inr (by omega))
  | succ room ih =>
    rw [dma0Steps]
    have hr : dma0Ready (streamState s q (streamDma d buffer k n) out) =
        (decide (n ≠ 0) && decide (q.txf.length < s.cfg.fifoDepth)) := rfl
    by_cases h0 : n = 0
    · subst h0
      rw [hr]
      exact ⟨0, q.txf, by omega, by simp, .inl rfl, by simp⟩
    by_cases hf : q.txf.length < s.cfg.fifoDepth
    · rw [hr, if_pos (by simp [h0, hf])]
      obtain ⟨m, rfl⟩ := Nat.exists_eq_succ_of_ne_zero h0
      rw [Nat.succ_eq_add_one, dma0Step_stream hn]
      obtain ⟨j, tx, hj, hb, hd, he⟩ := ih (q := { q with txf := q.txf ++ [streamWord s.mem buffer k] }) (k := k + 1)
        (n := m) (by omega)
      refine ⟨j + 1, tx, by omega, ?_, ?_, ?_⟩
      · rw [show k + (j + 1) = k + 1 + j by omega, show m + 1 - (j + 1) = m - j by omega, hb, streamWords_succ]
        simp
      · rcases hd with hd | hd | hd
        · exact .inl (by omega)
        · exact .inr (.inl hd)
        · simp only [List.length_append, List.length_singleton] at hd
          exact .inr (.inr (by omega))
      · rw [he, show k + (j + 1) = k + 1 + j by omega, show m + 1 - (j + 1) = m - j by omega]
    · rw [hr, if_neg (by simp [hf])]
      exact ⟨0, q.txf, by omega, by simp, .inr (.inl (by omega)), by simp⟩

theorem dmaRun_stream {s : State} {q : Seq} {d : Dma0} {buffer : Word} {k n : Nat} {out : List Bool} (hn : n < 2 ^ 32) :
    ∃ j tx, j ≤ n ∧ tx.flatMap wordBits ++ (streamWords s.mem buffer (k + j) (n - j)).flatMap wordBits =
        q.txf.flatMap wordBits ++ (streamWords s.mem buffer k n).flatMap wordBits ∧
      (j = n ∨ s.cfg.fifoDepth ≤ tx.length) ∧
      dmaRun (streamState s q (streamDma d buffer k n) out) =
        streamState s { q with txf := tx } (streamDma d buffer (k + j) (n - j)) out := by
  obtain ⟨j, tx, hj, hb, hd, he⟩ := dma0Steps_stream (s := s) (q := q) (d := d) (buffer := buffer) (k := k) (n := n)
    (out := out) (s.cfg.fifoDepth - q.txf.length) hn
  unfold dmaRun
  have hr : dma0Ready (streamState s q (streamDma d buffer k n) out) =
      (decide (n ≠ 0) && decide (q.txf.length < s.cfg.fifoDepth)) := rfl
  have hroom : dma0Room (streamState s q (streamDma d buffer k n) out) = s.cfg.fifoDepth - q.txf.length := rfl
  by_cases h : dma0Ready (streamState s q (streamDma d buffer k n) out) = true
  · rw [if_pos h, hroom]
    refine ⟨j, tx, hj, hb, ?_, he⟩
    rcases hd with hd | hd | hd
    · exact .inl hd
    · exact .inr hd
    · omega
  · rw [if_neg h]
    refine ⟨0, q.txf, by omega, by simp, ?_, by simp⟩
    rw [hr] at h
    by_cases h0 : n = 0
    · exact .inl h0.symm
    · right
      simp [h0] at h
      omega

/-- The invariant of the write stream: `B` is all that is to be driven as things stand, `left` words are to be moved. -/
structure Streams (s : State) (buffer : Word) (q : Seq) (left : Nat) (out B : List Bool) : Prop where
  mode  : q.mode = .send
  armed : q.armed = []
  rxf   : q.rxf = []
  isr   : q.isrCount = 0
  owner : q.owner = s.dseq.owner
  osr   : q.osrCount ≤ 32
  most  : left ≤ 128
  bits  : q.bitsLeft + out.length = writeStreamBits
  more  : out.length < writeStreamBits
  total : out ++ (q.pending ++ (streamWords s.mem buffer (128 - left) left).flatMap wordBits) = B
  full  : left = 0 ∨ s.cfg.fifoDepth ≤ q.txf.length

variable {s : State} {buffer : Word} {q : Seq} {d : Dma0} {left : Nat} {out B : List Bool}

theorem Streams.pending (h : Streams s buffer q left out B) (hd : 1 ≤ s.cfg.fifoDepth) (hl : out.length < B.length) :
    q.pending ≠ [] := by
  intro hp
  rcases h.full with hf | hf
  · have := h.total
    rw [hp, hf] at this
    have := congrArg List.length this
    simp only [List.length_append, streamBits_length, List.length_nil] at this
    omega
  · have hp' := congrArg List.length hp
    unfold Seq.pending at hp'
    match ht : q.txf with
    | [] => rw [ht] at hf; simp at hf; omega
    | w :: ws => rw [ht] at hp'; simp at hp'

theorem clkTick_dseq {t : Tick} {s : State} (hk : s.kseq.running = true) (hc : s.cseq.mode = .wait)
    (hm : s.dseq.mode = .send) :
    clkTick t s = dmaRun ((s.setDseq s.dseq.sendTick).drive (.dat0 s.dseq.sendTick.level)) := by
  have h : cseqTick t s = s := by unfold cseqTick; rw [hc]
  rw [clkTick_eq]
  rw [if_pos hk, h, dseqTick, hm]

/-- One CLK period in the stream. -/
theorem Streams.tick (h : Streams s buffer q left out B) (hk : s.kseq.running = true) (hc : s.cseq.mode = .wait)
    (hd : 1 ≤ s.cfg.fifoDepth) (hl : out.length < B.length) (h1 : out.length + 1 < writeStreamBits) (t : Tick) :
    ∃ q' left' b, left' ≤ left ∧ Streams s buffer q' left' (out ++ [b]) B ∧
      (left = 0 → left' = 0 ) ∧
      clkTick t (streamState s q (streamDma d buffer (128 - left) left) out) =
        streamState s q' (streamDma d buffer (128 - left') left') (out ++ [b]) := by
  match hp : q.pending with
  | [] => exact absurd hp (h.pending hd hl)
  | b :: bs =>
    have hb := h.bits
    have hleft := h.most
    obtain ⟨osr, oc, tx, hoc, hq, hs⟩ := Seq.sendTick_spec (q := q) (n := q.bitsLeft - 1) hp h.osr (by omega)
    rw [if_neg (by omega)] at hs
    have hstep : (((streamState s q (streamDma d buffer (128 - left) left) out).setDseq q.sendTick).drive
        (.dat0 q.sendTick.level)) = streamState s q.sendTick (streamDma d buffer (128 - left) left) (out ++ [b]) := by
      rw [show q.sendTick.level = b by rw [hs]]
      simp [streamState, State.setDseq, State.drive]
    obtain ⟨j, tx', hj, hbits, hfull, hrun⟩ := dmaRun_stream (s := s) (q := q.sendTick) (d := d) (buffer := buffer)
      (k := 128 - left) (n := left) (out := out ++ [b]) (by omega)
    refine ⟨{ q.sendTick with txf := tx' }, left - j, b, by omega, ?_, by omega, ?_⟩
    · rw [hs] at hbits ⊢
      refine ⟨h.mode, h.armed, h.rxf, h.isr, h.owner, hoc, by omega, ?_, ?_, ?_, ?_⟩
      · simp; omega
      · simp; omega
      · have ht := h.total
        rw [hp] at ht
        rw [← ht, ← hq]
        simp only [Seq.pending, List.append_assoc, List.cons_append, List.nil_append] at hbits ⊢
        rw [show 128 - (left - j) = 128 - left + j by omega, hbits]
      · rcases hfull with hf | hf
        · exact .inl (by omega)
        · exact .inr hf
    · rw [clkTick_dseq (s := streamState s q (streamDma d buffer (128 - left) left) out) hk hc h.mode]
      show dmaRun (((streamState s q (streamDma d buffer (128 - left) left) out).setDseq q.sendTick).drive
        (.dat0 q.sendTick.level)) = _
      rw [hstep, hrun, show 128 - (left - j) = 128 - left + j by omega]

/-- The last CLK period of the stream. -/
theorem Streams.last (h : Streams s buffer q 0 out B) (hk : s.kseq.running = true) (hc : s.cseq.mode = .wait)
    (hd : 1 ≤ s.cfg.fifoDepth) (hB : B.length = writeStreamBits) (h1 : out.length + 1 = writeStreamBits) (t : Tick) :
    ∃ q', SeqRest s.dseq q' ∧ clkTick t (streamState s q (streamDma d buffer 128 0) out) =
        streamState s q' (streamDma d buffer 128 0) B := by
  match hp : q.pending with
  | [] => exact absurd hp (h.pending hd (by omega))
  | b :: bs =>
    have hb := h.bits
    obtain ⟨osr, oc, tx, hoc, hq, hs⟩ := Seq.sendTick_spec (q := q) (n := q.bitsLeft - 1) hp h.osr (by omega)
    rw [if_pos (by omega)] at hs
    have ht := h.total
    rw [hp] at ht
    have hbs : bs = [] := by
      have hl := congrArg List.length ht
      simp [streamWords] at hl
      exact List.length_eq_zero_iff.1 (by omega)
    have htx : tx = [] := by
      rw [hbs] at hq
      have hl := congrArg List.length hq
      unfold Seq.pending at hl
      match tx with
      | [] => rfl
      | w :: ws => simp at hl
    have hBe : out ++ [b] = B := by rw [← ht, hbs]; simp [streamWords]
    have hn : q.sendTick = { q with
        level := b, bitsLeft := q.bitsLeft - 1, osr := osr, osrCount := 0, txf := tx, dir := .input, mode := .wait } := by
      rw [hs]; unfold Seq.nextProgram; simp [h.armed]
    refine ⟨q.sendTick, ?_, ?_⟩
    · rw [hn]
      exact ⟨rfl, by show q.bitsLeft - 1 = 0; omega, h.armed, rfl, h.isr, htx, h.rxf, rfl, h.owner⟩
    · rw [clkTick_dseq (s := streamState s q (streamDma d buffer 128 0) out) hk hc h.mode]
      show dmaRun (((streamState s q (streamDma d buffer 128 0) out).setDseq q.sendTick).drive
        (.dat0 q.sendTick.level)) = _
      rw [dmaRun_still (.inl rfl), show q.sendTick.level = b by rw [hn], ← hBe]
      simp [streamState, State.setDseq, State.drive]

/-- DMA0's part ends (R223). -/
theorem Streams.awaitDma0 (h : Streams s buffer q left out B) (hk : s.kseq.running = true) (hc : s.cseq.mode = .wait)
    (hd : 1 ≤ s.cfg.fifoDepth) (hB : B.length = 4128) {n : Nat} (hn : B.length - out.length ≤ n) :
    ∃ q' out', Streams s buffer q' 0 out' B ∧
      Machine.awaitDma0 n (streamState s q (streamDma d buffer (128 - left) left) out) =
        streamState s q' (streamDma d buffer 128 0) out' := by
  induction n generalizing q left out with
  | zero =>
    have h0 : left = 0 := by
      have := congrArg List.length h.total
      simp only [List.length_append, streamBits_length] at this
      omega
    subst h0
    exact ⟨q, out, h, rfl⟩
  | succ n ih =>
    by_cases h0 : left = 0
    · subst h0
      exact ⟨q, out, h, by simp [Machine.awaitDma0, streamState, streamDma]⟩
    · have hl : out.length < B.length := by
        have := congrArg List.length h.total
        simp only [List.length_append, streamBits_length] at this
        omega
      obtain ⟨q', left', b, -, h', -, he⟩ := h.tick (d := d) hk hc hd hl (by simp only [writeStreamBits]; omega) Tick.quiet
      have hbusy : (streamState s q (streamDma d buffer (128 - left) left) out).dma0.busy = true := by
        simp [streamState, streamDma, h0]
      rw [Machine.awaitDma0, if_pos hbusy, he]
      exact ih h' (by simp; omega)

/-- The CRC word follows (R222). -/
theorem Streams.push (h : Streams s buffer q 0 out B) (hk : s.kseq.running = true) (hc : s.cseq.mode = .wait)
    (hd : 1 ≤ s.cfg.fifoDepth) (hB : B.length = 4128) (w : Word) (n : Nat) :
    ∃ q' out', Streams s buffer q' 0 out' (B ++ wordBits w) ∧
      pushDseq w n (streamState s q (streamDma d buffer 128 0) out) = streamState s q' (streamDma d buffer 128 0) out' := by
  have hpush : ∀ {q out}, Streams s buffer q 0 out B → Streams s buffer (q.pushTx w) 0 out (B ++ wordBits w) := by
    intro q out h
    refine ⟨h.mode, h.armed, h.rxf, h.isr, h.owner, h.osr, by omega, h.bits, h.more, ?_, .inl rfl⟩
    rw [← h.total]
    simp [Seq.pending, Seq.pushTx, streamWords]
  induction n generalizing q out with
  | zero => exact ⟨_, out, hpush h, rfl⟩
  | succ n ih =>
    rw [pushDseq]
    by_cases hr : (streamState s q (streamDma d buffer 128 0) out).dseq.txRoom s.cfg.fifoDepth = true
    · exact ⟨_, out, hpush h, if_pos hr⟩
    · have hlen : s.cfg.fifoDepth ≤ q.txf.length := by
        have hr2 : ¬ (decide (q.txf.length < s.cfg.fifoDepth) = true) := hr
        rw [decide_eq_true_eq] at hr2
        omega
      have hl : out.length < B.length := by
        have ht := congrArg List.length h.total
        have : q.pending ≠ [] := by
          intro hp
          have hp' := congrArg List.length hp
          unfold Seq.pending at hp'
          match ht : q.txf with
          | [] => rw [ht] at hlen; simp at hlen; omega
          | w :: ws => rw [ht] at hp'; simp at hp'
        have := List.length_pos_iff.2 this
        simp at ht
        omega
      obtain ⟨q', left', b, -, h', hz, he⟩ := h.tick (d := d) hk hc hd hl (by simp only [writeStreamBits]; omega) Tick.quiet
      have hz := hz rfl
      subst hz
      have hstep := ih h'
      obtain ⟨q2, out2, h2, he2⟩ := hstep
      refine ⟨q2, out2, h2, ?_⟩
      have hne : ¬ ((streamState s q (streamDma d buffer 128 0) out).dseq.txRoom
        (streamState s q (streamDma d buffer 128 0) out).cfg.fifoDepth = true) := hr
      rw [if_neg hne]
      rw [show 128 - 0 = 128 from rfl] at he
      rw [he, he2]

/-- The stream goes out (R223, R224). -/
theorem Streams.awaitIdle (h : Streams s buffer q 0 out B) (hk : s.kseq.running = true) (hc : s.cseq.mode = .wait)
    (hd : 1 ≤ s.cfg.fifoDepth) (hB : B.length = writeStreamBits) {n : Nat}
    (hn : writeStreamBits - out.length + 1 ≤ n) :
    ∃ q', SeqRest s.dseq q' ∧ awaitDseqIdle n (streamState s q (streamDma d buffer 128 0) out) =
      streamState s q' (streamDma d buffer 128 0) B := by
  induction n generalizing q out with
  | zero => omega
  | succ n ih =>
    have hidle : (streamState s q (streamDma d buffer 128 0) out).dseq.idle = false := by
      simp [Seq.idle, streamState, h.mode]
    rw [awaitDseqIdle, hidle]
    simp only [Bool.false_eq_true, if_false]
    have ho := h.more
    by_cases h1 : out.length + 1 = writeStreamBits
    · obtain ⟨q', hq', he⟩ := h.last (d := d) hk hc hd hB h1 Tick.quiet
      refine ⟨q', hq', ?_⟩
      rw [he]
      obtain ⟨n, rfl⟩ : ∃ m, n = m + 1 := ⟨n - 1, by omega⟩
      have : (streamState s q' (streamDma d buffer 128 0) B).dseq.idle = true := by
        simp [Seq.idle, streamState, hq'.mode, hq'.armed]
      rw [awaitDseqIdle, this, if_pos rfl]
    · obtain ⟨q', left', b, -, h', hz, he⟩ := h.tick (d := d) hk hc hd (by omega) (by omega) Tick.quiet
      have hz := hz rfl
      subst hz
      rw [show 128 - 0 = 128 from rfl] at he
      rw [he]
      exact ih h' (by simp; omega)

/-! ## WRITE_BLOCK -/

/-- The words of a write carry the bytes of the buffer in order (R73). -/
theorem streamBits_eq (m : Memory) (buffer : Word) (k n : Nat) :
    (streamWords m buffer k n).flatMap wordBits = bytesBits (m.readBytes (buffer + BitVec.ofNat 32 (4 * k)) (4 * n)) := by
  induction n generalizing k with
  | zero => rfl
  | succ n ih =>
    have hk : buffer + BitVec.ofNat 32 (4 * (k + 1)) = buffer + BitVec.ofNat 32 (4 * k) + 4#32 := by
      rw [show (4#32 : Word) = BitVec.ofNat 32 4 from rfl, word_add_assoc, Nat.mul_succ]
    rw [streamWords_succ, List.flatMap_cons, ih, show 4 * (n + 1) = 4 * n + 1 + 1 + 1 + 1 by omega, streamWord, hk]
    generalize buffer + BitVec.ofNat 32 (4 * k) = a
    simp only [Memory.readBytes, BitVec.add_assoc]
    rw [bytesBits_cons, bytesBits_cons, bytesBits_cons, bytesBits_cons, Memory.readWord, bswap32_joinLE, wordBits_joinBE]
    simp only [bytesBits_cons, bytesBits_nil, List.append_nil, List.append_assoc]
    rfl

theorem crcWord_bits (c : BitVec 16) :
    wordBits (crcWord c) = bytesBits [c.extractLsb' 8 8, c.extractLsb' 0 8, 0xFF#8, 0xFF#8] := by
  have h : crcWord c = joinBE (c.extractLsb' 8 8) (c.extractLsb' 0 8) 0xFF#8 0xFF#8 := by
    apply BitVec.eq_of_getLsbD_eq
    intro i hi
    simp only [crcWord, joinBE, BitVec.getLsbD_append, BitVec.getLsbD_extractLsb']
    by_cases h1 : i < 16
    · simp only [h1]
      by_cases h2 : i < 8
      · interval_cases i <;> simp
      · interval_cases i <;> simp
    · simp only [h1]
      by_cases h2 : i - 16 < 8
      · simp [h2]
      · simp [h2, show i - 16 - 8 < 8 by omega, show 8 + (i - 16 - 8) = i - 16 by omega]
  rw [h, wordBits_joinBE]

/-- What WR_STREAM and the wait for DSEQ do (R220 to R224), whatever CRC the engine holds. -/
theorem wrStream_any {v : State} {buffer : Word} (c : BitVec 16) (hk : v.kseq.running = true) (hc : v.cseq.mode = .wait)
    (hd : 1 ≤ v.cfg.fifoDepth) (hm : v.dseq.mode = .wait) (ha : v.dseq.armed = [.send writeStreamBits])
    (ht : v.dseq.txf = []) (hr : v.dseq.rxf = []) :
    ∃ q d, SeqRest v.dseq q ∧ d.busy = false ∧ d.claimed = v.dma0.claimed ∧
      awaitDseqIdle (writeStreamBits + 1) ((wrStream buffer c v).setPhase .wrWait) = { v with
          phase := .wrWait, dseq := q, dma0 := d
          history := ((bytesBits ([0xFF#8, 0xFF#8, 0xFF#8, 0xFE#8] ++ v.mem.readBytes buffer blockLenBytes ++
            [c.extractLsb' 8 8, c.extractLsb' 0 8, 0xFF#8, 0xFF#8])).map PinEvent.dat0).reverse ++ v.history } := by
  generalize hw : v.setPhase .wrStream = w
  have hq0 : ∃ q0, (w.dseq.pushTx startGapWord).start = q0 ∧ q0 = { v.dseq with
      mode := .send, armed := [], dir := .out, bitsLeft := writeStreamBits, osrCount := 0, isrCount := 0,
      txf := [startGapWord] } := by
    refine ⟨_, rfl, ?_⟩
    rw [← hw]
    simp [Seq.start, Seq.pushTx, hm, ha, ht, Seq.begin]
  obtain ⟨q0, hq0, hqe⟩ := hq0
  have hs0 : ((w.setDseq q0).setDma0 (w.dma0.config (.mem buffer) .dseqTxf 128#32 true false true .dseqTx .none).trigger) =
      streamState w q0 (streamDma w.dma0 buffer 0 128) [] := by
    simp [streamState, streamDma, Dma0.config, Dma0.trigger, State.setDseq, State.setDma0]
  obtain ⟨j, tx, hj, hbits, hfull, hrun⟩ := dmaRun_stream (s := w) (q := q0) (d := w.dma0) (buffer := buffer) (k := 0)
    (n := 128) (out := []) (by omega)
  have hinit : Streams w buffer { q0 with txf := tx } (128 - j) []
      (wordBits startGapWord ++ (streamWords w.mem buffer 0 128).flatMap wordBits) := by
    rw [hqe] at hbits ⊢
    refine ⟨rfl, rfl, hr, rfl, by rw [← hw]; rfl, by simp, by omega, rfl, by simp [writeStreamBits], ?_, ?_⟩
    · simp only [Seq.pending, List.take_zero, List.nil_append]
      rw [show 128 - (128 - j) = 0 + j by omega, hbits]
      simp
    · rcases hfull with hf | hf
      · exact .inl (by omega)
      · exact .inr hf
  have hwk : w.kseq.running = true := by rw [← hw]; exact hk
  have hwc : w.cseq.mode = .wait := by rw [← hw]; exact hc
  have hwd : 1 ≤ w.cfg.fifoDepth := by rw [← hw]; exact hd
  have hB : (wordBits startGapWord ++ (streamWords w.mem buffer 0 128).flatMap wordBits).length = 4128 := by simp
  obtain ⟨q1, out1, h1, he1⟩ := hinit.awaitDma0 (d := w.dma0) hwk hwc hwd hB (n := writeStreamBits)
    (by simp [writeStreamBits])
  obtain ⟨q2, out2, h2, he2⟩ := h1.push (d := w.dma0) hwk hwc hwd hB (crcWord c) 33
  have hB2 : (wordBits startGapWord ++ (streamWords w.mem buffer 0 128).flatMap wordBits ++ wordBits (crcWord c)).length =
      writeStreamBits := by simp [writeStreamBits]
  have h2' : Streams (w.setPhase .wrWait) buffer q2 0 out2 (wordBits startGapWord ++
      (streamWords w.mem buffer 0 128).flatMap wordBits ++ wordBits (crcWord c)) :=
    ⟨h2.mode, h2.armed, h2.rxf, h2.isr, h2.owner, h2.osr, h2.most, h2.bits, h2.more, h2.total, h2.full⟩
  obtain ⟨q3, h3, he3⟩ := h2'.awaitIdle (d := w.dma0) hwk hwc hwd hB2 (n := writeStreamBits + 1) (by omega)
  have hBe : wordBits startGapWord ++ (streamWords w.mem buffer 0 128).flatMap wordBits ++ wordBits (crcWord c) =
      bytesBits ([0xFF#8, 0xFF#8, 0xFF#8, 0xFE#8] ++ v.mem.readBytes buffer blockLenBytes ++
        [c.extractLsb' 8 8, c.extractLsb' 0 8, 0xFF#8, 0xFF#8]) := by
    rw [streamBits_eq, crcWord_bits, show wordBits startGapWord = bytesBits [0xFF#8, 0xFF#8, 0xFF#8, 0xFE#8] from rfl,
      ← bytesBits_append, ← bytesBits_append, ← hw]
    rw [show buffer + BitVec.ofNat 32 (4 * 0) = buffer from BitVec.add_zero _]
    rfl
  have hws : wrStream buffer c v = streamState w q2 (streamDma w.dma0 buffer 128 0) out2 := by
    have hv : (v.dseq.pushTx startGapWord).start = q0 := by rw [← hq0, ← hw]; rfl
    unfold wrStream
    rw [hw, hv]
    simp only
    have e : (w.setDseq q0).dma0 = w.dma0 := rfl
    rw [e, hs0, hrun, show 0 + j = 128 - (128 - j) by omega, he1, he2]
  refine ⟨q3, streamDma w.dma0 buffer 128 0, ?_, rfl, ?_, ?_⟩
  · rw [← hw] at h3; exact h3
  · rw [← hw]; rfl
  · rw [hws]
    refine he3.trans ?_
    rw [hBe, ← hw]
    rfl

/-- What WR_STREAM and the wait for DSEQ do with the CRC of the block they send. -/
theorem wrStream_spec {v : State} {buffer : Word} (hk : v.kseq.running = true) (hc : v.cseq.mode = .wait)
    (hd : 1 ≤ v.cfg.fifoDepth) (hm : v.dseq.mode = .wait) (ha : v.dseq.armed = [.send writeStreamBits])
    (ht : v.dseq.txf = []) (hr : v.dseq.rxf = []) :
    ∃ q d, SeqRest v.dseq q ∧ d.busy = false ∧ d.claimed = v.dma0.claimed ∧
      awaitDseqIdle (writeStreamBits + 1)
        ((wrStream buffer (crc16 (v.mem.readBytes buffer blockLenBytes)) v).setPhase .wrWait) = { v with
          phase := .wrWait, dseq := q, dma0 := d
          history := ((bytesBits (writeBytesOf (v.mem.readBytes buffer blockLenBytes))).map PinEvent.dat0).reverse ++
            v.history } :=
  wrStream_any _ hk hc hd hm ha ht hr

theorem writeBlock_ok {addr buffer : Word} {s b : State}
    (h : checkedCommand 24#6 addr { s with
      phase := .wrCmd, crc16Reg := crc16 (s.mem.readBytes buffer blockLenBytes)
      dseq := s.dseq.arm (.send writeStreamBits) } = (true, b)) :
    writeBlock addr buffer s = wrWait (wrStream buffer (crc16 (s.mem.readBytes buffer blockLenBytes)) b) := by
  unfold writeBlock
  simp only [State.setPhase, State.setDseq, h, if_true]

/-- WRITE_BLOCK with a card that answers and is not busy for ever (R220, R224). -/
theorem writeBlock_answered {addr buffer : Word} {s : State} {latency busy : Nat} {r : List Byte} {rest : List Turn}
    (h : Sendable s) (hm : s.mem.wf = true) (hcfg : s.cfg.wf) (hdm : s.dseq.mode = .wait) (hda : s.dseq.armed = [])
    (hdt : s.dseq.txf = []) (hdr : s.dseq.rxf = []) (hown : s.cseq.owner = .seq)
    (hc : s.card = Turn.answer latency r :: Turn.busy busy :: rest) (hl : r.length = 6)
    (hs : (r.headD 0#8).getLsbD 7 = false) (hok : statusOk (payload r) = true)
    (hb : buffer.toNat + 512 ≤ 2 ^ 32)
    (hbuf : buffer.toNat + 512 ≤ s.cfg.storageBase.toNat ∨ s.cfg.storageBase.toNat + 32 ≤ buffer.toNat) :
    ∃ pad cq dq d f fc, pad.length = 2 ∧ SeqRest s.cseq cq ∧ SeqRest s.dseq dq ∧ d.busy = false ∧
      d.claimed = s.dma0.claimed ∧
      writeBlock addr buffer s = .done true { s with
        phase := .wrWait, cseq := cq, dseq := dq, dma0 := d, free := f, freeCount := fc
        mem := ownMem 24#6 addr s.cfg r pad s.mem, crc7Reg := crc7Reg (frameHead 24#6 addr)
        crc16Reg := crc16 (s.mem.readBytes buffer 512), card := rest, appPrefix := false
        history := ((bytesBits (writeBytesOf (s.mem.readBytes buffer 512))).map PinEvent.dat0).reverse ++
          (frameEvents 24#6 addr ++ s.history) } := by
  have hst := storageAt_of_wf hcfg
  have h1 := hst.resp; have h2 := hst.fits; have h3 := hst.frame
  generalize hcr : crc16 (s.mem.readBytes buffer 512) = c
  have harm : s.dseq.arm (.send writeStreamBits) = { s.dseq with armed := [.send writeStreamBits] } := by
    simp [Seq.arm, Seq.armRoom, hdm, hda]
  generalize ha : ({ s with
    phase := .wrCmd, crc16Reg := c, dseq := { s.dseq with armed := [.send writeStreamBits] } } : State) = a
  have hsend : Sendable a := by
    rw [← ha]; exact ⟨h.clock, h.mode, h.armed, h.txf, h.rxf, h.room, h.dma⟩
  obtain ⟨cq, d, f, fc, pad, hcq, hd, hdc, hp, he⟩ := checkedCommand_answered (cmd := 24#6) (param := addr) (s := a)
    (latency := latency) (r := r) (rest := Turn.busy busy :: rest) hsend (by rw [← ha]; exact hm)
    (by rw [← ha]; exact hcfg) (by rw [← ha]; exact Tick.quiet_still (.inl hdm)) (by rw [← ha]; exact hc) hl hs hok
  generalize hb2 : ownState 24#6 addr cq d f fc (ownMem 24#6 addr a.cfg r pad a.mem) (Turn.busy busy :: rest)
    (decide (24#6 = 55#6)) a = b at he
  have hbm : b.mem = ownMem 24#6 addr s.cfg r pad s.mem := by rw [← hb2, ← ha]; rfl
  have hread : b.mem.readBytes buffer blockLenBytes = s.mem.readBytes buffer 512 := by
    rw [hbm]
    apply Memory.readBytes_congr
    intro i hi
    have hi : i < 512 := hi
    refine ownMem_read hm hcfg (by simp [hl, hp]) ?_
    unfold inHead
    rw [word_add_toNat (by omega)]
    omega
  obtain ⟨q, d', hq, hd', hdc', hstream⟩ := wrStream_spec (v := b) (buffer := buffer) (by rw [← hb2, ← ha]; exact h.clock)
    (by rw [← hb2]; exact hcq.mode) (by rw [← hb2, ← ha]; exact h.room) (by rw [← hb2, ← ha]; exact hdm)
    (by rw [← hb2, ← ha]; rfl) (by rw [← hb2, ← ha]; exact hdt) (by rw [← hb2, ← ha]; exact hdr)
  rw [hread, hcr] at hstream
  refine ⟨pad, cq, q, d', f, fc, hp, by rw [← ha] at hcq; exact hcq, ?_, hd', ?_, ?_⟩
  · rw [← hb2, ← ha] at hq
    exact ⟨hq.mode, hq.bitsLeft, hq.armed, hq.osrCount, hq.isrCount, hq.txf, hq.rxf, hq.dir, hq.owner⟩
  · rw [hdc', ← hb2]; rw [← ha] at hdc; exact hdc
  · have hcr' : crc16 (s.mem.readBytes buffer blockLenBytes) = c := hcr
    rw [writeBlock_ok (b := b) (by rw [hcr', harm, ha]; exact he), hcr']
    unfold wrWait
    rw [hstream, waitNotBusy_busy (n := busy) (rest := rest) (by rw [← hb2]; rfl)
      (by rw [← hb2]; exact hcq.owner.trans (by rw [← ha]; exact hown))]
    simp only [Run.andThen]
    rw [← hb2, ← ha]
    rfl

end Sys2Proof.Machine
end

