-- ==== Sys2Proof/Laws/Block.lean ====
section
/-! SUPPORT. The block operations inside a request (spec/44_block_transfer.md): what READ_BLOCK and WRITE_BLOCK leave,
whether they succeed or fail, in a request that may send commands before and after them. -/

namespace Sys2Proof.Machine

/-! ## A request that may have moved blocks -/

/-- The state `u` inside a request in which, from `s`, commands were sent and blocks moved: the sequencers and channels are
at rest, and only draws, DMA registers, CRC registers, memory at `touched`, and what the last parameters name, have
changed. -/
structure Worked (touched : Nat → Prop) (s u : State) (x : Session) (f : Option Cause) (rest : List Turn) (a : Bool)
    (ev : List PinEvent) : Prop where
  cfg      : u.cfg = s.cfg
  session  : u.session = x
  io       : u.ioInitialised = s.ioInitialised
  valid    : u.sessionValid = s.sessionValid
  failure  : u.lastFailure = f
  lanes    : u.lanes = x.dataWidth
  kseq     : u.kseq = s.kseq
  host     : u.host = s.host
  result   : u.result = s.result
  done     : u.done = false
  stack    : u.stack = s.stack
  dseq     : u.dseq.Quiet
  dwaits   : u.dseq.mode = .wait
  dma1     : u.dma1.busy = false
  claimed1 : u.dma1.claimed = s.dma1.claimed
  cseq     : u.cseq.Quiet
  cwaits   : u.cseq.mode = .wait
  dma0     : u.dma0.busy = false
  claimed0 : u.dma0.claimed = s.dma0.claimed
  wf       : u.mem.wf = true
  mem      : ∀ y, ¬ touched y → u.mem.read y = s.mem.read y
  card     : u.card = rest
  app      : u.appPrefix = a
  history  : u.history = ev ++ s.history

variable {touched : Nat → Prop} {s u v : State} {x y : Session} {f g : Option Cause} {rest rest' : List Turn}
  {app app' : Bool} {ev ev' : List PinEvent}

theorem Sent.worked (h : Sent touched s u x f rest app ev) (hs : SendBase s) : Worked touched s u x f rest app ev :=
  ⟨h.cfg, h.session, h.io, h.valid, h.failure, h.lanes, h.kseq, h.host, h.result, h.done, h.stack, h.dseq ▸ hs.dseq,
    h.dseq ▸ hs.dwaits, h.dma1 ▸ hs.dma1, h.dma1 ▸ rfl, h.cseq, h.cwaits, h.dma0, h.claimed0, h.wf, h.mem, h.card, h.app,
    h.history⟩

theorem Worked.base (h : Worked touched s u x f rest app ev) (hs : SendBase s) : SendBase u :=
  ⟨h.dseq, h.dwaits, h.dma1, by rw [h.kseq]; exact hs.clock, by rw [h.cfg]; exact hs.cfg⟩

/-- A state inside a request as the start of what comes next. -/
theorem Worked.from (h : Worked touched s u x f rest app ev) : Sent touched u u x f rest app [] :=
  ⟨rfl, h.session, rfl, rfl, h.failure, h.lanes, rfl, rfl, rfl, h.done, rfl, rfl, rfl, rfl, h.cseq, h.cwaits, h.dma0, rfl,
    h.wf, fun _ _ => rfl, h.card, h.app, rfl⟩

theorem Worked.trans (h : Worked touched s u x f rest app ev) (k : Worked touched u v y g rest' app' ev') :
    Worked touched s v y g rest' app' (ev' ++ ev) :=
  ⟨k.cfg.trans h.cfg, k.session, k.io.trans h.io, k.valid.trans h.valid, k.failure, k.lanes, k.kseq.trans h.kseq,
    k.host.trans h.host, k.result.trans h.result, k.done, k.stack.trans h.stack, k.dseq, k.dwaits, k.dma1,
    k.claimed1.trans h.claimed1, k.cseq, k.cwaits, k.dma0, k.claimed0.trans h.claimed0, k.wf,
    fun z hz => (k.mem z hz).trans (h.mem z hz), k.card, k.app, by rw [k.history, h.history, List.append_assoc]⟩

theorem Worked.widen {touched' : Nat → Prop} (h : Worked touched s u x f rest app ev) (ht : ∀ z, touched z → touched' z) :
    Worked touched' s u x f rest app ev :=
  ⟨h.cfg, h.session, h.io, h.valid, h.failure, h.lanes, h.kseq, h.host, h.result, h.done, h.stack, h.dseq, h.dwaits,
    h.dma1, h.claimed1, h.cseq, h.cwaits, h.dma0, h.claimed0, h.wf, fun z hz => h.mem z fun k => hz (ht z k), h.card, h.app,
    h.history⟩

/-- What comes after a block operation, as `Sent` says it. -/
theorem Worked.sent (h : Worked touched s u x f rest app ev) (hs : SendBase s) (k : Sent touched u v y g rest' app' ev') :
    Worked touched s v y g rest' app' (ev' ++ ev) := h.trans (k.worked (h.base hs))

theorem Worked.frame (h : Worked touched s u x f rest app ev) (w : OpResult) : RequestFrame touched s (u.finish w) :=
  ⟨rfl, rfl, rfl, h.cfg, h.io, h.valid, h.lanes.trans (by rw [← h.session]; rfl), h.kseq, h.host, h.cseq, h.cwaits, h.dseq,
    h.dwaits, h.dma0, h.claimed0, h.dma1, h.claimed1, h.wf, h.mem⟩

theorem Worked.returned (h : Worked touched s u x f rest app ev) (w : OpResult) :
    Returned (u.finish w) w x f app rest (ev ++ s.history) :=
  ⟨rfl, h.session, h.failure, h.app, h.card, h.history⟩

/-! ## Where a READ_BLOCK's extents lie -/

/-- The operands of a READ_BLOCK lie as R79 and R81 ask. -/
structure ReadPlace (o : ReadOp) (c : Config) : Prop where
  count   : 1 ≤ o.count ∧ o.count ≤ 32
  apart   : ReadApart o c.tableAddr
  bufHead : o.buffer.toNat + o.count * o.blockLen ≤ c.storageBase.toNat ∨ c.storageBase.toNat + 32 ≤ o.buffer.toNat
  crcHead : o.crcDst.toNat + 4 * o.width.crcWords ≤ c.storageBase.toNat ∨ c.storageBase.toNat + 32 ≤ o.crcDst.toNat

theorem Width.crcWords_pos (w : Width) : 1 ≤ w.crcWords ∧ w.crcWords ≤ 2 ∧ 2 * w.lines ≤ 4 * w.crcWords := by
  cases w <;> decide

theorem extentOk_spec {c : Config} (hc : c.wf) {a : Word} {n : Nat} (hn : 0 < n) (h : extentOk c a n = true) :
    a.toNat + n ≤ 2 ^ 32 ∧ (a.toNat + n ≤ c.storageBase.toNat ∨ c.storageBase.toNat + 0x310 ≤ a.toNat) := by
  have hp : 2 ^ c.addrBits ≤ 2 ^ 32 := Nat.pow_le_pow_right (by decide) hc.2.2.1
  unfold extentOk inMemory disjoint at h
  simp only [Bool.and_eq_true, Bool.or_eq_true, decide_eq_true_eq] at h
  have hz : storageSize = 0x310 := rfl
  rw [hz] at h
  omega

/-- The caller's operands, checked (R226). -/
theorem readPlace_of {cmd : BitVec 6} {addr buffer crc : Word} {count : Nat} {s : State} (hc : s.cfg.wf)
    (hn : 1 ≤ count ∧ count ≤ 32) (h : readExtentsOk (cmd.setWidth 32) buffer count crc s = true) :
    ReadPlace (readOp cmd addr buffer count crc s) s.cfg := by
  have hst := storageAt_of_wf hc
  have h1 := hst.crcBuf; have h2 := hst.fits; have h3 := hst.table
  have hcmd : (cmd.setWidth 32 = 6#32) ↔ (cmd = 6#6) := by
    constructor
    · intro k
      have := congrArg (BitVec.setWidth 6) k
      simpa using this
    · rintro rfl; rfl
  unfold readExtentsOk at h
  simp only [Bool.and_eq_true, Bool.or_eq_true, beq_iff_eq, hcmd] at h
  obtain ⟨hb, hcrc⟩ := h
  have hw := Width.crcWords_pos s.session.dataWidth
  generalize hlen : (if cmd = 6#6 then switchBlockLenBytes else blockLenBytes) = len at hb hcrc
  have hbl : (readOp cmd addr buffer count crc s).blockLen = len := hlen
  have hpos : 0 < len := by rw [← hlen]; split <;> decide
  have hbpos : 0 < count * len := Nat.mul_pos hn.1 hpos
  obtain ⟨hb1, hb2⟩ := extentOk_spec hc hbpos hb
  have key : ReadPlace ⟨cmd, addr, buffer, count, (if crc = 0#32 then s.cfg.crcBufAddr else crc), s.session.dataWidth⟩ s.cfg := by
    by_cases hz : crc = 0#32
    · rw [if_pos hz]
      refine ⟨hn, ⟨?_, ?_, ?_, ?_, ?_, ?_⟩, ?_, ?_⟩ <;> simp only [show (⟨cmd, addr, buffer, count, s.cfg.crcBufAddr,
        s.session.dataWidth⟩ : ReadOp).blockLen = len from hlen] <;> omega
    · rw [if_neg hz]
      have hcrc := hcrc.resolve_left hz
      obtain ⟨c1, c2⟩ := extentOk_spec hc (by omega) hcrc.1
      have hd := hcrc.2
      unfold disjoint at hd
      simp only [Bool.or_eq_true, decide_eq_true_eq] at hd
      refine ⟨hn, ⟨?_, ?_, ?_, ?_, ?_, ?_⟩, ?_, ?_⟩ <;> simp only [show (⟨cmd, addr, buffer, count, crc,
        s.session.dataWidth⟩ : ReadOp).blockLen = len from hlen] <;> omega
  exact key

/-- The engine's own switch-status buffer (R235). -/
theorem readPlace_switch {arg : Word} {s : State} (hc : s.cfg.wf) :
    ReadPlace (readOp 6#6 arg s.cfg.swAddr 1 0#32 s) s.cfg := by
  have hst := storageAt_of_wf hc
  have h1 := hst.crcBuf; have h2 := hst.fits; have h3 := hst.table; have h4 := hst.sw
  have hw := Width.crcWords_pos s.session.dataWidth
  have key : ReadPlace ⟨6#6, arg, s.cfg.swAddr, 1, s.cfg.crcBufAddr, s.session.dataWidth⟩ s.cfg := by
    refine ⟨⟨Nat.le_refl 1, by show 1 ≤ 32; decide⟩, ⟨?_, ?_, ?_, ?_, ?_, ?_⟩, ?_, ?_⟩ <;> simp only [show (⟨6#6, arg, s.cfg.swAddr, 1, s.cfg.crcBufAddr,
        s.session.dataWidth⟩ : ReadOp).blockLen = 64 from rfl] <;> omega
  exact key

theorem Worked.readReady {o : ReadOp} (h : Worked touched s u x f rest app ev) (hs : SendBase s) (hp : ReadPlace o u.cfg)
    (hw : o.width = u.session.dataWidth) : ReadReady o u := by
  have hb := h.base hs
  refine ⟨h.from.sendable hb, h.wf, hb.cfg, h.dwaits, h.dseq.armed, h.dseq.txf, h.dseq.rxf, ?_, hp.count, hp.apart, hp.bufHead,
    hp.crcHead⟩
  rw [h.lanes, ← h.session, hw]

/-! ## READ_BLOCK with a card that does its part -/

/-- The bytes a READ_BLOCK may change. -/
def readTouched (o : ReadOp) (c : Config) (z : Nat) : Prop :=
  inStorage c z ∨ inExtent o.buffer (o.count * o.blockLen) z ∨ inExtent o.crcDst (4 * o.width.crcWords) z

theorem tableMem_read {o : ReadOp} {s : State} (h : ReadReady o s) {z : Nat} (hz : ¬ inStorage s.cfg z) :
    (tableMem o s).read z = s.mem.read z := by
  have hst := storageAt_of_wf h.cfg
  have h1 := hst.table; have h2 := hst.fits; have h3 := h.count.2
  have hl : (tablePairs o o.count o.buffer).length = 4 * o.count := (tablePairs_spec o o.count o.buffer).1
  unfold inStorage at hz
  simp only [storageSize] at hz
  rw [tableMem, Memory.writeWords_eq, Memory.read_writeBytes h.wf (by simp [hl]; omega), if_neg (by simp [hl]; omega)]

theorem inHead_storage {c : Config} {z : Nat} (h : inHead c z) : inStorage c z := by
  unfold inHead at h; unfold inStorage storageSize; omega

/-- Memory when a READ_BLOCK's blocks have landed, up to CMD12. -/
theorem blocksMem_touched {o : ReadOp} {s : State} {bs : List CardBlock} {last r pad : List Byte} {cmd : BitVec 6} {addr : Word}
    (h : ReadReady o s) (hl : Landing o bs last) (hr : (r ++ pad).length ≤ 24) {z : Nat} (hz : ¬ readTouched o s.cfg z) :
    (blocksMem o bs last (ownMem cmd addr s.cfg r pad (tableMem o s))).read z = s.mem.read z := by
  unfold readTouched inExtent at hz
  rw [blocksMem_read hl (ownMem_wf (tableMem_wf h)) (fun k => hz (.inr (.inl k))) (fun k => hz (.inr (.inr k))),
    ownMem_read (tableMem_wf h) h.cfg hr (fun k => hz (.inl (inHead_storage k))), tableMem_read h fun k => hz (.inl k)]

/-- READ_BLOCK inside a request (R210 to R219). -/
theorem Worked.reads {cmd : BitVec 6} {addr buffer crc : Word} {count : Nat} {p : ReadPlay}
    (h : Worked touched s u x f (p.turns cmd x.dataWidth ++ rest) app ev) (hs : SendBase s)
    (hcmd : cmd = 18#6 ∨ (cmd = 6#6 ∨ cmd = 17#6) ∧ count = 1)
    (hp : ReadPlace (readOp cmd addr buffer count crc u) u.cfg)
    (hg : p.Good cmd x.dataWidth (readOp cmd addr buffer count crc u).blockLen count s.cfg.verifyReadCrc)
    (ht : ∀ z, readTouched (readOp cmd addr buffer count crc u) u.cfg z → touched z) :
    ∃ v, readBlock cmd addr buffer count crc u = .done true v ∧
      Worked touched s v x f rest false (readEvents cmd addr ++ ev) ∧ v.crc16Reg = u.crc16Reg ∧
      v.mem.readBytes buffer (count * (readOp cmd addr buffer count crc u).blockLen) = p.data ∧
      v.mem.readBytes (readOp cmd addr buffer count crc u).crcDst (2 * x.dataWidth.lines) =
        (p.blocks.getLastD ⟨0, [], [], Tick.quiet⟩).crc ∧
      ∀ z, ¬ readTouched (readOp cmd addr buffer count crc u) u.cfg z → v.mem.read z = u.mem.read z := by
  have hrr := h.readReady hs hp rfl
  have hb := h.base hs
  have hst := storageAt_of_wf hb.cfg
  have h1 := hst.resp; have h2 := hst.fits; have h3 := hst.frame
  have hxw : x.dataWidth = u.session.dataWidth := by rw [h.session]
  have hne : p.blocks ≠ [] := by
    intro k; have := hg.count; rw [k] at this
    have := hp.count.1
    simp only [readOp, List.length_nil] at *; omega
  have hlastmem : p.blocks.getLastD ⟨0, [], [], Tick.quiet⟩ ∈ p.blocks := by
    rw [List.getLastD_eq_getLast?, List.getLast?_eq_some_getLast hne]; exact List.getLast_mem hne
  have hlastlen := (hg.blocks _ hlastmem).2
  have hcw := Width.crcWords_pos x.dataWidth
  have hdata : (p.blocks.flatMap CardBlock.data).length = count * (readOp cmd addr buffer count crc u).blockLen := by
    rw [flatMap_data_length (o := readOp cmd addr buffer count crc u) fun b hb => (hg.blocks b hb).1, hg.count]
  rcases hcmd with rfl | ⟨hcmd, rfl⟩
  · -- CMD18
    have hcard : u.card = Turn.answer p.latency p.r :: Turn.blocks u.session.dataWidth p.blocks ::
        Turn.answer p.stopLatency p.stop :: Turn.busy p.busy :: rest := by
      rw [h.card, ReadPlay.turns, if_pos rfl, hxw]; rfl
    obtain ⟨pad, pad2, last, cq, dq, d0, d1, fr, fc, hp1, hp2, hll, hlp, hcq, hdq, hd0, hc0, hd1, hc1, he⟩ :=
      readBlock_multiple hrr hcard hg.answer.1.1 hg.answer.1.2 hg.answer.2 (hg.stop rfl).1.1 (hg.stop rfl).1.2 (hg.stop rfl).2
        h.cseq.owner hg.count (by rw [← hxw]; exact hg.blocks) (by rw [← hxw, h.cfg]; exact hg.crc)
    have hland : Landing (readOp 18#6 addr buffer count crc u) p.blocks last :=
      ⟨hp.apart.bufIn, hp.apart.crcIn, hp.apart.bufCrc, hdata, hll⟩
    have hwf := ownMem_wf (cmd := 18#6) (param := addr) (c := u.cfg) (r := p.r) (pad := pad) (tableMem_wf hrr)
    have hwf2 := blocksMem_wf (o := readOp 18#6 addr buffer count crc u) (bs := p.blocks) (last := last) hwf
    have hr1 : (p.r ++ pad).length ≤ 24 := by rw [List.length_append, hg.answer.1.1, hp1]; decide
    have hr2 : (p.stop ++ pad2).length ≤ 24 := by rw [List.length_append, (hg.stop rfl).1.1, hp2]; decide
    have hframe : ∀ z, ¬ readTouched (readOp 18#6 addr buffer count crc u) u.cfg z →
        (ownMem 12#6 0#32 u.cfg p.stop pad2 (blocksMem (readOp 18#6 addr buffer count crc u) p.blocks last
          (ownMem 18#6 addr u.cfg p.r pad (tableMem (readOp 18#6 addr buffer count crc u) u)))).read z = u.mem.read z := by
      intro z hz
      rw [ownMem_read hwf2 hb.cfg hr2 (fun k => hz (.inl (inHead_storage k)))]
      exact blocksMem_touched hrr hland hr1 hz
    have hsame : ∀ (a : Word) (n : Nat), a.toNat + n ≤ 2 ^ 32 →
        (a.toNat + n ≤ u.cfg.storageBase.toNat ∨ u.cfg.storageBase.toNat + 32 ≤ a.toNat) →
        (ownMem 12#6 0#32 u.cfg p.stop pad2 (blocksMem (readOp 18#6 addr buffer count crc u) p.blocks last
          (ownMem 18#6 addr u.cfg p.r pad (tableMem (readOp 18#6 addr buffer count crc u) u)))).readBytes a n =
        (blocksMem (readOp 18#6 addr buffer count crc u) p.blocks last
          (ownMem 18#6 addr u.cfg p.r pad (tableMem (readOp 18#6 addr buffer count crc u) u))).readBytes a n := by
      intro a n ha hd
      apply Memory.readBytes_congr
      intro i hi
      refine ownMem_read hwf2 hb.cfg hr2 ?_
      unfold inHead
      rw [word_add_toNat (by omega)]
      omega
    refine ⟨_, he, ?_, rfl, ?_, ?_, hframe⟩
    · exact ⟨h.cfg, h.session, h.io, h.valid, h.failure, h.lanes, h.kseq, h.host, h.result, h.done, h.stack,
        hdq.quiet h.dseq.owner, hdq.mode, hd1, hc1.trans h.claimed1, hcq.quiet h.cseq.owner, hcq.mode, hd0,
        hc0.trans h.claimed0, ownMem_wf hwf2, fun z hz => (hframe z fun k => hz (ht z k)).trans (h.mem z hz), rfl, rfl, by
          show frameEvents 12#6 0#32 ++ (frameEvents 18#6 addr ++ u.history) = _
          rw [h.history, readEvents, if_pos rfl]; simp only [List.append_assoc]⟩
    · exact (hsame _ _ hp.apart.bufIn hp.bufHead).trans (blocksMem_data hland hwf)
    · have hci := hp.apart.crcIn
      have hch := hp.crcHead
      have hw' : (readOp 18#6 addr buffer count crc u).width = x.dataWidth := hxw.symm
      rw [hw'] at hci hch
      refine (hsame _ _ (by omega) (by omega)).trans ?_
      rw [blocksMem_crc hland hwf (n := 2 * x.dataWidth.lines) (by rw [hll, ← hxw]; omega), ← hlastlen]
      obtain ⟨tl, htl⟩ := hlp
      rw [← htl, List.take_left']; rfl
  · -- one block
    have h18 : cmd ≠ 18#6 := by rcases hcmd with rfl | rfl <;> decide
    have h55 : cmd ≠ 55#6 := by rcases hcmd with rfl | rfl <;> decide
    obtain ⟨b, hbl⟩ : ∃ b, p.blocks = [b] := List.length_eq_one_iff.1 hg.count
    have hcard : u.card = Turn.answer p.latency p.r :: Turn.blocks u.session.dataWidth [b] :: rest := by
      rw [h.card, ReadPlay.turns, if_neg h18, hxw, hbl]; rfl
    have hlast : p.blocks.getLastD ⟨0, [], [], Tick.quiet⟩ = b := by rw [hbl]; rfl
    obtain ⟨pad, last, cq, dq, d0, d1, fr, fc, hp1, hll, hlp, hcq, hdq, hd0, hc0, hd1, hc1, he⟩ :=
      readBlock_single hrr h55 h18 hcard hg.answer.1.1 hg.answer.1.2 hg.answer.2
        (by rw [← hxw]; exact hg.blocks b (by rw [hbl]; exact List.mem_singleton.2 rfl))
        (by rw [← hxw, ← hlast, h.cfg]; exact hg.crc)
    have hland : Landing (readOp cmd addr buffer 1 crc u) [b] last :=
      ⟨hp.apart.bufIn, hp.apart.crcIn, hp.apart.bufCrc, by rw [← hbl]; exact hdata, hll⟩
    have hwf := ownMem_wf (cmd := cmd) (param := addr) (c := u.cfg) (r := p.r) (pad := pad) (tableMem_wf hrr)
    have hr1 : (p.r ++ pad).length ≤ 24 := by rw [List.length_append, hg.answer.1.1, hp1]; decide
    refine ⟨_, he, ?_, rfl, ?_, ?_, fun z hz => blocksMem_touched hrr hland hr1 hz⟩
    · exact ⟨h.cfg, h.session, h.io, h.valid, h.failure, h.lanes, h.kseq, h.host, h.result, h.done, h.stack,
        hdq.quiet h.dseq.owner, hdq.mode, hd1, hc1.trans h.claimed1, hcq.quiet h.cseq.owner, hcq.mode, hd0,
        hc0.trans h.claimed0, blocksMem_wf hwf,
        fun z hz => (blocksMem_touched hrr hland hr1 fun k => hz (ht z k)).trans (h.mem z hz), rfl, rfl, by
          show frameEvents cmd addr ++ u.history = _
          rw [h.history, readEvents, if_neg h18]; simp only [List.nil_append, List.append_assoc]⟩
    · rw [ReadPlay.data, hbl]; exact blocksMem_data hland hwf
    · rw [hlast] at hlastlen ⊢
      refine (blocksMem_crc hland hwf (n := 2 * x.dataWidth.lines) (by rw [hll, ← hxw]; omega)).trans ?_
      rw [← hlastlen]
      obtain ⟨tl, htl⟩ := hlp
      rw [← htl, List.take_left']; rfl

/-! ## READ_BLOCK that fails -/

/-- What the cleanup of a failed read leaves (R219, R80). -/
theorem readFail_spec (o : ReadOp) (c : Cause) (v : State) :
    ∃ ws cs fr fc, ws.length = o.count * o.dataWords ∧ cs.length = o.width.crcWords ∧ readFail o c v = { v with
      dma0 := v.dma0.abort, dma1 := v.dma1.abort, dseq := v.dseq.clearRx.forceWait,
      mem := (v.mem.writeWords o.buffer ws).writeWords o.crcDst cs, free := fr, freeCount := fc, lastFailure := some c } := by
  obtain ⟨ws, cs, fr, fc, hl, hl', e⟩ := readLost_spec o (readCleanup v)
  exact ⟨ws, cs, fr, fc, hl, hl', by rw [readFail, e]; rfl⟩

/-- Any words in the write extent of a read leave every other byte as it was. -/
theorem ReadPlace.lost_read {o : ReadOp} {d : Config} {m : Memory} {ws cs : List Word} (hp : ReadPlace o d) (hm : m.wf = true)
    (hl : ws.length = o.count * o.dataWords) (hl' : cs.length = o.width.crcWords) {z : Nat} (hz : ¬ readTouched o d z) :
    ((m.writeWords o.buffer ws).writeWords o.crcDst cs).read z = m.read z := by
  obtain ⟨-, -, hlen, -⟩ := o.dataWords_pos
  have hbi := hp.apart.bufIn; have hci := hp.apart.crcIn
  have hws : 4 * ws.length = o.count * o.blockLen := by
    rw [hl, show o.blockLen = 4 * o.dataWords by omega, Nat.mul_left_comm]
  unfold readTouched inExtent at hz
  rw [Memory.writeWords_eq, Memory.writeWords_eq, Memory.read_writeBytes (Memory.wf_writeBytes hm _ _) (by simp [hl']; omega),
    if_neg (by simp [hl']; omega), Memory.read_writeBytes hm (by simp; omega), if_neg (by simp; omega)]

/-- The block after a read that fails when its data have come (R80, U22). -/
theorem Worked.lost {o : ReadOp} (h : Worked touched s u x f rest app ev) (hp : ReadPlace o u.cfg)
    (ht : ∀ z, readTouched o u.cfg z → touched z) : Worked touched s (readLost o u) x f rest app ev := by
  obtain ⟨ws, cs, fr, fc, hl, hl', e⟩ := readLost_spec o u
  rw [e]
  exact ⟨h.cfg, h.session, h.io, h.valid, h.failure, h.lanes, h.kseq, h.host, h.result, h.done, h.stack, h.dseq, h.dwaits, h.dma1,
    h.claimed1, h.cseq, h.cwaits, h.dma0, h.claimed0, Memory.wf_writeWords (Memory.wf_writeWords h.wf _ _) _ _,
    fun z hz => (hp.lost_read h.wf hl hl' fun k => hz (ht z k)).trans (h.mem z hz), h.card, h.app, h.history⟩

theorem Worked.raise (h : Worked touched s u x f rest app ev) (c : Cause) : Worked touched s (u.raise c) x (some c) rest app ev :=
  ⟨h.cfg, h.session, h.io, h.valid, rfl, h.lanes, h.kseq, h.host, h.result, h.done, h.stack, h.dseq, h.dwaits, h.dma1,
    h.claimed1, h.cseq, h.cwaits, h.dma0, h.claimed0, h.wf, h.mem, h.card, h.app, h.history⟩

/-- The block after a failed read, from any state inside it. -/
theorem Worked.readFailed {o : ReadOp} {p : Phase} {cq dq : Seq} {d0 : Dma0} {d1 : Dma1} {m : Memory} {c7 : BitVec 8}
    {cd : List Turn} {fl : Option Cause} {fr : List Word} {fc : Nat} {c : Cause} (h : Worked touched s u x f rest app ev)
    (hp : ReadPlace o u.cfg) (ht : ∀ z, readTouched o u.cfg z → touched z) (hcq : cq.Quiet)
    (hcm : cq.mode = .wait) (hdm : dq.mode ≠ .unprogrammed) (hdt : dq.txf = []) (hdo : dq.owner = .seq)
    (hd0 : d0.claimed = u.dma0.claimed) (hd1 : d1.claimed = u.dma1.claimed) (hm : m.wf = true)
    (hmr : ∀ z, ¬ readTouched o u.cfg z → m.read z = u.mem.read z) :
    Worked touched s (readFail o c { u with
      phase := p, cseq := cq, dseq := dq, dma0 := d0, dma1 := d1, mem := m, crc7Reg := c7, history := ev' ++ u.history
      card := cd, appPrefix := app', lastFailure := fl, free := fr, freeCount := fc }) x (some c) cd app' (ev' ++ ev) := by
  obtain ⟨ws, cs, fr2, fc2, hl, hl2, he⟩ := readFail_spec o c { u with
      phase := p, cseq := cq, dseq := dq, dma0 := d0, dma1 := d1, mem := m, crc7Reg := c7, history := ev' ++ u.history
      card := cd, appPrefix := app', lastFailure := fl, free := fr, freeCount := fc }
  rw [he]
  have hfw : dq.clearRx.forceWait =
      { dq with rxf := [], mode := .wait, armed := [], bitsLeft := 0, osrCount := 0, isrCount := 0, dir := .input } := by
    unfold Seq.forceWait Seq.clearRx; rw [if_neg hdm]
  refine ⟨h.cfg, h.session, h.io, h.valid, rfl, h.lanes, h.kseq, h.host, h.result, h.done, h.stack, ?_, ?_,
    rfl, hd1.trans h.claimed1, hcq, hcm, rfl, hd0.trans h.claimed0,
    Memory.wf_writeWords (Memory.wf_writeWords hm _ _) _ _, ?_, rfl, rfl, ?_⟩
  · show (dq.clearRx.forceWait).Quiet
    rw [hfw]; exact ⟨.inl rfl, rfl, hdt, rfl, rfl, hdo⟩
  · show (dq.clearRx.forceWait).mode = .wait
    rw [hfw]
  · intro z hz
    have hz' : ¬ readTouched o u.cfg z := fun k => hz (ht z k)
    exact (hp.lost_read hm hl hl2 hz').trans ((hmr z hz').trans (h.mem z hz))
  · show ev' ++ u.history = _
    rw [h.history, List.append_assoc]

theorem readFail_crc16 (o : ReadOp) (c : Cause) (v : State) : (readFail o c v).crc16Reg = v.crc16Reg := by
  obtain ⟨ws, cs, fr, fc, -, -, he⟩ := readFail_spec o c v
  rw [he]

theorem readBlock_eq {cmd : BitVec 6} {addr buffer crc : Word} {count : Nat} (hn : count ≤ 32)
    (h : ReadReady (readOp cmd addr buffer count crc u) u) {ok : Bool} {b : State}
    (hc : ownCommand cmd addr (armedState (readOp cmd addr buffer count crc u) u) = (ok, b)) :
    readBlock cmd addr buffer count crc u =
      if ok then
        if checkAt b b.cfg.respAddr then rdStream (readOp cmd addr buffer count crc u) b
        else .done false (readFail (readOp cmd addr buffer count crc u) .statusError b)
      else .done false (readFail (readOp cmd addr buffer count crc u) .cmdTimeout b) := by
  have hbl : readBlock cmd addr buffer count crc u = rdCmd (readOp cmd addr buffer count crc u)
      (rdArm (readOp cmd addr buffer count crc u) (rdTable (readOp cmd addr buffer count crc u) (u.setPhase .rdCheck))) := by
    unfold readBlock
    simp only
    rw [if_neg (by simp only [sdMaxReadBlocks]; omega)]
    rfl
  have hc' : ownCommand (readOp cmd addr buffer count crc u).cmd (readOp cmd addr buffer count crc u).addr
    (armedState (readOp cmd addr buffer count crc u) u) = (ok, b) := hc
  rw [hbl]
  unfold rdCmd
  rw [rdArm_eq h]
  simp only [hc']

/-- READ_BLOCK whose command fails (R219). -/
theorem Worked.readFails {cmd : BitVec 6} {addr buffer crc : Word} {count : Nat} {c : Cause} {t : Turn}
    (h : Worked touched s u x f (t :: rest) app ev) (hs : SendBase s)
    (hp : ReadPlace (readOp cmd addr buffer count crc u) u.cfg) (hf : Fails t c)
    (ht : ∀ z, readTouched (readOp cmd addr buffer count crc u) u.cfg z → touched z) :
    ∃ v, readBlock cmd addr buffer count crc u = .done false v ∧
      Worked touched s v x (some c) rest false (frameEvents cmd addr ++ ev) ∧ v.crc16Reg = u.crc16Reg := by
  have hrr := h.readReady hs hp rfl
  have hb := h.base hs
  have hst := storageAt_of_wf hb.cfg
  have h1 := hst.resp; have h2 := hst.fits; have h3 := hst.frame
  have htw := tableMem_wf hrr
  have hstill : DseqStill (armedState (readOp cmd addr buffer count crc u) u).dseq Tick.quiet := Tick.quiet_still (.inr (.inr rfl))
  cases hf with
  | timeout _ hu =>
    obtain ⟨osr, isr, level, d, ws, fr, fc, hl, hd, hdc, -, he⟩ := sdCommand_unanswered (cmd := cmd) (param := addr)
      (dst := u.cfg.respAddr) (res := .short) (armedState_sendable hrr) htw (by decide) hstill
      (by show NoAnswer 48 u.card; rw [h.card]; exact .cons hu)
      (by have : (ResSize.short).words = 2 := rfl
          omega)
    have heq := readBlock_eq (u := u) hp.count.2 hrr he
    rw [if_neg (by decide)] at heq
    refine ⟨_, heq, ?_, readFail_crc16 _ _ _⟩
    have hl2 : ws.length = 2 := hl
    obtain ⟨hwf, hread⟩ := inHead_write htw hb.cfg (cmd := cmd) (param := addr) (n := 2) (by decide) hl2
    have hcq : ({ u.cseq with
        bitsLeft := 0, osr := osr, osrCount := 0, isr := isr, isrCount := 0, dir := .input, level := level } : Seq).Quiet :=
      ⟨.inl hrr.send.mode, hrr.send.armed, hrr.send.txf, hrr.send.rxf, rfl, h.cseq.owner⟩
    have key := h.readFailed (o := readOp cmd addr buffer count crc u) (p := .cmdAbort) (cd := rest) (fl := some .cmdTimeout)
      (fr := fr) (fc := fc) (c := .cmdTimeout) (app' := false) (ev' := frameEvents cmd addr)
      (c7 := crc7Reg (frameHead cmd addr)) (dq := huntingDseq (readOp cmd addr buffer count crc u) u.dseq) hp ht hcq
      hrr.send.mode (by show SeqMode.recvHunt ≠ _; decide) h.dseq.txf h.dseq.owner hdc (d1 := u.dma1) rfl hwf
      fun z hz => (hread z fun k => hz (.inl (inHead_storage k))).trans (tableMem_read hrr fun k => hz (.inl k))
    have hcard : rest = u.card.tail := by rw [h.card]; rfl
    rw [hcard] at key ⊢
    exact key
  | status latency r hcap hbad =>
    obtain ⟨cq, d, fr, fc, pad, hcq, hd, hdc, hpl, he⟩ := ownCommand_answered (cmd := cmd) (param := addr)
      (armedState_sendable hrr) htw hb.cfg hstill (latency := latency) (r := r) (rest := rest) h.card hcap.1 hcap.2
    have hcheck := ownState_checkAt (cmd := cmd) (param := addr) (cq := cq) (d := d) (f := fr) (fc := fc) (r := r) (pad := pad)
      (rest := rest) (app := decide (cmd = 55#6) && statusOk (payload r))
      (s := armedState (readOp cmd addr buffer count crc u) u) htw hb.cfg hcap.1 hpl
    have heq := readBlock_eq (u := u) hp.count.2 hrr he
    rw [if_pos rfl, if_neg (by
      intro k; have := hcheck.symm.trans k; rw [hbad] at this; exact Bool.false_ne_true this)] at heq
    refine ⟨_, heq, ?_, readFail_crc16 _ _ _⟩
    have hr1 : (r ++ pad).length ≤ 24 := by rw [List.length_append, hcap.1, hpl]; decide
    have happ : (decide (cmd = 55#6) && statusOk (payload r)) = false := by rw [hbad, Bool.and_false]
    rw [happ]
    exact h.readFailed hp ht (hcq.quiet h.cseq.owner) hcq.mode
      (by show SeqMode.recvHunt ≠ _; decide) h.dseq.txf h.dseq.owner hdc rfl (ownMem_wf htw)
      fun z hz => (ownMem_read htw hb.cfg hr1 fun k => hz (.inl (inHead_storage k))).trans (tableMem_read hrr fun k => hz (.inl k))

/-- READ_BLOCK with CMD18 whose CMD12 is not answered in time, or whose CMD12's status fails after the busy wait: it fails
although its data landed (R218, R268, R287), and they are unspecified (R80, U22). -/
theorem Worked.readStopFails {addr buffer crc : Word} {count latency : Nat} {r : List Byte} {bs : List CardBlock}
    {fs : List Turn} {c : Cause}
    (h : Worked touched s u x f (Turn.answer latency r :: Turn.blocks x.dataWidth bs :: (fs ++ rest)) app ev) (hs : SendBase s)
    (hp : ReadPlace (readOp 18#6 addr buffer count crc u) u.cfg) (hr : Passes r) (hn : bs.length = count)
    (hbs : ∀ b ∈ bs, b.data.length = 512 ∧ b.crc.length = 2 * x.dataWidth.lines) (hf : StopFails fs c)
    (ht : ∀ z, readTouched (readOp 18#6 addr buffer count crc u) u.cfg z → touched z) :
    ∃ v, readBlock 18#6 addr buffer count crc u = .done false v ∧
      Worked touched s v x (some c) rest false (readEvents 18#6 addr ++ ev) := by
  have hrr := h.readReady hs hp rfl
  have hb := h.base hs
  have hxw : x.dataWidth = u.session.dataWidth := by rw [h.session]
  rw [hxw] at hbs
  obtain ⟨pad, last, cq, dq, d0, d1, fr, fc, hpl, hll, -, hcq, hdq, hd0, hc0, hd1, hc1, he⟩ :=
    readBlock_data (rest := fs ++ rest) hrr (by decide) (by rw [h.card, hxw]) hr.1.1 hr.1.2 hr.2 hn hbs
  have hdata : (bs.flatMap CardBlock.data).length = count * (readOp 18#6 addr buffer count crc u).blockLen := by
    rw [flatMap_data_length (o := readOp 18#6 addr buffer count crc u) fun b hb => (hbs b hb).1, hn]
  have hland : Landing (readOp 18#6 addr buffer count crc u) bs last :=
    ⟨hp.apart.bufIn, hp.apart.crcIn, hp.apart.bufCrc, hdata, hll⟩
  have hwf := ownMem_wf (cmd := 18#6) (param := addr) (c := u.cfg) (r := r) (pad := pad) (tableMem_wf hrr)
  have hr1 : (r ++ pad).length ≤ 24 := by rw [List.length_append, hr.1.1, hpl]; decide
  generalize hw : ({ u with
    phase := .rdWait, cseq := cq, dseq := dq, dma0 := d0, dma1 := d1, free := fr, freeCount := fc
    mem := blocksMem (readOp 18#6 addr buffer count crc u) bs last
      (ownMem 18#6 addr u.cfg r pad (tableMem (readOp 18#6 addr buffer count crc u) u))
    crc7Reg := crc7Reg (frameHead 18#6 addr), history := frameEvents 18#6 addr ++ u.history
    card := fs ++ rest, appPrefix := false } : State) = w at he
  -- the state when the data have landed
  have hW : Worked touched s (w.setPhase .rdStop) x f (fs ++ rest) false (frameEvents 18#6 addr ++ ev) := by
    rw [← hw]
    exact ⟨h.cfg, h.session, h.io, h.valid, h.failure, h.lanes, h.kseq, h.host, h.result, h.done, h.stack,
      hdq.quiet h.dseq.owner, hdq.mode, hd1, hc1.trans h.claimed1, hcq.quiet h.cseq.owner, hcq.mode, hd0,
      hc0.trans h.claimed0, blocksMem_wf hwf,
      fun z hz => (blocksMem_touched hrr hland hr1 fun k => hz (ht z k)).trans (h.mem z hz), rfl, rfl, by
        show frameEvents 18#6 addr ++ u.history = _
        rw [h.history, List.append_assoc]⟩
  have hWcfg : w.cfg = u.cfg := by rw [← hw]
  have h0 : Sent (inHead w.cfg) (w.setPhase .rdStop) (w.setPhase .rdStop) x f (fs ++ rest) false [] :=
    ⟨rfl, hW.session, rfl, rfl, hW.failure, hW.lanes, rfl, rfl, rfl, hW.done, rfl, rfl, rfl, rfl, hW.cseq, hW.cwaits, hW.dma0,
      rfl, hW.wf, fun _ _ => rfl, hW.card, hW.app, rfl⟩
  have hWb := hW.base hs
  have hkeep : ∀ {v : State} {g : Option Cause} {a : Bool} {e : List PinEvent},
      Sent (inHead w.cfg) (w.setPhase .rdStop) v x g rest a e →
        Worked touched s v x g rest a (e ++ (frameEvents 18#6 addr ++ ev)) :=
    fun hv => hW.trans ((hv.worked hWb).widen fun z hz => ht z (.inl (inHead_storage (by rw [← hWcfg]; exact hz))))
  have hlost : ∀ {v : State} {g : Option Cause} {a : Bool} {e : List PinEvent}, Worked touched s v x g rest a e →
      Worked touched s (readLost (readOp 18#6 addr buffer count crc u) v) x g rest a e := by
    intro v g a e hv
    have hc : v.cfg = u.cfg := hv.cfg.trans h.cfg.symm
    exact hv.lost (by rw [hc]; exact hp) (by rw [hc]; exact ht)
  have hev : ∀ e : List PinEvent, frameEvents 12#6 0#32 ++ (frameEvents 18#6 addr ++ e) = readEvents 18#6 addr ++ e := by
    intro e; rw [readEvents, if_pos rfl, List.append_assoc]
  cases hf with
  | timeout t hu =>
    obtain ⟨v, hc, hv⟩ := h0.ownSilent (cmd := 12#6) (param := 0#32) hWb (fun _ k => k) (.cons hu)
    have h1 := hlost (hkeep hv)
    refine ⟨_, ?_, by rw [List.append_nil, hev] at h1; exact h1⟩
    rw [he, rdStop]
    simp only [if_pos (show (readOp 18#6 addr buffer count crc u).cmd = 18#6 from rfl), hc]
    rfl
  | status latency2 r2 busy hcap hbad =>
    obtain ⟨a, hc, ha, -, hok, -⟩ := h0.own (cmd := 12#6) (param := 0#32) hWb (fun _ k => k) hcap
    obtain ⟨v, hwt, hv, hvm⟩ := ha.busyEnds .rdStop
    rw [decide_eq_false (by decide), Bool.false_and] at hv
    have h1 := (hlost (hkeep hv)).raise .statusError
    refine ⟨_, ?_, by rw [List.append_nil, hev] at h1; exact h1⟩
    rw [he, rdStop_multiple rfl hc, hwt, hok, hbad]
    rfl

/-- READ_BLOCK with READ_DATA_TIMEOUT and a card that answers and sends nothing (R217, R219). -/
theorem Worked.readTimesOut {cmd : BitVec 6} {addr buffer crc : Word} {count latency : Nat} {r : List Byte}
    (h : Worked touched s u x f (Turn.answer latency r :: Turn.silent :: rest) app ev) (hs : SendBase s) (hcmd : cmd ≠ 55#6)
    (hp : ReadPlace (readOp cmd addr buffer count crc u) u.cfg) (hr : Passes r) (hbd : s.cfg.readDataBounded = true)
    (ht : ∀ z, readTouched (readOp cmd addr buffer count crc u) u.cfg z → touched z) :
    ∃ v, readBlock cmd addr buffer count crc u = .done false v ∧
      Worked touched s v x (some .dataTimeout) rest false (frameEvents cmd addr ++ ev) ∧ v.crc16Reg = u.crc16Reg := by
  have hrr := h.readReady hs hp rfl
  have hb := h.base hs
  have hst := storageAt_of_wf hb.cfg
  have h1 := hst.resp; have h2 := hst.fits; have h3 := hst.table; have h4 := hst.frame
  have htw := tableMem_wf hrr
  have hcnt := hp.count
  generalize ho : readOp cmd addr buffer count crc u = o at *
  have hcount : o.count = count := by rw [← ho]; rfl
  have hstill : DseqStill (armedState o u).dseq Tick.quiet := Tick.quiet_still (.inr (.inr rfl))
  obtain ⟨cq, d, fr, fc, pad, hcq, hd, hdc, hpl, he⟩ := ownCommand_answered (cmd := cmd) (param := addr)
    (armedState_sendable hrr) htw hb.cfg hstill (latency := latency) (r := r) (rest := Turn.silent :: rest) h.card hr.1.1 hr.1.2
  have hcheck := ownState_checkAt (cmd := cmd) (param := addr) (cq := cq) (d := d) (f := fr) (fc := fc) (r := r) (pad := pad)
    (rest := Turn.silent :: rest) (app := decide (cmd = 55#6) && statusOk (payload r)) (s := armedState o u) htw hb.cfg hr.1.1 hpl
  rw [decide_eq_false hcmd, Bool.false_and] at he hcheck
  have hr1 : (r ++ pad).length ≤ 24 := by rw [List.length_append, hr.1.1, hpl]; decide
  subst ho
  have heq := readBlock_eq (u := u) (by omega) hrr he
  rw [if_pos rfl] at heq
  replace heq := heq.trans (if_pos (hcheck.trans hr.2))
  generalize ho : readOp cmd addr buffer count crc u = o at *
  generalize hbb : ownState cmd addr cq d fr fc (ownMem cmd addr (armedState o u).cfg r pad (armedState o u).mem)
    (Turn.silent :: rest) false (armedState o u) = b at heq
  have hbm : b.mem = ownMem cmd addr u.cfg r pad (tableMem o u) := by rw [← hbb]; rfl
  have hbcfg : b.cfg = u.cfg := by rw [← hbb]; rfl
  have htab : TableAt o b.cfg.tableAddr b.mem := by
    rw [hbm, hbcfg]
    have hta : u.cfg.tableAddr.toNat + (16 * o.count + 8) ≤ 2 ^ 32 := by omega
    refine (TableAt.writeBytes (rdTable_tableAt h.wf _ hta) htw ?_ hta ?_).writeBytes (Memory.wf_writeBytes htw _ _) ?_ hta ?_
    · simp; omega
    · simp; omega
    · simp [hr.1.1, hpl]; omega
    · simp [hr.1.1, hpl]; omega
  rw [rdStream_start (b := b) hcnt.1 (by rw [← hbb]; exact h.dseq.rxf) htab] at heq
  have hbc : b.card = Turn.silent :: rest := by rw [← hbb]; rfl
  have hbd' : (chainState o b).cfg.readDataBounded = true := by
    show b.cfg.readDataBounded = true
    rw [hbcfg, h.cfg]; exact hbd
  have hda : b.dseq.armed = [] := by rw [← hbb]; exact h.dseq.armed
  rw [hbc] at heq
  have hrd : ∃ dq p, dq.mode = b.dseq.mode ∧ dq.txf = b.dseq.txf ∧ dq.owner = b.dseq.owner ∧
      readData o (Turn.silent :: rest) 0 (chainState o b) =
        .done false (readFail o .dataTimeout { chainState o b with card := rest, dseq := dq, phase := p }) := by
    simp only [readData]
    rw [if_pos hbd']
    have hw : Turn.silent.waitTicks o.bits = [] := rfl
    rw [hw, awaitBlocks]
    by_cases h1 : 1 < o.count
    · refine ⟨{ b.dseq with armed := [.recv o.bits] }, dataPhase o 1, rfl, rfl, rfl, ?_⟩
      have hmode : b.dseq.mode = .recvHunt := by rw [← hbb]; rfl
      have harm : b.dseq.arm (.recv o.bits) = { b.dseq with armed := [.recv o.bits] } := by
        simp [Seq.arm, Seq.armRoom, hmode, hda]
      simp only [feedOne, chainState, hda, h1, Nat.zero_add, and_true, if_true, State.setDseq, harm, State.dmaIdle,
        Bool.not_true, Bool.false_and, Bool.false_eq_true, if_false]
      have : b.cfg.readDataBounded = true := hbd'
      simp only [State.setPhase, this, if_true]
    · refine ⟨b.dseq, dataPhase o 0, rfl, rfl, rfl, ?_⟩
      simp only [feedOne, chainState, h1, Nat.zero_add, false_and, if_false, State.dmaIdle, Bool.not_true, Bool.false_and,
        Bool.false_eq_true]
      have : b.cfg.readDataBounded = true := hbd'
      simp only [State.setPhase, this, if_true]
  obtain ⟨dq, p, hdm, hdt, hdo, hrd⟩ := hrd
  rw [hrd] at heq
  have h16 : (readFail o .dataTimeout { chainState o b with card := rest, dseq := dq, phase := p }).crc16Reg = u.crc16Reg := by
    rw [readFail_crc16, ← hbb]; rfl
  refine ⟨_, heq, ?_, h16⟩
  rw [← hbb] at hdm hdt hdo ⊢
  refine h.readFailed hp ht (hcq.quiet h.cseq.owner) hcq.mode ?_ (hdt.trans h.dseq.txf) (hdo.trans h.dseq.owner)
    hdc rfl (ownMem_wf htw) fun z hz =>
      (ownMem_read htw hb.cfg hr1 fun k => hz (.inl (inHead_storage k))).trans (tableMem_read hrr fun k => hz (.inl k))
  rw [hdm]; show SeqMode.recvHunt ≠ _; decide

/-! ## WRITE_BLOCK -/

/-- WRITE_BLOCK inside a request (R220 to R224). -/
theorem Worked.writes {addr buffer : Word} {p : WritePlay} (h : Worked touched s u x f (p.turns ++ rest) app ev)
    (hs : SendBase s) (ht : ∀ z, inHead s.cfg z → touched z) (hp : Passes p.r) (hb : buffer.toNat + 512 ≤ 2 ^ 32)
    (hbuf : buffer.toNat + 512 ≤ s.cfg.storageBase.toNat ∨ s.cfg.storageBase.toNat + 32 ≤ buffer.toNat) :
    ∃ v, writeBlock addr buffer u = .done true v ∧
      Worked touched s v x f rest false (streamEvents (u.mem.readBytes buffer 512) ++ frameEvents 24#6 addr ++ ev) ∧
      v.dma1 = u.dma1 ∧ ∀ z, ¬ inHead s.cfg z → v.mem.read z = u.mem.read z := by
  have hbase := h.base hs
  obtain ⟨pad, cq, dq, d, fr, fc, hpl, hcq, hdq, hd, hdc, he⟩ := writeBlock_answered (addr := addr) (buffer := buffer)
    (latency := p.latency) (busy := p.busy) (r := p.r) (rest := rest) (h.from.sendable hbase) h.wf hbase.cfg h.dwaits
    h.dseq.armed h.dseq.txf h.dseq.rxf h.cseq.owner h.card hp.1.1 hp.1.2 hp.2 hb (by rw [h.cfg]; exact hbuf)
  have hr : (p.r ++ pad).length ≤ 24 := by rw [List.length_append, hp.1.1, hpl]; decide
  have hm : ∀ z, ¬ inHead s.cfg z → (ownMem 24#6 addr u.cfg p.r pad u.mem).read z = u.mem.read z := fun z hz =>
    ownMem_read h.wf hbase.cfg hr (by rw [h.cfg]; exact hz)
  refine ⟨_, he, ?_, rfl, hm⟩
  exact ⟨h.cfg, h.session, h.io, h.valid, h.failure, h.lanes, h.kseq, h.host, h.result, h.done, h.stack,
    hdq.quiet h.dseq.owner, hdq.mode, h.dma1, h.claimed1, hcq.quiet h.cseq.owner, hcq.mode, hd, hdc.trans h.claimed0,
    ownMem_wf h.wf, fun z hz => (hm z fun k => hz (ht z k)).trans (h.mem z hz), rfl, rfl, by
      show _ ++ (frameEvents 24#6 addr ++ u.history) = _
      rw [h.history, streamEvents]; simp only [List.append_assoc]⟩

theorem checkedCommand_of_silent {cmd : BitVec 6} {param : Word} {b : State} (h : ownCommand cmd param s = (false, b)) :
    checkedCommand cmd param s = (false, b) := by
  unfold checkedCommand; rw [h]; rfl

theorem checkedCommand_of_bad {cmd : BitVec 6} {param : Word} {b : State} (h : ownCommand cmd param s = (true, b))
    (hk : checkAt b b.cfg.respAddr = false) : checkedCommand cmd param s = (false, b.raise .statusError) := by
  unfold checkedCommand; simp only [h, hk, if_true]; rfl

/-- WRITE_BLOCK whose command fails (R225). -/
theorem Worked.writeFails {addr buffer : Word} {t : Turn} {c : Cause} (h : Worked touched s u x f (t :: rest) app ev)
    (hs : SendBase s) (ht : ∀ z, inHead s.cfg z → touched z) (hf : Fails t c) :
    ∃ v, writeBlock addr buffer u = .done false v ∧
      Worked touched s v x (some c) rest false (frameEvents 24#6 addr ++ ev) ∧ v.dma1 = u.dma1 := by
  have hbase := h.base hs
  have harm : u.dseq.arm (.send writeStreamBits) = { u.dseq with armed := [.send writeStreamBits] } := by
    simp [Seq.arm, Seq.armRoom, h.dwaits, h.dseq.armed]
  have hsend := h.from.sendable hbase
  have hst := storageAt_of_wf hbase.cfg
  have h1 := hst.resp; have h2 := hst.fits; have h3 := hst.frame
  have hfw : ({ u.dseq with armed := [.send writeStreamBits] } : Seq).forceWait.clearTx =
      { u.dseq with
        mode := .wait, armed := [], bitsLeft := 0, osrCount := 0, isrCount := 0, dir := .input, txf := [] } := by
    unfold Seq.forceWait Seq.clearTx; rw [if_neg (by show u.dseq.mode ≠ _; rw [h.dwaits]; decide)]
  -- the command, from the state in which DSEQ is armed
  generalize ha : ({ u with
    phase := .wrCmd, crc16Reg := crc16 (u.mem.readBytes buffer blockLenBytes)
    dseq := { u.dseq with armed := [.send writeStreamBits] } } : State) = a
  have hsa : Sendable a := by
    rw [← ha]; exact ⟨hsend.clock, hsend.mode, hsend.armed, hsend.txf, hsend.rxf, hsend.room, hsend.dma⟩
  have hma : a.mem.wf = true := by rw [← ha]; exact h.wf
  have hca : a.cfg.wf := by rw [← ha]; exact hbase.cfg
  have hqa : DseqStill a.dseq Tick.quiet := by rw [← ha]; exact Tick.quiet_still (.inl h.dwaits)
  have hcard : a.card = t :: rest := by rw [← ha]; exact h.card
  have key : ∃ b, checkedCommand 24#6 addr a = (false, b) ∧ ∃ p cq d fr fc m c7, cq.Quiet ∧ cq.mode = .wait ∧ d.busy = false ∧
      d.claimed = u.dma0.claimed ∧ Memory.wf m = true ∧ (∀ z, ¬ inHead s.cfg z → Memory.read m z = u.mem.read z) ∧
      b = { a with phase := p, cseq := cq, dma0 := d, mem := m, free := fr, freeCount := fc, crc7Reg := c7, card := rest
                   appPrefix := false, history := frameEvents 24#6 addr ++ u.history, lastFailure := some c } := by
    cases hf with
    | timeout _ hu =>
      obtain ⟨osr, isr, level, d, ws, fr, fc, hl, hd, hdc, -, he⟩ := sdCommand_unanswered (cmd := 24#6) (param := addr)
        (dst := a.cfg.respAddr) (res := .short) hsa hma (by decide) hqa (by rw [hcard]; exact .cons hu)
        (by have : (ResSize.short).words = 2 := rfl
            have hac : a.cfg = u.cfg := by rw [← ha]
            rw [hac]; omega)
      have hl2 : ws.length = 2 := hl
      obtain ⟨hwf, hread⟩ := inHead_write hma hca (cmd := 24#6) (param := addr) (n := 2) (by decide) hl2
      refine ⟨_, checkedCommand_of_silent he, .cmdAbort, { u.cseq with
          bitsLeft := 0, osr := osr, osrCount := 0, isr := isr, isrCount := 0, dir := .input, level := level }, d, fr, fc, _,
        crc7Reg (frameHead 24#6 addr), ?_, ?_, hd, ?_, hwf, ?_, ?_⟩
      · exact ⟨.inl h.cwaits, h.cseq.armed, h.cseq.txf, h.cseq.rxf, rfl, h.cseq.owner⟩
      · exact h.cwaits
      · rw [hdc, ← ha]
      · intro z hz
        rw [hread z (by rw [← ha]; show ¬ inHead u.cfg z; rw [h.cfg]; exact hz), ← ha]
      · rw [hcard, ← ha]; rfl
    | status latency r hcap hbad =>
      obtain ⟨cq, d, fr, fc, pad, hcq, hd, hdc, hpl, he⟩ := ownCommand_answered (cmd := 24#6) (param := addr) hsa hma hca hqa
        hcard hcap.1 hcap.2
      have hcheck := ownState_checkAt (cmd := 24#6) (param := addr) (cq := cq) (d := d) (f := fr) (fc := fc) (r := r)
        (pad := pad) (rest := rest) (app := decide (24#6 = 55#6) && statusOk (payload r)) (s := a) hma hca hcap.1 hpl
      have hr : (r ++ pad).length ≤ 24 := by rw [List.length_append, hcap.1, hpl]; decide
      have happ : (decide (24#6 = 55#6) && statusOk (payload r)) = false := by rw [hbad, Bool.and_false]
      rw [happ] at he hcheck
      rw [hbad] at hcheck
      refine ⟨_, checkedCommand_of_bad he hcheck, .cmdFix, cq, d, fr, fc, ownMem 24#6 addr a.cfg r pad a.mem,
        crc7Reg (frameHead 24#6 addr), ?_, hcq.mode, hd, ?_, ownMem_wf hma, ?_, ?_⟩
      · rw [← ha] at hcq; exact hcq.quiet h.cseq.owner
      · rw [hdc, ← ha]
      · intro z hz
        rw [ownMem_read hma hca hr (by rw [← ha]; show ¬ inHead u.cfg z; rw [h.cfg]; exact hz), ← ha]
      · rw [show u.history = a.history by rw [← ha]]; rfl
  obtain ⟨b, hb, p, cq, d, fr, fc, m, c7, hcq, hcm, hd, hdc, hm, hmr, hbe⟩ := key
  have heq : writeBlock addr buffer u = .done false (writeCleanup b) := by
    unfold writeBlock
    simp only [State.setPhase, State.setDseq, harm, ha, hb, Bool.false_eq_true, if_false]
  refine ⟨_, heq, ?_, ?_⟩
  · rw [hbe, ← ha, writeCleanup]
    simp only [State.setDseq, hfw]
    exact ⟨h.cfg, h.session, h.io, h.valid, rfl, h.lanes, h.kseq, h.host, h.result, h.done, h.stack,
      ⟨.inl rfl, rfl, rfl, h.dseq.rxf, rfl, h.dseq.owner⟩, rfl, h.dma1, h.claimed1, hcq, hcm, hd, hdc.trans h.claimed0, hm,
      fun z hz => (hmr z fun k => hz (ht z k)).trans (h.mem z hz), rfl, rfl, by
        show frameEvents 24#6 addr ++ u.history = _; rw [h.history, List.append_assoc]⟩
  · rw [hbe, ← ha]; rfl

end Sys2Proof.Machine
end

