-- ==== Sys2Proof/Laws/Csd.lean ====
section
/-! SUPPORT. The fields of a CSD by the CSD's own bit numbers are the fields PARSE_CSD takes from the bytes of the
response (spec/30_encoding.md R109, R125, R126; spec/46_session_host.md R244). -/

namespace Sys2Proof.Machine

/-- The number of the first `n` bytes of the register. -/
def csdPrefix (r : List Byte) (n : Nat) : Nat := (List.range n).foldl (fun m i => m * 256 + (r.getD (1 + i) 0#8).toNat) 0

theorem csdPrefix_succ (r : List Byte) (n : Nat) : csdPrefix r (n + 1) = csdPrefix r n * 256 + (r.getD (1 + n) 0#8).toNat := by
  simp [csdPrefix, List.range_succ]

theorem csdPrefix_div (r : List Byte) (n k : Nat) : csdPrefix r (n + k) / 2 ^ (8 * k) = csdPrefix r n := by
  induction k with
  | zero => simp
  | succ k ih =>
    have hb := (r.getD (1 + (n + k)) 0#8).isLt
    rw [show n + (k + 1) = (n + k) + 1 from rfl, csdPrefix_succ, show 8 * (k + 1) = 8 + 8 * k by omega, Nat.pow_add,
      ← Nat.div_div_eq_div_mul, show (csdPrefix r (n + k) * 256 + (r.getD (1 + (n + k)) 0#8).toNat) / 2 ^ 8 =
        csdPrefix r (n + k) by omega, ih]

/-- A field whose lowest bit lies in byte `n` of the register. -/
theorem csdField_prefix (r : List Byte) (n lo b hi : Nat) (hn : n ≤ 16) (hlo : lo = 8 * (16 - n) + b) :
    csdField r hi lo = csdPrefix r n / 2 ^ b % 2 ^ (hi - lo + 1) := by
  have h : csdNat r = csdPrefix r (n + (16 - n)) := by rw [show n + (16 - n) = 16 by omega]; rfl
  unfold csdField
  rw [h]
  subst hlo
  rw [Nat.pow_add, ← Nat.div_div_eq_div_mul, csdPrefix_div]

variable (r : List Byte)

theorem csdField_structure : csdField r 127 126 = csdStructure r := by
  have hb := (r.getD 1 0#8).isLt
  rw [csdField_prefix r 1 126 6 127 (by omega) rfl, csdPrefix_succ, csdStructure, respBits, Nat.shiftRight_eq_div_pow,
    show csdPrefix r 0 = 0 from rfl]
  simp only [Nat.reduceAdd, Nat.reducePow, Nat.reduceSub]
  omega

theorem csdField_readBlLen : csdField r 83 80 = respBits r 6 0 4 := by
  rw [csdField_prefix r 6 80 0 83 (by omega) rfl, csdPrefix_succ, respBits, Nat.shiftRight_eq_div_pow]
  simp only [Nat.reduceAdd, Nat.reducePow, Nat.reduceSub, Nat.div_one]
  omega

theorem csdField_cSize1 : csdField r 73 62 = respBits r 7 0 2 * 1024 + respBits r 8 0 8 * 4 + respBits r 9 6 2 := by
  have h8 := (r.getD 8 0#8).isLt
  have h9 := (r.getD 9 0#8).isLt
  rw [csdField_prefix r 9 62 6 73 (by omega) rfl, csdPrefix_succ, csdPrefix_succ, csdPrefix_succ]
  simp only [respBits, Nat.shiftRight_eq_div_pow, Nat.reduceAdd, Nat.reducePow, Nat.reduceSub, Nat.div_one]
  omega

theorem csdField_cSizeMult : csdField r 49 47 = respBits r 10 0 2 * 2 + respBits r 11 7 1 := by
  have h11 := (r.getD 11 0#8).isLt
  rw [csdField_prefix r 11 47 7 49 (by omega) rfl, csdPrefix_succ, csdPrefix_succ]
  simp only [respBits, Nat.shiftRight_eq_div_pow, Nat.reduceAdd, Nat.reducePow, Nat.reduceSub, Nat.div_one]
  omega

theorem csdField_cSize2 : csdField r 69 48 = respBits r 8 0 6 * 65536 + respBits r 9 0 8 * 256 + respBits r 10 0 8 := by
  have h9 := (r.getD 9 0#8).isLt
  have h10 := (r.getD 10 0#8).isLt
  rw [csdField_prefix r 10 48 0 69 (by omega) rfl, csdPrefix_succ, csdPrefix_succ, csdPrefix_succ]
  simp only [respBits, Nat.shiftRight_eq_div_pow, Nat.reduceAdd, Nat.reducePow, Nat.reduceSub, Nat.div_one]
  omega

theorem csdBlocks_eq : csdBlocks r = if csdStructure r = 0 then csdV1Blocks r else csdV2Blocks r := by
  unfold csdBlocks csdV1Blocks csdV2Blocks
  rw [csdField_structure, csdField_readBlLen, csdField_cSize1, csdField_cSizeMult, csdField_cSize2]

/-- PARSE_CSD of a CSD of version 1 or 2 whose count of blocks fits (R244). -/
theorem parseCsd_fits {a : Word} {s : State} (hv : csdField (s.mem.readBytes a 17) 127 126 ≤ 1)
    (hb : csdBlocks (s.mem.readBytes a 17) < 2 ^ 32) :
    parseCsd a s = .done (BitVec.ofNat 32 (csdBlocks (s.mem.readBytes a 17))) s := by
  rw [csdField_structure] at hv
  rw [csdBlocks_eq] at hb ⊢
  unfold parseCsd blocksResult
  by_cases h0 : csdStructure (s.mem.readBytes a 17) = 0
  · rw [if_pos h0] at hb ⊢; simp only [h0, if_true, hb]
  · rw [if_neg h0] at hb ⊢
    have h1 : csdStructure (s.mem.readBytes a 17) = 1 := by omega
    simp only [h1, if_true, hb, Nat.one_ne_zero, if_false]

end Sys2Proof.Machine
end

