-- ==== Sys2Proof/Laws/DataPhase.lean ====
section
/-! SUPPORT. A READ_BLOCK's data phase at any moment, whatever the card does: DSEQ's steps keep the number of words that
are to come (spec/41_sequencers.md R155 to R158), and DMA0's steps along the chain move one of them each (spec/42_dma.md
R172, R176), so that the chain is at its end exactly when DSEQ has nothing left to deliver. -/

namespace Sys2Proof.Machine

variable {o : ReadOp} {n : Nat}

/-! ## DSEQ: the words to come -/

theorem ReadOp.words_bits (o : ReadOp) : (o.bits + 31) / 32 = o.words := by
  unfold ReadOp.bits ReadOp.words ReadOp.dataWords ReadOp.blockLen
  cases o.width <;> split <;> rfl

theorem ReadOp.words_pos (o : ReadOp) : 0 < o.words := by
  unfold ReadOp.words ReadOp.dataWords ReadOp.blockLen
  split <;> simp [switchBlockLenBytes, blockLenBytes]

theorem ReadOp.lines_bits (o : ReadOp) : o.width.lines ∣ o.bits := by
  unfold ReadOp.bits ReadOp.blockLen
  cases o.width <;> split <;> decide

/-- DSEQ receives for the READ_BLOCK, and `n` words are to come. -/
structure Delivers (o : ReadOp) (n : Nat) (q : Seq) : Prop where
  receives : q.Receives o
  words    : q.wordsToCome o = n

/-- The words to come in RECV_SHIFT. -/
theorem wordsToCome_shift {q : Seq} (h : q.mode = .recvShift) :
    q.wordsToCome o = q.rxf.length + q.armed.length * o.words + (q.isrCount + q.bitsLeft + 31) / 32 := by
  unfold Seq.wordsToCome; rw [h]

theorem Delivers.autopush {q : Seq} (h : Delivers o n q) (hm : q.mode = .recvShift) (d : Nat) : Delivers o n (q.autopush d) := by
  unfold Seq.autopush
  split
  · rename_i hc
    obtain ⟨⟨h1, h2, h3, h4, h5⟩, hw⟩ := h
    refine ⟨⟨.inr (.inr hm), h2, ⟨Nat.dvd_zero _, h3.2.1, Nat.zero_le _⟩, h4, h5⟩, ?_⟩
    rw [wordsToCome_shift hm] at hw
    rw [wordsToCome_shift (by exact hm), ← hw]
    simp only [List.length_append, List.length_singleton, hc.1]
    omega
  · exact h

theorem autopush_mode (q : Seq) (d : Nat) : (q.autopush d).mode = q.mode ∧ (q.autopush d).bitsLeft = q.bitsLeft := by
  unfold Seq.autopush; split <;> exact ⟨rfl, rfl⟩

theorem Width.lines_32 (w : Width) : w.lines ∣ 32 ∧ 0 < w.lines := by cases w <;> decide

/-- The samples of a period join the word, and are no longer to come as bits. -/
theorem Delivers.shiftIn {q : Seq} (h : Delivers o n q) (hm : q.mode = .recvShift) (hc : q.isrCount ≠ 32)
    (hb : q.bitsLeft ≠ 0) (sample : Word) : Delivers o n (q.shiftIn o.width.lines sample) := by
  obtain ⟨⟨h1, h2, ⟨⟨a, ha⟩, ⟨b, hb'⟩, hle⟩, h4, h5⟩, hw⟩ := h
  obtain ⟨⟨k, hk⟩, hp⟩ := o.width.lines_32
  have hb1 : 1 ≤ b := by rcases b with _ | b; · simp [hb'] at hb
                         · omega
  have hak : a < k := by
    have : o.width.lines * a < o.width.lines * k := by rw [← ha, ← hk]; omega
    exact Nat.lt_of_mul_lt_mul_left this
  have hle' : q.isrCount + o.width.lines ≤ 32 := by
    rw [ha, hk]
    calc o.width.lines * a + o.width.lines = o.width.lines * (a + 1) := by rw [Nat.mul_succ]
      _ ≤ o.width.lines * k := Nat.mul_le_mul_left _ hak
  have hbl : o.width.lines ≤ q.bitsLeft := by rw [hb']; exact Nat.le_mul_of_pos_right _ hb1
  refine ⟨⟨.inr (.inr hm), h2, ⟨?_, ?_, hle'⟩, h4, h5⟩, ?_⟩
  · exact Nat.dvd_add ⟨a, ha⟩ (Nat.dvd_refl _)
  · exact Nat.dvd_sub ⟨b, hb'⟩ (Nat.dvd_refl _)
  · rw [wordsToCome_shift hm] at hw
    rw [wordsToCome_shift (by exact hm), ← hw]
    show _ + _ + (q.isrCount + o.width.lines + (q.bitsLeft - o.width.lines) + 31) / 32 = _
    rw [show q.isrCount + o.width.lines + (q.bitsLeft - o.width.lines) = q.isrCount + q.bitsLeft by omega]
    rfl

theorem Delivers.shiftTick {q : Seq} (h : Delivers o n q) (hm : q.mode = .recvShift) (d : Nat) (sample : Word) :
    Delivers o n (q.shiftTick d o.width.lines sample) ∧ (q.shiftTick d o.width.lines sample).mode = .recvShift := by
  have h1 := h.autopush hm d
  have m1 : (q.autopush d).mode = .recvShift := (autopush_mode q d).1.trans hm
  unfold Seq.shiftTick
  simp only
  split
  · exact ⟨h1, m1⟩
  · rename_i hc
    rw [not_or] at hc
    have h2 := h1.shiftIn m1 hc.1 hc.2 sample
    exact ⟨h2.autopush m1 d, (autopush_mode _ d).1.trans m1⟩

/-- A partial word that is padded is still one word. -/
theorem Delivers.pad {q : Seq} (h : Delivers o n q) (hm : q.mode = .recvShift) (hb : q.bitsLeft = 0) (hp : q.partialWord = true)
    (d : Nat) (v : Word) : Delivers o n (q.padWith d v) := by
  obtain ⟨⟨h1, h2, h3, h4, h5⟩, hw⟩ := h
  unfold Seq.partialWord at hp
  simp only [Bool.and_eq_true, decide_eq_true_eq] at hp
  unfold Seq.padWith
  refine Delivers.autopush (q := { q with isr := (q.isr <<< (32 - q.isrCount)) ||| (v >>> q.isrCount), isrCount := 32 })
    ⟨⟨.inr (.inr hm), h2, ⟨o.width.lines_32.1, h3.2.1, Nat.le_refl _⟩, h4, h5⟩, ?_⟩ hm d
  rw [wordsToCome_shift hm] at hw
  rw [wordsToCome_shift (by exact hm), ← hw]
  show _ + _ + (32 + q.bitsLeft + 31) / 32 = q.rxf.length + q.armed.length * o.words + _
  rw [hb]
  show q.rxf.length + q.armed.length * o.words + _ = _
  omega

/-- A program has ended: the armed one begins. -/
theorem Delivers.nextProgram {q : Seq} (h : Delivers o n q) (hm : q.mode = .recvShift) (hc : q.isrCount = 0)
    (hb : q.bitsLeft = 0) : Delivers o n q.nextProgram := by
  obtain ⟨⟨h1, h2, h3, h4, h5⟩, hw⟩ := h
  rw [wordsToCome_shift hm, hc, hb] at hw
  rcases h2 with ha | ha
  · rw [seq_nextProgram_nil ha]
    refine ⟨⟨.inl rfl, .inl ha, h3, h4, h5⟩, ?_⟩
    unfold Seq.wordsToCome
    simp only [ha, List.length_nil] at hw ⊢
    omega
  · rw [seq_nextProgram_recv ha]
    refine ⟨⟨.inr (.inl ⟨rfl, rfl, rfl⟩), .inl rfl, ⟨Nat.dvd_zero _, o.lines_bits, Nat.zero_le _⟩, h4, h5⟩, ?_⟩
    unfold Seq.wordsToCome
    simp only [ha, List.length_nil, List.length_singleton] at hw ⊢
    omega

/-- DSEQ's steps keep the number of words to come. -/
theorem delivers_alone (o : ReadOp) (n : Nat) : DseqAlone (Delivers o n) o.width := by
  intro t s hl h
  unfold dseqTick
  rcases h.receives.mode with hm | ⟨hm, hb, hc⟩ | hm
  · rw [hm]; exact ⟨s.dseq, s.free, s.freeCount, h, rfl⟩
  · rw [hm]
    simp only
    split
    · exact ⟨s.dseq, s.free, s.freeCount, h, rfl⟩
    · obtain ⟨⟨h1, h2, h3, h4, h5⟩, hw⟩ := h
      refine ⟨{ s.dseq with mode := .recvShift }, s.free, s.freeCount, ⟨⟨.inr (.inr rfl), h2, h3, h4, h5⟩, ?_⟩, rfl⟩
      unfold Seq.wordsToCome at hw ⊢
      rw [hm] at hw
      simp only at hw ⊢
      rw [hb, hc, Nat.zero_add, o.words_bits]
      exact hw
  · rw [hm]
    simp only
    split
    · rename_i hb
      have h1 := h.autopush hm s.cfg.fifoDepth
      obtain ⟨m1, b1⟩ := autopush_mode s.dseq s.cfg.fifoDepth
      unfold dseqEnd
      simp only
      refine ⟨_, s.free, s.freeCount, ?_, rfl⟩
      split
      · rename_i hc
        exact h1.nextProgram (m1.trans hm) hc (b1.trans hb)
      · exact h1
    · rw [show s.lanes.lines = o.width.lines by rw [hl], show laneSample s.lanes t.dat = laneSample o.width t.dat by rw [hl]]
      obtain ⟨h1, m1⟩ := h.shiftTick hm s.cfg.fifoDepth (laneSample o.width t.dat)
      unfold dseqPad
      split
      · rename_i hc
        refine ⟨_, s.drawn.free, s.drawn.freeCount, h1.pad m1 hc.1 hc.2 s.cfg.fifoDepth s.drawValue, ?_⟩
        rw [drawn_dseq, drawn_eq s]
        rfl
      · exact ⟨_, s.free, s.freeCount, h1, rfl⟩

/-- A DSEQ that waits does so whatever the card sends. -/
theorem waits_alone (q₀ : Seq) (h : q₀.mode = .wait) (w : Width) : DseqAlone (· = q₀) w := by
  intro t s _ hq
  refine ⟨q₀, s.free, s.freeCount, rfl, ?_⟩
  rw [dseqTick_wait (by rw [hq]; exact h), ← hq]

/-! ## DMA0: the words that move -/

theorem ReadOp.dataWords_le (o : ReadOp) : 0 < o.dataWords ∧ o.dataWords ≤ 128 ∧ o.blockLen = 4 * o.dataWords := by
  unfold ReadOp.dataWords ReadOp.blockLen
  split <;> decide

theorem ChainAt.congr {s t : State} (h : ChainAt o s n) (h0 : t.dma0 = s.dma0) (h1 : t.dma1 = s.dma1) (hc : t.cfg = s.cfg) :
    ChainAt o t n := by
  cases h with
  | data j left hj hp hl b0 b1 c d r => exact .data j left hj hp hl (h0 ▸ b0) (h1 ▸ b1) (h0 ▸ c) (h0 ▸ d) (by rw [h1, hc]; exact r)
  | crc j left hj hp hl b0 b1 c d r => exact .crc j left hj hp hl (h0 ▸ b0) (h1 ▸ b1) (h0 ▸ c) (h0 ▸ d) (by rw [h1, hc]; exact r)
  | done b0 b1 => exact .done (h0 ▸ b0) (h1 ▸ b1)

/-- DMA0 moves a word of DSEQ's. -/
theorem dma0Move_dseq {s : State} {a w : Word} {ws : List Word}
    (h : s.dma0 = { s.dma0 with src := .dseqRxf, incDst := true, bswap := true, pace := .dseqRx, chain := .dma1 })
    (hd : s.dma0.dst = .mem a) (hr : s.dseq.rxf = w :: ws) :
    dma0Move s = { s with
      mem := s.mem.writeWord a (bswap32 w), dseq := { s.dseq with rxf := ws }
      dma0 := { s.dma0 with
        dst := .mem (a + 4#32), count := s.dma0.count - 1#32, busy := s.dma0.busy && decide (s.dma0.count ≠ 1#32) } } := by
  have e1 : s.dma0.src = .dseqRxf := by rw [h]
  have e2 : s.dma0.incDst = true := by rw [h]
  have e3 : s.dma0.bswap = true := by rw [h]
  unfold dma0Move dma0Value dma0Word dma0Pop dma0Put Dma0.moved DmaEnd.advance
  simp only [e1, e2, e3, hd, hr, if_true, State.setDseq, State.setMem, State.setDma0, List.headD_cons, List.tail_cons]

theorem ofNat_pred {k : Nat} (h : 0 < k) (hk : k < 2 ^ 32) : BitVec.ofNat 32 k - 1#32 = BitVec.ofNat 32 (k - 1) := by
  obtain ⟨m, rfl⟩ := Nat.exists_eq_add_of_lt h
  rw [show 0 + m + 1 = m + 1 by omega, Nat.add_sub_cancel, BitVec.ofNat_add]
  bv_omega

theorem ofNat_eq_zero {k : Nat} (hk : k < 2 ^ 32) : BitVec.ofNat 32 k = 0#32 ↔ k = 0 := by
  constructor
  · intro h
    have := congrArg BitVec.toNat h
    rwa [BitVec.toNat_ofNat, Nat.mod_eq_of_lt hk] at this
  · rintro rfl; rfl

/-- The words to come after one has left the FIFO. -/
theorem wordsToCome_pop {q : Seq} {w : Word} {ws : List Word} (h : q.rxf = w :: ws) :
    q.wordsToCome o = ({ q with rxf := ws } : Seq).wordsToCome o + 1 := by
  unfold Seq.wordsToCome
  simp only [h, List.length_cons]
  omega

/-- A step of DMA0 in the data phase: a word leaves DSEQ, and the chain has one less to move. -/
theorem ChainAt.step {s : State} (hm : s.mem.wf = true) (ha : ReadApart o s.cfg.tableAddr) (ht : TableAt o s.cfg.tableAddr s.mem)
    (hd : s.dma0 = { s.dma0 with src := .dseqRxf, incDst := true, bswap := true, pace := .dseqRx, chain := .dma1 })
    (hc : ChainAt o s n) (hr : dma0Ready s = true) :
    ∃ w ws m d0 d1, s.dseq.rxf = w :: ws ∧
      dma0Step s = { s with dseq := { s.dseq with rxf := ws }, mem := m, dma0 := d0, dma1 := d1 } ∧
      d0 = { d0 with src := .dseqRxf, incDst := true, bswap := true, pace := .dseqRx, chain := .dma1 } ∧
      TableAt o s.cfg.tableAddr m ∧ 0 < n ∧ ChainAt o (dma0Step s) (n - 1) := by
  obtain ⟨hb, hx⟩ : s.dma0.busy = true ∧ s.dseq.rxf ≠ [] := by
    unfold dma0Ready at hr
    rw [show s.dma0.pace = .dseqRx by rw [hd]] at hr
    simpa using hr
  obtain ⟨w, ws, hr⟩ := List.exists_cons_of_ne_nil hx
  have hch : s.dma0.chain = .dma1 := by rw [hd]
  obtain ⟨p1, p2, p3⟩ := o.dataWords_le
  obtain ⟨c1, c2, c3⟩ := o.width.crcWords_pos
  obtain ⟨a1, a2, a3, a4, a5, a6⟩ := ha
  cases hc with
  | done h => rw [h] at hb; cases hb
  | data j left hj hp hl b0 b1 c d rd =>
    obtain ⟨q1, q2⟩ := ReadOp.bufferAt_toNat ⟨a1, a2, a3, a4, a5, a6⟩ hj
    have q3 : (o.bufferAt j + BitVec.ofNat 32 (4 * (o.dataWords - left))).toNat =
        o.buffer.toNat + j * o.blockLen + 4 * (o.dataWords - left) := by
      rw [word_add_toNat (by omega), q1]
    have hmv := dma0Move_dseq hd d hr
    have htab : TableAt o s.cfg.tableAddr (s.mem.writeWord (o.bufferAt j + BitVec.ofNat 32 (4 * (o.dataWords - left))) (bswap32 w)) :=
      ht.writeBytes hm (by rw [q3, wordBytesLE_length]; omega) a3 (by rw [q3, wordBytesLE_length]; omega)
    rw [c, ofNat_pred hp (by omega), b0, Bool.true_and] at hmv
    by_cases h1 : left = 1
    · subst h1
      have hst : dma0Step s = dma1Trigger (dma0Move s) := by
        unfold dma0Step; rw [if_pos]; rw [hmv]; exact ⟨rfl, hch⟩
      have e4 : s.dma1.rd + 4#32 = s.cfg.tableAddr + BitVec.ofNat 32 (16 * j + 12) := by
        rw [rd, show (4#32 : Word) = BitVec.ofNat 32 4 from rfl, word_add_assoc]
      have r1 := htab.crcDst j hj
      have r2 := htab.crcWords j hj
      rw [hst, dma1Trigger_pair (d := o.crcDst) (c := BitVec.ofNat 32 o.width.crcWords)
        (by rw [hmv]; show Memory.readWord _ s.dma1.rd = _; rw [rd]; exact r1)
        (by rw [hmv]; show Memory.readWord _ (s.dma1.rd + 4#32) = _; rw [e4]; exact r2)
        (by rw [hmv]; rfl), hmv]
      have hnz : BitVec.ofNat 32 o.width.crcWords ≠ 0#32 := fun e => by rw [ofNat_eq_zero (by omega)] at e; omega
      refine ⟨w, ws, _, _, _, hr, rfl, by rw [hd], htab, by omega, ?_⟩
      rw [show 1 + o.width.crcWords + (o.count - 1 - j) * o.words - 1 = o.width.crcWords + (o.count - 1 - j) * o.words by omega]
      refine .crc j o.width.crcWords hj (by omega) (Nat.le_refl _) (decide_eq_true hnz) ?_ rfl ?_ ?_
      · show (s.dma1.busy && _) = true; rw [b1, decide_eq_true hnz]; rfl
      · show DmaEnd.mem _ = _; rw [Nat.sub_self, Nat.mul_zero]; congr 1; exact (BitVec.add_zero _).symm
      · show s.dma1.rd + 8#32 = _; rw [rd, show (8#32 : Word) = BitVec.ofNat 32 8 from rfl, word_add_assoc]
    · have hne : BitVec.ofNat 32 (left - 1) ≠ 0#32 := fun e => by rw [ofNat_eq_zero (by omega)] at e; omega
      have hne1 : BitVec.ofNat 32 left ≠ 1#32 := by
        intro e
        have := congrArg BitVec.toNat e
        rw [BitVec.toNat_ofNat, Nat.mod_eq_of_lt (by omega)] at this
        exact h1 this
      have hst : dma0Step s = dma0Move s := by
        unfold dma0Step; rw [if_neg]; rw [hmv]; exact fun e => hne e.1
      rw [hst, hmv]
      refine ⟨w, ws, _, _, _, hr, rfl, by rw [hd], htab, by omega, ?_⟩
      rw [show left + o.width.crcWords + (o.count - 1 - j) * o.words - 1 = (left - 1) + o.width.crcWords + (o.count - 1 - j) * o.words by omega]
      refine .data j (left - 1) hj (by omega) (by omega) (decide_eq_true hne1) b1 rfl ?_ rd
      show DmaEnd.mem _ = _
      rw [show (4#32 : Word) = BitVec.ofNat 32 4 from rfl, word_add_assoc]
      congr 3; omega
  | crc j left hj hp hl b0 b1 c d rd =>
    have q3 : (o.crcDst + BitVec.ofNat 32 (4 * (o.width.crcWords - left))).toNat =
        o.crcDst.toNat + 4 * (o.width.crcWords - left) := word_add_toNat (by omega)
    have hmv := dma0Move_dseq hd d hr
    have htab : TableAt o s.cfg.tableAddr (s.mem.writeWord (o.crcDst + BitVec.ofNat 32 (4 * (o.width.crcWords - left))) (bswap32 w)) :=
      ht.writeBytes hm (by rw [q3, wordBytesLE_length]; omega) a3 (by rw [q3, wordBytesLE_length]; omega)
    rw [c, ofNat_pred hp (by omega), b0, Bool.true_and] at hmv
    by_cases h1 : left = 1
    · subst h1
      have hst : dma0Step s = dma1Trigger (dma0Move s) := by
        unfold dma0Step; rw [if_pos]; rw [hmv]; exact ⟨rfl, hch⟩
      have e4 : s.dma1.rd + 4#32 = s.cfg.tableAddr + BitVec.ofNat 32 (16 * j + 16 + 4) := by
        rw [rd, show (4#32 : Word) = BitVec.ofNat 32 4 from rfl, word_add_assoc]
      have e8 : s.dma1.rd + 8#32 = s.cfg.tableAddr + BitVec.ofNat 32 (16 * j + 16 + 8) := by
        rw [rd, show (8#32 : Word) = BitVec.ofNat 32 8 from rfl, word_add_assoc]
      by_cases hlast : j + 1 < o.count
      · have r1 := htab.dst (j + 1) hlast
        have r2 := htab.words (j + 1) hlast
        rw [hst, dma1Trigger_pair (d := o.bufferAt (j + 1)) (c := BitVec.ofNat 32 o.dataWords)
          (by rw [hmv]; show Memory.readWord _ s.dma1.rd = _; rw [rd]; exact r1)
          (by rw [hmv]; show Memory.readWord _ (s.dma1.rd + 4#32) = _; rw [e4]; exact r2)
          (by rw [hmv]; rfl), hmv]
        have hnz : BitVec.ofNat 32 o.dataWords ≠ 0#32 := fun e => by rw [ofNat_eq_zero (by omega)] at e; omega
        refine ⟨w, ws, _, _, _, hr, rfl, by rw [hd], htab, by omega, ?_⟩
        have hk : 1 + (o.count - 1 - j) * o.words - 1 = o.dataWords + o.width.crcWords + (o.count - 1 - (j + 1)) * o.words := by
          obtain ⟨k, hk⟩ : ∃ k, o.count - 1 - j = k + 1 := ⟨o.count - 1 - j - 1, by omega⟩
          rw [hk, show o.count - 1 - (j + 1) = k by omega, Nat.succ_mul]
          unfold ReadOp.words; omega
        rw [hk]
        refine .data (j + 1) o.dataWords hlast p1 (Nat.le_refl _) (decide_eq_true hnz) ?_ rfl ?_ ?_
        · show (s.dma1.busy && _) = true; rw [b1, decide_eq_true hnz]; rfl
        · show DmaEnd.mem _ = _; rw [Nat.sub_self, Nat.mul_zero]; congr 1; exact (BitVec.add_zero _).symm
        · show s.dma1.rd + 8#32 = _; rw [e8]; rfl
      · have hj' : o.count = j + 1 := by omega
        have r2 := htab.last
        rw [hst, dma1Trigger_pair (d := _) (c := 0#32) rfl
          (by rw [hmv]; show Memory.readWord _ (s.dma1.rd + 4#32) = _; rw [e4]; rw [hj'] at r2; exact r2)
          (by rw [hmv]; rfl), hmv]
        refine ⟨w, ws, _, _, _, hr, rfl, by rw [hd], htab, by omega, ?_⟩
        rw [show o.count - 1 - j = 0 by omega, Nat.zero_mul]
        exact .done rfl (by show (s.dma1.busy && _) = false; simp)
    · have hne : BitVec.ofNat 32 (left - 1) ≠ 0#32 := fun e => by rw [ofNat_eq_zero (by omega)] at e; omega
      have hne1 : BitVec.ofNat 32 left ≠ 1#32 := by
        intro e
        have := congrArg BitVec.toNat e
        rw [BitVec.toNat_ofNat, Nat.mod_eq_of_lt (by omega)] at this
        exact h1 this
      have hst : dma0Step s = dma0Move s := by
        unfold dma0Step; rw [if_neg]; rw [hmv]; exact fun e => hne e.1
      rw [hst, hmv]
      refine ⟨w, ws, _, _, _, hr, rfl, by rw [hd], htab, by omega, ?_⟩
      rw [show left + (o.count - 1 - j) * o.words - 1 = (left - 1) + (o.count - 1 - j) * o.words by omega]
      refine .crc j (left - 1) hj (by omega) (by omega) (decide_eq_true hne1) b1 rfl ?_ rd
      show DmaEnd.mem _ = _
      rw [show (4#32 : Word) = BitVec.ofNat 32 4 from rfl, word_add_assoc]
      congr 3; omega

/-! ## The block in its data phase -/

/-- The machine while a READ_BLOCK waits for its data. -/
structure Streaming (c : Config) (o : ReadOp) (fed : Nat) (s : State) : Prop where
  cseq   : s.cseq.Quiet
  cwaits : s.cseq.mode = .wait
  clock  : s.kseq.running = true
  cfg    : s.cfg = c
  mem    : s.mem.wf = true
  lanes  : s.lanes = s.session.dataWidth
  done   : s.done = false
  data   : s.DataPhase o fed

variable {c : Config} {fed : Nat} {s : State}

theorem Streaming.setPhase (h : Streaming c o fed s) (p : Phase) : Streaming c o fed (s.setPhase p) :=
  ⟨h.cseq, h.cwaits, h.clock, h.cfg, h.mem, h.lanes, h.done,
    ⟨h.data.count, h.data.width, h.data.apart, h.data.table, h.data.dma, h.data.dseq, h.data.owed.congr rfl rfl rfl⟩⟩

theorem Streaming.setCard (h : Streaming c o fed s) (ts : List Turn) : Streaming c o fed { s with card := ts } :=
  ⟨h.cseq, h.cwaits, h.clock, h.cfg, h.mem, h.lanes, h.done,
    ⟨h.data.count, h.data.width, h.data.apart, h.data.table, h.data.dma, h.data.dseq, h.data.owed.congr rfl rfl rfl⟩⟩

theorem Seq.Receives.pop {q : Seq} (h : q.Receives o) (ws : List Word) : ({ q with rxf := ws } : Seq).Receives o :=
  ⟨h.mode, h.armed, h.whole, h.txf, h.owner⟩

theorem Streaming.dma0Step (h : Streaming c o fed s) (hr : dma0Ready s = true) : Streaming c o fed (Machine.dma0Step s) := by
  obtain ⟨w, ws, m, d0, d1, hx, he, hd, ht, hn, hc⟩ := h.data.owed.step h.mem h.data.apart h.data.table h.data.dma hr
  have hwf := dma0Step_wf (s := s) h.mem
  rw [wordsToCome_pop hx] at hc hn
  rw [he] at hc hwf ⊢
  refine ⟨h.cseq, h.cwaits, h.clock, h.cfg, hwf, h.lanes, h.done,
    ⟨h.data.count, h.data.width, h.data.apart, ht, hd, h.data.dseq.pop ws, ?_⟩⟩
  rwa [show ∀ a b : Nat, a + 1 + b - 1 = a + b by omega] at hc

theorem Streaming.dma0Steps (h : Streaming c o fed s) (k : Nat) : Streaming c o fed (Machine.dma0Steps k s) := by
  induction k generalizing s with
  | zero => exact h
  | succ k ih =>
    rw [Machine.dma0Steps]
    split
    · rename_i hr; exact ih (h.dma0Step hr)
    · exact h

theorem Streaming.dmaRun (h : Streaming c o fed s) : Streaming c o fed (Machine.dmaRun s) := by
  unfold Machine.dmaRun
  split
  · exact h.dma0Steps _
  · exact h

theorem Streaming.clkTick (h : Streaming c o fed s) (t : Tick) : Streaming c o fed (Machine.clkTick t s) := by
  rw [clkTick_eq, if_pos h.clock, cseqTick_wait h.cwaits]
  obtain ⟨q, f, k, hq, he⟩ := delivers_alone o _ t s h.data.width ⟨h.data.dseq, rfl⟩
  rw [he]
  exact Streaming.dmaRun ⟨h.cseq, h.cwaits, h.clock, h.cfg, h.mem, h.lanes, h.done,
    ⟨h.data.count, h.data.width, h.data.apart, h.data.table, h.data.dma, hq.receives, by
      show ChainAt o _ (q.wordsToCome o + _)
      rw [hq.words]; exact h.data.owed.congr rfl rfl rfl⟩⟩

/-- Arming one more receive program adds its words to those that are to come. -/
theorem Streaming.feedOne (h : Streaming c o fed s) : Streaming c o (Machine.feedOne o fed s).1 (Machine.feedOne o fed s).2 := by
  unfold Machine.feedOne
  split
  · rename_i hf
    have harm : s.dseq.arm (.recv o.bits) = { s.dseq with armed := [.recv o.bits] } := by
      unfold Seq.arm Seq.armRoom
      rw [hf.2]
      simp
    rw [harm]
    refine ⟨h.cseq, h.cwaits, h.clock, h.cfg, h.mem, h.lanes, h.done,
      ⟨hf.1, h.data.width, h.data.apart, h.data.table, h.data.dma,
        ⟨h.data.dseq.mode, .inr rfl, h.data.dseq.whole, h.data.dseq.txf, h.data.dseq.owner⟩, ?_⟩⟩
    have e : ({ s.dseq with armed := [.recv o.bits] } : Seq).wordsToCome o + (o.count - 1 - (fed + 1)) * o.words =
        s.dseq.wordsToCome o + (o.count - 1 - fed) * o.words := by
      obtain ⟨k, hk⟩ : ∃ k, o.count - 1 - fed = k + 1 := ⟨o.count - 1 - fed - 1, by omega⟩
      rw [hk, show o.count - 1 - (fed + 1) = k by omega, Nat.succ_mul]
      unfold Seq.wordsToCome
      simp only [hf.2, List.length_nil, List.length_singleton]
      omega
    show ChainAt o _ (({ s.dseq with armed := [.recv o.bits] } : Seq).wordsToCome o + (o.count - 1 - (fed + 1)) * o.words)
    rw [e]
    exact h.data.owed.congr rfl rfl rfl
  · exact h

theorem Streaming.awaitBlocks (h : Streaming c o fed s) (ts : List Tick) :
    Streaming c o (Machine.awaitBlocks o ts fed s).2.1 (Machine.awaitBlocks o ts fed s).2.2 ∧
      ((Machine.awaitBlocks o ts fed s).1 = true → (Machine.awaitBlocks o ts fed s).2.2.dmaIdle = true) := by
  induction ts generalizing fed s with
  | nil =>
    rw [Machine.awaitBlocks]
    exact ⟨h.feedOne.setPhase _, id⟩
  | cons t ts ih =>
    rw [Machine.awaitBlocks]
    have h1 := h.feedOne
    simp only
    split
    · rename_i hi
      exact ⟨h1.setPhase _, fun _ => hi⟩
    · exact ih (h1.clkTick t)

/-- Both channels idle: DSEQ has nothing left to deliver. -/
theorem Streaming.over (h : Streaming c o fed s) (hi : s.dmaIdle = true) :
    s.dseq.rxf = [] ∧ s.dseq.armed = [] ∧ s.dma0.busy = false ∧ s.dma1.busy = false := by
  unfold State.dmaIdle at hi
  simp only [Bool.and_eq_true, Bool.not_eq_true'] at hi
  have hz : s.dseq.wordsToCome o = 0 := by
    have ho := h.data.owed
    generalize hk : s.dseq.wordsToCome o + (o.count - 1 - fed) * o.words = k at ho
    cases ho with
    | data _ _ _ _ _ b => rw [hi.1] at b; cases b
    | crc _ _ _ _ _ b => rw [hi.1] at b; cases b
    | done => omega
  unfold Seq.wordsToCome at hz
  refine ⟨List.length_eq_zero_iff.1 (by omega), ?_, hi⟩
  rcases h.data.dseq.armed with ha | ha
  · exact ha
  · rw [ha, List.length_singleton] at hz
    have := o.words_pos
    omega

end Sys2Proof.Machine
end

