-- ==== Sys2Proof/Laws/Decode.lean ====
section
/-! SUPPORT. What the decoder reads of the encoder's pieces (spec/30_encoding.md R102, R114, R128; log 3): a frame, an
operand word, an RCA argument. -/

namespace Sys2Proof.Machine

theorem frameByte_index (index : BitVec 6) :
    (1#2 ++ index : BitVec 8).extractLsb' 6 2 = 1#2 ∧ (1#2 ++ index : BitVec 8).extractLsb' 0 6 = index ∧
      16 ≤ (1#2 ++ index : BitVec 8).toNat := by
  revert index; decide

theorem frameTail_endBit (index : BitVec 6) (arg : Word) : (frameTail index arg).getLsbD 0 = true := by
  have h : ∀ c : BitVec 7, (c ++ 1#1 : BitVec 8).getLsbD 0 = true := by decide
  exact h _

/-- A frame is read as its index and argument, whatever follows. -/
theorem decode_frame (app : Bool) (index : BitVec 6) (arg : Word) (rest : List Byte) :
    decode app (frameBytes index arg ++ rest) = decodeWire app index.toNat arg rest := by
  obtain ⟨h2, h3, h1⟩ := frameByte_index index
  show decode app ((1#2 ++ index : BitVec 8) :: wordByte arg 3 :: wordByte arg 2 :: wordByte arg 1 :: wordByte arg 0 ::
    frameTail index arg :: rest) = _
  unfold decode
  simp only [show ¬ (1#2 ++ index : BitVec 8).toNat < 16 by omega, if_false, h2, if_true, h3, frameTail_endBit,
    joinBE_wordByte]

/-- An operand word is read back. -/
theorem takeWord_wordBytesLE {α : Type} (w : Word) (bs : List Byte) (k : Word → List Byte → Except DecodeError α) :
    takeWord (wordBytesLE w ++ bs) k = k w bs := by
  show takeWord (wordByte w 0 :: wordByte w 1 :: wordByte w 2 :: wordByte w 3 :: bs) k = _
  unfold takeWord; simp only [joinLE_wordByte]

theorem rcaArg_getLsbD (rca : BitVec 16) (i : Nat) :
    (rcaArg rca).getLsbD i = if i < 16 then false else rca.getLsbD (i - 16) := by
  have h : (rcaArg rca).getLsbD i = (rca ++ 0#16 : BitVec (16 + 16)).getLsbD i := rfl
  rw [h, BitVec.getLsbD_append]
  split <;> simp

theorem rcaArg_halves (rca : BitVec 16) :
    (rcaArg rca).extractLsb' 0 16 = 0#16 ∧ (rcaArg rca).extractLsb' 16 16 = rca := by
  constructor <;> apply BitVec.eq_of_getLsbD_eq <;> intro i hi <;>
    rw [BitVec.getLsbD_extractLsb', rcaArg_getLsbD]
  · simp [hi]
  · rw [if_neg (by omega)]; simp [hi]

/-- An RCA argument is read back (R114). -/
theorem decodeRca_rcaArg (rca : BitVec 16) (k : BitVec 16 → Instr) (bs : List Byte) :
    decodeRca (rcaArg rca) k bs = .ok (k rca, bs) := by
  unfold decodeRca; rw [(rcaArg_halves rca).1, (rcaArg_halves rca).2]; rfl

theorem takeWord_ok {α : Type} {bs : List Byte} {k : Word → List Byte → Except DecodeError α} {x : α}
    (h : takeWord bs k = .ok x) : ∃ w rest, bs = wordBytesLE w ++ rest ∧ k w rest = .ok x := by
  unfold takeWord at h
  split at h
  · rename_i b0 b1 b2 b3 rest
    exact ⟨_, rest, by rw [wordBytesLE_joinLE]; rfl, h⟩
  · cases h

theorem decodeRca_ok {arg : Word} {k : BitVec 16 → Instr} {bs rest : List Byte} {i : Instr}
    (h : decodeRca arg k bs = .ok (i, rest)) : ∃ rca, arg = rcaArg rca ∧ i = k rca ∧ rest = bs := by
  unfold decodeRca at h
  split at h
  · rename_i h0
    cases h
    refine ⟨_, ?_, rfl, rfl⟩
    apply BitVec.eq_of_getLsbD_eq
    intro i hi
    rw [rcaArg_getLsbD]
    split
    · rename_i hlt
      have := congrArg (fun v : BitVec 16 => v.getLsbD i) h0
      simp only [BitVec.getLsbD_extractLsb', hlt, decide_true, Bool.true_and, Nat.zero_add] at this
      rw [this]; simp
    · rw [BitVec.getLsbD_extractLsb']; simp [show i - 16 < 16 by omega, show 16 + (i - 16) = i by omega]
  · cases h

end Sys2Proof.Machine
end

