-- ==== Sys2Proof/Laws/Init.lean ====
section
/-! SUPPORT. STORAGE_INIT (spec/46_session_host.md R235 to R248) with a card that does its part, step by step. -/

namespace Sys2Proof.Machine

variable {touched : Nat → Prop} {s u v : State} {x : Session} {f : Option Cause} {rest : List Turn} {app : Bool}
  {ev : List PinEvent}

/-! ## Steps 1 and 2 -/

/-- The state in which STORAGE_INIT starts to send (R236). -/
def initStart (s : State) : State := init2 (init1 s.busy)

theorem initStart_spec (h : s.Bootable) :
    (initStart s).session = { s.session with cardRca := 0#16, dataWidth := .one } ∧ (initStart s).ioInitialised = true ∧
      (initStart s).sessionValid = false ∧ (initStart s).kseq = ⟨true, s.cfg.clkdivInit⟩ ∧
      (s.ioInitialised = false → (initStart s).dma0.claimed = true ∧ (initStart s).dma1.claimed = true) ∧
      (s.ioInitialised = true → (initStart s).dma0.claimed = s.dma0.claimed ∧ (initStart s).dma1.claimed = s.dma1.claimed) ∧
      (initStart s).cseq.Quiet ∧ (initStart s).cseq.mode = .wait ∧ (initStart s).dseq.Quiet ∧ (initStart s).dseq.mode = .wait ∧
      (initStart s).dma0.busy = false ∧ (initStart s).dma1.busy = false := by
  have hq := h.quiescent
  unfold initStart init1
  cases hi : s.ioInitialised with
  | false =>
    simp only [State.setPhase_ioInitialised, hi, Bool.false_eq_true, if_false]
    exact ⟨rfl, rfl, rfl, rfl, fun _ => ⟨rfl, rfl⟩, fun k => by simp at k,
      ⟨.inl rfl, hq.cseq.armed, hq.cseq.txf, hq.cseq.rxf, hq.cseq.dir, hq.cseq.owner⟩, rfl,
      ⟨.inl rfl, hq.dseq.armed, hq.dseq.txf, hq.dseq.rxf, hq.dseq.dir, hq.dseq.owner⟩, rfl, hq.dma0, hq.dma1⟩
  | true =>
    obtain ⟨hc, hd⟩ := h.programmed hi
    simp only [State.setPhase_ioInitialised, hi, if_true]
    exact ⟨rfl, rfl, rfl, rfl, fun k => by simp at k, fun _ => ⟨rfl, rfl⟩, hq.cseq, hc, hq.dseq, hd, hq.dma0, hq.dma1⟩

theorem initStart_same : (initStart s).cfg = s.cfg ∧ (initStart s).lastFailure = s.lastFailure ∧ (initStart s).lanes = .one ∧
    (initStart s).host = s.host ∧ (initStart s).result = s.result ∧ (initStart s).done = false ∧
    (initStart s).stack = s.stack ∧ (initStart s).mem = s.mem ∧ (initStart s).card = s.card ∧
    (initStart s).appPrefix = s.appPrefix ∧ (initStart s).history = s.history ∧ (initStart s).crc16Reg = s.crc16Reg := by
  unfold initStart init1
  cases hi : s.ioInitialised <;> simp only [State.setPhase_ioInitialised, hi, Bool.false_eq_true, if_false, if_true] <;>
    exact ⟨rfl, rfl, rfl, rfl, rfl, rfl, rfl, rfl, rfl, rfl, rfl, rfl⟩

theorem initStart_base (h : s.Bootable) : SendBase (initStart s) := by
  obtain ⟨-, -, -, hk, -, -, -, -, hd, hdw, -, h1⟩ := initStart_spec h
  exact ⟨hd, hdw, h1, by rw [hk], by rw [initStart_same.1]; exact h.cfg⟩

theorem initStart_sent (touched : Nat → Prop) (h : s.Bootable) :
    Sent touched (initStart s) (initStart s) { s.session with cardRca := 0#16, dataWidth := .one } s.lastFailure s.card
      s.appPrefix [] := by
  obtain ⟨hs, -, -, -, -, -, hc, hcw, -, -, h0, -⟩ := initStart_spec h
  obtain ⟨-, hf, hl, -, -, hd, -, hm, hcard, happ, -, -⟩ := initStart_same (s := s)
  exact ⟨rfl, hs, rfl, rfl, hf, hl, rfl, rfl, rfl, hd, rfl, rfl, rfl, rfl, hc, hcw, h0, rfl, by rw [hm]; exact h.inv.mem,
    fun _ _ => rfl, hcard, happ, rfl⟩

theorem storageInit_busy {b ok : Bool} (h : goIdle ((initStart s).setPhase .init3) = (b, u))
    (h4 : sendIfCond (u.setPhase .init4) = (ok, v)) :
    storageInit s.busy = if ok then init5Loop v else .done (.bool false) v := by
  unfold storageInit
  simp only [initStart] at h
  simp only [h, h4]

/-! ## Step 3 and step 4 -/

/-- Step 3 (R237). -/
theorem Sent.goIdle (h : Sent touched s u x f rest app ev) (hs : SendBase s) (ht : ∀ y, inHead s.cfg y → touched y) :
    ∃ v, Machine.goIdle u = (true, v) ∧ Sent touched s v x f rest false (frameEvents 0#6 0#32 ++ ev) := by
  obtain ⟨v, he, -, hv⟩ := h.noResponse (cmd := 0#6) (param := 0#32) hs (fun y k => ht y (inHead_of_frame hs.cfg k)) 0#32
  exact ⟨v, he, hv⟩

/-- Step 4, accepted (R239). -/
theorem Sent.ifCond {latency : Nat} {r : List Byte} (h : Sent touched s u x f (Turn.answer latency r :: rest) app ev)
    (hs : SendBase s) (ht : ∀ y, inHead s.cfg y → touched y) (hc : Captured 6 r) (hok : ifCondOk r = true) :
    ∃ v, sendIfCond u = (true, v) ∧ Sent touched s v x f rest false (frameEvents 8#6 ifCondPattern ++ ev) := by
  obtain ⟨v, he, hv, hr, -, -⟩ := h.own (cmd := 8#6) (param := ifCondPattern) hs ht hc
  refine ⟨v, ?_, hv⟩
  unfold sendIfCond
  simp only [he, if_true, hr, hok]

/-- Step 4, not echoed (R239). -/
theorem Sent.ifCondBad {latency : Nat} {r : List Byte} (h : Sent touched s u x f (Turn.answer latency r :: rest) app ev)
    (hs : SendBase s) (ht : ∀ y, inHead s.cfg y → touched y) (hc : Captured 6 r) (hok : ifCondOk r = false) :
    ∃ v, sendIfCond u = (false, v) ∧ Sent touched s v x (some .ifCond) rest false (frameEvents 8#6 ifCondPattern ++ ev) := by
  obtain ⟨v, he, hv, hr, -, -⟩ := h.own (cmd := 8#6) (param := ifCondPattern) hs ht hc
  refine ⟨v.raise .ifCond, ?_, hv.raise _⟩
  unfold sendIfCond
  simp only [he, if_true, hr, hok, Bool.false_eq_true, if_false]

/-- Step 4, not answered. -/
theorem Sent.ifCondSilent (h : Sent touched s u x f rest app ev) (hs : SendBase s) (ht : ∀ y, inHead s.cfg y → touched y)
    (hc : NoAnswer 48 rest) :
    ∃ v, sendIfCond u = (false, v) ∧
      Sent touched s v x (some .cmdTimeout) rest.tail false (frameEvents 8#6 ifCondPattern ++ ev) := by
  obtain ⟨v, he, hv⟩ := h.ownSilent (cmd := 8#6) (param := ifCondPattern) hs ht hc
  refine ⟨v, ?_, hv⟩
  unfold sendIfCond
  simp only [he, Bool.false_eq_true, if_false]

/-! ## Step 5 -/

theorem init5Once_of {a : State} {ok : Bool} (h : appCmd 0#16 (u.setPhase .init5) = (ok, a)) :
    init5Once u = if ok then sendOpCond a.cfg.acmd41Arg a else (false, a) := by
  unfold init5Once; simp only [h]

/-- A round of the poll loop that does not end it (R240). -/
theorem Sent.poll {q : InitPoll} (h : Sent touched s u x f (q.turns ++ rest) app ev) (hs : SendBase s)
    (ht : ∀ y, inHead s.cfg y → touched y) (hq : q.Good) :
    ∃ v, init5Once u = (false, v) ∧ Sent touched s v x (q.failure f) rest false (q.events s.cfg.acmd41Arg ++ ev) := by
  have h5 := h.setPhase .init5
  have hz : rcaArg 0#16 = 0#32 := rfl
  cases q with
  | silent55 =>
    obtain ⟨v, he, hv⟩ := h5.checkedFails (cmd := 55#6) (param := rcaArg 0#16) hs ht (.timeout _ .silent)
    refine ⟨v, by rw [init5Once_of he]; rfl, ?_⟩
    rw [hz] at hv; exact hv
  | status55 latency r =>
    obtain ⟨v, he, hv⟩ := h5.checkedFails (cmd := 55#6) (param := rcaArg 0#16) hs ht (.status latency r hq.1 hq.2)
    refine ⟨v, by rw [init5Once_of he]; rfl, ?_⟩
    rw [hz] at hv; exact hv
  | silent41 latency r =>
    obtain ⟨a, he, ha⟩ := h5.checkedPasses (cmd := 55#6) (param := rcaArg 0#16) hs ht hq
    obtain ⟨v, hb, hv⟩ := ha.ownSilent (cmd := 41#6) (param := s.cfg.acmd41Arg) hs ht (.cons .silent)
    refine ⟨v, ?_, ?_⟩
    · rw [init5Once_of he, if_pos rfl, ha.cfg]
      unfold sendOpCond
      simp only [hb, Bool.false_eq_true, if_false]
    · rw [hz] at hv
      simpa [InitPoll.events, InitPoll.failure, List.append_assoc] using hv
  | notReady latency r latency41 ocr =>
    obtain ⟨a, he, ha⟩ := h5.checkedPasses (cmd := 55#6) (param := rcaArg 0#16) hs ht hq.1
    obtain ⟨v, hb, hv, hr, -, -⟩ := ha.own (cmd := 41#6) (param := s.cfg.acmd41Arg) hs ht hq.2.1
    refine ⟨v, ?_, ?_⟩
    · rw [init5Once_of he, if_pos rfl, ha.cfg]
      unfold sendOpCond
      simp only [hb, if_true, hr, ocrReady, hq.2.2, Bool.false_eq_true, if_false]
    · rw [hz] at hv
      simpa [InitPoll.events, InitPoll.failure, List.append_assoc] using hv

/-- The rounds of the poll loop before the last (R240). -/
theorem Sent.polls {qs : List InitPoll} (hs : SendBase s) (ht : ∀ y, inHead s.cfg y → touched y)
    (hbt : s.cfg.busyTimeout = none) (hne : rest ≠ []) :
    ∀ {u : State} {n : Nat} {f : Option Cause} {app : Bool} {ev : List PinEvent},
      Sent touched s u x f (qs.flatMap InitPoll.turns ++ rest) app ev → qs.length ≤ n → (∀ q ∈ qs, q.Good) →
      ∃ v app', init5 n u = init5 (n - qs.length) v ∧
        Sent touched s v x (qs.foldl InitPoll.failure f) rest app'
          (qs.reverse.flatMap (InitPoll.events s.cfg.acmd41Arg) ++ ev) := by
  induction qs with
  | nil => intro u n f app ev h hn hg; exact ⟨u, app, rfl, h⟩
  | cons q qs ih =>
    intro u n f app ev h hn hg
    rw [List.length_cons] at hn
    obtain ⟨n, rfl⟩ : ∃ k, n = k + 1 := ⟨n - 1, by omega⟩
    rw [List.flatMap_cons, List.append_assoc] at h
    obtain ⟨a, he, ha⟩ := h.poll hs ht (hg q (by simp))
    obtain ⟨v, app', hv, hw⟩ := ih (n := n) ha (by omega) (fun p hp => hg p (by simp [hp]))
    refine ⟨v, app', ?_, ?_⟩
    · have hcard : a.card.isEmpty = false := by
        rw [ha.card]
        cases hq : qs.flatMap InitPoll.turns ++ rest with
        | nil => exact absurd (List.append_eq_nil_iff.1 hq).2 hne
        | cons t ts => rfl
      have hb : a.cfg.busyTimeout.isSome = false := by rw [ha.cfg, hbt]; rfl
      rw [init5]
      simp only [he, Bool.false_eq_true, if_false, hb, hcard]
      rw [hv, List.length_cons, show n + 1 - (qs.length + 1) = n - qs.length by omega]
    · simpa [List.append_assoc] using hw

/-- The rounds take at least one Turn each. -/
theorem polls_length (qs : List InitPoll) : qs.length ≤ (qs.flatMap InitPoll.turns).length := by
  induction qs with
  | nil => exact Nat.le_refl _
  | cons q qs ih =>
    have : 1 ≤ q.turns.length := by cases q <;> simp [InitPoll.turns]
    simp only [List.flatMap_cons, List.length_append, List.length_cons]; omega

/-- The poll loop with a card that says nothing more (R240, R286): one round, and the engine shows itself waiting. -/
theorem Sent.pollSilent (h : Sent touched s u x f [] app ev) (hs : SendBase s) (ht : ∀ y, inHead s.cfg y → touched y)
    (hbt : s.cfg.busyTimeout = none) :
    ∃ v, init5Loop u = .waiting [.initPoll] v ∧ v.phase = .init5 ∧
      Sent touched s v x (some .cmdTimeout) [] false (frameEvents 55#6 0#32 ++ ev) := by
  obtain ⟨a, he, ha⟩ := (h.setPhase .init5).ownSilent (cmd := 55#6) (param := rcaArg 0#16) hs ht (.inl rfl)
  have hone : init5Once u = (false, a) := by
    rw [init5Once_of (checkedCommand_of_silent he)]; rfl
  have hb : a.cfg.busyTimeout.isSome = false := by rw [ha.cfg, hbt]; rfl
  have hcard : a.card.isEmpty = true := by rw [ha.card]; rfl
  refine ⟨a.setPhase .init5, ?_, rfl, ha.setPhase .init5⟩
  rw [init5Loop, init5]
  simp only [hone, Bool.false_eq_true, if_false, hb, hcard, if_true]

/-- The round that ends the loop, and step 6 (R240, R241). -/
theorem Sent.pollReady {l5 l41 : Nat} {r5 ocr : List Byte} {n : Nat}
    (h : Sent touched s u x f (Turn.answer l5 r5 :: Turn.answer l41 ocr :: rest) app ev) (hs : SendBase s)
    (ht : ∀ y, inHead s.cfg y → touched y) (h5 : Passes r5) (ho : Captured 6 ocr) (hr : (payload ocr).getLsbD 31 = true) :
    ∃ v, init5 (n + 1) u = init7 v ∧
      Sent touched s v { x with isHcs := (payload ocr).getLsbD 30 } f rest false
        (frameEvents 41#6 s.cfg.acmd41Arg ++ frameEvents 55#6 0#32 ++ ev) := by
  have hz : rcaArg 0#16 = 0#32 := rfl
  obtain ⟨a, he, ha⟩ := (h.setPhase .init5).checkedPasses (cmd := 55#6) (param := rcaArg 0#16) hs ht h5
  obtain ⟨b, hb, hv, hresp, -, -⟩ := ha.own (cmd := 41#6) (param := s.cfg.acmd41Arg) hs ht ho
  refine ⟨({ b with session := { x with isHcs := (payload ocr).getLsbD 30 } } : State).setPhase .init6, ?_, ?_⟩
  · have hone : init5Once u = (true, { b with session := { x with isHcs := (payload ocr).getLsbD 30 } }) := by
      rw [init5Once_of he, if_pos rfl, ha.cfg]
      unfold sendOpCond
      simp only [hb, if_true, hresp, ocrReady, hr, ocrHcs, hv.session]
    rw [init5]
    simp only [hone, if_true]
  · rw [hz] at hv
    have := (hv.setSession (y := { x with isHcs := (payload ocr).getLsbD 30 }) rfl).setPhase .init6
    simpa [List.append_assoc] using this

/-! ## Steps 7 to 10 -/

/-- Step 7 (R242). -/
theorem Sent.init7 {latency : Nat} {cid : List Byte} (h : Sent touched s u x f (Turn.answer latency cid :: rest) app ev)
    (hs : SendBase s) (ht : ∀ y, inHead s.cfg y → touched y) (hc : Captured 17 cid) :
    ∃ v, Machine.init7 u = init8 v ∧ Sent touched s v x f rest false (frameEvents 2#6 0#32 ++ ev) := by
  obtain ⟨v, he, hv, -⟩ := (h.setPhase .init7).answered (cmd := 2#6) (param := 0#32) (res := .long) hs ht (by decide) hc
  refine ⟨v, ?_, hv⟩
  have he' : allSendCid (u.setPhase .init7) = (true, v) := by
    unfold allSendCid; rw [State.setPhase_cfg, h.cfg]; exact he
  unfold Machine.init7
  simp only [he', if_true]

/-- Step 8 (R243). -/
theorem Sent.init8 {latency : Nat} {r : List Byte} (h : Sent touched s u x f (Turn.answer latency r :: rest) app ev)
    (hs : SendBase s) (ht : ∀ y, inHead s.cfg y → touched y) (hc : Captured 6 r) :
    ∃ v, Machine.init8 u = init9 v ∧
      Sent touched s v { x with cardRca := r.getD 1 0#8 ++ r.getD 2 0#8 } f rest false (frameEvents 3#6 0#32 ++ ev) := by
  obtain ⟨v, he, hv, hr, -, -⟩ := (h.setPhase .init8).own (cmd := 3#6) (param := 0#32) hs ht hc
  refine ⟨{ v with session := { x with cardRca := r.getD 1 0#8 ++ r.getD 2 0#8 } }, ?_, hv.setSession rfl⟩
  have he' : sendRelativeAddr (u.setPhase .init8) =
      (true, { v with session := { x with cardRca := r.getD 1 0#8 ++ r.getD 2 0#8 } }) := by
    unfold sendRelativeAddr
    simp only [he, if_true, hr, hv.session, responseRca]
  unfold Machine.init8
  simp only [he', if_true]

/-- Step 9 (R245). -/
theorem Sent.init9 {latency : Nat} {r : List Byte} (h : Sent touched s u x f (Turn.answer latency r :: rest) app ev)
    (hs : SendBase s) (ht : ∀ y, inHead s.cfg y → touched y) (hc : Captured 17 r) (hv : csdField r 127 126 ≤ 1)
    (hb : csdBlocks r < 2 ^ 32) :
    ∃ v, Machine.init9 u = init10 v ∧
      Sent touched s v { x with cardSizeBlocks := BitVec.ofNat 32 (csdBlocks r) } f rest false
        (frameEvents 9#6 (rcaArg x.cardRca) ++ ev) := by
  obtain ⟨v, he, hw, hm⟩ := (h.setPhase .init9).answered (cmd := 9#6) (param := rcaArg x.cardRca) (res := .long) hs ht
    (by decide) hc
  have hr : v.mem.readBytes s.cfg.respAddr 17 = r := (hm 17 (by decide)).trans (List.take_of_length_le (Nat.le_of_eq hc.1))
  have hp : parseCsd v.cfg.respAddr v = .done (BitVec.ofNat 32 (csdBlocks r)) v := by
    rw [hw.cfg]
    have := parseCsd_fits (a := s.cfg.respAddr) (s := v) (by rw [hr]; exact hv) (by rw [hr]; exact hb)
    rw [this, hr]
  refine ⟨{ v with session := { x with cardSizeBlocks := BitVec.ofNat 32 (csdBlocks r) } }, ?_, hw.setSession rfl⟩
  have he' : sdCommand 9#6 (rcaArg x.cardRca) .long (u.setPhase .init9).cfg.respAddr (u.setPhase .init9) = (true, v) := by
    rw [State.setPhase_cfg, h.cfg]; exact he
  have hcsd : sendCsd u.session.cardRca (u.setPhase .init9) =
      .done true { v with session := { x with cardSizeBlocks := BitVec.ofNat 32 (csdBlocks r) } } := by
    unfold sendCsd
    rw [h.session]
    simp only [he', if_true, hp, hw.session]
  unfold Machine.init9
  simp only [hcsd, if_true]

/-- Step 10 (R247). -/
theorem Sent.init10 {latency n : Nat} {r : List Byte}
    (h : Sent touched s u x f (Turn.answer latency r :: Turn.busy n :: rest) app ev)
    (hs : SendBase s) (ht : ∀ y, inHead s.cfg y → touched y) (hp : Passes r) :
    ∃ v, Machine.init10 u = init11 v ∧ Sent touched s v x f rest false (frameEvents 7#6 (rcaArg x.cardRca) ++ ev) := by
  obtain ⟨a, he, ha⟩ := (h.setPhase .init10).checkedPasses (cmd := 7#6) (param := rcaArg x.cardRca) hs ht hp
  obtain ⟨v, hb, hv, -⟩ := ha.busyEnds .init10
  refine ⟨v, ?_, hv⟩
  have hsel : selectCard u.session.cardRca .init10 .initSelect (u.setPhase .init10) = .done true v := by
    unfold selectCard
    rw [h.session]
    simp only [he, if_true, hb, Run.andThen]
  unfold Machine.init10
  simp only [hsel, init10End, if_true]

/-! ## A mandatory step that fails (R256) -/

/-- Steps 1 to 6 (R236 to R241). -/
theorem storageInit_ready {p : InitPlay} {verify : Bool} (h : s.Bootable) (hg : p.Good verify) (hbt : s.cfg.busyTimeout = none)
    (hc : s.card = p.turnsReady ++ rest) (ht : ∀ y, inHead s.cfg y → touched y) :
    ∃ v, storageInit s.busy = Machine.init7 v ∧
      Sent touched (initStart s) v
        { s.session with cardRca := 0#16, dataWidth := .one, isHcs := (payload p.ocr).getLsbD 30 }
        (p.polls.foldl InitPoll.failure s.lastFailure) rest false (p.eventsReady s.cfg) := by
  have hs := initStart_base h
  have hcfg : (initStart s).cfg = s.cfg := initStart_same.1
  have ht' : ∀ y, inHead (initStart s).cfg y → touched y := by rw [hcfg]; exact ht
  have h0 := initStart_sent touched h
  rw [hc, InitPlay.turnsReady] at h0
  simp only [List.cons_append, List.append_assoc, List.nil_append] at h0
  obtain ⟨u3, e3, h3⟩ := (h0.setPhase .init3).goIdle hs ht'
  obtain ⟨u4, e4, h4⟩ := (h3.setPhase .init4).ifCond hs ht' hg.cond.1 hg.cond.2
  have hlen : p.polls.length + 1 ≤ u4.card.length + 1 := by
    have := polls_length p.polls
    rw [h4.card, List.length_append]; omega
  obtain ⟨u5, app5, e5, h5⟩ := h4.polls (qs := p.polls) hs ht' (by rw [hcfg]; exact hbt) (by simp) (n := u4.card.length + 1)
    (by omega) hg.polls
  obtain ⟨k, hk⟩ : ∃ k, u4.card.length + 1 - p.polls.length = k + 1 := ⟨u4.card.length - p.polls.length, by omega⟩
  obtain ⟨u6, e6, h6⟩ := h5.pollReady (n := k) hs ht' hg.app hg.ocr.1 hg.ocr.2
  refine ⟨u6, ?_, ?_⟩
  · rw [storageInit_busy e3 e4, if_pos rfl, init5Loop, e5, hk, e6]
  · rw [hcfg] at h6
    simpa [InitPlay.eventsReady, List.append_assoc] using h6

/-- Step 7, not answered (R242). -/
theorem Sent.init7Fails (h : Sent touched s u x f rest app ev) (hs : SendBase s) (ht : ∀ y, inHead s.cfg y → touched y)
    (hc : NoAnswer 136 rest) :
    ∃ v, Machine.init7 u = .done (.bool false) v ∧
      Sent touched s v x (some .cmdTimeout) rest.tail false (frameEvents 2#6 0#32 ++ ev) := by
  obtain ⟨v, he, hv⟩ := (h.setPhase .init7).silent (cmd := 2#6) (param := 0#32) (res := .long) hs ht (by decide) hc
  refine ⟨v, ?_, hv⟩
  have he' : allSendCid (u.setPhase .init7) = (false, v) := by
    unfold allSendCid; rw [State.setPhase_cfg, h.cfg]; exact he
  unfold Machine.init7
  simp only [he', Bool.false_eq_true, if_false]

/-- Step 8, not answered (R243). -/
theorem Sent.init8Fails (h : Sent touched s u x f rest app ev) (hs : SendBase s) (ht : ∀ y, inHead s.cfg y → touched y)
    (hc : NoAnswer 48 rest) :
    ∃ v, Machine.init8 u = .done (.bool false) v ∧
      Sent touched s v x (some .cmdTimeout) rest.tail false (frameEvents 3#6 0#32 ++ ev) := by
  obtain ⟨v, he, hv⟩ := (h.setPhase .init8).ownSilent (cmd := 3#6) (param := 0#32) hs ht hc
  refine ⟨v, ?_, hv⟩
  have he' : sendRelativeAddr (u.setPhase .init8) = (false, v) := by
    unfold sendRelativeAddr; simp only [he, Bool.false_eq_true, if_false]
  unfold Machine.init8
  simp only [he', Bool.false_eq_true, if_false]

/-- Step 9, not answered (R245). -/
theorem Sent.init9Fails (h : Sent touched s u x f rest app ev) (hs : SendBase s) (ht : ∀ y, inHead s.cfg y → touched y)
    (hc : NoAnswer 136 rest) :
    ∃ v, Machine.init9 u = .done (.bool false) v ∧
      Sent touched s v x (some .cmdTimeout) rest.tail false (frameEvents 9#6 (rcaArg x.cardRca) ++ ev) := by
  obtain ⟨v, he, hv⟩ := (h.setPhase .init9).silent (cmd := 9#6) (param := rcaArg x.cardRca) (res := .long) hs ht (by decide) hc
  refine ⟨v, ?_, hv⟩
  have he' : sdCommand 9#6 (rcaArg x.cardRca) .long (u.setPhase .init9).cfg.respAddr (u.setPhase .init9) = (false, v) := by
    rw [State.setPhase_cfg, h.cfg]; exact he
  have hcsd : sendCsd u.session.cardRca (u.setPhase .init9) = .done false v := by
    unfold sendCsd
    rw [h.session]
    simp only [he', Bool.false_eq_true, if_false]
  unfold Machine.init9
  simp only [hcsd, Bool.false_eq_true, if_false]

/-- Step 10, failed (R247): no busy wait. -/
theorem Sent.init10Fails {t : Turn} {c : Cause} (h : Sent touched s u x f (t :: rest) app ev) (hs : SendBase s)
    (ht : ∀ y, inHead s.cfg y → touched y) (hf : Fails t c) :
    ∃ v, Machine.init10 u = .done (.bool false) v ∧
      Sent touched s v x (some c) rest false (frameEvents 7#6 (rcaArg x.cardRca) ++ ev) := by
  obtain ⟨v, he, hv⟩ := (h.setPhase .init10).checkedFails (cmd := 7#6) (param := rcaArg x.cardRca) hs ht hf
  refine ⟨v, ?_, hv⟩
  have hsel : selectCard u.session.cardRca .init10 .initSelect (u.setPhase .init10) = .done false v := by
    unfold selectCard
    rw [h.session]
    simp only [he, Bool.false_eq_true, if_false]
  unfold Machine.init10
  simp only [hsel, init10End, Bool.false_eq_true, if_false]

/-- STORAGE_INIT up to a mandatory step that fails (R256). -/
theorem storageInit_fails {p : InitPlay} {verify : Bool} {e : InitStep} {t : Turn} {c : Cause} (h : s.Bootable)
    (hg : p.Good verify) (hbt : e ≠ .ifCond → s.cfg.busyTimeout = none) (hf : e.Fails t c)
    (hc : s.card = p.turnsTo e ++ t :: rest) (ht : ∀ y, inHead s.cfg y → touched y) :
    ∃ v, storageInit s.busy = .done (.bool false) v ∧
      Sent touched (initStart s) v (p.sessionTo s.session e) (some c) rest false (p.eventsTo s.cfg e) := by
  have hs := initStart_base h
  have hcfg : (initStart s).cfg = s.cfg := initStart_same.1
  have ht' : ∀ y, inHead (initStart s).cfg y → touched y := by rw [hcfg]; exact ht
  cases e with
  | ifCond =>
    have h0 := initStart_sent touched h
    rw [hc] at h0
    obtain ⟨u3, e3, h3⟩ := (h0.setPhase .init3).goIdle hs ht'
    have key : ∃ v, sendIfCond (u3.setPhase .init4) = (false, v) ∧
        Sent touched (initStart s) v { s.session with cardRca := 0#16, dataWidth := .one } (some c) rest false
          (frameEvents 8#6 ifCondPattern ++ (frameEvents 0#6 0#32 ++ [])) := by
      rcases hf with ⟨hu, rfl⟩ | ⟨rfl, l, r, rfl, hr, hb⟩
      · exact (h3.setPhase .init4).ifCondSilent hs ht' (.cons hu)
      · exact (h3.setPhase .init4).ifCondBad hs ht' hr hb
    obtain ⟨v, e4, hv⟩ := key
    refine ⟨v, by rw [storageInit_busy e3 e4, if_neg (by decide)], ?_⟩
    simpa [InitPlay.eventsTo, InitPlay.sessionTo] using hv
  | cid =>
    obtain ⟨u6, e6, h6⟩ := storageInit_ready h hg (hbt (by simp)) hc ht
    obtain ⟨v, he, hv⟩ := h6.init7Fails hs ht' (.cons hf.1)
    obtain ⟨-, rfl⟩ := hf
    exact ⟨v, by rw [e6, he], hv⟩
  | rca =>
    rw [InitPlay.turnsTo, List.append_assoc] at hc
    obtain ⟨u6, e6, h6⟩ := storageInit_ready h hg (hbt (by simp)) hc ht
    obtain ⟨u7, e7, h7⟩ := h6.init7 hs ht' hg.cid
    obtain ⟨v, he, hv⟩ := h7.init8Fails hs ht' (.cons hf.1)
    obtain ⟨-, rfl⟩ := hf
    refine ⟨v, by rw [e6, e7, he], ?_⟩
    simpa [InitPlay.eventsTo, InitPlay.sessionTo, List.append_assoc] using hv
  | csd =>
    rw [InitPlay.turnsTo, List.append_assoc] at hc
    obtain ⟨u6, e6, h6⟩ := storageInit_ready h hg (hbt (by simp)) hc ht
    obtain ⟨u7, e7, h7⟩ := h6.init7 hs ht' hg.cid
    obtain ⟨u8, e8, h8⟩ := h7.init8 hs ht' hg.rca
    obtain ⟨v, he, hv⟩ := h8.init9Fails hs ht' (.cons hf.1)
    obtain ⟨-, rfl⟩ := hf
    refine ⟨v, by rw [e6, e7, e8, he], ?_⟩
    simpa [InitPlay.eventsTo, InitPlay.sessionTo, InitPlay.session, List.append_assoc] using hv
  | select =>
    rw [InitPlay.turnsTo, List.append_assoc] at hc
    obtain ⟨u6, e6, h6⟩ := storageInit_ready h hg (hbt (by simp)) hc ht
    obtain ⟨u7, e7, h7⟩ := h6.init7 hs ht' hg.cid
    obtain ⟨u8, e8, h8⟩ := h7.init8 hs ht' hg.rca
    obtain ⟨u9, e9, h9⟩ := h8.init9 hs ht' hg.csd.1 hg.csd.2.1 hg.csd.2.2
    obtain ⟨v, he, hv⟩ := h9.init10Fails hs ht' hf
    refine ⟨v, by rw [e6, e7, e8, e9, he], ?_⟩
    simpa [InitPlay.eventsTo, InitPlay.sessionTo, InitPlay.session, List.append_assoc] using hv

/-! ## Steps 11 and 12 -/

/-- The divider is the one R248 looks up. -/
theorem clkdivLookup_eq (c : Config) (hs : Bool) : clkdivLookup c hs = finalClkdiv c hs := by
  unfold clkdivLookup finalClkdiv
  cases hs <;> cases c.overclock <;> rfl

theorem switch_touched {arg : Word} (hc : u.cfg.wf) {z : Nat} (h : readTouched (readOp 6#6 arg u.cfg.swAddr 1 0#32 u) u.cfg z) :
    inStorage u.cfg z := by
  have hst := storageAt_of_wf hc
  have h1 := hst.sw; have h2 := hst.crcBuf; have h3 := hst.fits
  have hcw := Width.crcWords_pos u.session.dataWidth
  rcases h with h | h | h
  · exact h
  · have : u.cfg.swAddr.toNat ≤ z ∧ z < u.cfg.swAddr.toNat + 64 := h
    unfold inStorage storageSize; omega
  · have : u.cfg.crcBufAddr.toNat ≤ z ∧ z < u.cfg.crcBufAddr.toNat + 4 * u.session.dataWidth.crcWords := h
    unfold inStorage storageSize; omega

/-- What CMD6's caller reads of the status block (R248). -/
theorem highSpeedSeen_of {p : ReadPlay} (h : u.mem.readBytes u.cfg.swAddr 64 = p.data) :
    highSpeedSeen u = (p.data.getD u.cfg.switchStatusByte.val 0#8 == 0x01#8) := by
  unfold highSpeedSeen
  rw [← h, List.getD_eq_getElem?_getD, Memory.readBytes_getElem? _ _ u.cfg.switchStatusByte.isLt]
  rfl

/-- Steps 11 and 12: whatever step 11 gives, the session is valid and the divider is looked up (R248, R256). -/
theorem Worked.init11 {p : SwitchPlay} (h : Worked touched s u x f (p.turns ++ rest) app ev) (hs : SendBase s)
    (ht : ∀ z, inStorage s.cfg z → touched z) (hw : x.dataWidth = .one) (hg : p.Good s.cfg.verifyReadCrc)
    (hb : ∀ latency r, p = .noData latency r → s.cfg.readDataBounded = true) :
    ∃ v, Machine.init11 u = .done (.bool true) { v with
        phase := .init12, kseq := { v.kseq with clkdiv := finalClkdiv s.cfg (p.highSpeed s.cfg) }, sessionValid := true } ∧
      Worked touched s v x (p.failure f) rest false (frameEvents 6#6 s.cfg.cmd6Arg ++ ev) ∧ v.crc16Reg = u.crc16Reg := by
  have h' : Worked touched s (u.setPhase .init11) x f (p.turns ++ rest) app ev := by
    have := h.trans ((h.from.setPhase .init11).worked (h.base hs)); simpa using this
  have hbase := h'.base hs
  have hcfg := h'.cfg
  have htr : ∀ z, readTouched (readOp 6#6 s.cfg.cmd6Arg (u.setPhase .init11).cfg.swAddr 1 0#32 (u.setPhase .init11))
      (u.setPhase .init11).cfg z → touched z := fun z k => ht z (by
    have := switch_touched hbase.cfg k; rwa [hcfg] at this)
  have hplace := readPlace_switch (arg := s.cfg.cmd6Arg) (s := u.setPhase .init11) hbase.cfg
  have hrun : ∀ ok w, readBlock 6#6 s.cfg.cmd6Arg (u.setPhase .init11).cfg.swAddr 1 0#32 (u.setPhase .init11) = .done ok w →
      w.cfg = s.cfg → (ok && highSpeedSeen w) = p.highSpeed s.cfg →
      Machine.init11 u = .done (.bool true) { w with
        phase := .init12, kseq := { w.kseq with clkdiv := finalClkdiv s.cfg (p.highSpeed s.cfg) }, sessionValid := true } := by
    intro ok w he hwc hhs
    unfold Machine.init11 switchRead
    rw [h.cfg, he]
    simp only [Run.andThen, init11End, init12, hhs, hwc, clkdivLookup_eq, kseqSetClkdiv, State.setPhase]
  cases p with
  | read p =>
    have hg' : p.Good 6#6 .one 64 1 s.cfg.verifyReadCrc := hg
    have hr : Worked touched s (u.setPhase .init11) x f (p.turns 6#6 x.dataWidth ++ rest) app ev := by rw [hw]; exact h'
    obtain ⟨v, he, hv, h16, hd, -, -⟩ := hr.reads (cmd := 6#6) (addr := s.cfg.cmd6Arg) (buffer := (u.setPhase .init11).cfg.swAddr)
      (crc := 0#32) (count := 1) hs (.inr ⟨.inl rfl, rfl⟩) hplace (by rw [hw]; exact hg') htr
    refine ⟨v, hrun true v he hv.cfg ?_, ?_, h16⟩
    · have hd' : v.mem.readBytes v.cfg.swAddr 64 = p.data := by rw [hv.cfg, ← hcfg]; exact hd
      rw [Bool.true_and, highSpeedSeen_of hd', hv.cfg]
      rfl
    · exact hv
  | failed t c =>
    obtain ⟨v, he, hv, h16⟩ := h'.readFails (cmd := 6#6) (addr := s.cfg.cmd6Arg) (buffer := (u.setPhase .init11).cfg.swAddr)
      (crc := 0#32) (count := 1) (t := t) (rest := rest) hs hplace hg htr
    exact ⟨v, hrun false v he hv.cfg rfl, hv, h16⟩
  | noData latency r =>
    obtain ⟨v, he, hv, h16⟩ := h'.readTimesOut (cmd := 6#6) (addr := s.cfg.cmd6Arg) (buffer := (u.setPhase .init11).cfg.swAddr)
      (crc := 0#32) (count := 1) (rest := rest) hs (by decide) hplace hg (hb _ _ rfl) htr
    exact ⟨v, hrun false v he hv.cfg rfl, hv, h16⟩

end Sys2Proof.Machine
end

