-- ==== Sys2Proof/Laws/PerInstr.lean ====
section
/-! SUPPORT. One statement for every instruction: with which byte its request record begins, and how long it is. -/

namespace Sys2Proof.Laws.Record

/-- The first byte of a record (spec/30_encoding.md R102: `0x40 OR index`; R128: the selector code). -/
def firstByte : Instr → Byte
  | .cmd0 => 0x40#8
  | .cmd2 => 0x42#8
  | .cmd3 => 0x43#8
  | .cmd6 _ => 0x46#8
  | .acmd6 _ => 0x46#8
  | .cmd7 _ => 0x47#8
  | .cmd8 => 0x48#8
  | .cmd9 _ => 0x49#8
  | .cmd12 => 0x4C#8
  | .cmd17 _ _ _ => 0x51#8
  | .cmd18 _ _ _ _ => 0x52#8
  | .cmd24 _ _ => 0x58#8
  | .acmd41 _ => 0x69#8
  | .cmd55 _ => 0x77#8
  | .crc7 _ _ => 0x00#8
  | .crc16 _ _ => 0x01#8
  | .buildFrame _ _ => 0x02#8
  | .sdCommand _ _ _ _ => 0x03#8
  | .respFix _ _ => 0x04#8
  | .checkResStatus _ => 0x05#8
  | .waitNotBusy => 0x06#8
  | .readBlock _ _ _ _ _ => 0x07#8
  | .writeBlock _ _ _ => 0x08#8
  | .setWidth _ => 0x09#8
  | .storageInit => 0x0A#8
  | .parseCsd _ => 0x0B#8
  | .getStorageSize => 0x0C#8
  | .storageRead _ _ _ _ => 0x0D#8
  | .storageWrite _ _ _ _ => 0x0E#8

/-- The number of bytes of a record (log 3). -/
def size : Instr → Nat
  | .cmd0 => 6
  | .cmd2 => 6
  | .cmd3 => 6
  | .cmd6 _ => 6
  | .acmd6 _ => 6
  | .cmd7 _ => 6
  | .cmd8 => 6
  | .cmd9 _ => 6
  | .cmd12 => 6
  | .cmd17 _ _ _ => 14
  | .cmd18 _ _ _ _ => 18
  | .cmd24 _ _ => 10
  | .acmd41 _ => 6
  | .cmd55 _ => 6
  | .crc7 _ _ => 9
  | .crc16 _ _ => 9
  | .buildFrame _ _ => 9
  | .sdCommand _ _ _ _ => 17
  | .respFix _ _ => 9
  | .checkResStatus _ => 5
  | .waitNotBusy => 1
  | .readBlock _ _ _ _ _ => 21
  | .writeBlock _ _ _ => 13
  | .setWidth _ => 5
  | .storageInit => 1
  | .parseCsd _ => 5
  | .getStorageSize => 1
  | .storageRead _ _ _ _ => 17
  | .storageWrite _ _ _ _ => 17

/-- The record of an instruction begins with its own byte and has its own length. -/
def Statement (i : Instr) : Prop := (encode i).head? = some (firstByte i) ∧ (encode i).length = size i

theorem cmd0 : Statement (.cmd0) := ⟨rfl, rfl⟩
theorem cmd2 : Statement (.cmd2) := ⟨rfl, rfl⟩
theorem cmd3 : Statement (.cmd3) := ⟨rfl, rfl⟩
theorem cmd6 (a : Word) : Statement (.cmd6 a) := ⟨rfl, rfl⟩
theorem acmd6 (a : Bool) : Statement (.acmd6 a) := ⟨rfl, rfl⟩
theorem cmd7 (a : BitVec 16) : Statement (.cmd7 a) := ⟨rfl, rfl⟩
theorem cmd8 : Statement (.cmd8) := ⟨rfl, rfl⟩
theorem cmd9 (a : BitVec 16) : Statement (.cmd9 a) := ⟨rfl, rfl⟩
theorem cmd12 : Statement (.cmd12) := ⟨rfl, rfl⟩
theorem cmd17 (a b c : Word) : Statement (.cmd17 a b c) := ⟨rfl, rfl⟩
theorem cmd18 (a b c d : Word) : Statement (.cmd18 a b c d) := ⟨rfl, rfl⟩
theorem cmd24 (a b : Word) : Statement (.cmd24 a b) := ⟨rfl, rfl⟩
theorem acmd41 (a : Word) : Statement (.acmd41 a) := ⟨rfl, rfl⟩
theorem cmd55 (a : BitVec 16) : Statement (.cmd55 a) := ⟨rfl, rfl⟩
theorem crc7 (a b : Word) : Statement (.crc7 a b) := ⟨rfl, rfl⟩
theorem crc16 (a b : Word) : Statement (.crc16 a b) := ⟨rfl, rfl⟩
theorem buildFrame (a b : Word) : Statement (.buildFrame a b) := ⟨rfl, rfl⟩
theorem sdCommand (a b c d : Word) : Statement (.sdCommand a b c d) := ⟨rfl, rfl⟩
theorem respFix (a b : Word) : Statement (.respFix a b) := ⟨rfl, rfl⟩
theorem checkResStatus (a : Word) : Statement (.checkResStatus a) := ⟨rfl, rfl⟩
theorem waitNotBusy : Statement (.waitNotBusy) := ⟨rfl, rfl⟩
theorem readBlock (a b c d e : Word) : Statement (.readBlock a b c d e) := ⟨rfl, rfl⟩
theorem writeBlock (a b c : Word) : Statement (.writeBlock a b c) := ⟨rfl, rfl⟩
theorem setWidth (a : Word) : Statement (.setWidth a) := ⟨rfl, rfl⟩
theorem storageInit : Statement (.storageInit) := ⟨rfl, rfl⟩
theorem parseCsd (a : Word) : Statement (.parseCsd a) := ⟨rfl, rfl⟩
theorem getStorageSize : Statement (.getStorageSize) := ⟨rfl, rfl⟩
theorem storageRead (a b c d : Word) : Statement (.storageRead a b c d) := ⟨rfl, rfl⟩
theorem storageWrite (a b c d : Word) : Statement (.storageWrite a b c d) := ⟨rfl, rfl⟩

end Sys2Proof.Laws.Record
end

