-- ==== Sys2Proof/Laws/Step.lean ====
section
/-! SUPPORT. What every request and every step keeps, whatever the card does: `Keeps` of Laws/Control carried through the
domain tests, `exec`, the resumption of a wait, and `step`. -/

namespace Sys2Proof.Machine

variable {s t u : State} {α β : Type} {R : State → State → Prop}

/-! ## Domain tests and results -/

theorem guardRun_keeps {ok : Bool} {r : Refusal} {k : Run α} (h : k.Keeps R s) : (guardRun ok r k).Keeps R s := by
  unfold guardRun; split
  · exact h
  · exact .refused

theorem bool_keeps {r : Run Bool} (h : r.Keeps R s) : r.bool.Keeps R s := by
  cases h with
  | done h => exact .done h
  | waiting h hf hp => exact .waiting h hf hp
  | refused => exact .refused

theorem blocks_keeps {r : Run Word} : r.Keeps R s → (match r with
    | .done n s => .done (.blocks n) s
    | .waiting fs s => .waiting fs s
    | .refused r => .refused r : Run OpResult).Keeps R s := by
  intro h
  cases h with
  | done h => exact .done h
  | waiting h hf hp => exact .waiting h hf hp
  | refused => exact .refused

theorem runStep_keeps {f : State → Bool × State} (h : R s (f s).2) : (runStep f s).Keeps R s := .done h

/-- How a request that is accepted can leave the engine. -/
inductive Left (R : State → State → Prop) (s t : State) : Prop where
  | returned (u : State) (v : OpResult) (h : R s.busy u) (e : t = u.finish v)
  | waits (u : State) (fs : List Frame) (h : R s.busy u) (hf : fs ≠ []) (hp : u.phase ≠ .idle) (e : t = { u with stack := fs })

theorem Left.mono {R' : State → State → Prop} (hr : ∀ {a b}, R a b → R' a b) (h : Left R s t) : Left R' s t := by
  cases h with
  | returned u v h e => exact .returned u v (hr h) e
  | waits u fs h hf hp e => exact .waits u fs (hr h) hf hp e

theorem outcome_left {r : Run OpResult} (hk : r.Keeps R s.busy) (h : r.outcome = .next t) : Left R s t := by
  cases hk with
  | done h' => exact .returned _ _ h' (Host.Outcome.next.inj h).symm
  | waiting h' hf hp => exact .waits _ _ h' hf hp (Host.Outcome.next.inj h).symm
  | refused => cases h

theorem accept_left {k : State → Run OpResult} (hk : (k s.busy).Keeps R s.busy) (h : s.accept k = .next t) : Left R s t := by
  unfold State.accept at h
  split at h
  · exact outcome_left hk h
  · cases h

theorem wire_left {k : State → Run Bool} (hk : (k s.busy).Keeps R s.busy) (h : s.wire k = .next t) : Left R s t :=
  accept_left (guardRun_keeps (bool_keeps hk)) h

/-! ## Every request -/

theorem readRequest_keeps (cmd addr buffer count crc : Word) (s : State) : (readRequest cmd addr buffer count crc s).Keeps Kept s := by
  unfold readRequest
  split
  · exact bool_keeps (readBlock_keeps _ _ _ _ _ _)
  · exact guardRun_keeps (guardRun_keeps (guardRun_keeps (guardRun_keeps (guardRun_keeps (guardRun_keeps
      (bool_keeps (readBlock_keeps _ _ _ _ _ _)))))))

theorem writeRequest_keeps (cmd addr buffer : Word) (s : State) : (writeRequest cmd addr buffer s).Keeps Kept s :=
  guardRun_keeps (guardRun_keeps (guardRun_keeps (guardRun_keeps (guardRun_keeps (bool_keeps (writeBlock_keeps _ _ _))))))

theorem storageGuard_keeps {offset buffer size : Word} {k : Run OpResult} (h : k.Keeps R s) :
    (storageGuard offset buffer size s k).Keeps R s :=
  guardRun_keeps (guardRun_keeps (guardRun_keeps (guardRun_keeps (guardRun_keeps (guardRun_keeps h)))))

theorem Kept.crc7Reg (s : State) (c : BitVec 8) : Kept s { s with crc7Reg := c } := ⟨⟨rfl, rfl, rfl, rfl, rfl, id, id⟩, rfl, rfl, rfl, rfl, rfl⟩

theorem Kept.crc16Reg (s : State) (c : BitVec 16) : Kept s { s with crc16Reg := c } := ⟨⟨rfl, rfl, rfl, rfl, rfl, id, id⟩, rfl, rfl, rfl, rfl, rfl⟩

theorem buildFrame_kept (cmd : BitVec 6) (param : Word) (s : State) : Kept s (buildFrame cmd param s) :=
  ⟨⟨rfl, rfl, rfl, rfl, rfl, fun h => Memory.wf_writeBytes h _ _, id⟩, rfl, rfl, rfl, rfl, rfl⟩

/-- Every request but STORAGE_INIT leaves what `Kept` names alone. -/
theorem exec_left {i : Instr} (hi : i ≠ .storageInit) (h : exec i s = .next t) : Left Kept s t := by
  cases i with
  | cmd0 => exact wire_left (runStep_keeps (goIdle_kept _)) h
  | cmd2 => exact wire_left (runStep_keeps (allSendCid_kept _)) h
  | cmd3 => exact wire_left (runStep_keeps (sendRelativeAddr_kept _)) h
  | cmd6 arg =>
    exact accept_left (k := fun s => guardRun (s.cseq.programmed && s.dseq.programmed) .unprogrammed
      ((switchRead arg s).andThen .switchRead fun ok s => .done (ok && highSpeedSeen s) s).bool)
      (guardRun_keeps (bool_keeps (Run.Keeps.andThen Kept.trans (readBlock_keeps _ _ _ _ _ _)
        fun _ t => .done (Kept.refl t)))) h
  | acmd6 wide => exact wire_left (runStep_keeps (setBusWidth_kept _ _)) h
  | cmd7 rca => exact wire_left (selectCard_keeps (by decide) _ _ _) h
  | cmd8 => exact wire_left (runStep_keeps (sendIfCond_kept _)) h
  | cmd9 rca => exact wire_left (sendCsd_keeps _ _) h
  | cmd12 => exact wire_left (stopTransmission_keeps _) h
  | cmd17 addr buffer crc => exact accept_left (readRequest_keeps _ _ _ _ _ _) h
  | cmd18 addr buffer count crc => exact accept_left (readRequest_keeps _ _ _ _ _ _) h
  | cmd24 addr buffer => exact accept_left (writeRequest_keeps _ _ _ _) h
  | acmd41 arg => exact wire_left (runStep_keeps (sendOpCond_kept _ _)) h
  | cmd55 rca => exact wire_left (runStep_keeps (appCmd_kept _ _)) h
  | crc7 bytes n =>
    exact accept_left (k := fun s => guardRun (extentOk s.cfg bytes n.toNat) .extent
      (.done (.crc7 (Sys2Proof.crc7 (s.mem.readBytes bytes n.toNat))) { s with crc7Reg := Sys2Proof.crc7Reg (s.mem.readBytes bytes n.toNat) }))
      (guardRun_keeps (.done (Kept.crc7Reg _ _))) h
  | crc16 bytes n =>
    exact accept_left (k := fun s => guardRun (extentOk s.cfg bytes n.toNat) .extent
      (.done (.crc16 (Sys2Proof.crc16 (s.mem.readBytes bytes n.toNat))) { s with crc16Reg := Sys2Proof.crc16 (s.mem.readBytes bytes n.toNat) }))
      (guardRun_keeps (.done (Kept.crc16Reg _ _))) h
  | buildFrame cmd param =>
    exact accept_left (k := fun s => guardRun (decide (cmd.toNat ≤ 63)) .commandIndex
      (.done (.frame (frameBytes (indexOf cmd) param)) (buildFrame (indexOf cmd) param s)))
      (guardRun_keeps (.done (buildFrame_kept _ _ _))) h
  | sdCommand cmd param resSize resData =>
    refine accept_left (k := fun s => guardRun (decide (cmd.toNat ≤ 63)) .commandIndex
      (match ResSize.ofWord? resSize with
      | none => .refused .responseSize
      | some res =>
        responseGuard res resData s.cfg (guardRun s.cseq.programmed .unprogrammed
          (.done (.bool (sdCommand (indexOf cmd) param res resData s).1) (sdCommand (indexOf cmd) param res resData s).2))))
      (guardRun_keeps ?_) h
    split
    · exact .refused
    · unfold responseGuard
      split
      · exact guardRun_keeps (.done (sdCommand_kept _ _ _ _ _))
      · exact guardRun_keeps (guardRun_keeps (guardRun_keeps (.done (sdCommand_kept _ _ _ _ _))))
  | respFix w n =>
    exact accept_left (k := fun s => guardRun (n == 2#32 || n == 5#32) .wordCount (guardRun (aligned w) .responseAddress
      (guardRun (extentOk s.cfg w (4 * n.toNat)) .extent (.done .none (s.setMem (respFixMem s.mem w n.toNat))))))
      (guardRun_keeps (guardRun_keeps (guardRun_keeps (.done (Kept.setMem fun w => Memory.wf_writeWords w _ _))))) h
  | checkResStatus r =>
    exact accept_left (k := fun s => guardRun (aligned r) .responseAddress (guardRun (extentOk s.cfg r 5) .extent
      (.done (.bool (checkAt s r)) s))) (guardRun_keeps (guardRun_keeps (.done (Kept.refl _)))) h
  | waitNotBusy =>
    exact accept_left (k := fun s => guardRun s.cseq.programmed .unprogrammed
      ((Machine.waitNotBusy .notBusy s).andThen .busyOp fun _ s => .done .none s))
      (guardRun_keeps (Run.Keeps.andThen Kept.trans (waitNotBusy_keeps (by decide) _) fun _ t => .done (Kept.refl t))) h
  | readBlock cmd addr buffer count crc => exact accept_left (readRequest_keeps _ _ _ _ _ _) h
  | writeBlock cmd addr buffer => exact accept_left (writeRequest_keeps _ _ _ _) h
  | setWidth width =>
    refine accept_left (k := fun s => match Width.ofWord? width with
      | none => .refused .busWidth
      | some w => guardRun s.sessionValid .noSession (guardRun s.cseq.programmed .unprogrammed (.done .none (setWidthOp w s))))
      ?_ h
    dsimp only
    split
    · exact .refused
    · exact guardRun_keeps (guardRun_keeps (.done (setWidthOp_kept _ _)))
  | storageInit => exact absurd rfl hi
  | parseCsd r =>
    refine accept_left (k := fun s => guardRun (aligned r) .responseAddress (guardRun (extentOk s.cfg r 17) .extent
      (match parseCsd r s with
      | .done n s => .done (.blocks n) s
      | .waiting fs s => .waiting fs s
      | .refused r => .refused r))) (guardRun_keeps (guardRun_keeps ?_)) h
    exact blocks_keeps (parseCsd_keeps r s.busy)
  | getStorageSize =>
    exact accept_left (k := fun s => guardRun s.sessionValid .noSession (.done (.size 512#16 s.session.cardSizeBlocks) s))
      (guardRun_keeps (.done (Kept.refl _))) h
  | storageRead block offset buffer size =>
    exact accept_left (k := fun s => storageGuard offset buffer size s (storageRead block buffer (size.toNat / 512) s))
      (storageGuard_keeps (storageRead_keeps _ _ _ _)) h
  | storageWrite block offset buffer size =>
    exact accept_left (k := fun s => storageGuard offset buffer size s (storageWrite block buffer (size.toNat / 512) s))
      (storageGuard_keeps (storageWrite_keeps _ _ _ _)) h

/-- Every request leaves what `Held` names alone. -/
theorem exec_held {i : Instr} (h : exec i s = .next t) : Left Held s t := by
  by_cases hi : i = .storageInit
  · subst hi; exact accept_left (storageInit_keeps _) h
  · exact (exec_left hi h).mono fun k => k.toHeld

/-! ## Going on after a wait -/

theorem waiting_append {fs k : List Frame} (h : fs ≠ []) : fs ++ k ≠ [] := fun e => h (List.append_eq_nil_iff.1 e).1

theorem sdCommand_phase (cmd : BitVec 6) (param : Word) (res : ResSize) (dst : Word) (h : res ≠ .none) (s : State) :
    (sdCommand cmd param res dst s).2.phase ≠ .idle := by
  have key : ∀ u, (cmdAbort res dst u).phase = .cmdAbort := by
    intro u
    obtain ⟨ws, f, fc, -, he⟩ := scramble_spec (((u.setPhase .cmdAbort).setDma0 (u.setPhase .cmdAbort).dma0.abort).setCseq
      ((u.setPhase .cmdAbort).setDma0 (u.setPhase .cmdAbort).dma0.abort).cseq.clearRx.forceWait) dst res.words
    have : cmdAbort res dst u = ((((u.setPhase .cmdAbort).setDma0 (u.setPhase .cmdAbort).dma0.abort).setCseq
      ((u.setPhase .cmdAbort).setDma0 (u.setPhase .cmdAbort).dma0.abort).cseq.clearRx.forceWait).scramble dst res.words).raise
        .cmdTimeout := rfl
    rw [this, he]; rfl
  unfold sdCommand
  generalize (cmdStart (cmdArm cmd param res dst (cmdBuild cmd param s))).setPhase .cmdWait = u
  cases res with
  | none => exact absurd rfl h
  | short =>
    dsimp only
    generalize (cmdCapture .short u).1 = c; generalize (cmdCapture .short u).2 = v
    cases c with
    | true => rw [if_pos rfl]; show Phase.cmdFix ≠ _; decide
    | false => rw [if_neg (by decide)]; simp only [State.notePrefix, key]; decide
  | long =>
    dsimp only
    generalize (cmdCapture .long u).1 = c; generalize (cmdCapture .long u).2 = v
    cases c with
    | true => rw [if_pos rfl]; show Phase.cmdFix ≠ _; decide
    | false => rw [if_neg (by decide)]; simp only [State.notePrefix, key]; decide

/-- How a wait ends: like `Keeps`, and at a step label. -/
inductive Run.KeepsAt {α : Type} (s : State) : Run α → Prop where
  | done {a : α} {t : State} (h : Held s t) (hp : t.phase ≠ .idle) : Run.KeepsAt s (.done a t)
  | waiting {fs : List Frame} {t : State} (h : Held s t) (hf : fs ≠ []) (hp : t.phase ≠ .idle) : Run.KeepsAt s (.waiting fs t)
  | refused {r : Refusal} : Run.KeepsAt s (.refused r)

theorem Run.KeepsAt.from {r : Run α} (h : Held s u) (k : r.KeepsAt u) : r.KeepsAt s := by
  cases k with
  | done k hp => exact .done (h.trans k) hp
  | waiting k hf hp => exact .waiting (h.trans k) hf hp
  | refused => exact .refused

theorem waitNotBusy_keepsAt {label : Phase} (hl : label ≠ .idle) (s : State) : (Machine.waitNotBusy label s).KeepsAt s := by
  unfold Machine.waitNotBusy
  dsimp only
  split
  · exact .done ⟨rfl, rfl, rfl, rfl, rfl, id, id⟩ hl
  · exact .done ⟨rfl, rfl, rfl, rfl, rfl, id, id⟩ hl
  · exact .waiting ⟨rfl, rfl, rfl, rfl, rfl, id, id⟩ (by simp) hl

theorem rdStop_keepsAt (o : ReadOp) (s : State) : (rdStop o s).KeepsAt s := by
  unfold rdStop
  dsimp only
  split
  · split
    · have h0 : Held s (ownCommand 12#6 0#32 (s.setPhase .rdStop)).2 :=
        ((Kept.setPhase s .rdStop).trans (ownCommand_kept _ _ _)).toHeld
      generalize (ownCommand 12#6 0#32 (s.setPhase .rdStop)).2 = u at *
      have := waitNotBusy_keepsAt (label := .rdStop) (by decide) u
      generalize hr : Machine.waitNotBusy .rdStop u = r at *
      cases this with
      | done h hp =>
        refine .done (h0.trans (h.trans (readStopped_kept _ _ _ _).toHeld)) ?_
        rw [readStopped_phase]; exact hp
      | waiting h hf hp => exact .waiting (h0.trans h) (by simp) hp
      | refused => exact .refused
    · exact .done (((Kept.setPhase s .rdStop).trans (ownCommand_kept _ _ _)).trans (readLost_kept _ _)).toHeld
        (by rw [readLost_phase]; exact sdCommand_phase _ _ _ _ (by decide) _)
  · refine .done ((Kept.setPhase s .rdStop).trans (readEnd_kept _ _ _)).toHeld ?_
    rw [readEnd_phase]; show Phase.rdStop ≠ _; decide

theorem readFail_phase (o : ReadOp) (c : Cause) (s : State) : (readFail o c s).phase = s.phase :=
  readLost_phase o (readCleanup s)

theorem readData_keepsAt (o : ReadOp) (ts : List Turn) (fed : Nat) (s : State) : (readData o ts fed s).KeepsAt s := by
  induction ts generalizing fed s with
  | nil =>
    have hk := (awaitBlocks_kept o (List.replicate o.bits Tick.quiet) fed s).toHeld
    rw [readData]
    dsimp only
    split
    · exact (rdStop_keepsAt o _).from (hk.trans (Kept.setDseq _ _).toHeld)
    · have hp := awaitBlocks_phase o (List.replicate o.bits Tick.quiet) fed s
      split
      · exact .done (hk.trans (readFail_kept _ _ _).toHeld) (by rw [readFail_phase]; exact hp)
      · exact .waiting hk (by simp) hp
  | cons t ts ih =>
    rw [readData]
    dsimp only
    generalize hts : (if s.cfg.readDataBounded = true then t.waitTicks o.bits else t.ticks) = ticks
    have hk : Held s (awaitBlocks o ticks fed { s with card := ts }).2.2 :=
      ((Kept.card s ts).trans (awaitBlocks_kept o ticks fed { s with card := ts })).toHeld
    split
    · exact (rdStop_keepsAt o _).from (hk.trans (Kept.setDseq _ _).toHeld)
    · have hp := awaitBlocks_phase o ticks fed { s with card := ts }
      split
      · exact .done (hk.trans (readFail_kept _ _ _).toHeld) (by rw [readFail_phase]; exact hp)
      · exact (ih _ _).from hk

/-- A called operation that goes on returns to the operations under it. -/
theorem returns_keeps {r : Run Bool} {k : List Frame} : r.KeepsAt s → (match r with
    | .done ok s => returnTo k ok s
    | .waiting fs s => .waiting (fs ++ k) s
    | .refused r => .refused r : Run OpResult).Keeps Held s := by
  intro h
  cases h with
  | done h hp => exact (returnTo_keeps hp).from Held.trans h
  | waiting h hf hp => exact .waiting h (waiting_append hf) hp
  | refused => exact .refused

/-- A wait that goes on keeps what `Held` names. -/
theorem resume_keeps (hp : s.phase ≠ .idle) (hk : s.stack ≠ []) : (resume s).Keeps Held s := by
  unfold resume
  split
  · exact returns_keeps (waitNotBusy_keepsAt hp s)
  · exact returns_keeps (readData_keepsAt _ _ _ _)
  · exact init5_keeps _ s
  · exact .waiting (Held.refl s) hk hp

end Sys2Proof.Machine
end

