-- ==== Sys2Proof/Laws/Storage.lean ====
section
/-! SUPPORT. The block-device loops (spec/46_session_host.md R250 to R255), SET_WIDTH at their start, and the domains of
the block operations, with a card that does its part. -/

namespace Sys2Proof.Machine

variable {touched : Nat → Prop} {s u v : State} {x : Session} {f : Option Cause} {rest : List Turn} {app : Bool}
  {ev : List PinEvent}

/-! ## The domains of READ_BLOCK and WRITE_BLOCK -/

theorem indexOf_setWidth (cmd : BitVec 6) : indexOf (cmd.setWidth 32) = cmd := by
  unfold indexOf
  apply BitVec.eq_of_toNat_eq
  have := cmd.isLt
  simp only [BitVec.extractLsb'_toNat, BitVec.toNat_setWidth, Nat.shiftRight_zero]
  omega

theorem cmdWord (cmd c : BitVec 6) : ((cmd.setWidth 32 : Word) = c.setWidth 32) ↔ cmd = c := by
  constructor
  · intro k
    have := congrArg (BitVec.setWidth 6) k
    simpa using this
  · rintro rfl; rfl

/-- What R226 says of the operands of a READ_BLOCK of at most 32 blocks. -/
structure ReadDomain (cmd : BitVec 6) (buffer count crc : Word) : Prop where
  index  : cmd = 18#6 ∨ (cmd = 6#6 ∨ cmd = 17#6) ∧ count.toNat = 1
  bound  : 1 ≤ count.toNat ∧ count.toNat ≤ 32
  known  : ((cmd.setWidth 32 : Word) == 6#32 || (cmd.setWidth 32 : Word) == 17#32 || (cmd.setWidth 32 : Word) == 18#32) = true
  single : (count != 0#32 && ((cmd.setWidth 32 : Word) == 18#32 || count == 1#32)) = true
  place  : (alignedNonNull buffer && aligned crc) = true

theorem readDomain_of {cmd : BitVec 6} {buffer count crc : Word} (h : readOperandsOk (cmd.setWidth 32) buffer count crc = true)
    (hn : count.toNat ≤ 32) : ReadDomain cmd buffer count crc := by
  have e6 : ((cmd.setWidth 32 : Word) = 6#32) ↔ cmd = 6#6 := cmdWord cmd 6#6
  have e17 : ((cmd.setWidth 32 : Word) = 17#32) ↔ cmd = 17#6 := cmdWord cmd 17#6
  have e18 : ((cmd.setWidth 32 : Word) = 18#32) ↔ cmd = 18#6 := cmdWord cmd 18#6
  unfold readOperandsOk at h
  rw [decide_eq_false (by simp only [sdMaxReadBlocks]; omega), Bool.false_or] at h
  simp only [Bool.and_eq_true] at h
  obtain ⟨⟨⟨⟨g1, g2⟩, g3⟩, g4⟩, g5⟩ := h
  refine ⟨?_, ⟨?_, hn⟩, g1, by rw [g2, g3]; rfl, ?_⟩
  · simp only [Bool.or_eq_true, beq_iff_eq, e6, e17, e18] at g1 g3
    by_cases h18 : cmd = 18#6
    · exact .inl h18
    · exact .inr ⟨g1.resolve_right h18, by rw [g3.resolve_left h18]; rfl⟩
  · have : count ≠ 0#32 := by simpa using g2
    have h0 : count.toNat ≠ 0 := fun k => this (BitVec.eq_of_toNat_eq k)
    omega
  · rw [g4]; unfold aligned; simpa using g5

theorem programmed_both {s : State} (hc : s.cseq.mode = .wait) (hd : s.dseq.mode = .wait) :
    (s.cseq.programmed && s.dseq.programmed) = true := by
  rw [Seq.programmed_of hc, Seq.programmed_of hd]; rfl

/-- A READ_BLOCK of its domain runs. -/
theorem readRequest_of {cmd : BitVec 6} {addr buffer count crc : Word} (hc : s.cseq.mode = .wait) (hd : s.dseq.mode = .wait)
    (hv : s.sessionValid = true) (h : ReadDomain cmd buffer count crc)
    (he : readExtentsOk (cmd.setWidth 32) buffer count.toNat crc s = true) :
    readRequest (cmd.setWidth 32) addr buffer count crc s = (readBlock cmd addr buffer count.toNat crc s).bool := by
  unfold readRequest
  rw [if_neg (by have := h.bound.2; simp only [sdMaxReadBlocks]; omega), guardRun_of h.known, guardRun_of h.single,
    guardRun_of h.place, guardRun_of he, guardRun_of hv, guardRun_of (programmed_both hc hd), indexOf_setWidth]

/-- A WRITE_BLOCK of its domain runs. -/
theorem writeRequest_of {addr buffer : Word} (hc : s.cseq.mode = .wait) (hd : s.dseq.mode = .wait) (hv : s.sessionValid = true)
    (ha : alignedNonNull buffer = true) (he : extentOk s.cfg buffer 512 = true) :
    writeRequest 24#32 addr buffer s = (writeBlock addr buffer s).bool := by
  unfold writeRequest
  rw [guardRun_of (by rfl), guardRun_of ha, guardRun_of (show extentOk s.cfg buffer blockLenBytes = true from he),
    guardRun_of hv, guardRun_of (programmed_both hc hd)]

/-- The operands of STORAGE_READ and STORAGE_WRITE (R253). -/
structure StorageDomain (c : Config) (buffer size : Word) : Prop where
  blocks : size.toNat = 512 * (size.toNat / 512)
  small  : size.toNat < 2 ^ 31
  place  : 0 < size.toNat → buffer.toNat + size.toNat ≤ 2 ^ 32 ∧
    (buffer.toNat + size.toNat ≤ c.storageBase.toNat ∨ c.storageBase.toNat + 0x310 ≤ buffer.toNat)

theorem StorageDomain.buffer {c : Config} {buffer size : Word} (h : StorageDomain c buffer size) (hp : 0 < size.toNat / 512) :
    buffer.toNat + 512 * (size.toNat / 512) ≤ 2 ^ 32 ∧ (buffer.toNat + 512 * (size.toNat / 512) ≤ c.storageBase.toNat ∨
      c.storageBase.toNat + 0x310 ≤ buffer.toNat) := by
  rw [← h.blocks]; exact h.place (by omega)

/-- A STORAGE_READ or STORAGE_WRITE of its domain runs. -/
theorem storageGuard_of {buffer size : Word} (hcfg : s.cfg.wf) (hc : s.cseq.mode = .wait) (hd : s.dseq.mode = .wait)
    (hv : s.sessionValid = true) (ho : storageOperandsOk 0#32 buffer size = true) (he : extentOk s.cfg buffer size.toNat = true)
    (k : Run OpResult) : storageGuard 0#32 buffer size s k = k ∧ StorageDomain s.cfg buffer size := by
  unfold storageOperandsOk at ho
  simp only [Bool.and_eq_true, beq_iff_eq, decide_eq_true_eq] at ho
  obtain ⟨⟨⟨⟨-, h2⟩, h3⟩, h4⟩, h5⟩ := ho
  constructor
  · unfold storageGuard
    rw [guardRun_of (by rfl), guardRun_of (by rw [decide_eq_true h2, decide_eq_true h3]; rfl),
      guardRun_of (by unfold aligned; rw [decide_eq_true h4, h5]; rfl), guardRun_of he, guardRun_of hv,
      guardRun_of (programmed_both hc hd)]
  · exact ⟨by omega, h3, fun hp => extentOk_spec hcfg hp he⟩

/-! ## SET_WIDTH before the loop -/

theorem WidthPlay.width_same (w : Width) (p : WidthPlay) : p.width w w = w := by cases p <;> rfl

/-- SET_WIDTH with a card that does as the play says, or that is not asked (R230, R231, R234). -/
theorem Sent.widthDone {w : Width} {wp : WidthPlay}
    (h : Sent touched s u x f (wp.turns x.dataWidth w ++ rest) app ev) (hs : SendBase s)
    (ht : ∀ y, inHead s.cfg y → touched y) (hg : wp.Good x.dataWidth w) :
    Sent touched s (setWidthOp w u) { x with dataWidth := wp.width x.dataWidth w } (wp.failure x.dataWidth w f) rest
      (if w = x.dataWidth then app else false) (wp.events x.dataWidth w x.cardRca ++ ev) := by
  by_cases hw : w = x.dataWidth
  · rw [setWidthOp_same (by rw [h.session]; exact hw), if_pos hw]
    have e1 : wp.turns x.dataWidth w = [] := if_pos hw
    have e2 : wp.events x.dataWidth w x.cardRca = [] := if_pos hw
    have e3 : wp.failure x.dataWidth w f = f := if_pos hw
    rw [e1] at h
    have hx : ({ x with dataWidth := wp.width x.dataWidth w } : Session) = x := by rw [hw, WidthPlay.width_same]
    rw [e2, e3, hx]
    exact h
  · replace hg := hg hw
    rw [if_neg hw]
    unfold WidthPlay.turns at h
    unfold WidthPlay.failure WidthPlay.events
    rw [if_neg hw] at h
    rw [if_neg hw, if_neg hw]
    cases wp with
    | accepted l5 r5 l6 r6 =>
      simp only [List.append_assoc]
      exact h.widthPasses hs ht hw hg.1 hg.2
    | fails55 t c => exact h.widthFails55 hs ht hw hg
    | fails6 l5 r5 t c =>
      simp only [List.append_assoc]
      exact h.widthFails6 hs ht hw hg.1 hg.2

/-! ## STORAGE_READ -/

@[simp] theorem cardAddress_width (x : Session) (w : Width) (b : Word) :
    cardAddress { x with dataWidth := w } b = cardAddress x b := rfl

@[simp] theorem chunkEvents_width (x : Session) (w : Width) (block : Word) (n done : Nat) (ps : List ReadPlay) :
    chunkEvents { x with dataWidth := w } block n done ps = chunkEvents x block n done ps := by
  induction ps generalizing n done with
  | nil => rfl
  | cons p ps ih => rw [chunkEvents, chunkEvents, ih, cardAddress_width]

@[simp] theorem writeEvents_width (x : Session) (w : Width) (block : Word) (done : Nat) (ds : List (List Byte)) :
    writeEvents { x with dataWidth := w } block done ds = writeEvents x block done ds := by
  induction ds generalizing done with
  | nil => rfl
  | cons d ds ih => rw [writeEvents, writeEvents, ih, cardAddress_width]

/-- A buffer of `total` blocks lies as R253 asks. -/
def BufferAt (c : Config) (buffer : Word) (total : Nat) : Prop :=
  buffer.toNat + 512 * total ≤ 2 ^ 32 ∧
    (buffer.toNat + 512 * total ≤ c.storageBase.toNat ∨ c.storageBase.toNat + 0x310 ≤ buffer.toNat)

theorem readPlace_chunk {cmd : BitVec 6} {addr buffer : Word} {total done n : Nat} (hc : u.cfg.wf) (hcmd : cmd ≠ 6#6)
    (hb : BufferAt u.cfg buffer total) (hn : 1 ≤ n ∧ n ≤ 32) (hd : done + n ≤ total) :
    ReadPlace (readOp cmd addr (buffer + BitVec.ofNat 32 (done * 512)) n 0#32 u) u.cfg ∧
      (buffer + BitVec.ofNat 32 (done * 512)).toNat = buffer.toNat + 512 * done := by
  have hst := storageAt_of_wf hc
  have h1 := hst.crcBuf; have h2 := hst.fits; have h3 := hst.table
  have hw := Width.crcWords_pos u.session.dataWidth
  obtain ⟨hb1, hb2⟩ := hb
  have ha : (buffer + BitVec.ofNat 32 (done * 512)).toNat = buffer.toNat + done * 512 := word_add_toNat (by omega)
  refine ⟨?_, by omega⟩
  have key : ReadPlace ⟨cmd, addr, buffer + BitVec.ofNat 32 (done * 512), n, u.cfg.crcBufAddr, u.session.dataWidth⟩ u.cfg := by
    have hl : (⟨cmd, addr, buffer + BitVec.ofNat 32 (done * 512), n, u.cfg.crcBufAddr, u.session.dataWidth⟩ : ReadOp).blockLen =
        512 := if_neg hcmd
    refine ⟨hn, ⟨?_, ?_, ?_, ?_, ?_, ?_⟩, ?_, ?_⟩ <;> simp only [hl, ha] <;> omega
  exact key

/-- The loop of STORAGE_READ over chunks that succeed (R250, R251): it goes on with what is left. -/
theorem Worked.readLoop {block buffer : Word} {total left : Nat} {ps : List ReadPlay} (hs : SendBase s)
    (hb : 0 < total → BufferAt s.cfg buffer total)
    (ht : ∀ z, inStorage s.cfg z ∨ inExtent buffer (512 * total) z → touched z) :
    ∀ {u : State} {fuel done : Nat} {app : Bool} {ev : List PinEvent},
      Worked touched s u x f (chunkTurns x.dataWidth (total - done) ps ++ rest) app ev → done ≤ total → total - done ≤ fuel →
      ChunksGood x.dataWidth s.cfg.verifyReadCrc (total - done) ps left →
      ∃ v fuel', Machine.readLoop block buffer total fuel done u = Machine.readLoop block buffer total fuel' (total - left) v ∧
        left ≤ fuel' ∧ left + done ≤ total ∧ (0 < left → total - left = done + 32 * ps.length) ∧
        Worked touched s v x f rest (if ps = [] then app else false) (chunkEvents x block (total - done) done ps ++ ev) ∧
        v.crc16Reg = u.crc16Reg ∧
        v.mem.readBytes (buffer + BitVec.ofNat 32 (done * 512)) (512 * (total - left - done)) = ps.flatMap ReadPlay.data ∧
        ∀ z, ¬ inStorage s.cfg z → ¬ (buffer.toNat + 512 * done ≤ z ∧ z < buffer.toNat + 512 * (total - left)) →
          v.mem.read z = u.mem.read z := by
  induction ps with
  | nil =>
    intro u fuel done app ev h hd hf hg
    have hl : total - done = left := hg
    refine ⟨u, fuel, ?_, by omega, by omega, fun _ => by simp only [List.length_nil]; omega, h, rfl, ?_, fun _ _ _ => rfl⟩
    · rw [show total - left = done by omega]
    · rw [show total - left - done = 0 by omega]; rfl
  | cons p ps ih =>
    intro u fuel done app ev h hd hf hg
    obtain ⟨hpos, hgood, hrest⟩ := hg
    replace hb := hb (by omega)
    have hmin : min (total - done) sdMaxReadBlocks = chunkSize total done := rfl
    rw [hmin] at hgood hrest
    have hn : 1 ≤ chunkSize total done ∧ chunkSize total done ≤ 32 ∧ chunkSize total done ≤ total - done := by
      unfold chunkSize sdMaxReadBlocks; omega
    have hfull : 0 < total - done - chunkSize total done → chunkSize total done = 32 := by
      unfold chunkSize sdMaxReadBlocks; omega
    generalize hcs : chunkSize total done = n at *
    obtain ⟨fuel, rfl⟩ : ∃ k, fuel = k + 1 := ⟨fuel - 1, by omega⟩
    have hbase := h.base hs
    have hcfg := h.cfg
    have hcmd6 : chunkCmd n ≠ 6#6 := by unfold chunkCmd; split <;> decide
    have hplace := readPlace_chunk (u := u) (cmd := chunkCmd n) (addr := cardAddress x (block + BitVec.ofNat 32 done))
      (buffer := buffer) (total := total) (done := done) (n := n) hbase.cfg hcmd6 (by rw [hcfg]; exact hb) ⟨hn.1, hn.2.1⟩ (by omega)
    obtain ⟨hplace, haddr⟩ := hplace
    have hlen : (readOp (chunkCmd n) (cardAddress x (block + BitVec.ofNat 32 done)) (buffer + BitVec.ofNat 32 (done * 512)) n
        0#32 u).blockLen = 512 := if_neg hcmd6
    have hst := storageAt_of_wf hs.cfg
    have h1 := hst.crcBuf; have h2 := hst.fits
    have hcw := Width.crcWords_pos u.session.dataWidth
    have htr : ∀ z, readTouched (readOp (chunkCmd n) (cardAddress x (block + BitVec.ofNat 32 done))
        (buffer + BitVec.ofNat 32 (done * 512)) n 0#32 u) u.cfg z →
        inStorage s.cfg z ∨ (buffer.toNat + 512 * done ≤ z ∧ z < buffer.toNat + 512 * (done + n)) := by
      rintro z (k | k | k)
      · exact .inl (by rw [← hcfg]; exact k)
      · rw [hlen] at k
        have k' : (buffer + BitVec.ofNat 32 (done * 512)).toNat ≤ z ∧ z < (buffer + BitVec.ofNat 32 (done * 512)).toNat + n * 512 := k
        exact .inr (by omega)
      · have k' : u.cfg.crcBufAddr.toNat ≤ z ∧ z < u.cfg.crcBufAddr.toNat + 4 * u.session.dataWidth.crcWords := k
        rw [hcfg] at k'
        exact .inl (by unfold inStorage storageSize; omega)
    have hcount : chunkCmd n = 18#6 ∨ (chunkCmd n = 6#6 ∨ chunkCmd n = 17#6) ∧ n = 1 := by
      unfold chunkCmd
      by_cases k : n = 1
      · rw [if_pos k]; exact .inr ⟨.inr rfl, k⟩
      · rw [if_neg k]; exact .inl rfl
    have hturns : chunkTurns x.dataWidth (total - done) (p :: ps) ++ rest =
        p.turns (chunkCmd n) x.dataWidth ++ (chunkTurns x.dataWidth (total - (done + n)) ps ++ rest) := by
      rw [chunkTurns, hmin, List.append_assoc, show total - (done + n) = total - done - n by omega]
    rw [hturns] at h
    obtain ⟨u', hread, hu', h16, hdata, -, hmem⟩ := h.reads (addr := cardAddress x (block + BitVec.ofNat 32 done))
      (buffer := buffer + BitVec.ofNat 32 (done * 512)) (crc := 0#32) (count := n) hs hcount hplace
      (by rw [hlen]; exact hgood) (fun z k => ht z (by
        rcases htr z k with k | k
        · exact .inl k
        · exact .inr (by unfold inExtent; omega)))
    have hchunk : readChunk block buffer total done u = .done true u' := by
      unfold readChunk
      rw [hcs, h.session]
      exact hread
    obtain ⟨v, fuel', hloop, hlf, hld, hlp, hv, hv16, hvd, hvm⟩ := ih (fuel := fuel) (done := done + n) hu' (by omega) (by omega)
      (by rw [show total - (done + n) = total - done - n by omega]; exact hrest)
    refine ⟨v, fuel', ?_, hlf, by omega, ?_, ?_, hv16.trans h16, ?_, ?_⟩
    · rw [Machine.readLoop, if_neg (by omega), hchunk]
      simp only [Run.andThen, if_true, hcs]
      exact hloop
    · intro k
      rw [hlp k, List.length_cons, hfull (by omega)]
      omega
    · rw [if_neg (by simp)]
      have : (if ps = [] then false else false) = false := by split <;> rfl
      rw [this] at hv
      rw [chunkEvents, hmin, List.append_assoc, show total - done - n = total - (done + n) by omega]
      exact hv
    · rw [List.flatMap_cons, ← hvd, ← hdata, hlen]
      apply List.ext_getElem?
      intro i
      have hlp' : total - left - done = n + (total - left - (done + n)) := by omega
      have hb1 := hb.1; have hb2 := hb.2
      by_cases hi : i < n * 512
      · rw [List.getElem?_append_left (by simpa using hi), Memory.readBytes_getElem? _ _ (by omega),
          Memory.readBytes_getElem? _ _ hi]
        congr 1
        refine hvm _ ?_ ?_
        · rw [word_add_toNat (by omega)]
          unfold inStorage storageSize; omega
        · rw [word_add_toNat (by omega)]; omega
      · by_cases hj : i < 512 * (total - left - done)
        · rw [List.getElem?_append_right (by simp; omega), Memory.readBytes_getElem? _ _ hj, Memory.readBytes_length,
            Memory.readBytes_getElem? _ _ (by omega), word_add_assoc, word_add_assoc,
            show (done + n) * 512 + (i - n * 512) = done * 512 + i by omega]
        · rw [List.getElem?_eq_none (by simp; omega), List.getElem?_eq_none (by simp; omega)]
    · intro z hz1 hz2
      rw [hvm z hz1 (by omega), hmem z]
      intro k
      rcases htr z k with k | k
      · exact hz1 k
      · omega

/-- The loop ends when nothing is left. -/
theorem readLoop_end {block buffer : Word} {total fuel : Nat} :
    Machine.readLoop block buffer total fuel total u = .done (byteCount total) u := by
  cases fuel with
  | zero => rfl
  | succ n => rw [Machine.readLoop, if_pos (Nat.le_refl _)]

/-- A short end keeps what is counted and draws the rest (R252, R80). -/
theorem Worked.short {buffer : Word} {total done : Nat} (h : Worked touched s u x f rest app ev) (hb : BufferAt s.cfg buffer total)
    (ht : ∀ z, inExtent buffer (512 * total) z → touched z) (hd : done < total) :
    ∃ v, readShort buffer total done u = .done (byteCount done) v ∧ Worked touched s v x f rest app ev ∧
      v.mem.readBytes buffer (512 * done) = u.mem.readBytes buffer (512 * done) := by
  obtain ⟨ws, fr, fc, hl, he⟩ := scramble_spec u (buffer + BitVec.ofNat 32 (done * 512)) (128 * (total - done))
  obtain ⟨hb1, -⟩ := hb
  have ha : (buffer + BitVec.ofNat 32 (done * 512)).toNat = buffer.toNat + done * 512 := word_add_toNat (by omega)
  have hread : ∀ z, ¬ (buffer.toNat + 512 * done ≤ z ∧ z < buffer.toNat + 512 * total) →
      (u.mem.writeWords (buffer + BitVec.ofNat 32 (done * 512)) ws).read z = u.mem.read z := by
    intro z hz
    rw [Memory.writeWords_eq, Memory.read_writeBytes h.wf (by simp [hl]; omega), if_neg (by simp [hl]; omega)]
  refine ⟨_, by rw [readShort, he], ?_, ?_⟩
  · exact ⟨h.cfg, h.session, h.io, h.valid, h.failure, h.lanes, h.kseq, h.host, h.result, h.done, h.stack, h.dseq, h.dwaits,
      h.dma1, h.claimed1, h.cseq, h.cwaits, h.dma0, h.claimed0, Memory.wf_writeWords h.wf _ _,
      fun z hz => (hread z fun k => hz (ht z (by unfold inExtent; omega))).trans (h.mem z hz), h.card, h.app, h.history⟩
  · apply Memory.readBytes_congr
    intro i hi
    refine hread _ ?_
    rw [word_add_toNat (by omega)]
    omega

/-- The loop ends at a chunk whose command fails (R252). -/
theorem Worked.readLoopFails {block buffer : Word} {total fuel done : Nat} {t : Turn} {c : Cause}
    (h : Worked touched s u x f (t :: rest) app ev) (hs : SendBase s) (hb : BufferAt s.cfg buffer total)
    (ht : ∀ z, inStorage s.cfg z ∨ inExtent buffer (512 * total) z → touched z) (hd : done < total) (hf : 0 < fuel)
    (hc : Fails t c) (hdata : ∀ z, inExtent buffer (512 * done) z → ¬ inStorage s.cfg z) :
    ∃ v, Machine.readLoop block buffer total fuel done u = .done (byteCount done) v ∧
      Worked touched s v x (some c) rest false
        (frameEvents (if total - done = 1 then 17#6 else 18#6) (cardAddress x (block + BitVec.ofNat 32 done)) ++ ev) ∧
      v.mem.readBytes buffer (512 * done) = u.mem.readBytes buffer (512 * done) := by
  have hn : 1 ≤ chunkSize total done ∧ chunkSize total done ≤ 32 ∧ chunkSize total done ≤ total - done ∧
      (chunkSize total done = 1 ↔ total - done = 1) := by
    unfold chunkSize sdMaxReadBlocks; omega
  have hcs1 : (if chunkSize total done = 1 then 17#6 else 18#6 : BitVec 6) = (if total - done = 1 then 17#6 else 18#6) := by
    by_cases k : total - done = 1
    · rw [if_pos k, if_pos (hn.2.2.2.2 k)]
    · rw [if_neg k, if_neg fun j => k (hn.2.2.2.1 j)]
  obtain ⟨fuel, rfl⟩ : ∃ k, fuel = k + 1 := ⟨fuel - 1, by omega⟩
  have hbase := h.base hs
  generalize hcmd : (if total - done = 1 then 17#6 else 18#6 : BitVec 6) = cmd at *
  have hcmd6 : cmd ≠ 6#6 := by rw [← hcmd]; split <;> decide
  obtain ⟨hplace, haddr⟩ := readPlace_chunk (u := u) (cmd := cmd) (addr := cardAddress x (block + BitVec.ofNat 32 done))
    (buffer := buffer) (total := total) (done := done) (n := chunkSize total done) hbase.cfg hcmd6 (by rw [h.cfg]; exact hb)
    ⟨hn.1, hn.2.1⟩ (by omega)
  have hlen : (readOp cmd (cardAddress x (block + BitVec.ofNat 32 done)) (buffer + BitVec.ofNat 32 (done * 512))
      (chunkSize total done) 0#32 u).blockLen = 512 := if_neg hcmd6
  have hst := storageAt_of_wf hs.cfg
  have h1 := hst.crcBuf; have h2 := hst.fits
  have hcw := Width.crcWords_pos u.session.dataWidth
  have htr : ∀ z, readTouched (readOp cmd (cardAddress x (block + BitVec.ofNat 32 done))
      (buffer + BitVec.ofNat 32 (done * 512)) (chunkSize total done) 0#32 u) u.cfg z →
      inStorage s.cfg z ∨ (buffer.toNat + 512 * done ≤ z ∧ z < buffer.toNat + 512 * (done + chunkSize total done)) := by
    rintro z (k | k | k)
    · exact .inl (by rw [← h.cfg]; exact k)
    · rw [hlen] at k
      have k' : (buffer + BitVec.ofNat 32 (done * 512)).toNat ≤ z ∧
        z < (buffer + BitVec.ofNat 32 (done * 512)).toNat + chunkSize total done * 512 := k
      exact .inr (by omega)
    · have k' : u.cfg.crcBufAddr.toNat ≤ z ∧ z < u.cfg.crcBufAddr.toNat + 4 * u.session.dataWidth.crcWords := k
      rw [h.cfg] at k'
      exact .inl (by unfold inStorage storageSize; omega)
  -- what the failed chunk touches, as a request of its own
  have hfrom : Worked (fun z => readTouched (readOp cmd (cardAddress x (block + BitVec.ofNat 32 done))
      (buffer + BitVec.ofNat 32 (done * 512)) (chunkSize total done) 0#32 u) u.cfg z) u u x f (t :: rest) app [] :=
    ⟨rfl, h.session, rfl, rfl, h.failure, h.lanes, rfl, rfl, rfl, h.done, rfl, h.dseq, h.dwaits, h.dma1, rfl, h.cseq, h.cwaits,
      h.dma0, rfl, h.wf, fun _ _ => rfl, h.card, h.app, rfl⟩
  obtain ⟨v, hread, hv, -⟩ := hfrom.readFails (addr := cardAddress x (block + BitVec.ofNat 32 done))
    (buffer := buffer + BitVec.ofNat 32 (done * 512)) (crc := 0#32) (count := chunkSize total done) hbase hplace hc
    (fun z k => k)
  have hv' := h.trans (hv.widen fun z k => ht z (by
    rcases htr z k with k | k
    · exact .inl k
    · exact .inr (by unfold inExtent; omega)))
  obtain ⟨w, hshort, hw, hwm⟩ := hv'.short hb (fun z k => ht z (.inr k)) hd
  refine ⟨w, ?_, ?_, ?_⟩
  · rw [Machine.readLoop, if_neg (by omega)]
    have hchunk : readChunk block buffer total done u = .done false v := by
      unfold readChunk
      rw [hcs1, h.session]
      exact hread
    rw [hchunk]
    exact hshort
  · simpa using hw
  · refine hwm.trans (Memory.readBytes_congr ?_)
    intro i hi
    have hbb := hb.1
    have hz : (buffer + BitVec.ofNat 32 i).toNat = buffer.toNat + i := word_add_toNat (by omega)
    refine hv.mem _ fun k => ?_
    rcases htr _ k with k | k
    · exact hdata _ (by unfold inExtent; omega) k
    · omega

/-! ## STORAGE_WRITE -/

/-- The loop of STORAGE_WRITE over blocks that are accepted (R254). -/
theorem Worked.writeLoop {block buffer : Word} {total : Nat} {ps : List WritePlay} (hs : SendBase s)
    (hb : 0 < total → BufferAt s.cfg buffer total) (ht : ∀ z, inHead s.cfg z ↔ touched z) :
    ∀ {u : State} {fuel done : Nat} {app : Bool} {ev : List PinEvent},
      Worked touched s u x f (ps.flatMap WritePlay.turns ++ rest) app ev → done + ps.length ≤ total → total - done ≤ fuel →
      (∀ p ∈ ps, Passes p.r) →
      ∃ v fuel', Machine.writeLoop block buffer total fuel done u = Machine.writeLoop block buffer total fuel' (done + ps.length) v ∧
        total - (done + ps.length) ≤ fuel' ∧ v.dma1 = u.dma1 ∧
        Worked touched s v x f rest (if ps = [] then app else false)
          (writeEvents x block done ((List.range' done ps.length).map fun k => s.mem.readBytes (buffer + BitVec.ofNat 32 (512 * k)) 512)
            ++ ev) := by
  induction ps with
  | nil =>
    intro u fuel done app ev h hd hf hg
    exact ⟨u, fuel, rfl, by simpa using hf, rfl, h⟩
  | cons p ps ih =>
    intro u fuel done app ev h hd hf hg
    rw [List.length_cons] at hd
    obtain ⟨fuel, rfl⟩ : ∃ k, fuel = k + 1 := ⟨fuel - 1, by omega⟩
    obtain ⟨hb1, hb2⟩ := hb (by omega)
    have haddr : (buffer + BitVec.ofNat 32 (done * 512)).toNat = buffer.toNat + done * 512 := word_add_toNat (by omega)
    rw [List.flatMap_cons, List.append_assoc] at h
    obtain ⟨u', hwrite, hu', hd1, -⟩ := h.writes (addr := cardAddress x (block + BitVec.ofNat 32 done))
      (buffer := buffer + BitVec.ofNat 32 (done * 512)) hs (fun z k => (ht z).1 k) (hg p (by simp)) (by omega) (by omega)
    have hdata : u.mem.readBytes (buffer + BitVec.ofNat 32 (done * 512)) 512 =
        s.mem.readBytes (buffer + BitVec.ofNat 32 (512 * done)) 512 := by
      rw [Nat.mul_comm done 512] at *
      apply Memory.readBytes_congr
      intro i hi
      refine h.mem _ fun k => ?_
      have := (ht _).2 k
      unfold inHead at this
      rw [word_add_toNat (by omega)] at this
      omega
    obtain ⟨v, fuel', hloop, hf', hvd, hv⟩ := ih (fuel := fuel) (done := done + 1) hu' (by omega) (by omega)
      (fun q hq => hg q (by simp [hq]))
    refine ⟨v, fuel', ?_, ?_, hvd.trans hd1, ?_⟩
    · rw [Machine.writeLoop, if_neg (by omega), h.session, hwrite]
      simp only [Run.andThen, if_true]
      rw [hloop, List.length_cons, show done + 1 + ps.length = done + (ps.length + 1) by omega]
    · rw [List.length_cons]; omega
    · rw [if_neg (by simp)]
      have : (if ps = [] then false else false) = false := by split <;> rfl
      rw [this, hdata] at hv
      rw [List.length_cons, List.range'_succ, List.map_cons, writeEvents, List.append_assoc]
      simpa only [List.append_assoc] using hv

theorem writeLoop_end {block buffer : Word} {total fuel : Nat} :
    Machine.writeLoop block buffer total fuel total u = .done (byteCount total) u := by
  cases fuel with
  | zero => rfl
  | succ n => rw [Machine.writeLoop, if_pos (Nat.le_refl _)]

/-- The loop ends at a block whose command fails (R255). -/
theorem Worked.writeLoopFails {block buffer : Word} {total fuel done : Nat} {t : Turn} {c : Cause}
    (h : Worked touched s u x f (t :: rest) app ev) (hs : SendBase s) (ht : ∀ z, inHead s.cfg z → touched z)
    (hd : done < total) (hf : 0 < fuel) (hc : Fails t c) :
    ∃ v, Machine.writeLoop block buffer total fuel done u = .done (byteCount done) v ∧
      Worked touched s v x (some c) rest false (frameEvents 24#6 (cardAddress x (block + BitVec.ofNat 32 done)) ++ ev) ∧
      v.dma1 = u.dma1 := by
  obtain ⟨fuel, rfl⟩ : ∃ k, fuel = k + 1 := ⟨fuel - 1, by omega⟩
  obtain ⟨v, hw, hv, hvd⟩ := h.writeFails (addr := cardAddress x (block + BitVec.ofNat 32 done))
    (buffer := buffer + BitVec.ofNat 32 (done * 512)) hs ht hc
  refine ⟨v, ?_, hv, hvd⟩
  rw [Machine.writeLoop, if_neg (by omega), h.session, hw]
  rfl

end Sys2Proof.Machine
end

