-- ==== Sys2Proof/Laws/Quiet.lean ====
section
/-! SUPPORT. Where an operation can stand between two steps (spec/60_exceptions.md R286, spec/70_reset_and_hazards.md R312):
returned with everything at rest, or in one of the waits that have no bound. One lemma per operation. -/

namespace Sys2Proof.Machine

/-! ## Everything at rest -/

/-- The engine between two of its commands, with configuration `c`. -/
structure State.Calm (c : Config) (s : State) : Prop where
  rested : s.Rested
  clock  : s.kseq.running = true
  cfg    : s.cfg = c
  mem    : s.mem.wf = true
  lanes  : s.lanes = s.session.dataWidth
  done   : s.done = false

variable {c : Config} {s t : State} {o : ReadOp} {fed : Nat}

theorem State.Rested.of_same {s t : State} (h : s.Rested) (h1 : t.cseq = s.cseq) (h2 : t.dseq = s.dseq) (h3 : t.dma0 = s.dma0)
    (h4 : t.dma1 = s.dma1) : t.Rested :=
  ⟨h1 ▸ h.cseq, h1 ▸ h.cwaits, h2 ▸ h.dseq, h2 ▸ h.dwaits, h3 ▸ h.dma0, h4 ▸ h.dma1⟩

namespace State.Calm

theorem setPhase (h : s.Calm c) (p : Phase) : (s.setPhase p).Calm c :=
  ⟨h.rested.of_same rfl rfl rfl rfl, h.clock, h.cfg, h.mem, h.lanes, h.done⟩

theorem raise (h : s.Calm c) (x : Cause) : (s.raise x).Calm c :=
  ⟨h.rested.of_same rfl rfl rfl rfl, h.clock, h.cfg, h.mem, h.lanes, h.done⟩

theorem setCard (h : s.Calm c) (ts : List Turn) : ({ s with card := ts } : State).Calm c :=
  ⟨h.rested.of_same rfl rfl rfl rfl, h.clock, h.cfg, h.mem, h.lanes, h.done⟩

theorem setMem (h : s.Calm c) {m : Memory} (hm : m.wf = true) : (s.setMem m).Calm c :=
  ⟨h.rested.of_same rfl rfl rfl rfl, h.clock, h.cfg, hm, h.lanes, h.done⟩

theorem setSession (h : s.Calm c) {x : Session} (hx : x.dataWidth = s.session.dataWidth) :
    ({ s with session := x } : State).Calm c :=
  ⟨h.rested.of_same rfl rfl rfl rfl, h.clock, h.cfg, h.mem, h.lanes.trans hx.symm, h.done⟩

theorem setWidth (h : s.Calm c) (w : Width) : (s.setWidth w).Calm c :=
  ⟨h.rested.of_same rfl rfl rfl rfl, h.clock, h.cfg, h.mem, rfl, h.done⟩

theorem setCrc (h : s.Calm c) (a : BitVec 8) (b : BitVec 16) : ({ s with crc7Reg := a, crc16Reg := b } : State).Calm c :=
  ⟨h.rested.of_same rfl rfl rfl rfl, h.clock, h.cfg, h.mem, h.lanes, h.done⟩

theorem setFree (h : s.Calm c) (f : List Word) (k : Nat) : ({ s with free := f, freeCount := k } : State).Calm c :=
  ⟨h.rested.of_same rfl rfl rfl rfl, h.clock, h.cfg, h.mem, h.lanes, h.done⟩

theorem drawn (h : s.Calm c) : s.drawn.Calm c := by
  rw [drawn_eq]; exact h.setFree _ _

theorem scramble (h : s.Calm c) (a : Word) (n : Nat) : (s.scramble a n).Calm c := by
  obtain ⟨ws, f, k, -, e⟩ := scramble_spec s a n
  rw [e]
  exact (h.setMem (Memory.wf_writeWords h.mem a ws)).setFree f k

/-- The terms of Laws/Request for a state at rest. -/
theorem base (hc : c.wf) (h : s.Calm c) : SendBase s :=
  ⟨h.rested.dseq, h.rested.dwaits, h.rested.dma1, h.clock, by rw [h.cfg]; exact hc⟩

theorem start (h : s.Calm c) : Sent (fun _ => True) s s s.session s.lastFailure s.card s.appPrefix [] :=
  ⟨rfl, rfl, rfl, rfl, rfl, h.lanes, rfl, rfl, rfl, h.done, rfl, rfl, rfl, rfl, h.rested.cseq, h.rested.cwaits, h.rested.dma0, rfl,
    h.mem, fun _ _ => rfl, rfl, rfl, rfl⟩

/-- What a command leaves is at rest again. -/
theorem of_sent {touched : Nat → Prop} {x : Session} {f : Option Cause} {rest : List Turn} {a : Bool} {ev : List PinEvent}
    (h : s.Calm c) (k : Sent touched s t x f rest a ev) : t.Calm c :=
  ⟨⟨k.cseq, k.cwaits, k.dseq ▸ h.rested.dseq, k.dseq ▸ h.rested.dwaits, k.dma0, k.dma1 ▸ h.rested.dma1⟩, k.kseq ▸ h.clock,
    k.cfg.trans h.cfg, k.wf, k.lanes.trans (by rw [k.session]), k.done⟩

/-- SD_COMMAND with a response, whatever the card does. -/
theorem command (hc : c.wf) (h : s.Calm c) {cmd : BitVec 6} {param dst : Word} {res : ResSize} (hr : res ≠ .none)
    (ha : dst.toNat + 4 * res.words ≤ 2 ^ 32) : (sdCommand cmd param res dst s).2.Calm c := by
  obtain ⟨b, v, e, k⟩ := h.start.any (cmd := cmd) (param := param) (h.base hc) (fun _ _ => trivial) hr ha
  rw [e]
  exact h.of_sent k

theorem commandNone (hc : c.wf) (h : s.Calm c) (cmd : BitVec 6) (param dst : Word) : (sdCommand cmd param .none dst s).2.Calm c := by
  obtain ⟨v, e, -, k⟩ := h.start.noResponse (cmd := cmd) (param := param) (h.base hc) (fun _ _ => trivial) dst
  rw [e]
  exact h.of_sent k

theorem own (hc : c.wf) (h : s.Calm c) (cmd : BitVec 6) (param : Word) : (ownCommand cmd param s).2.Calm c := by
  have hs := storageAt_of_wf hc
  refine h.command hc (by decide) ?_
  rw [h.cfg, hs.resp]
  have := hs.fits
  show _ + 4 * 2 ≤ _
  omega

theorem long (hc : c.wf) (h : s.Calm c) (cmd : BitVec 6) (param : Word) : (sdCommand cmd param .long s.cfg.respAddr s).2.Calm c := by
  have hs := storageAt_of_wf hc
  refine h.command hc (by decide) ?_
  rw [h.cfg, hs.resp]
  have := hs.fits
  show _ + 4 * 5 ≤ _
  omega

theorem checked (hc : c.wf) (h : s.Calm c) (cmd : BitVec 6) (param : Word) : (checkedCommand cmd param s).2.Calm c := by
  have k := h.own hc cmd param
  unfold checkedCommand
  generalize ownCommand cmd param s = r at k ⊢
  obtain ⟨ok, v⟩ := r
  simp only
  split
  · split
    · exact k
    · exact k.raise _
  · exact k

/-! ## The operations that end by themselves -/

theorem goIdle (hc : c.wf) (h : s.Calm c) : (Machine.goIdle s).2.Calm c := h.commandNone hc _ _ _

theorem allSendCid (hc : c.wf) (h : s.Calm c) : (Machine.allSendCid s).2.Calm c := h.long hc _ _

theorem sendRelativeAddr (hc : c.wf) (h : s.Calm c) : (Machine.sendRelativeAddr s).2.Calm c := by
  have k := h.own hc 3#6 0#32
  unfold Machine.sendRelativeAddr
  generalize ownCommand 3#6 0#32 s = r at k ⊢
  obtain ⟨ok, v⟩ := r
  simp only
  split
  · exact k.setSession rfl
  · exact k

theorem setBusWidth (hc : c.wf) (h : s.Calm c) (wide : Bool) : (Machine.setBusWidth wide s).2.Calm c := by
  have k := h.checked hc 6#6 (widthArg wide)
  unfold Machine.setBusWidth
  generalize checkedCommand 6#6 (widthArg wide) s = r at k ⊢
  obtain ⟨ok, v⟩ := r
  simp only
  split
  · exact k.setWidth _
  · exact k

theorem sendIfCond (hc : c.wf) (h : s.Calm c) : (Machine.sendIfCond s).2.Calm c := by
  have k := h.own hc 8#6 ifCondPattern
  unfold Machine.sendIfCond
  generalize ownCommand 8#6 ifCondPattern s = r at k ⊢
  obtain ⟨ok, v⟩ := r
  simp only
  split
  · split
    · exact k
    · exact k.raise _
  · exact k

theorem sendOpCond (hc : c.wf) (h : s.Calm c) (arg : Word) : (Machine.sendOpCond arg s).2.Calm c := by
  have k := h.own hc 41#6 arg
  unfold Machine.sendOpCond
  generalize ownCommand 41#6 arg s = r at k ⊢
  obtain ⟨ok, v⟩ := r
  simp only
  split
  · split
    · exact k.setSession rfl
    · exact k
  · exact k

theorem appCmd (hc : c.wf) (h : s.Calm c) (rca : BitVec 16) : (Machine.appCmd rca s).2.Calm c := h.checked hc _ _

theorem setWidthOp (hc : c.wf) (h : s.Calm c) (w : Width) : (Machine.setWidthOp w s).Calm c := by
  have k := h.appCmd hc s.session.cardRca
  unfold Machine.setWidthOp
  generalize Machine.appCmd s.session.cardRca s = r at k ⊢
  obtain ⟨ok, v⟩ := r
  simp only
  split
  · exact h
  · split
    · exact k.setBusWidth hc _
    · exact k

theorem busyEnded (h : s.Calm c) (ok high : Bool) : (Machine.busyEnded ok high s).2.Calm c := by
  unfold Machine.busyEnded
  split
  · split
    · exact h
    · exact h.raise _
  · exact h

theorem readLost (h : s.Calm c) (o : ReadOp) : (Machine.readLost o s).Calm c := (h.scramble _ _).scramble _ _

theorem readEnd (h : s.Calm c) (o : ReadOp) (ok : Bool) : (Machine.readEnd o ok s).2.Calm c := by
  unfold Machine.readEnd
  split
  · exact (h.readLost o).raise _
  · split
    · exact (h.readLost o).raise _
    · exact h

theorem readStopped (h : s.Calm c) (o : ReadOp) (ok high : Bool) : (Machine.readStopped o ok high s).2.Calm c := by
  unfold Machine.readStopped
  split
  · exact h.readEnd o ok
  · exact h.readLost o

end State.Calm

/-! ## Operations that may wait -/

/-- An operation has returned with everything at rest, waits in one of the waits without a bound, or is refused. -/
inductive Run.Settles {α : Type} (c : Config) : Run α → Prop where
  | done {a : α} {t : State} (h : t.Calm c) : Run.Settles c (.done a t)
  | waiting {fs : List Frame} {t : State} (hf : fs ≠ []) (hk : t.kseq.running = true) (hc : t.cfg = c) (hw : t.WaitsAt fs)
      (hp : ∀ f ∈ fs, f.Placed c) : Run.Settles c (.waiting fs t)
  | refused {r : Refusal} : Run.Settles c (.refused r)

variable {α β : Type}

/-- What a waiting engine looks like depends on the innermost frame only, and on no register of the engine. -/
theorem State.WaitsAt.of_same {s t : State} {fs : List Frame} (h : s.WaitsAt fs) (h1 : t.cseq = s.cseq) (h2 : t.dseq = s.dseq)
    (h3 : t.dma0 = s.dma0) (h4 : t.dma1 = s.dma1) (h5 : t.cfg = s.cfg) (h6 : t.mem = s.mem) (h7 : t.lanes = s.lanes) :
    t.WaitsAt fs := by
  have rest : s.Rested → t.Rested := fun k => k.of_same h1 h2 h3 h4
  match fs, h with
  | [], h => exact rest h
  | .polling :: _, h =>
    exact ⟨h1 ▸ h.1, h.2.of_same (by show { t.cseq with owner := Owner.seq } = _; rw [h1]; rfl) h2 h3 h4⟩
  | .readData o fed :: _, h =>
    obtain ⟨a, b, d⟩ := h
    refine ⟨h1 ▸ a, h1 ▸ b, ⟨d.count, h7.trans d.width, h5 ▸ d.apart, ?_, h3 ▸ d.dma, h2 ▸ d.dseq, ?_⟩⟩
    · rw [h5, h6]; exact d.table
    · rw [h2]; exact d.owed.congr h3 h4 h5
  | .busyOp :: _, h => exact rest h
  | .wireBusy _ :: _, h => exact rest h
  | .readStop _ _ :: _, h => exact rest h
  | .writeWait :: _, h => exact rest h
  | .initPoll :: _, h => exact rest h
  | .initSelect :: _, h => exact rest h
  | .initSwitch :: _, h => exact rest h
  | .switchRead :: _, h => exact rest h
  | .storageRead _ _ _ _ _ :: _, h => exact rest h
  | .storageWrite _ _ _ _ :: _, h => exact rest h

theorem State.WaitsAt.append {s : State} {fs : List Frame} (h : s.WaitsAt fs) (hf : fs ≠ []) (k : List Frame) :
    s.WaitsAt (fs ++ k) := by
  cases fs with
  | nil => exact absurd rfl hf
  | cons f fs => cases f <;> exact h

theorem Run.Settles.andThen {r : Run α} {f : Frame} {k : α → State → Run β} (h : r.Settles c) (hf : f.Placed c)
    (hk : ∀ a t, t.Calm c → (k a t).Settles c) : (r.andThen f k).Settles c := by
  cases h with
  | done h => exact hk _ _ h
  | waiting h1 h2 h3 h4 h5 =>
    refine .waiting (waiting_append h1) h2 h3 (h4.append h1 _) ?_
    intro g hg
    rcases List.mem_append.1 hg with hg | hg
    · exact h5 g hg
    · rw [List.mem_singleton.1 hg]; exact hf
  | refused => exact .refused

theorem guardRun_settles {ok : Bool} {r : Refusal} {k : Run α} (h : ok = true → k.Settles c) : (guardRun ok r k).Settles c := by
  cases ok with
  | false => exact .refused
  | true => exact h rfl

theorem bool_settles {r : Run Bool} (h : r.Settles c) : r.bool.Settles c := by
  cases h with
  | done h => exact .done h
  | waiting h1 h2 h3 h4 h5 => exact .waiting h1 h2 h3 h4 h5
  | refused => exact .refused

theorem runStep_settles {f : State → Bool × State} (h : (f s).2.Calm c) : (runStep f s).Settles c := .done h

/-- WAIT_NOT_BUSY, from its beginning or in a wait (R203, R204). -/
theorem waitNotBusy_settles (h : (s.setCseq { s.cseq with owner := .seq }).Calm c) (label : Phase) :
    (waitNotBusy label s).Settles c := by
  unfold waitNotBusy
  simp only [cardStep_fst, cardStep_snd]
  split
  · exact .done ⟨h.rested.of_same rfl rfl rfl rfl, h.clock, h.cfg, h.mem, h.lanes, h.done⟩
  · exact .done ⟨h.rested.of_same rfl rfl rfl rfl, h.clock, h.cfg, h.mem, h.lanes, h.done⟩
  · refine .waiting (List.cons_ne_nil _ _) h.clock h.cfg ⟨rfl, h.rested.of_same rfl rfl rfl rfl⟩ ?_
    intro f hf
    rw [List.mem_singleton.1 hf]
    trivial

theorem State.Calm.owned (h : s.Calm c) : (s.setCseq { s.cseq with owner := .seq }).Calm c := by
  have : ({ s.cseq with owner := .seq } : Seq) = s.cseq := by rw [← h.rested.cseq.owner]
  rw [this]
  exact h

/-- RD_STOP (R218). -/
theorem rdStop_settles (hc : c.wf) (h : s.Calm c) (o : ReadOp) : (rdStop o s).Settles c := by
  have k := (h.setPhase .rdStop).own hc 12#6 0#32
  unfold rdStop
  simp only
  split
  · generalize ownCommand 12#6 0#32 (s.setPhase .rdStop) = r at k ⊢
    obtain ⟨ok, v⟩ := r
    simp only
    split
    · exact (waitNotBusy_settles k.owned _).andThen trivial fun _ t ht => .done (ht.readStopped _ _ _)
    · exact .done (State.Calm.readLost k o)
  · exact .done ((h.setPhase _).readEnd _ _)

/-! ## READ_BLOCK -/

theorem forceWait_quiet {q : Seq} (hm : q.mode ≠ .unprogrammed) (ht : q.txf = []) (hr : q.rxf = []) (ho : q.owner = .seq) :
    q.forceWait.Quiet ∧ q.forceWait.mode = .wait := by
  unfold Seq.forceWait
  rw [if_neg hm]
  exact ⟨⟨.inl rfl, rfl, ht, hr, rfl, ho⟩, rfl⟩

theorem Seq.Receives.programmed {q : Seq} (h : q.Receives o) : q.mode ≠ .unprogrammed := by
  rcases h.mode with h | ⟨h, -⟩ | h <;> rw [h] <;> decide

/-- The cleanup of a failed read (R219) ends at rest, from any point of the data phase. -/
theorem readFail_calm (hq : s.cseq.Quiet) (hw : s.cseq.mode = .wait) (hk : s.kseq.running = true) (hc : s.cfg = c)
    (hm : s.mem.wf = true) (hl : s.lanes = s.session.dataWidth) (hd : s.done = false) (hr : s.dseq.Receives o) (o' : ReadOp)
    (x : Cause) : (readFail o' x s).Calm c := by
  obtain ⟨ws, cs, fr, fc, -, -, e⟩ := readFail_spec o' x s
  obtain ⟨q1, q2⟩ := forceWait_quiet (q := s.dseq.clearRx) hr.programmed hr.txf rfl hr.owner
  rw [e]
  exact ⟨⟨hq, hw, q1, q2, rfl, rfl⟩, hk, hc, Memory.wf_writeWords (Memory.wf_writeWords hm _ _) _ _, hl, hd⟩

theorem Streaming.fails (h : Streaming c o fed s) (x : Cause) : (readFail o x s).Calm c :=
  readFail_calm h.cseq h.cwaits h.clock h.cfg h.mem h.lanes h.done h.data.dseq o x

theorem Streaming.ends (h : Streaming c o fed s) (hi : s.dmaIdle = true) : (s.setDseq s.dseq.forceWait).Calm c := by
  obtain ⟨h1, h2, h3, h4⟩ := h.over hi
  obtain ⟨q1, q2⟩ := forceWait_quiet h.data.dseq.programmed h.data.dseq.txf h1 h.data.dseq.owner
  exact ⟨⟨h.cseq, h.cwaits, q1, q2, h3, h4⟩, h.clock, h.cfg, h.mem, h.lanes, h.done⟩

/-- The data phase (R215, R217). -/
theorem readData_settles (hc : c.wf) (ts : List Turn) (h : Streaming c o fed s) : (readData o ts fed s).Settles c := by
  have placed : ∀ (fed : Nat), ∀ f ∈ [Frame.readData o fed], f.Placed c := by
    intro fed f hf; rw [List.mem_singleton.1 hf]; trivial
  induction ts generalizing fed s with
  | nil =>
    have k := h.awaitBlocks (List.replicate o.bits Tick.quiet)
    rw [readData]
    generalize awaitBlocks o (List.replicate o.bits Tick.quiet) fed s = r at k ⊢
    obtain ⟨ok, fed', v⟩ := r
    simp only at k ⊢
    split
    · rename_i hok
      exact rdStop_settles hc (k.1.ends (k.2 hok)) o
    · split
      · exact .done (k.1.fails _)
      · exact .waiting (List.cons_ne_nil _ _) k.1.clock k.1.cfg ⟨k.1.cseq, k.1.cwaits, k.1.data⟩ (placed _)
  | cons t ts ih =>
    rw [readData]
    simp only
    generalize (if s.cfg.readDataBounded = true then t.waitTicks o.bits else t.ticks) = ticks
    have k := (h.setCard ts).awaitBlocks ticks
    generalize awaitBlocks o ticks fed { s with card := ts } = r at k ⊢
    obtain ⟨ok, fed', v⟩ := r
    simp only at k ⊢
    split
    · rename_i hok
      exact rdStop_settles hc (k.1.ends (k.2 (Bool.and_eq_true_iff.1 hok).1)) o
    · split
      · exact .done (k.1.fails _)
      · exact ih k.1

/-- SD_COMMAND while DSEQ is at work (R212): the rest of the block comes to rest, and DSEQ keeps what its own steps keep. -/
theorem State.Calm.commandBeside {P : Seq → Prop} {q : Seq} (hc : c.wf) (h : s.Calm c) (hP : DseqAlone P s.lanes) (hq : P q)
    (cmd : BitVec 6) (param : Word) :
    ∃ (ok : Bool) (v : State) (q' : Seq), ownCommand cmd param (s.setDseq q) = (ok, v.setDseq q') ∧ v.Calm c ∧ P q' ∧
      v.session = s.session ∧ v.card = s.card.tail ∧ ∀ x, ¬ inHead c x → v.mem.read x = s.mem.read x := by
  have hs := storageAt_of_wf hc
  have hfit := hs.fits
  have hx : s.cfg.respAddr = c.respAddr := by rw [h.cfg]
  obtain ⟨q', f, k, hq', e⟩ := sdCommand_beside (cmd := cmd) (param := param) (dst := s.cfg.respAddr) (res := .short) hP hq
    ⟨h.clock, h.rested.cwaits, h.rested.cseq.armed, h.rested.cseq.txf, h.rested.cseq.rxf, by rw [h.cfg]; exact hc.2.1,
      h.rested.dma0⟩ h.rested.dwaits (by decide)
  have h' := h.setFree f k
  have ht : ∀ y, inExtent s.cfg.frameAddr 6 y ∨ inExtent s.cfg.respAddr (4 * ResSize.short.words) y → inHead c y := by
    intro y hy
    rw [h.cfg] at hy
    unfold inExtent at hy
    rw [hs.frame, hs.resp] at hy
    unfold inHead
    simp only [ResSize.words] at hy
    omega
  obtain ⟨ok, v, e', hv⟩ := Sent.any (touched := inHead c) (cmd := cmd) (param := param) (res := .short) (dst := s.cfg.respAddr)
    (⟨rfl, rfl, rfl, rfl, rfl, h'.lanes, rfl, rfl, rfl, h'.done, rfl, rfl, rfl, rfl, h'.rested.cseq, h'.rested.cwaits,
      h'.rested.dma0, rfl, h'.mem, fun _ _ => rfl, rfl, rfl, rfl⟩ :
      Sent (inHead c) { s with free := f, freeCount := k } { s with free := f, freeCount := k } s.session s.lastFailure s.card
        s.appPrefix [])
    (h'.base hc) ht (by decide) (by rw [hx, hs.resp]; show _ + 4 * 2 ≤ _; omega)
  refine ⟨ok, v, q', ?_, h'.of_sent hv, hq', hv.session, hv.card, hv.mem⟩
  show sdCommand cmd param .short s.cfg.respAddr (s.setDseq q) = _
  rw [e, e']

/-- The table is read from its own bytes. -/
theorem TableAt.of_read {table : Word} {m m' : Memory} (h : TableAt o table m) (ht : table.toNat + (16 * o.count + 8) ≤ 2 ^ 32)
    (hr : ∀ x, table.toNat ≤ x → x < table.toNat + (16 * o.count + 8) → m'.read x = m.read x) : TableAt o table m' := by
  have r : ∀ k, k + 4 ≤ 16 * o.count + 8 →
      m'.readWord (table + BitVec.ofNat 32 k) = m.readWord (table + BitVec.ofNat 32 k) := by
    intro k hk
    refine Memory.readWord_congr (Memory.readBytes_congr fun i hi => hr _ ?_ ?_) <;>
      (rw [word_add_assoc, word_add_toNat (by omega)]; omega)
  constructor
  · intro j hj; rw [r _ (by omega)]; exact h.dst j hj
  · intro j hj; rw [r _ (by omega)]; exact h.words j hj
  · intro j hj; rw [r _ (by omega)]; exact h.crcDst j hj
  · intro j hj; rw [r _ (by omega)]; exact h.crcWords j hj
  · rw [r _ (by omega)]; exact h.last

/-- RD_STREAM starts the chain, and DMA0 takes the words that came early (R215). -/
theorem rdStream_chain {b : State} (hcount : 1 ≤ o.count) (ht : TableAt o b.cfg.tableAddr b.mem) :
    rdStream o b = readData o b.card 0 (dmaRun (chainState o b)) := by
  obtain ⟨p1, p2, -⟩ := o.dataWords_le
  have h0 := ht.dst 0 (by omega)
  have h1 := ht.words 0 (by omega)
  simp only [Nat.mul_zero, Nat.zero_add] at h0 h1
  have hz : b.cfg.tableAddr + BitVec.ofNat 32 0 = b.cfg.tableAddr := BitVec.add_zero _
  rw [hz] at h0
  have hnz : BitVec.ofNat 32 o.dataWords ≠ 0#32 := fun e => by rw [ofNat_eq_zero (by omega)] at e; omega
  have hstart : dma1Start b.cfg.tableAddr ((b.drawn.setPhase .rdStream).setDma0
      (b.dma0.config .dseqRxf (.mem b.drawValue) 0#32 false true true .dseqRx .dma1)) = chainState o b := by
    rw [drawn_eq, dma1Start]
    refine (dma1Trigger_pair (d := o.bufferAt 0) (c := BitVec.ofNat 32 o.dataWords) ?_ ?_ rfl).trans ?_
    · exact h0
    · exact h1
    · rw [decide_eq_true hnz]; rfl
  unfold rdStream
  simp only [State.setPhase_dma0, State.drawn_dma0, State.setDma0_cfg, State.setPhase_cfg, State.drawn_cfg]
  rw [hstart]
  rw [(dmaRun_same _).card]
  rfl

theorem huntingDseq_delivers {q : Seq} (h : q.Quiet) : Delivers o o.words (huntingDseq o q) := by
  refine ⟨⟨.inr (.inl ⟨rfl, rfl, rfl⟩), .inl h.armed, ⟨Nat.dvd_zero _, o.lines_bits, Nat.zero_le _⟩, h.txf, h.owner⟩, ?_⟩
  unfold Seq.wordsToCome huntingDseq
  simp only [h.rxf, h.armed, List.length_nil]
  omega

/-- READ_BLOCK with its operands in their places (R210). -/
theorem readBlock_settles (hc : c.wf) (h : s.Calm c) {cmd : BitVec 6} {addr buffer crc : Word} {count : Nat}
    (hp : count ≤ 32 → ReadPlace (readOp cmd addr buffer count crc s) c) :
    (readBlock cmd addr buffer count crc s).Settles c := by
  by_cases hn : 32 < count
  · unfold readBlock
    simp only
    rw [if_pos (show sdMaxReadBlocks < count from hn)]
    exact .done ((h.setPhase _).raise _)
  replace hp := hp (by omega)
  have hs := storageAt_of_wf hc
  have hready : ReadReady (readOp cmd addr buffer count crc s) s :=
    ⟨⟨h.clock, h.rested.cwaits, h.rested.cseq.armed, h.rested.cseq.txf, h.rested.cseq.rxf, by rw [h.cfg]; exact hc.2.1,
      h.rested.dma0⟩, h.mem, by rw [h.cfg]; exact hc, h.rested.dwaits, h.rested.dseq.armed, h.rested.dseq.txf, h.rested.dseq.rxf,
      h.lanes, hp.count, by rw [h.cfg]; exact hp.apart, by rw [h.cfg]; exact hp.bufHead, by rw [h.cfg]; exact hp.crcHead⟩
  generalize ho : readOp cmd addr buffer count crc s = o at *
  have how : o.width = s.session.dataWidth := by rw [← ho]; rfl
  -- the command, with DSEQ hunting
  let b : State := ((s.setPhase .rdCmd).setMem (tableMem o s)).drawn
  have hb : b.Calm c := ((h.setPhase _).setMem (tableMem_wf hready)).drawn
  have harm : armedState o s = b.setDseq (huntingDseq o s.dseq) := by
    show _ = State.setDseq (State.drawn _) _
    rw [drawn_eq]
    unfold armedState
    have e1 : ((s.setPhase .rdCmd).setMem (tableMem o s)).drawn.free = s.drawn.free := by
      unfold State.drawn; cases hf : s.free <;> simp [State.setPhase, State.setMem, hf]
    have e2 : ((s.setPhase .rdCmd).setMem (tableMem o s)).drawn.freeCount = s.drawn.freeCount := by
      unfold State.drawn; cases hf : s.free <;> simp [State.setPhase, State.setMem, hf]
    rw [e1, e2]; rfl
  have hbl : b.lanes = o.width := by
    show State.lanes (State.drawn _) = _
    rw [State.drawn_lanes]; exact h.lanes.trans how.symm
  have hbm : b.mem = tableMem o s := by show State.mem (State.drawn _) = _; rw [State.drawn_mem]; rfl
  obtain ⟨ok, v, q', e, hv, hq', hses, -, hmem⟩ := hb.commandBeside hc (hbl ▸ delivers_alone o o.words)
    (huntingDseq_delivers h.rested.dseq) cmd addr
  have heq := readBlock_eq (cmd := cmd) (addr := addr) (buffer := buffer) (crc := crc) (count := count) (u := s) (by omega)
    (by rw [ho]; exact hready) (ok := ok) (b := v.setDseq q') (by rw [ho, harm]; exact e)
  rw [ho] at heq
  rw [heq]
  have fails : ∀ x, (readFail o x (v.setDseq q')).Calm c := fun x =>
    readFail_calm (s := v.setDseq q') hv.rested.cseq hv.rested.cwaits hv.clock hv.cfg hv.mem hv.lanes hv.done hq'.receives o x
  split
  · split
    · -- the chain
      have ht : TableAt o c.tableAddr v.mem := by
        have h0 : TableAt o c.tableAddr b.mem := by
          rw [hbm]
          unfold tableMem
          rw [h.cfg]
          exact rdTable_tableAt h.mem _ hp.apart.tableIn
        refine h0.of_read hp.apart.tableIn fun x h1 _ => hmem x ?_
        unfold inHead
        rw [hs.table] at h1
        omega
      have hstream : Streaming c o 0 (chainState o (v.setDseq q')) := by
        obtain ⟨p1, p2, -⟩ := o.dataWords_le
        have hcount := hp.count.1
        refine ⟨hv.rested.cseq, hv.rested.cwaits, hv.clock, hv.cfg, hv.mem, hv.lanes, hv.done, ⟨hcount, ?_, ?_, ?_, rfl, hq'.receives, ?_⟩⟩
        · exact hv.lanes.trans (by rw [hses]; exact hb.lanes.symm.trans hbl)
        · show ReadApart o v.cfg.tableAddr; rw [hv.cfg]; exact hp.apart
        · show TableAt o v.cfg.tableAddr v.mem; rw [hv.cfg]; exact ht
        · show ChainAt o _ (q'.wordsToCome o + (o.count - 1 - 0) * o.words)
          rw [hq'.words]
          refine .data 0 o.dataWords hcount p1 (Nat.le_refl _) rfl rfl rfl ?_ rfl
          show DmaEnd.mem _ = _
          rw [Nat.sub_self, Nat.mul_zero]; congr 1; exact (BitVec.add_zero _).symm
      rw [rdStream_chain hp.count.1 (b := v.setDseq q') (by show TableAt o v.cfg.tableAddr v.mem; rw [hv.cfg]; exact ht)]
      exact readData_settles hc _ hstream.dmaRun
    · exact .done (fails _)
  · exact .done (fails _)

/-! ## WRITE_BLOCK -/

/-- WRITE_BLOCK (R220), from any buffer. -/
theorem writeBlock_settles (hc : c.wf) (h : s.Calm c) (addr buffer : Word) : (writeBlock addr buffer s).Settles c := by
  obtain ⟨c₁₆, hcr⟩ : ∃ x, crc16 (s.mem.readBytes buffer blockLenBytes) = x := ⟨_, rfl⟩
  let b : State := { s with phase := .wrCmd, crc16Reg := c₁₆ }
  have hb : b.Calm c := ⟨h.rested.of_same rfl rfl rfl rfl, h.clock, h.cfg, h.mem, h.lanes, h.done⟩
  have hq₀ : s.dseq.arm (.send writeStreamBits) = { s.dseq with armed := [.send writeStreamBits] } := by
    unfold Seq.arm Seq.armRoom
    rw [h.rested.dseq.armed, if_pos h.rested.dwaits]; rfl
  generalize hqa : s.dseq.arm (.send writeStreamBits) = q₀ at hq₀
  have hm : q₀.mode = .wait := by rw [hq₀]; exact h.rested.dwaits
  have harm : q₀.armed = [.send writeStreamBits] := by rw [hq₀]
  have htx : q₀.txf = [] := by rw [hq₀]; exact h.rested.dseq.txf
  have hrx : q₀.rxf = [] := by rw [hq₀]; exact h.rested.dseq.rxf
  obtain ⟨ok, v, q', e, hv, hq', -, -, -⟩ := hb.commandBeside hc (waits_alone q₀ hm b.lanes) (q := q₀) rfl 24#6 addr
  rw [hq'] at e
  have fails : ∀ x : Option Cause, (writeCleanup { v.setDseq q₀ with lastFailure := x }).Calm c := by
    intro x
    have hp : q₀.mode ≠ .unprogrammed := by rw [hm]; decide
    refine ⟨⟨hv.rested.cseq, hv.rested.cwaits, ?_, ?_, hv.rested.dma0, hv.rested.dma1⟩, hv.clock, hv.cfg, hv.mem, hv.lanes, hv.done⟩
    · show (Seq.clearTx (Seq.forceWait q₀)).Quiet
      unfold Seq.forceWait
      rw [if_neg hp, hq₀]
      exact ⟨.inl rfl, rfl, rfl, h.rested.dseq.rxf, rfl, h.rested.dseq.owner⟩
    · show (Seq.forceWait q₀).mode = _
      unfold Seq.forceWait
      rw [if_neg hp]
  have hchk : checkedCommand 24#6 addr { s with
      phase := .wrCmd, crc16Reg := c₁₆, dseq := q₀ } =
      if ok then (if checkAt v v.cfg.respAddr then (true, v.setDseq q₀) else (false, (v.setDseq q₀).raise .statusError))
      else (false, v.setDseq q₀) := by
    have e' : ownCommand 24#6 addr { s with
      phase := .wrCmd, crc16Reg := c₁₆, dseq := q₀ } = (ok, v.setDseq q₀) := e
    unfold checkedCommand
    rw [e']
    rfl
  unfold writeBlock
  simp only [State.setPhase, State.setDseq, hqa, hcr] at hchk ⊢
  rw [hchk]
  cases ok with
  | false => exact .done (fails v.lastFailure)
  | true =>
    simp only [if_true]
    split
    · simp only [if_true]
      obtain ⟨q, d, hq, hd, -, e2⟩ := wrStream_any (v := v.setDseq q₀) (buffer := buffer)
        (c₁₆) hv.clock hv.rested.cwaits
        (by rw [State.setDseq_cfg, hv.cfg]; exact hc.2.1) hm harm htx hrx
      unfold wrWait
      simp only [State.setPhase, State.setDseq] at e2 ⊢
      rw [e2]
      refine (waitNotBusy_settles (State.Calm.owned ?_) _).andThen trivial fun _ _ ht => .done ht
      have ho : q.owner = .seq := by
        rw [hq.owner]; show q₀.owner = _; rw [hq₀]; exact h.rested.dseq.owner
      exact ⟨⟨hv.rested.cseq, hv.rested.cwaits, ⟨.inl hq.mode, hq.armed, hq.txf, hq.rxf, hq.dir, ho⟩, hq.mode, hd, hv.rested.dma1⟩,
        hv.clock, hv.cfg, hv.mem, hv.lanes, hv.done⟩
    · exact .done (fails (some .statusError))

/-! ## The wire commands that may wait, and PARSE_CSD -/

theorem selectCard_settles (hc : c.wf) (h : s.Calm c) (rca : BitVec 16) (label : Phase) {f : Frame} (hf : f.Placed c) :
    (selectCard rca label f s).Settles c := by
  have k := h.checked hc 7#6 (rcaArg rca)
  unfold selectCard
  generalize checkedCommand 7#6 (rcaArg rca) s = r at k ⊢
  obtain ⟨ok, v⟩ := r
  simp only
  split
  · exact (waitNotBusy_settles (State.Calm.owned k) _).andThen hf fun _ _ ht => .done ht
  · exact .done k

theorem stopTransmission_settles (hc : c.wf) (h : s.Calm c) : (stopTransmission s).Settles c := by
  have k := h.own hc 12#6 0#32
  unfold stopTransmission
  generalize ownCommand 12#6 0#32 s = r at k ⊢
  obtain ⟨ok, v⟩ := r
  simp only
  split
  · exact (waitNotBusy_settles (State.Calm.owned k) _).andThen trivial fun _ _ ht => .done (ht.busyEnded _ _)
  · exact .done k

theorem blocksResult_settles (h : s.Calm c) (n : Nat) : (blocksResult n s).Settles c := by
  unfold blocksResult
  split
  · exact .done h
  · exact .done h.drawn

theorem parseCsd_settles (h : s.Calm c) (a : Word) : (parseCsd a s).Settles c := by
  unfold parseCsd
  simp only
  split
  · exact blocksResult_settles h _
  · split
    · exact blocksResult_settles h _
    · exact .refused

theorem sendCsd_settles (hc : c.wf) (h : s.Calm c) (rca : BitVec 16) : (sendCsd rca s).Settles c := by
  have k := h.long hc 9#6 (rcaArg rca)
  unfold sendCsd
  generalize sdCommand 9#6 (rcaArg rca) .long s.cfg.respAddr s = r at k ⊢
  obtain ⟨ok, v⟩ := r
  simp only
  split
  · have hp := parseCsd_settles k v.cfg.respAddr
    generalize parseCsd v.cfg.respAddr v = r at hp ⊢
    cases hp with
    | done h => exact .done (h.setSession rfl)
    | waiting h1 h2 h3 h4 h5 => exact .waiting h1 h2 h3 h4 h5
    | refused => exact .refused
  · exact .done k

theorem switchRead_settles (hc : c.wf) (h : s.Calm c) (arg : Word) : (switchRead arg s).Settles c :=
  readBlock_settles hc h fun _ => by rw [← h.cfg]; exact readPlace_switch (by rw [h.cfg]; exact hc)

/-! ## STORAGE_INIT -/

theorem init12_settles (h : s.Calm c) (hs : Bool) : (init12 hs s).Settles c :=
  .done ⟨h.rested.of_same rfl rfl rfl rfl, h.clock, h.cfg, h.mem, h.lanes, h.done⟩

theorem init11_settles (hc : c.wf) (h : s.Calm c) : (init11 s).Settles c := by
  unfold init11
  exact (switchRead_settles hc (h.setPhase _) _).andThen trivial fun ok _ ht => init12_settles ht _

theorem init10End_settles (hc : c.wf) (h : s.Calm c) (ok : Bool) : (init10End ok s).Settles c := by
  unfold init10End
  split
  · exact init11_settles hc h
  · exact .done h

theorem init10_settles (hc : c.wf) (h : s.Calm c) : (init10 s).Settles c := by
  have k := selectCard_settles hc (h.setPhase .init10) s.session.cardRca .init10 (f := .initSelect) trivial
  unfold init10
  generalize selectCard s.session.cardRca .init10 .initSelect (s.setPhase .init10) = r at k ⊢
  cases k with
  | done h => exact init10End_settles hc h _
  | waiting h1 h2 h3 h4 h5 => exact .waiting h1 h2 h3 h4 h5
  | refused => exact .refused

theorem init9_settles (hc : c.wf) (h : s.Calm c) : (init9 s).Settles c := by
  have k := sendCsd_settles hc (h.setPhase .init9) s.session.cardRca
  unfold init9
  generalize sendCsd s.session.cardRca (s.setPhase .init9) = r at k ⊢
  cases k with
  | done h =>
    simp only
    split
    · exact init10_settles hc h
    · exact .done h
  | waiting h1 h2 h3 h4 h5 => exact .waiting h1 h2 h3 h4 h5
  | refused => exact .refused

theorem init8_settles (hc : c.wf) (h : s.Calm c) : (init8 s).Settles c := by
  have k := (h.setPhase .init8).sendRelativeAddr hc
  unfold init8
  generalize sendRelativeAddr (s.setPhase .init8) = r at k ⊢
  obtain ⟨ok, v⟩ := r
  simp only
  split
  · exact init9_settles hc k
  · exact .done k

theorem init7_settles (hc : c.wf) (h : s.Calm c) : (init7 s).Settles c := by
  have k := (h.setPhase .init7).allSendCid hc
  unfold init7
  generalize allSendCid (s.setPhase .init7) = r at k ⊢
  obtain ⟨ok, v⟩ := r
  simp only
  split
  · exact init8_settles hc k
  · exact .done k

theorem init5Once_calm (hc : c.wf) (h : s.Calm c) : (init5Once s).2.Calm c := by
  have k := (h.setPhase .init5).appCmd hc 0#16
  unfold init5Once
  generalize appCmd 0#16 (s.setPhase .init5) = r at k ⊢
  obtain ⟨ok, v⟩ := r
  simp only
  split
  · exact k.sendOpCond hc _
  · exact k

theorem initPoll_waits (h : s.Calm c) : (Run.waiting [.initPoll] (s.setPhase .init5) : Run OpResult).Settles c := by
  refine .waiting (List.cons_ne_nil _ _) h.clock h.cfg (h.setPhase _).rested ?_
  intro f hf
  rw [List.mem_singleton.1 hf]
  trivial

theorem init5_settles (hc : c.wf) (n : Nat) (h : s.Calm c) : (init5 n s).Settles c := by
  induction n generalizing s with
  | zero => exact initPoll_waits h
  | succ n ih =>
    have k := init5Once_calm hc h
    rw [init5]
    generalize init5Once s = r at k ⊢
    obtain ⟨ready, v⟩ := r
    simp only
    split
    · exact init7_settles hc (k.setPhase _)
    · split
      · split
        · exact .done ((k.setCard _).raise _)
        · exact ih (k.setCard _)
      · split
        · exact initPoll_waits k
        · exact ih k

theorem storageInit_settles (hb : s.Bootable) : (storageInit s.busy).Settles s.cfg := by
  have hc := hb.cfg
  obtain ⟨-, -, -, hk, -, -, h1, h2, h3, h4, h5, h6⟩ := initStart_spec hb
  have hsent := initStart_sent (fun _ => True) hb
  have h : (initStart s).Calm s.cfg := ⟨⟨h1, h2, h3, h4, h5, h6⟩, by rw [hk], initStart_same.1, hsent.wf,
    hsent.lanes.trans (by rw [hsent.session]), hsent.done⟩
  have k3 := (h.setPhase .init3).goIdle hc
  generalize he3 : goIdle ((initStart s).setPhase .init3) = r3 at k3
  obtain ⟨b, u⟩ := r3
  have k4 := (State.Calm.setPhase k3 .init4).sendIfCond hc
  generalize he4 : sendIfCond (u.setPhase .init4) = r4 at k4
  obtain ⟨ok, v⟩ := r4
  rw [storageInit_busy he3 he4]
  split
  · exact init5_settles hc _ k4
  · exact .done k4

/-! ## STORAGE_READ and STORAGE_WRITE -/

theorem readShort_settles (h : s.Calm c) (buffer : Word) (total done : Nat) : (readShort buffer total done s).Settles c :=
  .done (h.scramble _ _)

theorem readLoop_settles (hc : c.wf) (block : Word) {buffer : Word} {total : Nat} (hb : 0 < total → BufferAt c buffer total)
    (fuel : Nat) (done : Nat) (h : s.Calm c) : (readLoop block buffer total fuel done s).Settles c := by
  induction fuel generalizing done s with
  | zero => exact .done h
  | succ fuel ih =>
    rw [readLoop]
    split
    · exact .done h
    · rename_i hlt
      have hlt : done < total := by omega
      have hch : 1 ≤ chunkSize total done ∧ chunkSize total done ≤ 32 ∧ done + chunkSize total done ≤ total := by
        unfold chunkSize sdMaxReadBlocks; omega
      have hbuf := hb (by omega)
      refine (readBlock_settles hc h fun _ => ?_).andThen hbuf fun ok t ht => ?_
      · rw [← h.cfg]
        exact (readPlace_chunk (by rw [h.cfg]; exact hc) (by split <;> decide) (by rw [h.cfg]; exact hbuf) ⟨hch.1, hch.2.1⟩ hch.2.2).1
      · split
        · exact ih _ ht
        · exact readShort_settles ht _ _ _

theorem writeLoop_settles (hc : c.wf) (block buffer : Word) (total fuel : Nat) (done : Nat) (h : s.Calm c) :
    (writeLoop block buffer total fuel done s).Settles c := by
  induction fuel generalizing done s with
  | zero => exact .done h
  | succ fuel ih =>
    rw [writeLoop]
    split
    · exact .done h
    · refine (writeBlock_settles hc h _ _).andThen trivial fun ok t ht => ?_
      split
      · exact ih _ ht
      · exact .done ht

/-! ## Going on after a wait -/

theorem returnTo_settles (hc : c.wf) (k : List Frame) (b : Bool) (h : s.Calm c) (hk : ∀ f ∈ k, f.Placed c) :
    (returnTo k b s).Settles c := by
  induction k generalizing b s with
  | nil => exact .done h
  | cons f k ih =>
    have hk' : ∀ g ∈ k, g.Placed c := fun g hg => hk g (by simp [hg])
    cases f with
    | polling => exact ih _ h hk'
    | busyOp =>
      cases k with
      | nil => exact .done h
      | cons g k => exact .waiting (List.cons_ne_nil _ _) h.clock h.cfg h.rested hk
    | wireBusy ok => exact ih _ (h.busyEnded _ _) hk'
    | readData _ _ => exact ih _ h hk'
    | readStop o st => exact ih _ (h.readStopped _ _ _) hk'
    | writeWait => exact ih _ h hk'
    | initPoll => exact init5_settles hc _ h
    | initSelect => exact init10End_settles hc h _
    | initSwitch => exact init12_settles h _
    | switchRead => exact ih _ h hk'
    | storageRead block buffer total done chunk =>
      rw [returnTo]
      split
      · exact readLoop_settles hc block (fun _ => hk (.storageRead block buffer total done chunk) (by simp)) _ _ h
      · exact readShort_settles h _ _ _
    | storageWrite block buffer total done =>
      rw [returnTo]
      split
      · exact writeLoop_settles hc _ _ _ _ _ h
      · exact .done h

theorem returns_settles (hc : c.wf) {r : Run Bool} {k : List Frame} (hk : ∀ f ∈ k, f.Placed c) : r.Settles c →
    (match r with
    | .done ok s => returnTo k ok s
    | .waiting fs s => .waiting (fs ++ k) s
    | .refused r => .refused r : Run OpResult).Settles c := by
  intro hr
  cases hr with
  | done h => exact returnTo_settles hc k _ h hk
  | waiting h1 h2 h3 h4 h5 =>
    exact .waiting (waiting_append h1) h2 h3 (h4.append h1 _) fun f hf => (List.mem_append.1 hf).elim (h5 f) (hk f)
  | refused => exact .refused

/-- A wait that goes on settles again (R286). -/
theorem resume_settles (h : s.Running) (hs : s.stack ≠ []) : (resume s).Settles s.cfg := by
  have hc := h.cfg
  have hdone : s.done = false := by
    rw [← Bool.not_eq_true]; exact fun e => hs (h.inv.done.1 e)
  have hfr := h.frames
  have hw := h.waits
  have tail : ∀ {f k}, s.stack = f :: k → ∀ g ∈ k, g.Placed s.cfg := fun e g hg => hfr g (by rw [e]; simp [hg])
  unfold resume
  split
  · rename_i k e
    rw [e] at hw
    refine returns_settles hc (tail e) (waitNotBusy_settles ⟨hw.2, h.clock, rfl, h.inv.mem, h.inv.lanes, hdone⟩ _)
  · rename_i o fed k e
    rw [e] at hw
    exact returns_settles hc (tail e) (readData_settles hc _ ⟨hw.1, hw.2.1, h.clock, rfl, h.inv.mem, h.inv.lanes, hdone, hw.2.2⟩)
  · rename_i k e
    rw [e] at hw
    exact init5_settles hc _ ⟨hw, h.clock, rfl, h.inv.mem, h.inv.lanes, hdone⟩
  · exact .waiting hs h.clock rfl hw hfr

/-! ## Every request -/

theorem State.Ready.calm (h : s.Ready) : s.busy.Calm s.cfg :=
  ⟨⟨h.cseq, h.cwaits, h.dseq, h.dwaits, h.dma0, h.dma1⟩, h.clock, rfl, h.inv.mem, h.inv.lanes, rfl⟩

theorem readRequest_settles (hc : c.wf) (h : s.Calm c) (cmd addr buffer count crc : Word) :
    (readRequest cmd addr buffer count crc s).Settles c := by
  unfold readRequest
  split
  · rename_i hn
    exact bool_settles (readBlock_settles hc h fun hle => absurd hn (Nat.not_lt.2 hle))
  · rename_i hn
    refine guardRun_settles fun h1 => guardRun_settles fun h2 => guardRun_settles fun _ => guardRun_settles fun h4 =>
      guardRun_settles fun _ => guardRun_settles fun _ => bool_settles (readBlock_settles hc h fun hle => ?_)
    have hcnt : count.toNat ≠ 0 := fun e => by
      have : count = 0#32 := BitVec.eq_of_toNat_eq e
      rw [this] at h2; simp at h2
    have hcmd : (indexOf cmd).setWidth 32 = cmd := by
      simp only [Bool.or_eq_true, beq_iff_eq] at h1
      rcases h1 with (rfl | rfl) | rfl <;> rfl
    rw [← h.cfg]
    exact readPlace_of (by rw [h.cfg]; exact hc) ⟨by omega, hle⟩ (by rw [hcmd]; exact h4)

theorem writeRequest_settles (hc : c.wf) (h : s.Calm c) (cmd addr buffer : Word) : (writeRequest cmd addr buffer s).Settles c :=
  guardRun_settles fun _ => guardRun_settles fun _ => guardRun_settles fun _ => guardRun_settles fun _ => guardRun_settles fun _ =>
    bool_settles (writeBlock_settles hc h _ _)

theorem storageGuard_settles {offset buffer size : Word} {k : Run OpResult}
    (h : extentOk s.cfg buffer size.toNat = true → k.Settles c) : (storageGuard offset buffer size s k).Settles c :=
  guardRun_settles fun _ => guardRun_settles fun _ => guardRun_settles fun _ => guardRun_settles fun h4 =>
    guardRun_settles fun _ => guardRun_settles fun _ => h h4

theorem storageRead_settles (hc : c.wf) (h : s.Calm c) (block : Word) {buffer size : Word}
    (he : extentOk s.cfg buffer size.toNat = true) : (storageRead block buffer (size.toNat / 512) s).Settles c := by
  refine readLoop_settles hc block (fun hp => ?_) _ _ (h.setWidthOp hc _)
  obtain ⟨h1, h2⟩ := extentOk_spec (by rw [h.cfg]; exact hc) (by omega) he
  rw [h.cfg] at h2
  unfold BufferAt
  omega

/-- A request of a block that is ready settles, whatever it is and whatever the card does. -/
theorem exec_settles {i : Instr} (h : s.Ready) (he : exec i s = .next t) : ∃ r : Run OpResult, r.Settles s.cfg ∧ r.outcome = .next t := by
  have hc := h.cfg
  have hq := h.calm
  have accept : ∀ {k : State → Run OpResult}, s.accept k = .next t → (k s.busy).Settles s.cfg →
      ∃ r : Run OpResult, r.Settles s.cfg ∧ r.outcome = .next t := by
    intro k e hk
    unfold State.accept at e
    rw [if_pos h.idle] at e
    exact ⟨_, hk, e⟩
  have wire : ∀ {k : State → Run Bool}, s.wire k = .next t → (k s.busy).Settles s.cfg →
      ∃ r : Run OpResult, r.Settles s.cfg ∧ r.outcome = .next t :=
    fun e hk => accept e (guardRun_settles fun _ => bool_settles hk)
  cases i with
  | cmd0 => exact wire he (runStep_settles (hq.goIdle hc))
  | cmd2 => exact wire he (runStep_settles (hq.allSendCid hc))
  | cmd3 => exact wire he (runStep_settles (hq.sendRelativeAddr hc))
  | cmd6 arg =>
    unfold exec execCmd6 at he
    exact accept he (guardRun_settles fun _ => bool_settles ((switchRead_settles hc hq arg).andThen trivial fun _ _ ht => .done ht))
  | acmd6 wide => exact wire he (runStep_settles (hq.setBusWidth hc _))
  | cmd7 rca =>
    unfold exec execCmd7 at he
    exact wire he (selectCard_settles hc hq _ _ trivial)
  | cmd8 => exact wire he (runStep_settles (hq.sendIfCond hc))
  | cmd9 rca => exact wire he (sendCsd_settles hc hq _)
  | cmd12 => exact wire he (stopTransmission_settles hc hq)
  | cmd17 addr buffer crc => exact accept he (readRequest_settles hc hq _ _ _ _ _)
  | cmd18 addr buffer count crc => exact accept he (readRequest_settles hc hq _ _ _ _ _)
  | cmd24 addr buffer => exact accept he (writeRequest_settles hc hq _ _ _)
  | acmd41 arg => exact wire he (runStep_settles (hq.sendOpCond hc _))
  | cmd55 rca => exact wire he (runStep_settles (hq.appCmd hc _))
  | crc7 bytes n =>
    unfold exec execCrc7 at he
    exact accept he (guardRun_settles fun _ => .done (hq.setCrc _ _))
  | crc16 bytes n =>
    unfold exec execCrc16 at he
    exact accept he (guardRun_settles fun _ => .done (hq.setCrc _ _))
  | buildFrame cmd param =>
    unfold exec execBuildFrame at he
    exact accept he (guardRun_settles fun _ => .done
      ⟨hq.rested.of_same rfl rfl rfl rfl, hq.clock, rfl, Memory.wf_writeBytes hq.mem _ _, hq.lanes, rfl⟩)
  | sdCommand cmd param resSize resData =>
    unfold exec execSdCommand at he
    refine accept he (guardRun_settles fun _ => ?_)
    split
    · exact .refused
    · rename_i res _
      unfold responseGuard
      split
      · exact guardRun_settles fun _ => .done (hq.commandNone hc _ _ _)
      · rename_i hr
        refine guardRun_settles fun _ => guardRun_settles fun hx => guardRun_settles fun _ => .done (hq.command hc hr ?_)
        have : 0 < res.words := by cases res <;> first | exact absurd rfl hr | decide
        exact (extentOk_spec hc (by omega) hx).1
  | respFix w n =>
    unfold exec execRespFix at he
    exact accept he (guardRun_settles fun _ => guardRun_settles fun _ => guardRun_settles fun _ =>
      .done (hq.setMem (Memory.wf_writeWords hq.mem _ _)))
  | checkResStatus r =>
    unfold exec execCheckResStatus at he
    exact accept he (guardRun_settles fun _ => guardRun_settles fun _ => .done hq)
  | waitNotBusy =>
    unfold exec execWaitNotBusy at he
    exact accept he (guardRun_settles fun _ => (waitNotBusy_settles hq.owned _).andThen trivial fun _ _ ht => .done ht)
  | readBlock cmd addr buffer count crc => exact accept he (readRequest_settles hc hq _ _ _ _ _)
  | writeBlock cmd addr buffer => exact accept he (writeRequest_settles hc hq _ _ _)
  | setWidth width =>
    unfold exec execSetWidth at he
    refine accept he ?_
    split
    · exact .refused
    · exact guardRun_settles fun _ => guardRun_settles fun _ => .done (hq.setWidthOp hc _)
  | storageInit =>
    exact accept he (storageInit_settles ⟨h.inv, h.idle, ⟨h.cseq, h.dseq, h.dma0, h.dma1, h.inv.lanes⟩,
      fun _ => ⟨h.cwaits, h.dwaits⟩, hc⟩)
  | parseCsd r =>
    unfold exec execParseCsd at he
    refine accept he (guardRun_settles fun _ => guardRun_settles fun _ => ?_)
    have hp := parseCsd_settles hq r
    generalize parseCsd r s.busy = x at hp ⊢
    cases hp with
    | done h => exact .done h
    | waiting h1 h2 h3 h4 h5 => exact .waiting h1 h2 h3 h4 h5
    | refused => exact .refused
  | getStorageSize =>
    unfold exec execGetStorageSize at he
    exact accept he (guardRun_settles fun _ => .done hq)
  | storageRead block offset buffer size =>
    unfold exec execStorageRead at he
    exact accept he (storageGuard_settles fun hx => storageRead_settles hc hq _ hx)
  | storageWrite block offset buffer size =>
    unfold exec execStorageWrite at he
    exact accept he (storageGuard_settles fun _ => writeLoop_settles hc _ _ _ _ _ (hq.setWidthOp hc _))

end Sys2Proof.Machine
end

