-- ==== Sys2Proof/Tests/Slice0.lean ====
section
/-! SUPPORT. Tests: ill-formed terms, words written out from the spec's encodings, the vectors of
spec/95_test_vectors.md (ids F, V, S), single requests on small states, and for each statement with hypotheses a witness
that they can be met. -/

set_option Elab.async false

namespace Sys2Proof.Tests

open Sys2Proof Sys2Proof.Machine

/-! ## Ill-formed terms -/

theorem test_wf_cmd17_misaligned : (Instr.cmd17 0#32 0x1002#32 0#32).wellFormed = false := by decide
theorem test_wf_cmd18_no_block : (Instr.cmd18 0#32 0x1000#32 0#32 0#32).wellFormed = false := by decide
theorem test_wf_cmd24_null : (Instr.cmd24 0#32 0#32).wellFormed = false := by decide
theorem test_wf_acmd41_no_hcs : (Instr.acmd41 0x00FF8000#32).wellFormed = false := by decide
theorem test_wf_buildFrame_index : (Instr.buildFrame 64#32 0#32).wellFormed = false := by decide
theorem test_wf_sdCommand_index : (Instr.sdCommand 64#32 0#32 48#32 0x1000#32).wellFormed = false := by decide
theorem test_wf_sdCommand_size : (Instr.sdCommand 17#32 0#32 32#32 0x1000#32).wellFormed = false := by decide
theorem test_wf_sdCommand_buffer : (Instr.sdCommand 17#32 0#32 48#32 0x1002#32).wellFormed = false := by decide
theorem test_wf_respFix_words : (Instr.respFix 0x1000#32 3#32).wellFormed = false := by decide
theorem test_wf_respFix_misaligned : (Instr.respFix 0x1001#32 2#32).wellFormed = false := by decide
theorem test_wf_checkResStatus : (Instr.checkResStatus 0x1001#32).wellFormed = false := by decide
theorem test_wf_readBlock_command : (Instr.readBlock 24#32 0#32 0x1000#32 1#32 0#32).wellFormed = false := by decide
theorem test_wf_readBlock_count : (Instr.readBlock 17#32 0#32 0x1000#32 2#32 0#32).wellFormed = false := by decide
theorem test_wf_readBlock_crc : (Instr.readBlock 17#32 0#32 0x1000#32 1#32 0x2002#32).wellFormed = false := by decide
theorem test_wf_readBlock_chain_limit : (Instr.readBlock 17#32 0#32 0#32 33#32 0#32).wellFormed = true := by decide
theorem test_wf_writeBlock_command : (Instr.writeBlock 25#32 0#32 0x1000#32).wellFormed = false := by decide
theorem test_wf_setWidth : (Instr.setWidth 2#32).wellFormed = false := by decide
theorem test_wf_parseCsd : (Instr.parseCsd 2#32).wellFormed = false := by decide
theorem test_wf_storageRead_offset : (Instr.storageRead 0#32 1#32 0x1000#32 512#32).wellFormed = false := by decide
theorem test_wf_storageWrite_size : (Instr.storageWrite 0#32 0#32 0x1000#32 100#32).wellFormed = false := by decide
theorem test_wf_storageWrite_sign : (Instr.storageWrite 0#32 0#32 0x1000#32 0x80000000#32).wellFormed = false := by decide

/-! ## Words of the opcode table, the argument fields written out where the mask leaves them free -/

theorem test_word_cmd0 : decodeTableWord 48 0x400000000095 = some .cmd0 := by decide
theorem test_word_cmd2 : decodeTableWord 48 0x42000000004D = some .cmd2 := by decide
theorem test_word_cmd3 : decodeTableWord 48 0x430000000021 = some .cmd3 := by decide
theorem test_word_cmd6 : decodeTableWord 48 0x4680FFFFF129 = some (.cmd6 0x80FFFFF1#32) := by decide
theorem test_word_acmd6 : decodeTableWord 48 0x4600000002CB = some (.acmd6 true) := by decide
theorem test_word_cmd7 : decodeTableWord 48 0x471234000059 = some (.cmd7 0x1234#16) := by decide
theorem test_word_cmd8 : decodeTableWord 48 0x48000001AA87 = some .cmd8 := by decide
theorem test_word_cmd9 : decodeTableWord 48 0x491234000075 = some (.cmd9 0x1234#16) := by decide
theorem test_word_cmd12 : decodeTableWord 48 0x4C0000000061 = some .cmd12 := by decide
theorem test_word_cmd17 : decodeTableWord 48 0x5100000A00C9 = some (.cmd17 0xA00#32 0#32 0#32) := by decide
theorem test_word_cmd18_block100 : decodeTableWord 48 0x520000006405 = some (.cmd18 100#32 0#32 0#32 0#32) := by decide
theorem test_word_cmd24 : decodeTableWord 48 0x580000000711 = some (.cmd24 7#32 0#32) := by decide
theorem test_word_acmd41 : decodeTableWord 48 0x6940FF800017 = some (.acmd41 0x40FF8000#32) := by decide
theorem test_word_cmd55 : decodeTableWord 48 0x7712340000BF = some (.cmd55 0x1234#16) := by decide
theorem test_word_crc7 : decodeTableWord 8 0 = some (.crc7 0#32 0#32) := by decide
theorem test_word_crc16 : decodeTableWord 8 1 = some (.crc16 0#32 0#32) := by decide
theorem test_word_buildFrame : decodeTableWord 8 2 = some (.buildFrame 0#32 0#32) := by decide
theorem test_word_sdCommand : decodeTableWord 8 3 = some (.sdCommand 0#32 0#32 0#32 0#32) := by decide
theorem test_word_respFix : decodeTableWord 8 4 = some (.respFix 0#32 0#32) := by decide
theorem test_word_checkResStatus : decodeTableWord 8 5 = some (.checkResStatus 0#32) := by decide
theorem test_word_waitNotBusy : decodeTableWord 8 6 = some .waitNotBusy := by decide
theorem test_word_readBlock : decodeTableWord 8 7 = some (.readBlock 0#32 0#32 0#32 0#32 0#32) := by decide
theorem test_word_writeBlock : decodeTableWord 8 8 = some (.writeBlock 0#32 0#32 0#32) := by decide
theorem test_word_setWidth : decodeTableWord 8 9 = some (.setWidth 0#32) := by decide
theorem test_word_storageInit : decodeTableWord 8 10 = some .storageInit := by decide
theorem test_word_parseCsd : decodeTableWord 8 11 = some (.parseCsd 0#32) := by decide
theorem test_word_getStorageSize : decodeTableWord 8 12 = some .getStorageSize := by decide
theorem test_word_storageRead : decodeTableWord 8 13 = some (.storageRead 0#32 0#32 0#32 0#32) := by decide
theorem test_word_storageWrite : decodeTableWord 8 14 = some (.storageWrite 0#32 0#32 0#32 0#32) := by decide
theorem test_word_reserved : decodeTableWord 8 15 = none := by decide
/-- Index 13, SEND_STATUS, is never sent (R274). -/
theorem test_word_cmd13 : decodeTableWord 48 0x4D0000000001 = none := by decide
/-- A frame whose end bit is 0 is no frame (R102). -/
theorem test_word_end_bit : decodeTableWord 48 0x400000000094 = none := by decide

/-- An operand word that follows a selector is least significant byte first (log 3). -/
theorem test_decode_operands :
    decode false [0x02#8, 0x08#8, 0#8, 0#8, 0#8, 0xAA#8, 0x01#8, 0#8, 0#8] = .ok (.buildFrame 8#32 0x1AA#32, []) := by decide

/-! ## CRC (V1 to V19) and frames (F1 to F36) -/

theorem test_V1_crc7_empty : crc7 [] = 0x00#7 := by decide
theorem test_V4_crc7_ff : crc7 [0xFF#8] = 0x79#7 := by decide
theorem test_V9_crc7 : crc7 [0x12#8, 0x34#8, 0x56#8] = 0x2F#7 := by decide +kernel
theorem test_V12_crc16 : crc16 [0x80#8] = 0x9188#16 := by decide
theorem test_V14_crc16_check : crc16 [0x31#8, 0x32#8, 0x33#8, 0x34#8, 0x35#8, 0x36#8, 0x37#8, 0x38#8, 0x39#8] = 0x31C3#16 := by
  decide +kernel
theorem test_V18_crc16 : crc16 (List.replicate 64 0xFF#8) = 0x278E#16 := by decide +kernel
theorem test_F2_frame : frameBytes 8#6 0x1AA#32 = [0x48#8, 0#8, 0#8, 0x01#8, 0xAA#8, 0x87#8] := by decide +kernel
theorem test_F32_frame : frameBytes 63#6 0xFFFFFFFF#32 = [0x7F#8, 0xFF#8, 0xFF#8, 0xFF#8, 0xFF#8, 0x19#8] := by decide +kernel
theorem test_F18_words : (frameWord0 17#6 5#32, frameWord1 17#6 5#32) = (0x51000000#32, 0x050F0000#32) := by decide +kernel

/-- V56: the four line CRCs of a switch status block, interleaved. -/
theorem test_V56_four_lines :
    fourLineCrcOk ([0#8, 0x64#8, 0x80#8, 1#8, 0x80#8, 1#8, 0x80#8, 1#8, 0x80#8, 1#8, 0x80#8, 1#8, 0x80#8, 3#8, 0#8, 0#8, 1#8] ++
      List.replicate 47 0#8) [0x0E#8, 0xD3#8, 0x95#8, 0x9C#8, 0x28#8, 0xB5#8, 0x4C#8, 0xC8#8] = true := by decide +kernel

/-! ## Responses, statuses, capacities -/

/-- V20: R1 to CMD17, status 0x00000900. -/
def r1 : List Byte := [0x11#8, 0#8, 0#8, 0x09#8, 0#8, 0x67#8]
/-- V29: R1 to CMD17 with ILLEGAL_COMMAND. -/
def r1Bad : List Byte := [0x11#8, 0#8, 0x40#8, 0x09#8, 0#8, 0xAB#8]
/-- V22: R7 to CMD8. -/
def r7 : List Byte := [0x08#8, 0#8, 0#8, 0x01#8, 0xAA#8, 0x13#8]
/-- V22 with another pattern. -/
def r7Bad : List Byte := [0x08#8, 0#8, 0#8, 0x01#8, 0x55#8, 0x13#8]
/-- V24: R3, ready, high capacity. -/
def r3 : List Byte := [0x3F#8, 0xC0#8, 0xFF#8, 0x80#8, 0#8, 0xFF#8]
/-- V23: R3, not ready. -/
def r3Busy : List Byte := [0x3F#8, 0#8, 0xFF#8, 0x80#8, 0#8, 0xFF#8]
/-- V26: R6 to CMD3, RCA 0x1234. -/
def r6 : List Byte := [0x03#8, 0x12#8, 0x34#8, 0x05#8, 0#8, 0x21#8]
/-- V28: R1 to CMD55, status 0x00000920. -/
def r55 : List Byte := [0x37#8, 0#8, 0#8, 0x09#8, 0x20#8, 0x33#8]
/-- V32: R2, a CSD of version 2, C_SIZE = 975. -/
def csd2 : List Byte := [0x3F#8, 0x40#8, 0x0E#8, 0#8, 0x32#8, 0x5B#8, 0x59#8, 0#8, 0#8, 0x03#8, 0xCF#8, 0x7F#8, 0xFF#8, 0x0A#8,
  0x40#8, 0#8, 0x89#8]
/-- V34: R2, a CSD of version 1. -/
def csd1 : List Byte := [0x3F#8, 0#8, 0x26#8, 0#8, 0x32#8, 0x5B#8, 0x5A#8, 0x83#8, 0xBF#8, 0xC0#8, 0x03#8, 0xFF#8, 0x80#8, 0x12#8,
  0x80#8, 0#8, 0x75#8]
/-- V45: a CSD of version 2, C_SIZE = 0x3FFFFF. -/
def csdOver : List Byte := [0x3F#8, 0x40#8, 0x0E#8, 0#8, 0x32#8, 0x5B#8, 0x59#8, 0#8, 0x3F#8, 0xFF#8, 0xFF#8, 0x7F#8, 0xFF#8,
  0x0A#8, 0x40#8, 0#8, 0x29#8]
/-- V51: a CSD whose structure field is 2. -/
def csdBad : List Byte := [0x3F#8, 0x80#8, 0x0E#8, 0#8, 0x32#8, 0x5B#8, 0x59#8, 0#8, 0#8, 0x03#8, 0xCF#8, 0x7F#8, 0xFF#8, 0x0A#8,
  0x40#8, 0#8, 0#8]

theorem test_S5_status : statusOk 0x02067FF7#32 = true := by decide
theorem test_S9_status : statusOk 0xFDF98008#32 = false := by decide
theorem test_V34_csd_v1 : csdBlocks csd1 = 3932160 := by decide +kernel
theorem test_V32_csd_v2 : csdBlocks csd2 = 999424 := by decide +kernel

/-! ## Small states -/

/-- A configuration of R10 with every open value chosen. -/
def smallConfig : Config := ⟨0x40FF8000#32, 0x80FFFFF1#32, 16, 5, 4, 3, 2, 1, false, 4, 32, ⟨1000, 64⟩, ⟨0, 1, 2, 3, 4, 5⟩, none, true, false,
  0x20000000#32⟩

/-- The engine at rest after a successful STORAGE_INIT, with some draws given, so that memory can be evaluated. -/
def idle (c : Config) (card : List Turn) : State :=
  { State.reset with
    cfg := c, session := ⟨999424#32, true, 0x1234#16, .one⟩, ioInitialised := true, sessionValid := true
    cseq := Seq.reset.program, dseq := Seq.reset.program, kseq := ⟨true, 4⟩, card := card, free := List.replicate 16 0xFFFFFFFF#32 }

/-- The same with some bytes in memory. -/
def idleMem (a : Word) (bs : List Byte) : State := { idle smallConfig [] with mem := Memory.writeBytes [] a bs }

/-- The engine at rest on four lines. -/
def idleFour (card : List Turn) : State := (idle smallConfig card).setWidth .four

/-- The block after reset. -/
def fresh (card : List Turn) : State := { State.reset with cfg := smallConfig, card := card, free := List.replicate 16 0xFFFFFFFF#32 }

/-- What a request left, where it took a step. -/
def after (o : Host.Outcome State Fault Refusal) : Option State :=
  match o with
  | .next s => some s
  | .fault _ => none
  | .refused _ => none

/-- The result of a request. -/
def result (o : Host.Outcome State Fault Refusal) : Option OpResult := (after o).map (·.result)

/-- The recorded cause after a request. -/
def cause (o : Host.Outcome State Fault Refusal) : Option (Option Cause) := (after o).map (·.lastFailure)

/-- The session after a request. -/
def session (o : Host.Outcome State Fault Refusal) : Option Session := (after o).map (·.session)

/-- The number of levels driven on the two lines in a request. -/
def driven (o : Host.Outcome State Fault Refusal) : Option (Nat × Nat) :=
  (after o).map fun s => ((cmdLevels s.history).length, (dat0Levels s.history).length)

/-- Why a request was refused. -/
def refusal (o : Host.Outcome State Fault Refusal) : Option Refusal :=
  match o with
  | .next _ => none
  | .fault _ => none
  | .refused r => some r

/-! ## One request each -/

theorem test_crc7 : result (exec (.crc7 0x1000#32 5#32) (idleMem 0x1000#32 [0x40#8])) = some (.crc7 0x4A#7) := by decide +kernel
theorem test_crc16 : result (exec (.crc16 0x1000#32 3#32) (idleMem 0x1000#32 [0x12#8, 0x34#8, 0x56#8])) = some (.crc16 0xDE61#16) := by
  decide +kernel
theorem test_F4_buildFrame : result (exec (.buildFrame 55#32 0x12340000#32) (fresh [])) =
    some (.frame [0x77#8, 0x12#8, 0x34#8, 0#8, 0#8, 0xBF#8]) := by decide +kernel
theorem test_V21_respFix : (after (exec (.respFix 0x1000#32 2#32)
      { fresh [] with mem := Memory.writeWords [] 0x1000#32 [0x22000012#32, 0x00CFFFFF#32] })).map (·.mem.readBytes 0x1000#32 8) =
    some [0x11#8, 0#8, 0#8, 0x09#8, 0#8, 0x67#8, 0xFF#8, 0xFF#8] := by decide +kernel
theorem test_S8_checkResStatus : result (exec (.checkResStatus 0x1000#32) (idleMem 0x1000#32 [0#8, 0#8, 0#8, 0#8, 0x08#8])) =
    some (.bool false) := by decide +kernel
theorem test_V64_sdCommand : driven (exec (.sdCommand 0#32 0#32 0#32 0#32) (idle smallConfig [])) = some (48, 0) := by
  decide +kernel
theorem test_V65_sdCommand : (after (exec (.sdCommand 17#32 5#32 48#32 0x1000#32) (idle smallConfig [Turn.answer 2 r1]))).map
    (·.mem.readBytes 0x1000#32 6) = some r1 := by decide +kernel
theorem test_V66_sdCommand : cause (exec (.sdCommand 8#32 0x1AA#32 48#32 0x1000#32) (idle smallConfig [Turn.silent])) =
    some (some .cmdTimeout) := by decide +kernel
theorem test_waitNotBusy : after (exec .waitNotBusy (idle smallConfig [Turn.busy 2])) = some (idle smallConfig []) := by decide +kernel
/-- A line that nobody drives reads as 1 (R164), so that the wait ends with no card at all (R203). -/
theorem test_waitNotBusy_no_card : after (exec .waitNotBusy (idle smallConfig [])) = some (idle smallConfig []) := by decide +kernel
theorem test_cmd0 : (after (exec .cmd0 (idle smallConfig []))).map (fun s => cmdLevels s.history) =
    some (bytesBits [0x40#8, 0#8, 0#8, 0#8, 0#8, 0x95#8]) := by decide +kernel
theorem test_cmd2 : result (exec .cmd2 (idle smallConfig [Turn.answer 0 csd2])) = some (.bool true) := by decide +kernel
theorem test_cmd3 : (session (exec .cmd3 (idle smallConfig [Turn.answer 1 [0x03#8, 0xAB#8, 0xCD#8, 0x05#8, 0#8, 0x21#8]]))).map (·.cardRca) =
    some 0xABCD#16 := by decide +kernel
theorem test_cmd6_silent : result (exec (.cmd6 0x80FFFFF1#32) (idle smallConfig [Turn.silent])) = some (.bool false) := by
  decide +kernel
theorem test_acmd6 : (after (exec (.acmd6 true) (idle smallConfig [Turn.answer 0 r55]))).map (fun s => (s.session.dataWidth, s.lanes)) =
    some (.four, .four) := by decide +kernel
theorem test_cmd7_bad : cause (exec (.cmd7 0x1234#16) (idle smallConfig [Turn.answer 0 r1Bad])) = some (some .statusError) := by
  decide +kernel
theorem test_cmd8 : result (exec .cmd8 (idle smallConfig [Turn.answer 0 r7])) = some (.bool true) := by decide +kernel
theorem test_cmd8_pattern : cause (exec .cmd8 (idle smallConfig [Turn.answer 0 r7Bad])) = some (some .ifCond) := by decide +kernel
theorem test_V36_cmd9 : (session (exec (.cmd9 0x1234#16) (idle smallConfig [Turn.answer 0 csd1]))).map (·.cardSizeBlocks) =
    some 3932160#32 := by decide +kernel
/-- The busy wait comes before the status (R218): the line never goes high, and the engine waits though the status failed. -/
theorem test_cmd12_busy : (after (exec .cmd12 (idle smallConfig [Turn.answer 0 r1Bad, Turn.stuck 1]))).map (fun s => (s.phase, s.stack)) =
    some (.notBusy, [.polling, .wireBusy false]) := by decide +kernel
theorem test_acmd41 : (session (exec (.acmd41 0x40FF8000#32) (idle smallConfig [Turn.answer 0 [0x3F#8, 0x80#8, 0xFF#8, 0x80#8, 0#8, 0xFF#8]]))).map
    (·.isHcs) = some false := by decide +kernel
theorem test_acmd41_busy : result (exec (.acmd41 0x40FF8000#32) (idle smallConfig [Turn.answer 0 r3Busy])) = some (.bool false) := by
  decide +kernel
theorem test_cmd55 : (after (exec (.cmd55 0x1234#16) (idle smallConfig [Turn.answer 0 r55]))).map (·.appPrefix) = some true := by
  decide +kernel
theorem test_V80_readBlock : cause (exec (.readBlock 18#32 0#32 0x1000#32 33#32 0#32) (idle smallConfig [])) =
    some (some .chainLimit) := by decide +kernel
theorem test_V88_readBlock : cause (exec (.readBlock 17#32 5#32 0x1000#32 1#32 0#32) (idle smallConfig [Turn.answer 0 r1Bad])) =
    some (some .statusError) := by decide +kernel
theorem test_cmd17_silent : driven (exec (.cmd17 5#32 0x1000#32 0#32) (idle smallConfig [Turn.silent])) = some (48, 0) := by
  decide +kernel
theorem test_cmd18_chain_limit : result (exec (.cmd18 0#32 0#32 0xFFFFFFFF#32 1#32) (fresh [])) = some (.bool false) := by
  decide +kernel
theorem test_writeBlock_silent : driven (exec (.writeBlock 24#32 7#32 0x1000#32) (idle smallConfig [Turn.silent])) =
    some (48, 0) := by decide +kernel
theorem test_cmd24_bad : cause (exec (.cmd24 7#32 0x1000#32) (idle smallConfig [Turn.answer 0 r1Bad])) =
    some (some .statusError) := by decide +kernel
theorem test_V78_setWidth : driven (exec (.setWidth 4#32) (idle smallConfig [Turn.silent])) = some (48, 0) := by decide +kernel
theorem test_V75_setWidth : (after (exec (.setWidth 4#32) (idle smallConfig [Turn.answer 0 r55, Turn.answer 0 r55]))).map (·.lanes) =
    some .four := by decide +kernel
theorem test_V44_parseCsd : result (exec (.parseCsd 0x1000#32) (idleMem 0x1000#32 [0x3F#8, 0x40#8, 0x0E#8, 0#8, 0x32#8, 0x5B#8,
    0x59#8, 0#8, 0x3F#8, 0xFF#8, 0xFE#8, 0x7F#8, 0xFF#8, 0x0A#8, 0x40#8, 0#8, 0x5D#8])) = some (.blocks 0xFFFFFC00#32) := by
  decide +kernel
theorem test_V51_parseCsd : refusal (exec (.parseCsd 0x1000#32) (idleMem 0x1000#32 csdBad)) = some .csdStructure := by
  decide +kernel
theorem test_getStorageSize : result (exec .getStorageSize (idle smallConfig [])) = some (.size 512#16 999424#32) := by
  decide +kernel
theorem test_storageInit_no_card : (after (exec .storageInit (fresh [Turn.silent]))).map
    (fun s => (s.result, s.lastFailure, s.kseq, s.dma1.claimed)) = some (.bool false, some .cmdTimeout, ⟨true, 5⟩, true) := by
  decide +kernel
theorem test_V73_storageRead : driven (exec (.storageRead 0#32 0#32 0x1000#32 0#32) (idleFour [])) = some (0, 0) := by
  decide +kernel
theorem test_storageRead_fails : result (exec (.storageRead 5#32 0#32 0x1000#32 512#32) (idleFour [Turn.silent])) =
    some (.count 0#32) := by decide +kernel
theorem test_V74_storageWrite : refusal (exec (.storageWrite 0#32 1#32 0x1000#32 512#32) (idle smallConfig [])) = some .offset := by
  decide +kernel
theorem test_storageWrite_fails : result (exec (.storageWrite 7#32 0#32 0x1000#32 1024#32) (idle smallConfig [Turn.answer 0 r1Bad])) =
    some (.count 0#32) := by decide +kernel

/-- The end bit's period is not sampled (R119, R156): a low DAT0 in it does not start the block that is armed. -/
theorem test_end_bit_not_sampled : (dseqTick (Tick.onDat0 false) { idle smallConfig [] with
    dseq := { Seq.reset.program with mode := .recvShift, armed := [.recv 4112] } }).dseq =
    { Seq.reset.program with mode := .recvHunt, bitsLeft := 4112 } := by decide +kernel

/-- A store of the host is a step of its own (R4, R6). -/
theorem test_host_store : (after (step { fresh [] with host := [.store 0x1000#32 [0x12#8, 0x34#8]] })).map
    (fun s => (s.mem.readBytes 0x1000#32 2, s.host)) = some ([0x12#8, 0x34#8], []) := by decide +kernel

/-- The next step runs the instruction of a table word: CRC7 of no bytes, right after reset. -/
theorem test_withFetchWord : result (step (State.reset.withFetchWord 8 0)) = some (.crc7 0#7) := by decide +kernel

/-! ## Witnesses: for each statement with hypotheses, a state and operands that meet them together -/

theorem smallConfig_wf : smallConfig.wf := by decide

/-- The state at rest is ready, for every card and every admissible configuration. -/
theorem idle_ready {c : Config} (h : c.wf) (card : List Turn) : (idle c card).Ready where
  inv    := ⟨rfl, rfl, ⟨fun _ => rfl, fun _ => rfl⟩, ⟨fun _ => rfl, fun _ => rfl⟩⟩
  idle   := rfl
  cseq   := ⟨.inl rfl, rfl, rfl, rfl, rfl, rfl⟩
  cwaits := rfl
  dseq   := ⟨.inl rfl, rfl, rfl, rfl, rfl, rfl⟩
  dwaits := rfl
  dma0   := rfl
  dma1   := rfl
  clock  := rfl
  cfg    := h

/-- The state at rest on four lines is ready. -/
theorem idleFour_ready (card : List Turn) : (idleFour card).Ready where
  inv    := ⟨rfl, rfl, ⟨fun _ => rfl, fun _ => rfl⟩, ⟨fun _ => rfl, fun _ => rfl⟩⟩
  idle   := rfl
  cseq   := ⟨.inl rfl, rfl, rfl, rfl, rfl, rfl⟩
  cwaits := rfl
  dseq   := ⟨.inl rfl, rfl, rfl, rfl, rfl, rfl⟩
  dwaits := rfl
  dma0   := rfl
  dma1   := rfl
  clock  := rfl
  cfg    := smallConfig_wf

/-- The state after reset is bootable, for every card. -/
theorem fresh_bootable (card : List Turn) : (fresh card).Bootable where
  inv        := ⟨rfl, rfl, ⟨fun _ => rfl, fun _ => rfl⟩, ⟨fun _ => rfl, fun _ => rfl⟩⟩
  idle       := rfl
  quiescent  := ⟨⟨.inr rfl, rfl, rfl, rfl, rfl, rfl⟩, ⟨.inr rfl, rfl, rfl, rfl, rfl, rfl⟩, rfl, rfl, rfl⟩
  programmed := fun h => nomatch h
  cfg        := smallConfig_wf

theorem r1_passes : Passes r1 := ⟨⟨rfl, by decide⟩, by decide⟩
theorem r55_passes : Passes r55 := ⟨⟨rfl, by decide⟩, by decide⟩
theorem answers_captured : Captured 6 r7 ∧ Captured 6 r3 ∧ Captured 6 r3Busy ∧ Captured 6 r6 ∧ Captured 17 csd1 ∧ Captured 17 csd2 :=
  ⟨⟨rfl, by decide⟩, ⟨rfl, by decide⟩, ⟨rfl, by decide⟩, ⟨rfl, by decide⟩, ⟨rfl, by decide⟩, ⟨rfl, by decide⟩⟩
theorem answers_read : ifCondOk r7 = true ∧ (payload r3).getLsbD 31 = true ∧ (payload r3Busy).getLsbD 31 = false ∧
    csdField csd2 127 126 ≤ 1 ∧ csdBlocks csd2 < 2 ^ 32 := by decide +kernel
theorem r1Bad_fails : Captured 6 r1Bad ∧ statusOk (payload r1Bad) = false := ⟨⟨rfl, by decide⟩, by decide⟩

/-! ### Encoding -/

theorem witness_DecodeEncode_app : (Instr.acmd6 true).isApp = true → true = true := fun _ => rfl
theorem witness_DecodeEncode_plain : ∀ arg, Instr.cmd6 0#32 = .cmd6 arg → false = false := fun _ _ => rfl
/-- First clause: a host operation; second clause: a frame with a wrong CRC7. -/
theorem witness_EncodeDecode :
    decode false [0x05#8, 0#8, 0x10#8, 0#8, 0#8] = .ok (.checkResStatus 0x1000#32, []) ∧
    decode false [0x40#8, 0#8, 0#8, 0#8, 0#8, 0x01#8] = .ok (.cmd0, []) := by decide
theorem witness_UnusedEncodingsRefused : (63#6).toNat ∉ [0, 2, 3, 6, 7, 8, 9, 12, 17, 18, 24, 41, 55] := by decide
theorem witness_CrcLaws : [0x12#8, 0x34#8].length = [0xAB#8, 0xCD#8].length := rfl
/-- No byte at all, and the last byte of memory. -/
theorem witness_CrcOperations : (fresh []).Inv ∧ (fresh []).phase = .idle ∧
    extentOk (fresh []).cfg 0#32 (0#32).toNat = true ∧ extentOk (fresh []).cfg 0xFFFFFFFF#32 (1#32).toNat = true :=
  ⟨(fresh_bootable []).inv, rfl, by decide, by decide⟩

/-! ### Commands -/

theorem witness_BuildFrameCompletes : (fresh []).Inv ∧ (fresh []).phase = .idle ∧ (fresh []).cfg.wf :=
  ⟨(fresh_bootable []).inv, rfl, smallConfig_wf⟩

/-- Two words: V21. -/
theorem witness_RespFixReassembles_two :
    let s := { fresh [] with mem := Memory.writeWords [] 0x1000#32 [0x22000012#32, 0x00CE0001#32] }
    s.Inv ∧ s.phase = .idle ∧ (0x1000#32).toNat % 4 = 0 ∧ extentOk s.cfg 0x1000#32 (4 * (2#32).toNat) = true ∧
      ([0x11000009#32, 0x00670000#32].headD 0#32).getLsbD 31 = false ∧
      s.mem.readWords 0x1000#32 (2#32).toNat = rawWords true [0x11000009#32, 0x00670000#32] :=
  ⟨⟨by decide +kernel, rfl, ⟨fun _ => rfl, fun _ => rfl⟩, ⟨fun _ => rfl, fun _ => rfl⟩⟩, rfl, by decide, by decide, by decide,
    by decide +kernel⟩

/-- Five words: V32. -/
theorem witness_RespFixReassembles_five :
    let s := { fresh [] with
      mem := Memory.writeWords [] 0xFFFFFFEC#32 [0x7E801C00#32, 0x64B6B200#32, 0x00079EFF#32, 0xFE148001#32, 0x12000000#32] }
    s.Inv ∧ s.phase = .idle ∧ (0xFFFFFFEC#32).toNat % 4 = 0 ∧ extentOk s.cfg 0xFFFFFFEC#32 (4 * (5#32).toNat) = true ∧
      ([0x3F400E00#32, 0x325B5900#32, 0x0003CF7F#32, 0xFF0A4000#32, 0x89000000#32].headD 0#32).getLsbD 31 = false ∧
      s.mem.readWords 0xFFFFFFEC#32 (5#32).toNat =
        rawWords false [0x3F400E00#32, 0x325B5900#32, 0x0003CF7F#32, 0xFF0A4000#32, 0x89000000#32] :=
  ⟨⟨by decide +kernel, rfl, ⟨fun _ => rfl, fun _ => rfl⟩, ⟨fun _ => rfl, fun _ => rfl⟩⟩, rfl, by decide, by decide, by decide,
    by decide +kernel⟩

theorem witness_CheckResStatusCompletes : (fresh []).Inv ∧ (fresh []).phase = .idle ∧ (0xFFFFFFF8#32).toNat % 4 = 0 ∧
    extentOk (fresh []).cfg 0xFFFFFFF8#32 5 = true := ⟨(fresh_bootable []).inv, rfl, by decide, by decide⟩

theorem witness_SdCommandWithoutResponse : (idle smallConfig []).Ready := idle_ready smallConfig_wf []

/-- 48 bits, in the last two words of memory. -/
theorem witness_SdCommandAnswered_short : (idle smallConfig [Turn.answer 0 r1]).Ready ∧ alignedNonNull 0xFFFFFFF8#32 = true ∧
    extentOk smallConfig 0xFFFFFFF8#32 (4 * ((6 + 3) / 4)) = true ∧ Captured 6 r1 :=
  ⟨idle_ready smallConfig_wf _, by decide, by decide, r1_passes.1⟩

/-- 136 bits, in the last five words of memory. -/
theorem witness_SdCommandAnswered_long : (idle smallConfig [Turn.answer 7 csd2]).Ready ∧ alignedNonNull 0xFFFFFFEC#32 = true ∧
    extentOk smallConfig 0xFFFFFFEC#32 (4 * ((17 + 3) / 4)) = true ∧ Captured 17 csd2 :=
  ⟨idle_ready smallConfig_wf _, by decide, by decide, rfl, by decide⟩

theorem witness_SdCommandShortAnswer : (idle smallConfig [Turn.answer 0 r1]).Ready ∧ alignedNonNull 4#32 = true ∧
    extentOk smallConfig 4#32 20 = true ∧ Captured 6 r1 := ⟨idle_ready smallConfig_wf _, by decide, by decide, r1_passes.1⟩

/-- A silent card, and one cut off by the deadline before the last bit, for both sizes. -/
theorem witness_SdCommandSilent : ∀ u ∈ [Turn.silent, Turn.cutOff 3 (List.replicate 46 true)], (idle smallConfig [u]).Ready ∧
    Unanswers (48#32).toNat u ∧ Unanswers (136#32).toNat u ∧ alignedNonNull 4#32 = true ∧
    extentOk smallConfig 4#32 8 = true ∧ extentOk smallConfig 4#32 20 = true := by
  intro u h
  refine ⟨idle_ready smallConfig_wf _, ?_, ?_, by decide, by decide, by decide⟩ <;>
    simp only [List.mem_cons, List.not_mem_nil, or_false] at h <;> rcases h with rfl | rfl <;>
    first | exact .silent | exact .cutOff _ _ (by decide)

theorem witness_SdCommandAlwaysReturns : (idle smallConfig [⟨[Tick.onCmd false], [Tick.onCmd false], true, false⟩]).Ready ∧
    alignedNonNull 0xFFFFFFF8#32 = true ∧ extentOk smallConfig 0xFFFFFFF8#32 8 = true ∧ extentOk smallConfig 0xFFFFFFEC#32 20 = true :=
  ⟨idle_ready smallConfig_wf _, by decide, by decide, by decide⟩

/-- High at the first poll; released after one; and no card at all. -/
theorem witness_WaitNotBusyCompletes : ∀ card ∈ [[Turn.busy 0], [Turn.release 1], []], (idle smallConfig card).Ready ∧
    (card = Turn.busy 0 :: [] ∨ card = Turn.release 1 :: [] ∨ card = []) := by
  intro card h
  refine ⟨idle_ready smallConfig_wf _, ?_⟩
  simpa using h

/-- A line that is low for ever. -/
theorem witness_WaitNotBusyHangs : (idle smallConfig [Turn.stuck 0]).Ready ∧ (idle smallConfig [Turn.stuck 0]).cfg.busyTimeout = none ∧
    (idle smallConfig [Turn.stuck 0]).card = Turn.stuck 0 :: [] := ⟨idle_ready smallConfig_wf _, rfl, rfl⟩

theorem witness_WaitNotBusyExpires : ∀ t ∈ [Turn.overdue 0, Turn.stuck 1],
    (idle { smallConfig with busyTimeout := some 1 } [t]).Ready ∧
      (idle { smallConfig with busyTimeout := some 1 } [t]).cfg.busyTimeout = some 1 :=
  fun _ _ => ⟨idle_ready (by decide) _, rfl⟩

/-! ### Wire commands -/

/-- CMD0, CMD2, CMD3, CMD8, ACMD41, CMD55, CMD9: a card that answers (R2 of a CSD, R6, R7, R3, R1). -/
theorem witness_answered_commands : ∀ r ∈ [csd2, r6, r7, r7Bad, r3, r3Busy, r55, r1Bad], (idle smallConfig [Turn.answer 3 r]).Ready ∧
    (Captured 17 r ∨ Captured 6 r) := by
  intro r h
  refine ⟨idle_ready smallConfig_wf _, ?_⟩
  simp only [List.mem_cons, List.not_mem_nil, or_false] at h
  rcases h with rfl | rfl | rfl | rfl | rfl | rfl | rfl | rfl
  · exact .inl ⟨rfl, by decide⟩
  all_goals exact .inr ⟨rfl, by decide⟩

/-- The two outcomes of CMD8 and of ACMD41. -/
theorem witness_Cmd8Completes : (r7.getD 3 0#8 &&& 0x0F#8 = 0x01#8 ∧ r7.getD 4 0#8 = 0xAA#8) ∧
    ¬ (r7Bad.getD 3 0#8 &&& 0x0F#8 = 0x01#8 ∧ r7Bad.getD 4 0#8 = 0xAA#8) := by decide
theorem witness_Acmd41Completes : (r3.getD 1 0#8).getLsbD 7 = true ∧ (r3Busy.getD 1 0#8).getLsbD 7 = false := by decide
/-- A version 2 and a version 1 CSD whose counts fit. -/
theorem witness_Cmd9Completes : (csdField csd2 127 126 ≤ 1 ∧ csdBlocks csd2 < 2 ^ 32) ∧ (csdField csd1 127 126 ≤ 1 ∧ csdBlocks csd1 < 2 ^ 32) := by
  decide +kernel
/-- ACMD6, CMD7, CMD12: a status that passes, one that fails, and the busy polls. -/
theorem witness_busy_commands : ∀ r ∈ [r1, r1Bad], (idle smallConfig [Turn.answer 0 r, Turn.busy 0]).Ready ∧ Captured 6 r := by
  intro r h
  refine ⟨idle_ready smallConfig_wf _, ?_⟩
  simp only [List.mem_cons, List.not_mem_nil, or_false] at h
  rcases h with rfl | rfl <;> exact ⟨rfl, by decide⟩
theorem witness_statuses : statusOk (payload r1) = true ∧ statusOk (payload r1Bad) = false := by decide

/-- The card's part in the switch-status read. -/
def switchPlay : ReadPlay := ⟨0, r1, [⟨2, List.replicate 64 1#8, [0#8, 0#8], Tick.quiet⟩], 0, [], 0⟩
theorem switchPlay_good : switchPlay.Good 6#6 .one 64 1 false :=
  ⟨r1_passes, rfl, by decide, fun h => absurd h (by decide), fun h => nomatch h⟩
theorem witness_Cmd6Completes : (idle smallConfig (switchPlay.turns 6#6 .one)).Ready ∧ switchPlay.Good 6#6 .one 64 1 false :=
  ⟨idle_ready smallConfig_wf _, switchPlay_good⟩

/-- A command of each size of response, unanswered. -/
theorem witness_WireCommandsTimeOut : (idle smallConfig [Turn.silent]).Ready ∧ Unanswers 136 Turn.silent ∧ Unanswers 48 Turn.silent ∧
    Instr.cmd9 0xFFFF#16 ∈ [Instr.cmd2, .cmd9 0xFFFF#16] ∧
    Instr.cmd55 0xFFFF#16 ∈ [Instr.cmd3, .acmd6 true, .cmd7 0xFFFF#16, .cmd8, .cmd12, .acmd41 0#32, .cmd55 0xFFFF#16] :=
  ⟨idle_ready smallConfig_wf _, .silent, .silent, by decide, by decide⟩

/-! ### Block transfer -/

/-- A block of erased bytes, with its CRC for one line (V15) and for four (V54). -/
def erased (crc : List Byte) : CardBlock := ⟨1, List.replicate 512 0xFF#8, crc, Tick.onDat 0xF#4⟩
def erasedOne : CardBlock := erased [0x7F#8, 0xA1#8]
def erasedFour : CardBlock := erased [0xFF#8, 0xF0#8, 0xFF#8, 0x0F#8, 0xF0#8, 0xF0#8, 0xF0#8, 0x0F#8]

/-- A card that sends `n` blocks of a kind. -/
def blocksPlay (b : CardBlock) (n : Nat) : ReadPlay := ⟨5, r1, List.replicate n b, 0, r1, 0⟩

theorem blocksPlay_good (cmd : BitVec 6) {w : Width} (crc : List Byte) (n : Nat) (h : crc.length = 2 * w.lines) :
    (blocksPlay (erased crc) n).Good cmd w 512 n false where
  answer := r1_passes
  count  := List.length_replicate
  blocks := by
    intro b hb
    rw [List.eq_of_mem_replicate hb]
    exact ⟨List.length_replicate, h⟩
  stop   := fun _ => r1_passes
  crc    := fun h => nomatch h

/-- CMD17 on one line with a CRC destination at the end of memory. -/
theorem witness_ReadBlock_cmd17 :
    let s := idle smallConfig ((blocksPlay erasedOne 1).turns 17#6 .one)
    s.Ready ∧ s.sessionValid = true ∧ readOperandsOk 17#32 4#32 1#32 0xFFFFFFFC#32 = true ∧
      readExtentsOk 17#32 4#32 (1#32).toNat 0xFFFFFFFC#32 s = true ∧ (blocksPlay erasedOne 1).Good 17#6 .one 512 1 false :=
  ⟨idle_ready smallConfig_wf _, rfl, by decide, by decide, blocksPlay_good _ _ 1 rfl⟩

/-- CMD18 of 32 blocks on four lines, the buffer at the end of memory. -/
theorem witness_ReadBlock_cmd18 :
    let s := idleFour ((blocksPlay erasedFour 32).turns 18#6 .four)
    s.Ready ∧ s.sessionValid = true ∧ readOperandsOk 18#32 0xFFFFC000#32 32#32 0#32 = true ∧
      readExtentsOk 18#32 0xFFFFC000#32 (32#32).toNat 0#32 s = true ∧ (blocksPlay erasedFour 32).Good 18#6 .four 512 32 false :=
  ⟨idleFour_ready _, rfl, by decide, by decide, blocksPlay_good _ _ 32 rfl⟩

/-- CMD6 through READ_BLOCK. -/
theorem witness_ReadBlock_cmd6 :
    let s := idle smallConfig (switchPlay.turns 6#6 .one)
    s.Ready ∧ s.sessionValid = true ∧ readOperandsOk 6#32 0xFFFFFFC0#32 1#32 0#32 = true ∧
      readExtentsOk 6#32 0xFFFFFFC0#32 (1#32).toNat 0#32 s = true ∧ switchPlay.Good 6#6 .one 64 1 false :=
  ⟨idle_ready smallConfig_wf _, rfl, by decide, by decide, switchPlay_good⟩

theorem witness_ReadBlockChainLimit : (fresh []).Inv ∧ (fresh []).phase = .idle ∧ 32 < (33#32).toNat :=
  ⟨(fresh_bootable []).inv, rfl, by decide⟩

/-- First and second clause: a command that is not answered, one cut off, and one whose status fails. -/
theorem witness_ReadBlockCommandFails :
    (∀ f ∈ [Turn.silent, Turn.cutOff 0 [], Turn.answer 0 r1Bad], (idle smallConfig [f]).Ready ∧ ∃ c, Fails f c) ∧
    readOperandsOk 17#32 4#32 1#32 0#32 = true ∧ readExtentsOk 17#32 4#32 1 0#32 (idle smallConfig []) = true := by
  refine ⟨fun f h => ⟨idle_ready smallConfig_wf _, ?_⟩, by decide, by decide⟩
  simp only [List.mem_cons, List.not_mem_nil, or_false] at h
  rcases h with rfl | rfl | rfl
  · exact ⟨_, .timeout _ .silent⟩
  · exact ⟨_, .timeout _ (.cutOff _ _ (by decide))⟩
  · exact ⟨_, .status 0 r1Bad r1Bad_fails.1 r1Bad_fails.2⟩

/-- Third clause: 32 blocks landed on four lines, and CMD12 is not answered, or its status fails. -/
theorem witness_ReadBlockCommandFails_stop : ∀ fs ∈ [[Turn.silent], [Turn.answer 0 r1Bad, Turn.busy 3]],
    (idleFour (Turn.answer 0 r1 :: Turn.blocks .four (List.replicate 32 erasedFour) :: (fs ++ []))).Ready ∧ Passes r1 ∧
      (∃ c, StopFails fs c) ∧ readOperandsOk 18#32 0xFFFFC000#32 32#32 0#32 = true ∧
      readExtentsOk 18#32 0xFFFFC000#32 32 0#32 (idleFour []) = true ∧
      ∀ b ∈ List.replicate 32 erasedFour, b.data.length = 512 ∧ b.crc.length = 2 * Width.four.lines := by
  intro fs h
  refine ⟨idleFour_ready _, r1_passes, ?_, by decide, by decide, ?_⟩
  · simp only [List.mem_cons, List.not_mem_nil, or_false] at h
    rcases h with rfl | rfl
    · exact ⟨_, .timeout _ .silent⟩
    · exact ⟨_, .status 0 r1Bad 3 r1Bad_fails.1 r1Bad_fails.2⟩
  · intro b hb
    rw [List.eq_of_mem_replicate hb]
    exact ⟨List.length_replicate, rfl⟩

/-- Fourth clause: the extent of 32 blocks on four lines, the largest there is. -/
theorem witness_ReadBlockCommandFails_draws :
    let o : ReadOp := ⟨18#6, 0#32, 0xFFFFC000#32, 32, 0x2000#32, .four⟩
    (List.replicate 4096 (0xFFFFFFFF#32)).length = o.count * o.dataWords ∧ [0#32, 1#32].length = o.width.crcWords :=
  ⟨List.length_replicate, rfl⟩

/-- The operands of the first clause are those above. -/
theorem witness_ReadBlockDataTimeout : (idle smallConfig [Turn.answer 0 r1, Turn.silent]).Ready ∧
    (idle smallConfig [Turn.answer 0 r1, Turn.silent]).cfg.readDataBounded = true ∧ Passes r1 ∧
    (idle smallConfig [Turn.answer 0 r1, Turn.silent]).sessionValid = true :=
  ⟨idle_ready smallConfig_wf _, rfl, r1_passes, rfl⟩

/-- The second clause: the card drives the data lines all the while the frame and the response are on CMD. -/
theorem witness_ReadBlockDataTimeout_always :
    let u : Turn := ⟨List.replicate 48 (Tick.onDat0 false), answerTicks 0 r1, false, false⟩
    (idle smallConfig [u, Turn.silent]).Ready ∧ (idle smallConfig [u, Turn.silent]).cfg.readDataBounded = true ∧
      (idle smallConfig [u, Turn.silent]).sessionValid = true ∧ readOperandsOk 17#32 4#32 1#32 0#32 = true ∧
      readExtentsOk 17#32 4#32 1 0#32 (idle smallConfig [u, Turn.silent]) = true :=
  ⟨idle_ready smallConfig_wf _, rfl, rfl, by decide, by decide⟩

/-- The last 512 bytes of memory are written to the card. -/
theorem witness_WriteBlockSendsTheBlock :
    let s := idle smallConfig ((WritePlay.mk 0 r1 3).turns)
    s.Ready ∧ s.sessionValid = true ∧ alignedNonNull 0xFFFFFE00#32 = true ∧ extentOk s.cfg 0xFFFFFE00#32 512 = true ∧ Passes r1 :=
  ⟨idle_ready smallConfig_wf _, rfl, by decide, by decide, r1_passes⟩

theorem witness_WriteBlockCommandFails :
    (idle smallConfig [Turn.silent]).Ready ∧ alignedNonNull 4#32 = true ∧ extentOk smallConfig 4#32 512 = true ∧
      Fails Turn.silent .cmdTimeout := ⟨idle_ready smallConfig_wf _, by decide, by decide, .timeout _ .silent⟩

/-! ### Width and session -/

theorem witness_SetWidthIdempotent : (idleFour []).Ready ∧ (idleFour []).sessionValid = true := ⟨idleFour_ready _, rfl⟩

/-- From one line to four, and back. -/
theorem witness_SetWidthCompletes :
    (idle smallConfig [Turn.answer 0 r55, Turn.answer 0 r1]).Ready ∧ Width.four ≠ (idle smallConfig []).session.dataWidth ∧
      (idleFour [Turn.answer 0 r55, Turn.answer 0 r1]).Ready ∧ Width.one ≠ (idleFour []).session.dataWidth ∧ Passes r55 ∧ Passes r1 :=
  ⟨idle_ready smallConfig_wf _, by decide, idleFour_ready _, by decide, r55_passes, r1_passes⟩

/-- CMD55 is cut off before its last bit; CMD55 passes and the status of ACMD6 fails. -/
theorem witness_SetWidthSilentFailure : (idle smallConfig [Turn.cutOff 2 (List.replicate 46 true)]).Ready ∧
    (idle smallConfig [Turn.answer 0 r55, Turn.answer 0 r1Bad]).Ready ∧ Width.four ≠ (idle smallConfig []).session.dataWidth ∧
    Fails (Turn.cutOff 2 (List.replicate 46 true)) .cmdTimeout ∧ Fails (Turn.answer 0 r1Bad) .statusError ∧ Passes r55 :=
  ⟨idle_ready smallConfig_wf _, idle_ready smallConfig_wf _, by decide, .timeout _ (.cutOff _ _ (by decide)),
    .status 0 r1Bad r1Bad_fails.1 r1Bad_fails.2, r55_passes⟩

/-- V34 and V32 in memory. -/
theorem witness_ParseCsdCompletes : ∀ r ∈ [csd1, csd2], (idleMem 0x1000#32 r).Inv ∧ (idleMem 0x1000#32 r).phase = .idle ∧
    extentOk smallConfig 0x1000#32 17 = true ∧ csdField ((idleMem 0x1000#32 r).mem.readBytes 0x1000#32 17) 127 126 ≤ 1 ∧
    csdBlocks ((idleMem 0x1000#32 r).mem.readBytes 0x1000#32 17) < 2 ^ 32 := by
  intro r h
  simp only [List.mem_cons, List.not_mem_nil, or_false] at h
  rcases h with rfl | rfl <;>
    exact ⟨⟨by decide +kernel, rfl, ⟨fun _ => rfl, fun _ => rfl⟩, ⟨fun _ => rfl, fun _ => rfl⟩⟩, rfl, by decide, by decide +kernel,
      by decide +kernel⟩

/-- V45 in memory. -/
theorem witness_ParseCsdOverflow : (idleMem 0x1000#32 csdOver).Inv ∧ (idleMem 0x1000#32 csdOver).phase = .idle ∧
    extentOk smallConfig 0x1000#32 17 = true ∧ csdField ((idleMem 0x1000#32 csdOver).mem.readBytes 0x1000#32 17) 127 126 = 1 ∧
    csdField ((idleMem 0x1000#32 csdOver).mem.readBytes 0x1000#32 17) 69 48 = 0x3FFFFF :=
  ⟨⟨by decide +kernel, rfl, ⟨fun _ => rfl, fun _ => rfl⟩, ⟨fun _ => rfl, fun _ => rfl⟩⟩, rfl, by decide, by decide +kernel,
    by decide +kernel⟩

theorem witness_GetStorageSizeCompletes : (idle smallConfig []).Inv ∧ (idle smallConfig []).phase = .idle ∧
    (idle smallConfig []).sessionValid = true ∧ (fresh []).Inv ∧ (fresh []).sessionValid = false :=
  ⟨(idle_ready smallConfig_wf _).inv, rfl, rfl, (fresh_bootable []).inv, rfl⟩

/-- A card that needs every kind of round of the poll loop. -/
def initPlay (switch : SwitchPlay) : InitPlay where
  latency8  := 0
  cond      := r7
  polls     := [.silent55, .status55 0 r1Bad, .silent41 0 r55, .notReady 0 r55 0 r3Busy]
  latency55 := 0
  r55       := r55
  latency41 := 0
  ocr       := r3
  latency2  := 0
  cid       := csd1
  latency3  := 0
  rca       := r6
  latency9  := 0
  csd       := csd2
  latency7  := 0
  r7        := r1
  busy      := 2
  switch    := switch

theorem initPlay_good {switch : SwitchPlay} (h : switch.Good false) : (initPlay switch).Good false where
  cond   := ⟨answers_captured.1, answers_read.1⟩
  polls  := by
    intro x hx
    simp only [initPlay, List.mem_cons, List.not_mem_nil, or_false] at hx
    rcases hx with rfl | rfl | rfl | rfl
    · trivial
    · exact r1Bad_fails
    · exact r55_passes
    · exact ⟨r55_passes, answers_captured.2.2.1, answers_read.2.2.1⟩
  app    := r55_passes
  ocr    := ⟨answers_captured.2.1, answers_read.2.1⟩
  cid    := answers_captured.2.2.2.2.1
  rca    := answers_captured.2.2.2.1
  csd    := ⟨answers_captured.2.2.2.2.2, answers_read.2.2.2.1, answers_read.2.2.2.2⟩
  select := r1_passes
  switch := h

/-- From reset, with each outcome of step 11. -/
theorem witness_StorageInitCompletes : ∀ sw ∈ [.read switchPlay, .failed Turn.silent .cmdTimeout, SwitchPlay.noData 0 r1],
    (fresh ((initPlay sw).turns)).Bootable ∧ (initPlay sw).Good false ∧ smallConfig.busyTimeout = none ∧
      smallConfig.readDataBounded = true := by
  intro sw h
  refine ⟨fresh_bootable _, initPlay_good ?_, rfl, rfl⟩
  simp only [List.mem_cons, List.not_mem_nil, or_false] at h
  rcases h with rfl | rfl | rfl
  · exact switchPlay_good
  · exact Fails.timeout _ .silent
  · exact r1_passes

/-- The same from an engine that was initialised before. -/
theorem witness_StorageInitCompletes_again : (idle smallConfig []).Bootable where
  inv        := (idle_ready smallConfig_wf []).inv
  idle       := rfl
  quiescent  := ⟨(idle_ready smallConfig_wf []).cseq, (idle_ready smallConfig_wf []).dseq, rfl, rfl, rfl⟩
  programmed := fun _ => ⟨rfl, rfl⟩
  cfg        := smallConfig_wf

/-- Each step that can fail, with a Turn that fails it; and a check pattern that is not echoed. -/
theorem witness_StorageInitRefusesTheCard :
    (∀ e : InitStep, ∃ t c, e.Fails t c ∧
      (fresh ((initPlay (.read switchPlay)).turnsTo e ++ t :: [])).Bootable ∧ (initPlay (.read switchPlay)).Good false) ∧
    smallConfig.busyTimeout = none ∧ InitStep.ifCond.Fails (Turn.answer 0 r7Bad) .ifCond := by
  refine ⟨fun e => ?_, rfl, .inr ⟨rfl, 0, r7Bad, rfl, ⟨rfl, by decide⟩, by decide⟩⟩
  cases e
  · exact ⟨_, _, .inl ⟨.silent, rfl⟩, fresh_bootable _, initPlay_good switchPlay_good⟩
  · exact ⟨_, _, ⟨.silent, rfl⟩, fresh_bootable _, initPlay_good switchPlay_good⟩
  · exact ⟨_, _, ⟨.silent, rfl⟩, fresh_bootable _, initPlay_good switchPlay_good⟩
  · exact ⟨_, _, ⟨.silent, rfl⟩, fresh_bootable _, initPlay_good switchPlay_good⟩
  · exact ⟨_, _, .status 0 r1Bad r1Bad_fails.1 r1Bad_fails.2, fresh_bootable _, initPlay_good switchPlay_good⟩

/-- First clause: a card that answers CMD8 and is removed. -/
theorem witness_StorageInitPollsForEver : (fresh [Turn.answer 0 r7]).Bootable ∧ (fresh [Turn.answer 0 r7]).cfg.busyTimeout = none ∧
    Captured 6 r7 := ⟨fresh_bootable _, rfl, rfl, by decide⟩

/-- Second clause: the state it waits in. -/
theorem witness_PollsForEver :
    PollsForEver { idle smallConfig [] with phase := .init5, stack := [.initPoll], done := false, sessionValid := false } :=
  ⟨rfl, rfl, rfl, rfl, rfl, rfl, rfl, (idle_ready smallConfig_wf []).cseq, rfl, (idle_ready smallConfig_wf []).dseq, rfl, rfl, rfl, rfl,
    smallConfig_wf, rfl⟩

/-- 33 blocks: a chunk of 32 and one of a single block, after a change of width. -/
theorem witness_StorageReadCompletes :
    let wp : WidthPlay := .accepted 0 r55 0 r1
    let ps := [blocksPlay erasedFour 32, blocksPlay erasedFour 1]
    let s := idle smallConfig (wp.turns .one .four ++ chunkTurns .four 33 ps ++ [])
    s.Ready ∧ s.sessionValid = true ∧ storageOperandsOk 0#32 0x1000#32 16896#32 = true ∧
      extentOk s.cfg 0x1000#32 (16896#32).toNat = true ∧ wp.Good .one .four ∧ (16896#32).toNat / 512 = 33 ∧
      ChunksGood .four false 33 ps 0 :=
  ⟨idle_ready smallConfig_wf _, rfl, by decide, by decide, fun _ => ⟨r55_passes, r1_passes⟩, by decide,
    ⟨by decide, blocksPlay_good _ _ 32 rfl, by decide, blocksPlay_good _ _ 1 rfl, rfl⟩⟩

/-- No block at all, and a null buffer (V73). -/
theorem witness_StorageReadCompletes_none : (idleFour []).Ready ∧ storageOperandsOk 0#32 0#32 0#32 = true ∧
    extentOk smallConfig 0#32 (0#32).toNat = true ∧ ChunksGood .four false ((0#32).toNat / 512) [] 0 :=
  ⟨idleFour_ready _, by decide, by decide, rfl⟩

/-- The width stays one line, because CMD55 or ACMD6 fails: one block follows on it. -/
theorem witness_StorageReadCompletes_width :
    ∀ wp ∈ [.fails55 Turn.silent .cmdTimeout, WidthPlay.fails6 0 r55 (Turn.answer 0 r1Bad) .statusError],
    let ps := [blocksPlay erasedOne 1]
    (idle smallConfig (wp.turns .one .four ++ chunkTurns (wp.width .one .four) 1 ps ++ [])).Ready ∧ wp.Good .one .four ∧
      ChunksGood (wp.width .one .four) false 1 ps 0 := by
  intro wp h
  simp only [List.mem_cons, List.not_mem_nil, or_false] at h
  rcases h with rfl | rfl
  · exact ⟨idle_ready smallConfig_wf _, fun _ => .timeout _ .silent, by decide, blocksPlay_good _ _ 1 rfl, rfl⟩
  · exact ⟨idle_ready smallConfig_wf _, fun _ => ⟨r55_passes, .status 0 r1Bad r1Bad_fails.1 r1Bad_fails.2⟩, by decide,
      blocksPlay_good _ _ 1 rfl, rfl⟩

/-- 40 blocks, the second chunk of which fails (V61), and 1 block that fails (left = 1). -/
theorem witness_StorageReadStopsShort :
    let ps := [blocksPlay erasedFour 32]
    (idleFour (chunkTurns .four 40 ps ++ [Turn.answer 0 r1Bad])).Ready ∧ storageOperandsOk 0#32 0x1000#32 20480#32 = true ∧
      extentOk smallConfig 0x1000#32 (20480#32).toNat = true ∧ (20480#32).toNat / 512 = 40 ∧ ChunksGood .four false 40 ps 8 ∧
      ChunksGood .four false 1 [] 1 ∧ Fails (Turn.answer 0 r1Bad) .statusError :=
  ⟨idleFour_ready _, by decide, by decide, by decide, ⟨by decide, blocksPlay_good _ _ 32 rfl, rfl⟩, rfl,
    .status 0 r1Bad r1Bad_fails.1 r1Bad_fails.2⟩

/-- Two blocks to a card that is on four lines. -/
theorem witness_StorageWriteCompletes :
    let wp : WidthPlay := .accepted 0 r55 0 r1
    let ps : List WritePlay := [⟨0, r1, 0⟩, ⟨0, r1, 5⟩]
    let s := idleFour (wp.turns .four .one ++ ps.flatMap WritePlay.turns ++ [])
    s.Ready ∧ storageOperandsOk 0#32 0x1000#32 1024#32 = true ∧ extentOk s.cfg 0x1000#32 (1024#32).toNat = true ∧
      wp.Good .four .one ∧ ps.length = (1024#32).toNat / 512 ∧ ∀ p ∈ ps, Passes p.r := by
  refine ⟨idleFour_ready _, by decide, by decide, fun _ => ⟨r55_passes, r1_passes⟩, by decide, ?_⟩
  intro p hp
  simp only [List.mem_cons, List.not_mem_nil, or_false] at hp
  rcases hp with rfl | rfl <;> exact r1_passes

/-- The same with a card that does not take the new width. -/
theorem witness_StorageWriteCompletes_width : (WidthPlay.fails55 Turn.silent .cmdTimeout).Good .four .one ∧
    (WidthPlay.fails55 Turn.silent .cmdTimeout).width .four .one = .four := ⟨fun _ => .timeout _ .silent, rfl⟩

/-- The first block of two fails. -/
theorem witness_StorageWriteStopsShort : (idle smallConfig [Turn.silent]).Ready ∧ storageOperandsOk 0#32 0x1000#32 1024#32 = true ∧
    ([] : List WritePlay).length < (1024#32).toNat / 512 ∧ Fails Turn.silent .cmdTimeout :=
  ⟨idle_ready smallConfig_wf _, by decide, by decide, .timeout _ .silent⟩

/-! ### Refusals and the machine -/

theorem witness_RequestWhileBusyRefused : ({ idle smallConfig [] with phase := .notBusy, stack := [.polling, .busyOp] } : State).phase ≠ .idle := by
  decide

theorem witness_SessionNeeded : (fresh []).phase = .idle ∧ (fresh []).sessionValid = false ∧
    readOperandsOk 17#32 4#32 1#32 0#32 = true ∧ readExtentsOk 17#32 4#32 1 0#32 (fresh []) = true ∧ alignedNonNull 4#32 = true ∧
    extentOk smallConfig 4#32 512 = true ∧ storageOperandsOk 0#32 4#32 512#32 = true := by decide

/-- Each clause of the domains at the edge of its range: an index of 64, a size of 47 bits, a null and a misaligned buffer,
commands next to 17 and 24, no block, two blocks, widths 0 and 5, an offset of 1, sizes 511 and 2^31. -/
theorem witness_OutsideDomainRefused : (fresh []).phase = .idle ∧ 63 < (64#32).toNat ∧ 47#32 ≠ 48#32 ∧
    alignedNonNull 0#32 = false ∧ alignedNonNull 0xFFFFFFFF#32 = false ∧ 16#32 ≠ 17#32 ∧ 25#32 ≠ 24#32 ∧ (2#32).toNat ≤ 32 ∧
    5#32 ≠ 4#32 ∧ 1#32 ≠ 0#32 ∧ (511#32).toNat % 512 ≠ 0 ∧ 2 ^ 31 ≤ (0x80000000#32).toNat ∧ 3#32 ≠ 2#32 ∧ (1#32).toNat % 4 ≠ 0 := by
  decide

/-- A capacity register of version 2 in memory. -/
theorem witness_OutsideDomainRefused_csd : 2 ≤ csdField ((idleMem 0x1000#32 csdBad).mem.readBytes 0x1000#32 17) 127 126 := by
  decide +kernel

/-- An extent over the end of memory, one over the engine's storage, and two that overlap. -/
theorem witness_ExtentsRefused : extentOk smallConfig 0xFFFFFFFC#32 5 = false ∧ extentOk smallConfig 0x2000030C#32 8 = false ∧
    extentOk smallConfig 0xFFFFFFF0#32 17 = false ∧ extentOk smallConfig 0xFFFFFFF0#32 20 = false ∧
    extentOk smallConfig 0xFFFFFE04#32 512 = false ∧ disjoint 4#32 512 512#32 4 = false ∧ extentOk smallConfig 0#32 5 = true := by
  decide

/-- Each size of a response, the buffer at the end of memory. -/
theorem witness_UnprogrammedRefused : (fresh []).phase = .idle ∧ (fresh []).cseq.mode = .unprogrammed ∧ (63#32).toNat ≤ 63 ∧
    alignedNonNull 0xFFFFFFF8#32 = true ∧ extentOk (fresh []).cfg 0xFFFFFFF8#32 8 = true ∧
    alignedNonNull 0xFFFFFFEC#32 = true ∧ extentOk (fresh []).cfg 0xFFFFFFEC#32 20 = true ∧
    Instr.cmd6 0#32 ∈ [Instr.waitNotBusy, .cmd0, .cmd2, .cmd3, .cmd6 0#32, .acmd6 true, .cmd7 0#16, .cmd8, .cmd9 0#16, .cmd12,
      .acmd41 0#32, .cmd55 0#16] := by decide

/-- Each clause: a request, none, and bytes that are none; a store in the last byte of memory, and one in the engine's
storage. -/
theorem witness_StepRunsTheRequest : (fresh []).stack = [] ∧ decode (fresh []).appPrefix [0x0A#8] = .ok (.storageInit, []) ∧
    (fresh []).host = [] ∧ decode (fresh []).appPrefix [0x0F#8] = .error .reservedSelector ∧
    extentOk (fresh []).cfg 0xFFFFFFFF#32 [0x12#8].length = true ∧ extentOk (fresh []).cfg 0x2000030F#32 [0x12#8].length = false ∧
    Memory.wf (fresh []).mem = true ∧ (fresh []).cfg.wf := by decide

/-- The three premises: at rest, after reset, and waiting, for a line to go high and for the data of a READ_BLOCK. -/
theorem witness_EveryReturnIsQuiescent : (idle smallConfig []).Ready ∧
    ((after (exec .cmd0 (idle smallConfig []))).map (·.stack)) = some [] ∧ (fresh [Turn.silent]).Bootable ∧
    (after (exec .storageInit (fresh [Turn.silent]))).isSome = true :=
  ⟨idle_ready smallConfig_wf _, by decide +kernel, fresh_bootable _, by decide +kernel⟩

/-- WAIT_NOT_BUSY with a line that stays low. -/
theorem witness_EveryReturnIsQuiescent_polls :
    let s : State := { idle smallConfig [Turn.stuck 0] with phase := .notBusy, stack := [.polling, .busyOp], done := false,
                                                            cseq := { Seq.reset.program with owner := .engine } }
    s.Running ∧ after (step s) = some s :=
  ⟨⟨⟨rfl, rfl, ⟨fun h => (nomatch h), fun h => (nomatch h)⟩, ⟨fun h => (nomatch h), fun h => (nomatch h)⟩⟩, rfl, smallConfig_wf,
    ⟨rfl, ⟨⟨.inl rfl, rfl, rfl, rfl, rfl, rfl⟩, rfl, ⟨.inl rfl, rfl, rfl, rfl, rfl, rfl⟩, rfl, rfl, rfl⟩⟩, by
      intro f h
      simp only [List.mem_cons, List.not_mem_nil, or_false] at h
      rcases h with rfl | rfl <;> trivial⟩, by decide +kernel⟩

/-- A READ_BLOCK of one block in memory that DSEQ has not begun to receive. -/
def oneBlock : ReadOp := ⟨17#6, 5#32, 0x1000#32, 1, 0x2000#32, .one⟩

/-- The engine waits for its data: the table is in memory, the chain is at the block's data, and DSEQ hunts. -/
def waitsForData : State :=
  { idle smallConfig [] with
    phase := .rdWait, stack := [.readData oneBlock 0], done := false
    dseq := { Seq.reset.program with mode := .recvHunt, bitsLeft := 4112 }
    dma0 := ⟨true, .dseqRxf, .mem 0x1000#32, 128#32, false, true, true, .dseqRx, .dma1, true⟩
    dma1 := ⟨true, smallConfig.tableAddr + 8#32, true⟩
    mem := Memory.writeWords [] smallConfig.tableAddr [0x1000#32, 128#32, 0x2000#32, 1#32, 0#32, 0#32] }

theorem witness_EveryReturnIsQuiescent_reads : waitsForData.Running where
  inv    := ⟨by decide +kernel, rfl, ⟨fun h => (nomatch h), fun h => (nomatch h)⟩, ⟨fun h => (nomatch h), fun h => (nomatch h)⟩⟩
  clock  := rfl
  cfg    := smallConfig_wf
  waits  := by
    refine ⟨⟨.inl rfl, rfl, rfl, rfl, rfl, rfl⟩, rfl, by decide, rfl, ⟨by decide, by decide, by decide, by decide, by decide, by decide⟩,
      ⟨?_, ?_, ?_, ?_, by decide +kernel⟩, rfl, ⟨.inr (.inl ⟨rfl, rfl, rfl⟩), .inl rfl, by decide, rfl, rfl⟩, ?_⟩
    · decide +kernel
    · decide +kernel
    · decide +kernel
    · decide +kernel
    · exact .data 0 128 (by decide) (by decide) (by decide) rfl rfl rfl rfl rfl
  frames := by
    intro f h
    simp only [waitsForData, List.mem_cons, List.not_mem_nil, or_false] at h
    subst h
    trivial

/-- R283: the chain has ended already and the deadline has passed at the first poll (U30). -/
theorem test_timeout_always_available :
    (match readData oneBlock [Turn.silent] 0 (idle smallConfig []) with
      | .done ok s => (ok, s.lastFailure)
      | .waiting _ _ | .refused _ => (true, none)) = (false, some .dataTimeout) := by decide +kernel

theorem witness_StepKeepsTheInvariant : (idle smallConfig []).Inv ∧ after (step (idle smallConfig [])) = some (idle smallConfig []) :=
  ⟨(idle_ready smallConfig_wf _).inv, by decide +kernel⟩

theorem witness_OnlyStorageInitEstablishesTheSession : Instr.getStorageSize ≠ .storageInit ∧
    (after (exec .getStorageSize (idle smallConfig []))).isSome = true := by decide +kernel

/-- With VERIFY_READ_CRC the right CRC of a 64-byte block on one line: V55. -/
theorem witness_good_crc : CardBlock.good .one ⟨0, [0#8, 0x64#8, 0x80#8, 1#8, 0x80#8, 1#8, 0x80#8, 1#8, 0x80#8, 1#8, 0x80#8, 1#8, 0x80#8, 3#8,
    0#8, 0#8, 1#8] ++ List.replicate 47 0#8, [0x2D#8, 0x1F#8], Tick.quiet⟩ := by
  unfold CardBlock.good
  decide +kernel

end Sys2Proof.Tests
end

/-! # Proofs: a step of an engine at rest (spec/00_scope.md R4, R6, R16; logs 1, 3, 23) -/

section
namespace Sys2Proof.Machine

/-! ## The decoder reads every record back (log 3) -/

/-- The selector codes lie below the first bytes of frames (R128), so the first byte alone tells the two apart. -/
theorem decode_encodeHostOp (app : Bool) {code : BitVec 8} (hc : code.toNat < 16) (ws : List Word) (rest : List Byte) :
    decode app (encodeHostOp code ws ++ rest) = decodeHostOp code.toNat (wordsBytesLE ws ++ rest) :=
  if_pos hc

theorem decode_encodeWire (app : Bool) (index : BitVec 6) (arg : Word) (ws : List Word) (rest : List Byte) :
    decode app (encodeWire index arg ws ++ rest) = decodeWire app index.toNat arg (wordsBytesLE ws ++ rest) := by
  rw [encodeWire, List.append_assoc, decode_frame]
  rfl

theorem takeWord_wordsBytesLE_cons {α : Type} (w : Word) (ws : List Word) (bs : List Byte)
    (k : Word → List Byte → Except DecodeError α) :
    takeWord (wordsBytesLE (w :: ws) ++ bs) k = k w (wordsBytesLE ws ++ bs) := by
  rw [show wordsBytesLE (w :: ws) ++ bs = wordBytesLE w ++ (wordsBytesLE ws ++ bs) from List.append_assoc ..,
    takeWord_wordBytesLE]

theorem wordsBytesLE_nil_append (bs : List Byte) : wordsBytesLE [] ++ bs = bs := rfl

/-- The two premises are the readings of R111: an application command follows an accepted CMD55, and the frame of index 6
is CMD6 only without one. -/
theorem decode_encode {app : Bool} {i : Instr} (happ : i.isApp = true → app = true)
    (hcmd6 : ∀ arg, i = .cmd6 arg → app = false) (rest : List Byte) : decode app (encode i ++ rest) = .ok (i, rest) := by
  cases i with
  | cmd0 | cmd2 | cmd3 | cmd8 | cmd12 => exact decode_encodeWire ..
  | cmd7 rca | cmd9 rca | cmd55 rca => exact (decode_encodeWire ..).trans (decodeRca_rcaArg ..)
  | cmd6 arg =>
    obtain rfl : app = false := hcmd6 arg rfl
    exact decode_encodeWire ..
  | acmd6 wide =>
    obtain rfl : app = true := happ rfl
    cases wide <;> exact decode_encodeWire ..
  | acmd41 arg =>
    obtain rfl : app = true := happ rfl
    exact decode_encodeWire ..
  | cmd17 | cmd18 | cmd24 =>
    simp only [encode, decode_encodeWire, decodeWire, BitVec.toNat_ofNat, Nat.reducePow, Nat.reduceMod,
      takeWord_wordsBytesLE_cons, wordsBytesLE_nil_append]
  | waitNotBusy | storageInit | getStorageSize => exact decode_encodeHostOp app (by decide) ..
  | _ =>
    rw [encode, decode_encodeHostOp app (by decide)]
    simp only [decodeHostOp, BitVec.toNat_ofNat, Nat.reducePow, Nat.reduceMod, takeWord_wordsBytesLE_cons,
      wordsBytesLE_nil_append]

/-! ## A step at rest, by the host's next act -/

section
variable {s : State} {acts : List HostAct} {bs : List Byte}

theorem step_of_no_act (hs : s.stack = []) (hh : s.host = []) : step s = .next s := by
  simp only [step, if_pos hs, State.hostStep, hh]

theorem step_of_request {i : Instr} {rest : List Byte} (hs : s.stack = []) (hh : s.host = .request bs :: acts)
    (hd : decode s.appPrefix bs = .ok (i, rest)) : step s = exec i { s with host := acts } := by
  simp only [step, if_pos hs, State.hostStep, hh, hd]

theorem step_of_bad_request {e : DecodeError} (hs : s.stack = []) (hh : s.host = .request bs :: acts)
    (hd : decode s.appPrefix bs = .error e) : step s = .refused .badRequest := by
  simp only [step, if_pos hs, State.hostStep, hh, hd]

theorem step_of_store {a : Word} (hs : s.stack = []) (hh : s.host = .store a bs :: acts)
    (he : extentOk s.cfg a bs.length = true) :
    step s = .next { s with host := acts, mem := s.mem.writeBytes a bs } := by
  simp only [step, if_pos hs, State.hostStep, hh, if_pos he]

theorem step_of_store_outside {a : Word} (hs : s.stack = []) (hh : s.host = .store a bs :: acts)
    (he : extentOk s.cfg a bs.length = false) : step s = .refused .extent := by
  simp [step, hs, State.hostStep, hh, he]

end

/-! ## What a store of the host leaves in memory -/

/-- An admitted extent, empty or not, ends within the 32-bit addresses. -/
theorem extentOk_end_le {c : Config} (hc : c.wf) {a : Word} {n : Nat} (h : extentOk c a n = true) :
    a.toNat + n ≤ 2 ^ 32 := by
  obtain ⟨-, -, hbits, -⟩ := hc
  obtain ⟨hm, -⟩ := Bool.and_eq_true_iff.1 h
  exact (of_decide_eq_true hm).trans (Nat.pow_le_pow_right (by decide) hbits)

theorem Memory.read_writeBytes_outside {m : Memory} (h : m.wf = true) {a : Word} {bs : List Byte}
    (ha : a.toNat + bs.length ≤ 2 ^ 32) {x : Nat} (hx : ¬ inExtent a bs.length x) :
    (m.writeBytes a bs).read x = m.read x := by
  rw [Memory.read_writeBytes h ha]
  exact if_neg hx

/-! ## The obligation -/

/-- Settles O56, by the head of the host's list of acts; that every record is a request is `decode_encode`. -/
theorem stepRunsTheRequest : Obligations.StepRunsTheRequest := by
  intro s hs
  refine ⟨?request, ?record, step_of_no_act hs, ?bad, ?store⟩
  case request => exact fun bs acts i rest hh hd => step_of_request hs hh hd
  case record => exact fun i rest acts hh happ hcmd6 => step_of_request hs hh (decode_encode happ hcmd6 rest)
  case bad => exact fun bs acts e hh hd => step_of_bad_request hs hh hd
  case store =>
    intro a bs acts hh
    refine ⟨fun he => ⟨_, step_of_store hs hh he, rfl, fun hm hc => ?_⟩, step_of_store_outside hs hh⟩
    have hend := extentOk_end_le hc he
    exact ⟨Memory.wf_writeBytes hm a bs, Memory.readBytes_writeBytes hm hend,
      fun x hx => Memory.read_writeBytes_outside hm hend hx⟩

end Sys2Proof.Machine
end

/-! # Proofs: SD_COMMAND into any buffer (spec/43_command_response.md R193, R195, R199; log 6) -/

section
namespace Sys2Proof.Machine

variable {s u : State} {cmd : BitVec 6} {param dst size a : Word} {res : ResSize} {n : Nat}

/-! ## The operands of an SD_COMMAND with a response -/

/-- A response size that names a response, and the bytes of its buffer (R191, R206). -/
theorem ResSize.ofWord?_response (h : size = 48#32 ∧ n = 8 ∨ size = 136#32 ∧ n = 20) :
    ∃ res, ResSize.ofWord? size = some res ∧ res ≠ .none ∧ n = 4 * res.words ∧ size.toNat = res.bits := by
  obtain ⟨rfl, rfl⟩ | ⟨rfl, rfl⟩ := h
  · exact ⟨.short, rfl, by decide, rfl, rfl⟩
  · exact ⟨.long, rfl, by decide, rfl, rfl⟩

theorem setWidth_toNat_le (cmd : BitVec 6) : (cmd.setWidth 32).toNat ≤ 63 := by
  have := cmd.isLt
  rw [BitVec.toNat_setWidth]
  omega

/-- The tests of an SD_COMMAND with a response after those of its index and its size (R206; their order is log 22). -/
theorem exec_sdCommand_response {index : Word} (hi : s.phase = .idle) (hx : index.toNat ≤ 63)
    (hsize : ResSize.ofWord? size = some res) (hr : res ≠ .none) :
    exec (.sdCommand index param size a) s =
      (guardRun (alignedNonNull a) .responseBuffer <| guardRun (extentOk s.cfg a (4 * res.words)) .extent <|
        guardRun s.cseq.programmed .unprogrammed <|
          .done (.bool (sdCommand (indexOf index) param res a s.busy).1)
            (sdCommand (indexOf index) param res a s.busy).2).outcome := by
  rw [exec, execSdCommand, accept_idle hi, guardRun_of (decide_eq_true hx), hsize]
  cases res with
  | none => exact absurd rfl hr
  | short | long => rfl

/-- An SD_COMMAND of its domain runs and returns. -/
theorem State.Ready.exec_sdCommand (h : s.Ready) (hsize : ResSize.ofWord? size = some res) (hr : res ≠ .none)
    (ha : alignedNonNull a = true) (he : extentOk s.cfg a (4 * res.words) = true) :
    exec (.sdCommand (cmd.setWidth 32) param size a) s =
      .next ((sdCommand cmd param res a s.busy).2.finish (.bool (sdCommand cmd param res a s.busy).1)) := by
  rw [exec_sdCommand_response h.idle (setWidth_toNat_le cmd) hsize hr, guardRun_of ha, guardRun_of he,
    guardRun_of (Seq.programmed_of h.cwaits), indexOf_setWidth, outcome_done]

/-! ## A command that gets no response -/

section
variable {touched : Nat → Prop} {x : Session} {f : Option Cause} {rest : List Turn} {app : Bool} {ev : List PinEvent}

/-- A command with a response into any buffer, unanswered (R195): `Sent.any`, with the result that the card's silence
gives. -/
theorem Sent.silentAt (h : Sent touched s u x f rest app ev) (hs : SendBase s)
    (ht : ∀ y, inExtent s.cfg.frameAddr 6 y ∨ inExtent dst (4 * res.words) y → touched y) (hr : res ≠ .none)
    (ha : dst.toNat + 4 * res.words ≤ 2 ^ 32) (hc : NoAnswer res.bits rest) :
    ∃ v, sdCommand cmd param res dst u = (false, v) ∧
      Sent touched s v x (some .cmdTimeout) rest.tail false (frameEvents cmd param ++ ev) := by
  obtain ⟨b, v, hany, hv⟩ := h.any (cmd := cmd) (param := param) hs ht hr ha
  obtain ⟨_, _, _, _, _, _, _, -, -, -, -, hsilent⟩ := sdCommand_unanswered (cmd := cmd) (param := param) (h.sendable hs)
    h.wf hr (h.still hs) (by rw [h.card]; exact hc) ha
  obtain ⟨rfl, rfl⟩ := Prod.mk.inj (hany.symm.trans hsilent)
  exact ⟨_, hsilent, hv⟩

end

/-! ## The obligations -/

/-- Settles O16: `Sent.any` holds for every Turn, since DSEQ is at rest. -/
theorem sdCommandAlwaysReturns : Obligations.SdCommandAlwaysReturns := by
  intro s cmd param size a n hs hsize ha he
  obtain ⟨res, hres, hr, rfl, -⟩ := ResSize.ofWord?_response hsize
  obtain ⟨b, v, hcmd, hv⟩ := (Sent.start _ hs).any (cmd := cmd) (param := param) hs.base (fun _ hy => hy) hr
    (extentOk_end_le hs.cfg he)
  have hexec := hs.exec_sdCommand (cmd := cmd) (param := param) hres hr ha he
  rw [hcmd] at hexec
  exact ⟨_, b, hexec, hv.frame hs.base _, rfl, hv.session, hv.card, hv.failure, hv.history⟩

/-- Settles O15, by `Sent.silentAt`. -/
theorem sdCommandSilent : Obligations.SdCommandSilent := by
  intro s cmd param size a n u rest hs hsize ha he hu hcard
  obtain ⟨res, hres, hr, rfl, hbits⟩ := ResSize.ofWord?_response hsize
  have hno : NoAnswer res.bits s.card := by rw [hcard, ← hbits]; exact .cons hu
  obtain ⟨v, hcmd, hv⟩ := (Sent.start _ hs).silentAt (cmd := cmd) (param := param) hs.base (fun _ hy => hy) hr
    (extentOk_end_le hs.cfg he) hno
  have hexec := hs.exec_sdCommand (cmd := cmd) (param := param) hres hr ha he
  rw [hcmd] at hexec
  rw [hcard] at hv
  exact ⟨_, hexec, hv.frame hs.base _, hv.returned _⟩

end Sys2Proof.Machine
end

/-! # Proofs: extents and operands outside a request's domain (spec/20_memory.md R79, R81; spec/30_encoding.md R131; the
order of the tests is log 22) -/

section
namespace Sys2Proof.Machine

variable {s : State} {r : Refusal}

/-! ## A test that fails -/

theorem guardRun_refused {α : Type} {ok : Bool} (h : ok = false) (r : Refusal) (k : Run α) :
    guardRun ok r k = .refused r := by
  subst h; rfl

theorem accept_refused {k : State → Run OpResult} (hi : s.phase = .idle) (h : k s.busy = .refused r) :
    s.accept k = .refused r := by
  rw [accept_idle hi, h, outcome_refused]

theorem aligned_of {a : Word} (h : a.toNat % 4 = 0) : aligned a = true := decide_eq_true h

/-! ## CRC7 and CRC16 -/

theorem exec_crc_extent {bytes n : Word} (hi : s.phase = .idle) (he : extentOk s.cfg bytes n.toNat = false) :
    exec (.crc7 bytes n) s = .refused .extent ∧ exec (.crc16 bytes n) s = .refused .extent :=
  ⟨by rw [exec, execCrc7, accept_idle hi, guardRun_refused he, outcome_refused],
    by rw [exec, execCrc16, accept_idle hi, guardRun_refused he, outcome_refused]⟩

/-! ## SD_COMMAND -/

section
variable {cmd param size a : Word} {res : ResSize}

theorem exec_sdCommand_extent (hi : s.phase = .idle) (hx : cmd.toNat ≤ 63)
    (hsize : ResSize.ofWord? size = some res) (hr : res ≠ .none) (ha : alignedNonNull a = true)
    (he : extentOk s.cfg a (4 * res.words) = false) : exec (.sdCommand cmd param size a) s = .refused .extent := by
  rw [exec_sdCommand_response hi hx hsize hr, guardRun_of ha, guardRun_refused he, outcome_refused]

end

/-! ## RESP_FIX, CHECK_RES_STATUS, PARSE_CSD -/

section
variable {a n : Word}

theorem exec_respFix_extent (hi : s.phase = .idle) (hn : n = 2#32 ∨ n = 5#32) (ha : a.toNat % 4 = 0)
    (he : extentOk s.cfg a (4 * n.toNat) = false) : exec (.respFix a n) s = .refused .extent := by
  have hcount : (n == 2#32 || n == 5#32) = true := by simpa using hn
  rw [exec, execRespFix, accept_idle hi, guardRun_of hcount, guardRun_of (aligned_of ha), guardRun_refused he,
    outcome_refused]

theorem exec_checkResStatus_extent (hi : s.phase = .idle) (ha : a.toNat % 4 = 0) (he : extentOk s.cfg a 5 = false) :
    exec (.checkResStatus a) s = .refused .extent := by
  rw [exec, execCheckResStatus, accept_idle hi, guardRun_of (aligned_of ha), guardRun_refused he, outcome_refused]

theorem exec_parseCsd_extent (hi : s.phase = .idle) (ha : a.toNat % 4 = 0) (he : extentOk s.cfg a 17 = false) :
    exec (.parseCsd a) s = .refused .extent := by
  rw [exec, execParseCsd, accept_idle hi, guardRun_of (aligned_of ha), guardRun_refused he, outcome_refused]

end

/-! ## READ_BLOCK, CMD17, CMD18 -/

section
variable {cmd addr buffer count crc : Word}

/-- The tests of a READ_BLOCK within the chain limit (R226). -/
theorem readRequest_bounded (hn : count.toNat ≤ 32) :
    readRequest cmd addr buffer count crc s =
      (guardRun (cmd == 6#32 || cmd == 17#32 || cmd == 18#32) .readCommand <|
        guardRun (count != 0#32 && (cmd == 18#32 || count == 1#32)) .blockCount <|
          guardRun (alignedNonNull buffer && aligned crc) .bufferAddress <|
            guardRun (readExtentsOk cmd buffer count.toNat crc s) .extent <|
              guardRun s.sessionValid .noSession <| guardRun (s.cseq.programmed && s.dseq.programmed) .unprogrammed <|
                (readBlock (indexOf cmd) addr buffer count.toNat crc s).bool) :=
  if_neg (Nat.not_lt.2 hn)

/-- The static domain of a READ_BLOCK of at most 32 blocks, test by test (R226). -/
theorem readOperandsOk_tests (h : readOperandsOk cmd buffer count crc = true) (hn : count.toNat ≤ 32) :
    (cmd == 6#32 || cmd == 17#32 || cmd == 18#32) = true ∧
      (count != 0#32 && (cmd == 18#32 || count == 1#32)) = true ∧ (alignedNonNull buffer && aligned crc) = true := by
  rw [readOperandsOk, decide_eq_false (show ¬ sdMaxReadBlocks < count.toNat from Nat.not_lt.2 hn),
    Bool.false_or] at h
  simp only [Bool.and_eq_true] at h ⊢
  obtain ⟨⟨⟨⟨hcmd, h0⟩, h1⟩, hbuffer⟩, hcrc⟩ := h
  exact ⟨hcmd, ⟨h0, h1⟩, hbuffer, aligned_of (beq_iff_eq.1 hcrc)⟩

/-- What is wrong with the extents of a READ_BLOCK that fail their test (R79, R81). -/
theorem readExtentsOk_eq_false_iff {n : Nat} :
    readExtentsOk cmd buffer n crc s = false ↔
      extentOk s.cfg buffer (n * (if cmd = 6#32 then 64 else 512)) = false ∨
        crc ≠ 0#32 ∧ (extentOk s.cfg crc (4 * s.session.dataWidth.crcWords) = false ∨
          disjoint buffer (n * (if cmd = 6#32 then 64 else 512)) crc (4 * s.session.dataWidth.crcWords) = false) := by
  simp only [readExtentsOk, Bool.and_eq_false_iff, Bool.or_eq_false_iff, beq_eq_false_iff_ne, switchBlockLenBytes,
    blockLenBytes]

theorem readRequest_extent (h : readOperandsOk cmd buffer count crc = true) (hn : count.toNat ≤ 32)
    (he : readExtentsOk cmd buffer count.toNat crc s = false) :
    readRequest cmd addr buffer count crc s = .refused .extent := by
  obtain ⟨hcmd, hcount, hplace⟩ := readOperandsOk_tests h hn
  rw [readRequest_bounded hn, guardRun_of hcmd, guardRun_of hcount, guardRun_of hplace, guardRun_refused he]

/-- CMD17 has one block. -/
theorem readOperandsOk_single (h : readOperandsOk 17#32 buffer count crc = true) (hn : count.toNat ≤ 32) :
    count = 1#32 := by
  obtain ⟨-, hcount, -⟩ := readOperandsOk_tests h hn
  simpa using (Bool.and_eq_true_iff.1 hcount).2

end

/-! ## WRITE_BLOCK and CMD24 -/

section
variable {cmd addr buffer : Word}

theorem writeRequest_extent (ha : alignedNonNull buffer = true) (he : extentOk s.cfg buffer 512 = false) :
    writeRequest 24#32 addr buffer s = .refused .extent := by
  rw [writeRequest, guardRun_of (by rfl), guardRun_of ha, guardRun_refused (by exact he)]

/-- CMD24 as a request has the domain of its WRITE_BLOCK (log 2). -/
theorem exec_write_refused (hi : s.phase = .idle) (h : writeRequest 24#32 addr buffer s.busy = .refused r) :
    exec (.writeBlock 24#32 addr buffer) s = .refused r ∧ exec (.cmd24 addr buffer) s = .refused r :=
  ⟨accept_refused hi h, accept_refused hi h⟩

end

/-! ## STORAGE_READ and STORAGE_WRITE -/

section
variable {block offset buffer size : Word} {k : Run OpResult}

theorem storageGuard_extent (h : storageOperandsOk 0#32 buffer size = true) (he : extentOk s.cfg buffer size.toNat = false) :
    storageGuard 0#32 buffer size s k = .refused .extent := by
  simp only [storageOperandsOk, Bool.and_eq_true, beq_iff_eq, decide_eq_true_eq] at h
  obtain ⟨⟨⟨⟨-, hmultiple⟩, hsmall⟩, ha⟩, hnull⟩ := h
  have hsize : (decide (size.toNat % 512 = 0) && decide (size.toNat < 2 ^ 31)) = true := by
    rw [decide_eq_true hmultiple, decide_eq_true hsmall]; rfl
  have hbuffer : (aligned buffer && (size == 0#32 || buffer != 0#32)) = true := by rw [aligned_of ha, hnull]; rfl
  rw [storageGuard, guardRun_of (by rfl), guardRun_of hsize, guardRun_of hbuffer, guardRun_refused he]

theorem exec_storage_refused (hi : s.phase = .idle) (h : ∀ k, storageGuard offset buffer size s.busy k = .refused r) :
    exec (.storageRead block offset buffer size) s = .refused r ∧
      exec (.storageWrite block offset buffer size) s = .refused r :=
  ⟨by rw [exec, execStorageRead, accept_idle hi, h, outcome_refused],
    by rw [exec, execStorageWrite, accept_idle hi, h, outcome_refused]⟩

end

/-! ## The obligation on extents -/

/-- Settles O54, operation by operation. -/
theorem extentsRefused : Obligations.ExtentsRefused := by
  intro s cmd addr a n size hi
  refine ⟨exec_crc_extent hi, ?response, ?command, ?read, ?write, ?storage⟩
  case response =>
    exact fun ha => ⟨exec_checkResStatus_extent hi ha, exec_parseCsd_extent hi ha,
      exec_respFix_extent hi (.inl rfl) ha, exec_respFix_extent hi (.inr rfl) ha⟩
  case command =>
    exact fun hx ha => ⟨exec_sdCommand_extent (res := .short) hi hx rfl (by decide) ha,
      exec_sdCommand_extent (res := .long) hi hx rfl (by decide) ha⟩
  case read =>
    intro crc hok hn hbad
    have he : readExtentsOk cmd a n.toNat crc s.busy = false := readExtentsOk_eq_false_iff.2 hbad
    refine ⟨accept_refused hi (readRequest_extent hok hn he), ?_, ?_⟩
    · rintro rfl
      obtain rfl := readOperandsOk_single hok hn
      exact accept_refused hi (readRequest_extent hok hn he)
    · rintro rfl
      exact accept_refused hi (readRequest_extent hok hn he)
  case write => exact fun ha he => exec_write_refused hi (writeRequest_extent ha he)
  case storage => exact fun hok he => exec_storage_refused hi fun _ => storageGuard_extent hok he

/-! ## A response size outside SD_COMMAND's domain is not refused -/

section
variable {index param size a : Word}

/-- The value of `ResSize.ofWord?` past its three sizes is an answer, not the absence of one: inside the namespace `ResSize`
the name `none` is the response size 0. So SD_COMMAND's test of its size never fails. -/
theorem ResSize.ofWord?_other (h48 : size ≠ 48#32) (h136 : size ≠ 136#32) : ResSize.ofWord? size = some .none := by
  rw [ResSize.ofWord?, if_neg h48, if_neg h136, ite_self]

/-- On a programmed engine an SD_COMMAND that names no response runs, and returns true (R194). -/
theorem exec_sdCommand_noResponse (hi : s.phase = .idle) (hx : index.toNat ≤ 63)
    (hsize : ResSize.ofWord? size = some .none) (hp : s.cseq.programmed = true) :
    exec (.sdCommand index param size a) s =
      .next ((sdCommand (indexOf index) param .none a s.busy).2.finish (.bool true)) := by
  rw [exec, execSdCommand, accept_idle hi, guardRun_of (decide_eq_true hx), hsize]
  exact congrArg Run.outcome (guardRun_of hp _ _)

end

/-- Refutes O53: of its clauses the second fails. An SD_COMMAND with a response size of 47 bits is not refused: an engine
whose CSEQ is programmed runs it as one of size 0 and returns true. -/
theorem not_outsideDomainRefused : ¬ Obligations.OutsideDomainRefused := by
  intro h
  let s : State := { State.reset with cseq := State.reset.cseq.program }
  obtain ⟨-, hsize, -⟩ := h s 0#32 0#32 47#32 0#32 0#32 rfl
  have hrefused : exec (.sdCommand 0#32 0#32 47#32 0#32) s = .refused .responseSize :=
    hsize (by decide) (by decide) (by decide) (by decide)
  have hruns := exec_sdCommand_noResponse (s := s) (index := 0#32) (param := 0#32) (a := 0#32) rfl (by decide)
    (ResSize.ofWord?_other (size := 47#32) (by decide) (by decide)) rfl
  exact nomatch hrefused.symm.trans hruns

end Sys2Proof.Machine
end

/-! # Proofs: request records and the command frame (spec/30_encoding.md R102, R111, R114, R128, R130, R131; logs 3, 4) -/

section
namespace Sys2Proof.Machine

/-! ## What the decoder reads is the record of what it gives (log 3) -/

/-- What a decoder whose result is `r` has taken off `bs`: operand words `ws` that stand in front of the bytes it leaves
and make, in the layout `record`, the record of the instruction it gives. -/
def Reads (record : List Word → List Byte) (bs : List Byte) (r : Except DecodeError (Instr × List Byte)) : Prop :=
  ∀ i rest, r = .ok (i, rest) → ∃ ws, encode i = record ws ∧ bs = wordsBytesLE ws ++ rest

section
variable {record : List Word → List Byte} {bs : List Byte}

theorem Reads.ok {i : Instr} (h : encode i = record []) : Reads record bs (.ok (i, bs)) := by
  rintro _ _ ⟨⟩
  exact ⟨[], h, rfl⟩

theorem Reads.error {e : DecodeError} : Reads record bs (.error e) := nofun

theorem Reads.guard {p : Prop} [Decidable p] {i : Instr} {e : DecodeError} (h : p → encode i = record []) :
    Reads record bs (if p then .ok (i, bs) else .error e) := by
  split
  · next hp => exact .ok (h hp)
  · exact .error

/-- An operand word the decoder takes comes first among those of the record. -/
theorem Reads.takeWord {k : Word → List Byte → Except DecodeError (Instr × List Byte)}
    (h : ∀ w tail, Reads (fun ws => record (w :: ws)) tail (k w tail)) : Reads record bs (takeWord bs k) := by
  intro i rest hi
  obtain ⟨w, tail, rfl, hk⟩ := takeWord_ok hi
  obtain ⟨ws, hrec, rfl⟩ := h w tail i rest hk
  exact ⟨w :: ws, hrec, (List.append_assoc ..).symm⟩

end

/-- Under each selector code the decoder takes the operand words one by one (R128, R129). -/
theorem decodeHostOp_reads (code : Nat) (bs : List Byte) :
    Reads (encodeHostOp (BitVec.ofNat 8 code)) bs (decodeHostOp code bs) := by
  match code with
  | 0 | 1 | 2 | 3 | 4 | 5 | 6 | 7 | 8 | 9 | 10 | 11 | 12 | 13 | 14 =>
    unfold decodeHostOp
    repeat refine .takeWord fun _ _ => ?_
    exact .ok rfl
  | _ + 15 => exact .error

theorem decodeRca_reads {record : List Word → List Byte} {arg : Word} {k : BitVec 16 → Instr} (bs : List Byte)
    (h : ∀ rca, arg = rcaArg rca → encode (k rca) = record []) : Reads record bs (decodeRca arg k bs) := by
  intro i rest hi
  obtain ⟨rca, harg, rfl, rfl⟩ := decodeRca_ok hi
  exact ⟨[], h rca harg, rfl⟩

/-- The indices of the frames the engine sends (R130): `decodeWire` reads no other. -/
def usedIndices : List Nat := [0, 2, 3, 6, 7, 8, 9, 12, 17, 18, 24, 41, 55]

theorem decodeWire_unused (app : Bool) {index : Nat} (h : index ∉ usedIndices) (arg : Word) (bs : List Byte) :
    decodeWire app index arg bs = .error .unusedIndex := by
  unfold decodeWire
  split
  case h_14 => rfl
  all_goals exact absurd (by decide) h

/-- By the argument field of each index (R114), in the order of `decodeWire`'s cases: a fixed argument, the two readings of
index 6 (R111, R118), an RCA, and the commands whose frame is followed by the operand words of their data phase. -/
theorem decodeWire_reads (app : Bool) (index : Nat) (arg : Word) (bs : List Byte) :
    Reads (encodeWire (BitVec.ofNat 6 index) arg) bs (decodeWire app index arg bs) := by
  unfold decodeWire
  split
  case h_1 | h_2 | h_3 | h_6 | h_8 => exact .guard fun h => h ▸ rfl
  case h_4 =>
    split
    · split
      · next h => exact .ok (h ▸ rfl)
      · exact .guard fun h => h ▸ rfl
    · exact .ok rfl
  case h_5 | h_7 | h_13 => exact decodeRca_reads bs fun _ h => h ▸ rfl
  case h_9 => exact .takeWord fun _ _ => .takeWord fun _ _ => .ok rfl
  case h_10 => exact .takeWord fun _ _ => .takeWord fun _ _ => .takeWord fun _ _ => .ok rfl
  case h_11 => exact .takeWord fun _ _ => .ok rfl
  case h_12 => exact .guard fun _ => rfl
  case h_14 => exact .error

/-! ## The two kinds of record -/

/-- A byte whose upper two bits are 01 is the first byte of the frame of its lower six (R102). -/
theorem frameByte_of_index {b : Byte} (h : b.extractLsb' 6 2 = 1#2) : b = (1#2 ++ b.extractLsb' 0 6 : BitVec 8) := by
  revert b; decide

/-- What decodes is a selector code and its operation, or the head of a frame, a last byte with the end bit and the wire
command of the frame's index and argument. -/
theorem decode_ok {app : Bool} {bs rest : List Byte} {i : Instr} (h : decode app bs = .ok (i, rest)) :
    (∃ code tail, bs = code :: tail ∧ code.toNat < 16 ∧ decodeHostOp code.toNat tail = .ok (i, rest)) ∨
    ∃ index arg last tail, bs = frameHead index arg ++ last :: tail ∧ last.getLsbD 0 = true ∧
      decodeWire app index.toNat arg tail = .ok (i, rest) := by
  unfold decode at h
  split at h
  · nomatch h
  · next b tail =>
    split at h
    · next hb => exact .inl ⟨b, tail, rfl, hb, h⟩
    · split at h
      · next hb =>
        split at h
        · next a3 a2 a1 a0 last tail =>
          split at h
          · next hend =>
            refine .inr ⟨b.extractLsb' 0 6, joinBE a3 a2 a1 a0, last, tail, ?_, hend, h⟩
            rw [frameHead, wordBytesBE_joinBE, ← frameByte_of_index hb]
            rfl
          · nomatch h
        · nomatch h
      · nomatch h

/-! ## The obligations on records -/

/-- Settles O2: it is `decode_encode`. -/
theorem decodeEncode : Obligations.DecodeEncode := fun _ _ rest happ hcmd6 => decode_encode happ hcmd6 rest

/-- Settles O3, by the two kinds of record. The decoder reads a frame's first five bytes whole, and of the
sixth the end bit, so putting that byte in place of the computed one gives the bytes read. -/
theorem encodeDecode : Obligations.EncodeDecode := by
  intro app bs rest i h
  obtain ⟨code, tail, rfl, hcode, hop⟩ | ⟨index, arg, last, tail, rfl, hend, hwire⟩ := decode_ok h
  · obtain ⟨ws, hrec, rfl⟩ := decodeHostOp_reads _ _ i rest hop
    rw [BitVec.ofNat_toNat, BitVec.setWidth_eq] at hrec
    exact ⟨fun _ => by rw [hrec]; rfl, fun hge => absurd hcode (Nat.not_lt.2 hge)⟩
  · obtain ⟨ws, hrec, rfl⟩ := decodeWire_reads _ _ _ _ i rest hwire
    rw [BitVec.ofNat_toNat, BitVec.setWidth_eq] at hrec
    obtain ⟨-, -, hge⟩ := frameByte_index index
    refine ⟨fun hlt => absurd hge (Nat.not_le.2 hlt), fun _ => ⟨?_, hend⟩⟩
    rw [hrec, encodeWire, List.append_assoc]
    rfl

/-- Settles O4: an index the engine does not send falls to the last case of `decodeWire`, code 15 to that of
`decodeHostOp`. -/
theorem unusedEncodingsRefused : Obligations.UnusedEncodingsRefused :=
  ⟨fun app _ arg rest h => (decode_frame app ..).trans (decodeWire_unused app h arg rest), fun _ _ => rfl⟩

/-- Settles O1, record by record. -/
theorem writtenWordsDecode : Obligations.WrittenWordsDecode :=
  ⟨by decide, by decide, by decide, by decide, by decide, by decide, by decide, by decide⟩

/-! ## CRC7 bit by bit (spec/40_crc.md R140, R142) -/

/-- One shift of the byte loop is one bit of the serial form: `crc7_reg` holds the serial value above a 0, with the bits of
the byte not yet shifted out added to it. -/
theorem crc7Shift_xor (c : BitVec 7) (b : Byte) :
    crc7Shift ((c ++ 0#1 : BitVec 8) ^^^ b) = (crc7SerialBit c (b.getLsbD 7) ++ 0#1 : BitVec 8) ^^^ b <<< 1 := by
  have hshift : ∀ c : BitVec 7, (c ++ 0#1 : BitVec 8) <<< 1 = (c <<< 1 ++ 0#1 : BitVec 8) := by decide
  have hpoly : ∀ c : BitVec 7, (c ++ 0#1 : BitVec 8) ^^^ 0x12#8 = ((c ^^^ 0x09#7) ++ 0#1 : BitVec 8) := by decide
  have hmsb : (c ++ 0#1 : BitVec 8).getLsbD 7 = c.getLsbD 6 := by revert c; decide
  rw [crc7Shift, crc7SerialBit, BitVec.getLsbD_xor, hmsb]
  split
  · rw [← hpoly, ← hshift, crc7Poly, BitVec.shiftLeft_xor_distrib, BitVec.shiftLeft_xor_distrib, BitVec.xor_assoc,
      BitVec.xor_assoc, BitVec.xor_comm (b <<< 1)]
    rfl
  · rw [← hshift, BitVec.shiftLeft_xor_distrib]

/-- Eight shifts read the bits of the byte from bit 7 on and leave nothing of it. -/
theorem crc7Byte_eq_foldl (c : BitVec 7) (b : Byte) :
    crc7Byte (c ++ 0#1 : BitVec 8) b = ((byteBits b).foldl crc7SerialBit c ++ 0#1 : BitVec 8) := by
  simp [crc7Byte, crc7Shift_xor, byteBits, ← BitVec.shiftLeft_add]

theorem foldl_crc7Byte (bs : List Byte) (c : BitVec 7) :
    bs.foldl crc7Byte (c ++ 0#1 : BitVec 8) = ((bytesBits bs).foldl crc7SerialBit c ++ 0#1 : BitVec 8) := by
  induction bs generalizing c with
  | nil => rfl
  | cons b bs ih => rw [List.foldl_cons, crc7Byte_eq_foldl, ih, bytesBits_cons, List.foldl_append]

/-- The byte loop gives the value of the bit-serial form. -/
theorem crc7_eq_crc7Serial (bs : List Byte) : crc7 bs = crc7Serial (bytesBits bs) := by
  have hvalue : ∀ c : BitVec 7, (c ++ 0#1 : BitVec 8).extractLsb' 1 7 = c := by decide
  rw [crc7, crc7Reg, show 0#8 = (0#7 ++ 0#1 : BitVec 8) from rfl, foldl_crc7Byte, hvalue, crc7Serial]

/-! ## The bits of a frame -/

theorem byteBits_frameByte (cmd : BitVec 6) :
    byteBits (1#2 ++ cmd : BitVec 8) = [false, true] ++ (List.range 6).map (fun i => cmd.getLsbD (5 - i)) := by
  revert cmd; decide

theorem byteBits_endByte (c : BitVec 7) :
    byteBits (c ++ 1#1 : BitVec 8) = (List.range 7).map (fun i => c.getLsbD (6 - i)) ++ [true] := by
  revert c; decide

theorem bytesBits_frameHead (cmd : BitVec 6) (param : Word) :
    bytesBits (frameHead cmd param) =
      [false, true] ++ (List.range 6).map (fun i => cmd.getLsbD (5 - i)) ++
        (List.range 32).map (fun i => param.getLsbD (31 - i)) := by
  rw [frameHead, bytesBits_cons, byteBits_frameByte, ← wordBits_eq_bytesBits, wordBits]

/-- Settles O5, with the head of the frame as the forty bits its CRC7 covers. -/
theorem frameBits : Obligations.FrameBits := by
  intro cmd param
  refine ⟨bytesBits (frameHead cmd param), bytesBits_frameHead cmd param, ?_⟩
  rw [frameBytes, bytesBits_append, frameTail, bytesBits_cons, bytesBits_nil, List.append_nil, byteBits_endByte,
    crc7_eq_crc7Serial, List.append_assoc]

end Sys2Proof.Machine
end

/-! # Proofs: CRC7 and CRC16 (spec/40_crc.md; log 19) -/

section
namespace Sys2Proof.Machine

/-! ## CRC16 bit by bit (R144, R145) -/

/-- One shift of the byte loop is one bit of the serial form: the bits of the byte not yet shifted out stay added to the
high byte of `crc16_reg`. -/
theorem crc16Shift_xor (r : BitVec 16) (b : Byte) :
    crc16Shift (r ^^^ (b ++ 0#8 : BitVec 16)) = crc16SerialBit r (b.getLsbD 7) ^^^ (b <<< 1 ++ 0#8 : BitVec 16) := by
  have hmsb : (b ++ 0#8 : BitVec 16).getLsbD 15 = b.getLsbD 7 := BitVec.getLsbD_append
  have hshift : (b ++ 0#8 : BitVec 16) <<< 1 = (b <<< 1 ++ 0#8 : BitVec 16) := by revert b; decide
  rw [crc16Shift, crc16SerialBit, BitVec.getLsbD_xor, hmsb, BitVec.shiftLeft_xor_distrib, hshift]
  split
  · rw [BitVec.xor_assoc, BitVec.xor_comm _ crc16Poly, BitVec.xor_assoc]
  · rfl

/-- Eight shifts read the bits of the byte from bit 7 on and leave nothing of it. -/
theorem crc16Byte_eq_foldl (r : BitVec 16) (b : Byte) : crc16Byte r b = (byteBits b).foldl crc16SerialBit r := by
  simp [crc16Byte, crc16Shift_xor, byteBits, ← BitVec.shiftLeft_add]

theorem foldl_crc16Byte (bs : List Byte) (r : BitVec 16) :
    bs.foldl crc16Byte r = (bytesBits bs).foldl crc16SerialBit r := by
  induction bs generalizing r with
  | nil => rfl
  | cons b bs ih => rw [List.foldl_cons, crc16Byte_eq_foldl, ih, bytesBits_cons, List.foldl_append]

/-- The byte loop gives the value of the bit-serial form. -/
theorem crc16_eq_crc16Serial (bs : List Byte) : crc16 bs = crc16Serial (bytesBits bs) := foldl_crc16Byte bs 0#16

/-- Settles O6: the two byte loops are their bit-serial forms. -/
theorem crcSerialForms : Obligations.CrcSerialForms := ⟨crc7_eq_crc7Serial, crc16_eq_crc16Serial⟩

/-! ## The serial register of any width -/

/-- One bit of a bit-serial CRC with the generator `x^w + poly`, of which R142 and R145 are the two cases. -/
def serialBit {w : Nat} (poly r : BitVec w) (d : Bool) : BitVec w :=
  if r.msb ^^ d then (r <<< 1) ^^^ poly else r <<< 1

theorem crc7Serial_eq_foldl (bits : List Bool) : crc7Serial bits = bits.foldl (serialBit 0x09#7) 0#7 := rfl

theorem crc16Serial_eq_foldl (bits : List Bool) : crc16Serial bits = bits.foldl (serialBit crc16Poly) 0#16 := rfl

section
variable {w : Nat} (poly : BitVec w)

/-- The register is linear: two generators added cancel. -/
theorem serialBit_xor (r q : BitVec w) (d e : Bool) :
    serialBit poly (r ^^^ q) (d ^^ e) = serialBit poly r d ^^^ serialBit poly q e := by
  have hfeed : ((r ^^^ q).msb ^^ (d ^^ e)) = ((r.msb ^^ d) ^^ (q.msb ^^ e)) := by
    rw [BitVec.msb_xor, Bool.xor_assoc, Bool.xor_left_comm q.msb, ← Bool.xor_assoc]
  rw [serialBit, serialBit, serialBit, hfeed, BitVec.shiftLeft_xor_distrib]
  match r.msb ^^ d, q.msb ^^ e with
  | false, false => rfl
  | false, true => exact BitVec.xor_assoc ..
  | true, false =>
    show r <<< 1 ^^^ q <<< 1 ^^^ poly = r <<< 1 ^^^ poly ^^^ q <<< 1
    ac_rfl
  | true, true =>
    show r <<< 1 ^^^ q <<< 1 = r <<< 1 ^^^ poly ^^^ (q <<< 1 ^^^ poly)
    rw [BitVec.xor_comm (q <<< 1), BitVec.xor_assoc, ← BitVec.xor_assoc poly, BitVec.xor_self, BitVec.zero_xor]

theorem foldl_serialBit_xor {bs cs : List Bool} (h : bs.length = cs.length) (r q : BitVec w) :
    (List.zipWith (· ^^ ·) bs cs).foldl (serialBit poly) (r ^^^ q) =
      bs.foldl (serialBit poly) r ^^^ cs.foldl (serialBit poly) q := by
  induction bs generalizing cs r q with
  | nil => rw [List.length_eq_zero_iff.1 h.symm]; rfl
  | cons b bs ih =>
    match cs, h with
    | c :: cs, h =>
      rw [List.zipWith_cons_cons, List.foldl_cons, serialBit_xor, ih (Nat.succ.inj h), List.foldl_cons, List.foldl_cons]

/-- A register fed with its own bits only shifts, for each bit fed is the one that leaves it. -/
theorem foldl_serialBit_getMsbD (r : BitVec w) (k : Nat) :
    ((List.range k).map r.getMsbD).foldl (serialBit poly) r = r <<< k := by
  induction k with
  | zero => exact (BitVec.shiftLeft_zero r).symm
  | succ k ih =>
    rw [List.range_succ, List.map_append, List.foldl_append, ih, BitVec.shiftLeft_add]
    simp [serialBit, BitVec.msb_shiftLeft]

/-- After its own bits the register is 0. -/
theorem foldl_serialBit_self (r : BitVec w) : ((List.range w).map r.getMsbD).foldl (serialBit poly) r = 0#w := by
  rw [foldl_serialBit_getMsbD, BitVec.shiftLeft_eq_zero (Nat.le_refl w)]

end

/-! ## The bits the laws speak of -/

theorem byteBits_xor (a b : Byte) : byteBits (a ^^^ b) = List.zipWith (· ^^ ·) (byteBits a) (byteBits b) := by
  simp [byteBits]

theorem bytesBits_zipWith_xor (xs ys : List Byte) :
    bytesBits (List.zipWith (· ^^^ ·) xs ys) = List.zipWith (· ^^ ·) (bytesBits xs) (bytesBits ys) := by
  induction xs generalizing ys with
  | nil => rfl
  | cons x xs ih =>
    cases ys with
    | nil => simp
    | cons y ys =>
      rw [List.zipWith_cons_cons, bytesBits_cons, bytesBits_cons, bytesBits_cons, byteBits_xor, ih,
        List.zipWith_append (show (byteBits x).length = (byteBits y).length from rfl)]

theorem bytesBits_crc7Byte (c : BitVec 7) :
    bytesBits [(c ++ 0#1 : BitVec 8)] = (List.range 7).map c.getMsbD ++ [false] := by revert c; decide

theorem bytesBits_crc16Bytes (c : BitVec 16) :
    bytesBits [c.extractLsb' 8 8, c.extractLsb' 0 8] = (List.range 16).map c.getMsbD := by
  simp [bytesBits, byteBits, List.range, List.range.loop, BitVec.getMsbD]

/-! ## The laws (R143, R146) -/

theorem crc7_xor {xs ys : List Byte} (h : xs.length = ys.length) :
    crc7 (List.zipWith (· ^^^ ·) xs ys) = crc7 xs ^^^ crc7 ys := by
  have hbits : (bytesBits xs).length = (bytesBits ys).length := by rw [bytesBits_length, bytesBits_length, h]
  rw [crc7_eq_crc7Serial, crc7_eq_crc7Serial, crc7_eq_crc7Serial, bytesBits_zipWith_xor]
  exact foldl_serialBit_xor 0x09#7 hbits 0#7 0#7

theorem crc16_xor {xs ys : List Byte} (h : xs.length = ys.length) :
    crc16 (List.zipWith (· ^^^ ·) xs ys) = crc16 xs ^^^ crc16 ys := by
  have hbits : (bytesBits xs).length = (bytesBits ys).length := by rw [bytesBits_length, bytesBits_length, h]
  rw [crc16_eq_crc16Serial, crc16_eq_crc16Serial, crc16_eq_crc16Serial, bytesBits_zipWith_xor]
  exact foldl_serialBit_xor crc16Poly hbits 0#16 0#16

/-- The last bit of the byte, below the CRC, finds the register 0 and leaves it so. -/
theorem crc7_residue (bs : List Byte) : crc7 (bs ++ [crc7 bs ++ 0#1]) = 0#7 := by
  rw [crc7_eq_crc7Serial (bs ++ _), bytesBits_append, bytesBits_crc7Byte, crc7Serial_eq_foldl, List.foldl_append,
    ← crc7Serial_eq_foldl, ← crc7_eq_crc7Serial, List.foldl_append, foldl_serialBit_self]
  rfl

theorem crc16_residue (bs : List Byte) :
    crc16 (bs ++ [(crc16 bs).extractLsb' 8 8, (crc16 bs).extractLsb' 0 8]) = 0#16 := by
  rw [crc16_eq_crc16Serial (bs ++ _), bytesBits_append, bytesBits_crc16Bytes, crc16Serial_eq_foldl, List.foldl_append,
    ← crc16Serial_eq_foldl, ← crc16_eq_crc16Serial, foldl_serialBit_self]

/-- Settles O7, by the linearity of the serial register and by what it does when it is fed with its own bits. -/
theorem crcLaws : Obligations.CrcLaws :=
  ⟨fun _ _ h => ⟨crc7_xor h, crc16_xor h⟩, fun bs => ⟨crc7_residue bs, crc16_residue bs⟩⟩

/-! ## The operations (R140, R144; log 19)

Each writes its register before it returns, and the return itself changes nothing else of an engine at rest. -/

section
variable {s : State} {a n : Word}

theorem exec_crc7 (h : s.Inv) (hi : s.phase = .idle) (he : extentOk s.cfg a n.toNat = true) :
    exec (.crc7 a n) s = .next { s with
      result := .crc7 (crc7 (s.mem.readBytes a n.toNat)), crc7Reg := crc7Reg (s.mem.readBytes a n.toNat) } := by
  rw [exec, execCrc7, accept_idle hi, guardRun_of he, outcome_done]
  exact congrArg Host.Outcome.next
    (congrArg (fun t : State => { t with crc7Reg := crc7Reg (s.mem.readBytes a n.toNat) }) (h.busy_finish hi _))

theorem exec_crc16 (h : s.Inv) (hi : s.phase = .idle) (he : extentOk s.cfg a n.toNat = true) :
    exec (.crc16 a n) s = .next { s with
      result := .crc16 (crc16 (s.mem.readBytes a n.toNat)), crc16Reg := crc16 (s.mem.readBytes a n.toNat) } := by
  rw [exec, execCrc16, accept_idle hi, guardRun_of he, outcome_done]
  exact congrArg Host.Outcome.next
    (congrArg (fun t : State => { t with crc16Reg := crc16 (s.mem.readBytes a n.toNat) }) (h.busy_finish hi _))

end

/-- Settles O8: the operations give the byte loops' values, and those are the bit-serial ones. -/
theorem crcOperations : Obligations.CrcOperations := by
  intro s a n h hi he
  rw [← crc7_eq_crc7Serial, ← crc16_eq_crc16Serial]
  exact ⟨exec_crc7 h hi he, exec_crc16 h hi he⟩

end Sys2Proof.Machine
end

/-! # Proofs: WAIT_NOT_BUSY that ends, and what only STORAGE_INIT writes (spec/41_sequencers.md R163, R164;
spec/43_command_response.md R203, R205; spec/46_session_host.md R236, R256; log 5) -/

section
namespace Sys2Proof.Machine

/-! ## A Turn of the card that ends the wait -/

/-- Every level the card drives is low, so it is the undriven line after them that ends the wait (R164). -/
theorem pollTurn_release (bounded : Bool) (n : Nat) : pollTurn bounded (Turn.release n) = .high := by
  simp [pollTurn, Turn.release, Tick.onCmd]

theorem State.turn_of_card {s : State} {u : Turn} {rest : List Turn} (h : s.card = u :: rest) : s.turn = u := by
  rw [State.turn, h]

/-- A card that has run out plays a line released at once. -/
theorem State.turn_of_no_card {s : State} (h : s.card = []) : s.turn = Turn.release 0 := by
  rw [State.turn, h]; rfl

/-! ## The request -/

/-- WAIT_NOT_BUSY whose polls find the line high takes the card's Turn and changes nothing else (R203, R205). -/
theorem State.Ready.exec_waitNotBusy {s : State} (h : s.Ready) (hp : pollTurn s.cfg.busyTimeout.isSome s.turn = .high) :
    exec .waitNotBusy s = .next { s with result := .none, card := s.card.tail } := by
  have hwait : waitNotBusy .notBusy s.busy = .done true { s.busy with phase := .notBusy, card := s.card.tail } :=
    waitNotBusy_high hp h.cseq.owner
  rw [exec, execWaitNotBusy, accept_idle h.idle, guardRun_of (Seq.programmed_of h.cwaits), hwait]
  exact congrArg Host.Outcome.next
    (congrArg (fun t : State => { t with card := s.card.tail }) (h.busy_finish .none))

theorem State.Ready.exec_waitNotBusy_of_card {s : State} {u : Turn} {rest : List Turn} (h : s.Ready)
    (hcard : s.card = u :: rest) (hp : pollTurn s.cfg.busyTimeout.isSome u = .high) :
    exec .waitNotBusy s = .next { s with result := .none, card := rest } := by
  rw [h.exec_waitNotBusy (by rw [State.turn_of_card hcard]; exact hp), hcard, List.tail_cons]

/-! ## The obligations -/

/-- Settles O17: the three cards differ only in why the poll finds the line high. -/
theorem waitNotBusyCompletes : Obligations.WaitNotBusyCompletes := by
  intro s n rest h
  refine ⟨?card, ?noCard⟩
  case card =>
    rintro (hcard | hcard)
    · exact h.exec_waitNotBusy_of_card hcard (pollTurn_busy _ _)
    · exact h.exec_waitNotBusy_of_card hcard (pollTurn_release _ _)
  case noCard =>
    intro hcard
    have hexec := h.exec_waitNotBusy (by rw [State.turn_of_no_card hcard]; exact pollTurn_release _ _)
    rwa [hcard, List.tail_nil, ← hcard] at hexec

/-- Settles O60, from what every request but STORAGE_INIT keeps until it returns or waits: neither the return nor the call
stack is among the fields the obligation names. -/
theorem onlyStorageInitEstablishesTheSession : Obligations.OnlyStorageInitEstablishesTheSession := by
  intro i s t hi h
  cases exec_left hi h with
  | returned u v kept e =>
    subst e
    exact ⟨kept.io, kept.valid, kept.kseq, kept.claimed0, kept.claimed1, kept.host⟩
  | waits u fs kept _ _ e =>
    subst e
    exact ⟨kept.io, kept.valid, kept.kseq, kept.claimed0, kept.claimed1, kept.host⟩

end Sys2Proof.Machine
end

/-! # Proofs: the command/response engine's operations (spec/43_command_response.md R190 to R207; logs 5, 12, 17, 21,
23, 25) -/

section
namespace Sys2Proof.Machine

/-! ## BUILD_FRAME (R190) -/

section
variable {s : State} {cmd : BitVec 6} {param : Word}

theorem frameByte_eq_or (cmd : BitVec 6) : (1#2 ++ cmd : BitVec 8) = 0x40#8 ||| cmd.setWidth 8 := by revert cmd; decide

theorem endByte_eq_or (c : BitVec 7) : (c ++ 1#1 : BitVec 8) = (c.setWidth 8 <<< 1) ||| 1#8 := by revert c; decide

theorem exec_buildFrame (h : s.Inv) (hi : s.phase = .idle) :
    exec (.buildFrame (cmd.setWidth 32) param) s = .next { s with
      mem := frameMem cmd param s, crc7Reg := crc7Reg (frameHead cmd param)
      result := .frame (frameBytes cmd param) } := by
  rw [exec, execBuildFrame, accept_idle hi, guardRun_of (decide_eq_true (setWidth_toNat_le cmd)), indexOf_setWidth,
    outcome_done]
  exact congrArg Host.Outcome.next
    (congrArg (fun t : State => { t with mem := frameMem cmd param s, crc7Reg := crc7Reg (frameHead cmd param) })
      (h.busy_finish hi _))

theorem frameMem_read_outside (hm : s.mem.wf = true) (hc : s.cfg.wf) {x : Nat} (hx : ¬ inExtent s.cfg.frameAddr 6 x) :
    (frameMem cmd param s).read x = s.mem.read x := by
  have hst := storageAt_of_wf hc
  have := hst.frame; have := hst.fits
  exact Memory.read_writeBytes_outside hm (by rw [frameBytes_length]; omega) (by rwa [frameBytes_length])

end

/-- Settles O9: the frame is the one of R102, and it is stored in the frame buffer alone. -/
theorem buildFrameCompletes : Obligations.BuildFrameCompletes := by
  intro s cmd param h hi hc
  refine ⟨_, exec_buildFrame h hi, ?result, Memory.wf_writeBytes h.mem _ _, fun x => frameMem_read_outside h.mem hc, rfl⟩
  case result => simp only [frameBytes, frameTail, frameHead, wordBytesBE, frameByte_eq_or, endByte_eq_or]

/-! ## RESP_FIX (R110, R196) -/

/-- A word whose bits stand one place higher, with any bit below them, comes back when the bit it lost is put on top. -/
theorem reassemble_word {t low before : Word} (hlow : low >>> 1 = 0#32) (hb : before.getLsbD 0 = t.getLsbD 31) :
    (((t <<< 1) ||| low) >>> 1) ||| (before <<< 31) = t := by
  apply BitVec.eq_of_getLsbD_eq
  intro i hi
  have hlow' : low.getLsbD (1 + i) = false := by
    rw [← BitVec.getLsbD_ushiftRight, hlow, BitVec.getLsbD_zero]
  rw [BitVec.getLsbD_or, BitVec.getLsbD_ushiftRight, BitVec.getLsbD_or, hlow', BitVec.getLsbD_shiftLeft,
    BitVec.getLsbD_shiftLeft]
  obtain hi31 | rfl : i < 31 ∨ i = 31 := by omega
  · simp [hi31, show 1 + i < 32 by omega]
  · simpa using hb

/-- RESP_FIX's loop undoes the raw capture (R110), whatever the pad. -/
theorem fixWords_rawWords (pad : Bool) {before : Word} {ts : List Word}
    (h : before.getLsbD 0 = (ts.headD 0#32).getLsbD 31) : fixWords before (rawWords pad ts) = ts := by
  induction ts generalizing before with
  | nil => rfl
  | cons t ts ih =>
    cases ts with
    | nil =>
      have hpad : (if pad then 1#32 else 0#32 : Word) >>> 1 = 0#32 := by cases pad <;> rfl
      rw [rawWords, fixWords, reassemble_word hpad (t := t) h, fixWords]
    | cons u ts =>
      have hnext : ((t <<< 1) ||| (u >>> 31)).getLsbD 0 = u.getLsbD 31 := by simp
      have hgone : (u >>> 31) >>> 1 = 0#32 := by
        rw [← BitVec.shiftRight_add, BitVec.ushiftRight_eq_zero (Nat.le_refl 32)]
      rw [rawWords, fixWords, ih hnext, reassemble_word hgone (t := t) h]

section
variable {s : State} {a n : Word}

theorem exec_respFix (h : s.Inv) (hi : s.phase = .idle) (hn : n = 2#32 ∨ n = 5#32) (ha : a.toNat % 4 = 0)
    (he : extentOk s.cfg a (4 * n.toNat) = true) :
    exec (.respFix a n) s = .next { s with mem := respFixMem s.mem a n.toNat, result := .none } := by
  have hcount : (n == 2#32 || n == 5#32) = true := by simpa using hn
  rw [exec, execRespFix, accept_idle hi, guardRun_of hcount, guardRun_of (aligned_of ha), guardRun_of he, outcome_done]
  exact congrArg Host.Outcome.next
    (congrArg (fun t : State => t.setMem (respFixMem s.mem a n.toNat)) (h.busy_finish hi _))

theorem respFixMem_rawWords {m : Memory} {pad : Bool} {ts : List Word} (h0 : (ts.headD 0#32).getLsbD 31 = false)
    (hraw : m.readWords a ts.length = rawWords pad ts) :
    respFixMem m a ts.length = m.writeBytes a (wordsBytesBE ts) := by
  rw [respFixMem, hraw, fixWords_rawWords pad (by rw [h0]; rfl), Memory.writeWords_eq, wordsBytesLE_map_bswap32]

/-- What O10 says of RESP_FIX holds under the premise it lacks, a configuration that R10 allows. -/
theorem exec_respFix_rawWords {pad : Bool} {ts : List Word} (h : s.Inv) (hi : s.phase = .idle) (hc : s.cfg.wf)
    (hn : n = 2#32 ∨ n = 5#32) (ha : a.toNat % 4 = 0) (he : extentOk s.cfg a (4 * n.toNat) = true)
    (hl : ts.length = n.toNat) (h0 : (ts.headD 0#32).getLsbD 31 = false)
    (hraw : s.mem.readWords a n.toNat = rawWords pad ts) :
    ∃ t, exec (.respFix a n) s = .next t ∧ t.mem.readBytes a (4 * n.toNat) = ts.flatMap wordBytesBE ∧
      Memory.wf t.mem = true ∧ (∀ x, ¬ inExtent a (4 * n.toNat) x → Memory.read t.mem x = Memory.read s.mem x) ∧
      t = { s with mem := t.mem, result := .none } := by
  have hend := extentOk_end_le hc he
  have hexec := exec_respFix h hi hn ha he
  rw [← hl] at hraw hexec hend ⊢
  rw [respFixMem_rawWords h0 hraw] at hexec
  rw [← wordsBytesBE_length] at hend ⊢
  exact ⟨_, hexec, Memory.readBytes_writeBytes h.mem hend, Memory.wf_writeBytes h.mem _ _,
    fun x hx => Memory.read_writeBytes_outside h.mem hend hx, rfl⟩

end

/-- Refutes O10, which does not ask for a configuration that R10 allows. With 33 address bits (log 25: the model is not
meant so) the extent of two words at 0xFFFFFFFC lies in memory, but the second word's 32-bit address wraps to 0, and the
byte RESP_FIX changes there is not one of the extent's. -/
theorem not_respFixReassembles : ¬ Obligations.RespFixReassembles := by
  intro h
  let s : State := { State.reset with cfg := { Config.standard with addrBits := 33 }, mem := [(0, 1#8)] }
  have hs : s.Inv := ⟨rfl, rfl, by decide, by decide⟩
  have he : extentOk s.cfg 0xFFFFFFFC#32 (4 * (2#32 : Word).toNat) = true := by decide
  obtain ⟨t, hexec, -, -, hframe, -⟩ := h s 0xFFFFFFFC#32 2#32 true [0#32, 0#32] hs rfl (.inl rfl) (by decide) he rfl
    (by decide) (by decide)
  obtain rfl := Host.Outcome.next.inj ((exec_respFix hs rfl (.inl rfl) (by decide) he).symm.trans hexec)
  exact absurd (hframe 0 (by unfold inExtent; decide)) (by decide)

/-! ## CHECK_RES_STATUS (R200) -/

theorem payload_readBytes (m : Memory) (a : Word) :
    payload (m.readBytes a 5) = joinBE (m.read (a + 1#32).toNat) (m.read (a + 2#32).toNat) (m.read (a + 3#32).toNat)
      (m.read (a + 4#32).toNat) := by
  simp only [payload, Memory.readBytes, List.getD_cons_zero, List.getD_cons_succ, BitVec.add_assoc]
  rfl

/-- Settles O11: the test reads and changes nothing, so only the result is written. -/
theorem checkResStatusCompletes : Obligations.CheckResStatusCompletes := by
  intro s a h hi ha he
  rw [exec, execCheckResStatus, accept_idle hi, guardRun_of (aligned_of ha), guardRun_of he, outcome_done,
    h.busy_finish hi, checkAt, payload_readBytes]
  rfl

/-! ## SD_COMMAND without a response (R194) -/

/-- Settles O12: the request is accepted with any address, and `Sent.noResponse` says what it does. -/
theorem sdCommandWithoutResponse : Obligations.SdCommandWithoutResponse := by
  intro s cmd param a hs
  obtain ⟨v, hcmd, hdma, hv⟩ := (Sent.start _ hs).noResponse (cmd := cmd) (param := param) hs.base (fun _ hy => hy) a
  have hexec := exec_sdCommand_noResponse (param := param) (a := a) hs.idle (setWidth_toNat_le cmd) (size := 0#32) rfl
    (Seq.programmed_of hs.cwaits)
  rw [indexOf_setWidth, hcmd] at hexec
  rw [List.append_nil] at hv
  exact ⟨_, hexec, hv.frame hs.base _, hdma, hv.returned _⟩

/-! ## SD_COMMAND with a response (R193, R196) -/

/-- A response size by its bytes, and the words that hold them (R32, R191). -/
theorem ResSize.ofWord?_bytes {size : Word} {n : Nat} (h : size = 48#32 ∧ n = 6 ∨ size = 136#32 ∧ n = 17) :
    ∃ res, ResSize.ofWord? size = some res ∧ res ≠ .none ∧ n = res.bytes ∧ 4 * ((n + 3) / 4) = 4 * res.words := by
  obtain ⟨rfl, rfl⟩ | ⟨rfl, rfl⟩ := h
  · exact ⟨.short, rfl, by decide, rfl, rfl⟩
  · exact ⟨.long, rfl, by decide, rfl, rfl⟩

/-- Settles O13, by `Sent.answeredAt`. -/
theorem sdCommandAnswered : Obligations.SdCommandAnswered := by
  intro s cmd param size a n latency r rest hs hsize ha he hcap hcard
  obtain ⟨res, hres, hr, rfl, hwords⟩ := ResSize.ofWord?_bytes hsize
  rw [hwords] at he ⊢
  obtain ⟨v, hcmd, hv, hmem⟩ := (hcard ▸ Sent.start _ hs).answeredAt (cmd := cmd) (param := param) hs.base
    (fun _ hy => hy) hr (extentOk_end_le hs.cfg he) hcap
  have hexec := hs.exec_sdCommand (cmd := cmd) (param := param) hres hr ha he
  rw [hcmd] at hexec
  rw [List.append_nil] at hv
  exact ⟨_, hexec, hv.frame hs.base _, hmem, hv.returned _⟩

/-- The bytes packed from some bits begin with those whose bits come first. -/
theorem wordsBytesBE_packWords_take {n : Nat} {bs : List Byte} {more : List Bool}
    (hl : 32 * n ≤ 8 * bs.length + more.length) (hn : bs.length ≤ 4 * n) :
    (wordsBytesBE (packWords n (bytesBits bs ++ more))).take bs.length = bs := by
  obtain ⟨pad, hpad, hbits⟩ := exists_bytesBits (n := 4 * n - bs.length) (bs := more.take (8 * (4 * n - bs.length)))
    (by rw [List.length_take]; omega)
  have hbytes : (bs ++ pad).length = 4 * n := by rw [List.length_append]; omega
  rw [← List.take_append_drop (8 * (4 * n - bs.length)) more, ← hbits, ← List.append_assoc, ← bytesBits_append,
    packWords_append _ (by rw [bytesBits_length]; omega), wordsBytesBE_packWords hbytes, List.take_left]

theorem bytesBits_released (n : Nat) : bytesBits (List.replicate n 0xFF#8) = List.replicate (8 * n) true := by
  induction n with
  | zero => rfl
  | succ n ih => rw [List.replicate_succ, bytesBits_cons, ih, Nat.mul_succ, Nat.add_comm, List.replicate_add]; rfl

/-- SD_COMMAND whose wait shifts in the bits of `bs` after their start bit: those bytes stand in the buffer (R193,
R196). -/
theorem sdCommand_captured_bytes {cmd : BitVec 6} {param dst : Word} {res : ResSize} {s : State} {bs : List Byte}
    (h : Sendable s) (hm : s.mem.wf = true) (hr : res ≠ .none) (ht : StillTurn s)
    (ha : dst.toNat + 4 * res.words ≤ 2 ^ 32) (hl : bs.length = res.bytes)
    (hbits : false :: (s.turn.captureBits res).take res.shifted = bytesBits bs) :
    ∃ v, sdCommand cmd param res dst s = (true, v) ∧ v.mem.readBytes dst res.bytes = bs := by
  obtain ⟨-, hshifted, -⟩ := ResSize.shifted_pos hr
  obtain ⟨h8, h4, h33, -⟩ := ResSize.bytes_bits hr
  have henough : res.shifted ≤ (s.turn.captureBits res).length := by
    have hlen := congrArg List.length hbits
    rw [List.length_cons, List.length_take, bytesBits_length] at hlen
    omega
  obtain ⟨osr, isr, level, hcmd⟩ := sdCommand_captured (cmd := cmd) (param := param) h hm hr ht ha henough
  rw [hbits] at hcmd
  have hfm : (frameMem cmd param s).wf = true := Memory.wf_writeBytes hm _ _
  refine ⟨_, hcmd, ?_⟩
  show Memory.readBytes (Memory.writeBytes _ dst _) dst res.bytes = bs
  rw [Memory.readBytes_writeBytes_take hfm (by rw [wordsBytesBE_length, packWords_length]; exact ha)
    (by rw [wordsBytesBE_length, packWords_length]; exact h4), ← hl]
  exact wordsBytesBE_packWords_take (by rw [List.length_take, wordBits_length]; omega) (by omega)

/-- The bits of a response begin with its start bit (R104). -/
theorem Captured.bits {n : Nat} {r : List Byte} (h : Captured n r) (hn : 0 < n) :
    bytesBits r = false :: (bytesBits r).drop 1 := by
  obtain ⟨hl, h0⟩ := h
  rw [List.drop_one, List.cons_head?_tail]
  exact bytesBits_head (List.length_pos_iff.1 (hl ▸ hn)) h0

/-- The wait for 136 bits goes on past a response of 48, and shifts in the released line (R164). -/
theorem captureBits_short {latency : Nat} {r : List Byte} (hcap : Captured 6 r) :
    false :: ((Turn.answer latency r).captureBits .long).take (ResSize.shifted .long) =
      bytesBits (r ++ List.replicate 11 0xFF#8) := by
  have hlen : ((bytesBits r).drop 1).length = 47 := by rw [List.length_drop, bytesBits_length, hcap.1]
  rw [Turn.captureBits_answer (List.length_pos_iff.1 (hcap.1 ▸ by decide)) hcap.2, List.take_append,
    List.take_of_length_le (by rw [hlen]; decide), hlen, List.take_replicate, bytesBits_append, bytesBits_released,
    hcap.bits (by decide)]
  rfl

/-- Settles O14: what the wait shifts in are the bits of the response and of eleven released bytes. -/
theorem sdCommandShortAnswer : Obligations.SdCommandShortAnswer := by
  intro s cmd param a latency r rest hs ha he hcap hcard
  have hend := extentOk_end_le hs.cfg he
  have hturn : s.busy.turn = Turn.answer latency r := State.turn_of_card hcard
  obtain ⟨b, v, hany, hv⟩ := (Sent.start _ hs).any (cmd := cmd) (param := param) (res := .long) hs.base
    (fun _ hy => hy) (by decide) hend
  obtain ⟨w, hcmd, hmem⟩ := sdCommand_captured_bytes (cmd := cmd) (param := param) (res := .long)
    (bs := r ++ List.replicate 11 0xFF#8) hs.sendable hs.inv.mem (by decide) (.of_rest (.inl hs.dwaits)) hend
    (by rw [List.length_append, hcap.1]; rfl) (by rw [hturn]; exact captureBits_short hcap)
  obtain ⟨rfl, rfl⟩ := Prod.mk.inj (hany.symm.trans hcmd)
  have hexec := hs.exec_sdCommand (cmd := cmd) (param := param) (size := 136#32) rfl (by decide) ha he
  rw [hany] at hexec
  exact ⟨_, hexec, hv.frame hs.base _, hmem, rfl⟩

/-! ## WAIT_NOT_BUSY on a line held low (R203, R204, R286) -/

theorem pollTurn_stuck_unbounded (n : Nat) : pollTurn false (Turn.stuck n) = .low := by
  simp [pollTurn, Turn.stuck, Tick.onCmd]

/-- A card that holds the line for ever meets the deadline where there is one (log 17). -/
theorem pollTurn_stuck_bounded (n : Nat) : pollTurn true (Turn.stuck n) = .expired := by
  simp [pollTurn, Turn.stuck, Tick.onCmd]

theorem pollTurn_overdue (n : Nat) : pollTurn true (Turn.overdue n) = .expired := by
  simp [pollTurn, Turn.overdue, Tick.onCmd]

section
variable {s : State} {label : Phase}

/-- Taking the pin leaves the card its Turn. -/
theorem cardStep_setPin (s : State) (p : Phase) (q : Seq) : (cardStep ((s.setPhase p).setCseq q)).1 = s.turn := rfl

theorem waitNotBusy_low (h : pollTurn s.cfg.busyTimeout.isSome s.turn = .low) :
    waitNotBusy label s = .waiting [.polling] { s with phase := label, cseq := { s.cseq with owner := .engine } } := by
  simp only [waitNotBusy, State.setCseq_cfg, State.setPhase_cfg, cardStep_setPin, h]
  rfl

/-- A poll that finds the line high, whoever held the pin before it. -/
theorem waitNotBusy_released (h : pollTurn s.cfg.busyTimeout.isSome s.turn = .high) :
    waitNotBusy label s = .done true { s with
      phase := label, cseq := { s.cseq with owner := .seq }, card := s.card.tail } := by
  simp only [waitNotBusy, State.setCseq_cfg, State.setPhase_cfg, cardStep_setPin, h]
  rfl

theorem waitNotBusy_expired (h : pollTurn s.cfg.busyTimeout.isSome s.turn = .expired) :
    waitNotBusy label s = .done false { s with
      phase := label, cseq := { s.cseq with owner := .seq }, card := s.card.tail, lastFailure := some .busyTimeout } := by
  simp only [waitNotBusy, State.setCseq_cfg, State.setPhase_cfg, cardStep_setPin, h]
  rfl

theorem Seq.Quiet.withOwner {q : Seq} (h : q.Quiet) : ({ q with owner := .seq } : Seq) = q := by rw [← h.owner]

theorem State.Ready.withCard (h : s.Ready) (c : List Turn) : State.Ready { s with card := c } where
  inv    := ⟨h.inv.mem, h.inv.lanes, h.inv.idle, h.inv.done⟩
  idle   := h.idle
  cseq   := h.cseq
  cwaits := h.cwaits
  dseq   := h.dseq
  dwaits := h.dwaits
  dma0   := h.dma0
  dma1   := h.dma1
  clock  := h.clock
  cfg    := h.cfg

section
variable {k fs : List Frame} {u : State}

theorem resume_polling_waiting (hs : s.stack = .polling :: k) (h : waitNotBusy s.phase s = .waiting fs u) :
    resume s = .waiting (fs ++ k) u := by
  simp only [resume, hs, h]

theorem resume_polling_done {high : Bool} (hs : s.stack = .polling :: k) (h : waitNotBusy s.phase s = .done high u) :
    resume s = returnTo k high u := by
  simp only [resume, hs, h]

end

/-- The state of an engine that polls for a WAIT_NOT_BUSY the host requested (log 21). -/
def State.pollingFor (s : State) : State :=
  { s with
    phase := .notBusy, stack := [.polling, .busyOp], cseq := { s.cseq with owner := .engine }, done := false }

theorem State.Ready.exec_waitNotBusy_low (h : s.Ready) (hp : pollTurn s.cfg.busyTimeout.isSome s.turn = .low) :
    exec .waitNotBusy s = .next s.pollingFor := by
  have hwait := waitNotBusy_low (label := .notBusy) (s := s.busy) hp
  rw [exec, execWaitNotBusy, accept_idle h.idle, guardRun_of (Seq.programmed_of h.cwaits), hwait]
  rfl

/-- A step of it is a poll of the line. -/
theorem step_pollingFor : step s.pollingFor = (resume s.pollingFor).outcome := if_neg (List.cons_ne_nil _ _)

/-- While the line is low a step polls again, and nothing else happens. -/
theorem step_pollingFor_low (hp : pollTurn s.cfg.busyTimeout.isSome s.turn = .low) :
    step s.pollingFor = .next s.pollingFor := by
  rw [step_pollingFor, resume_polling_waiting (s := s.pollingFor) rfl (waitNotBusy_low hp)]
  rfl

/-- The first poll that finds the line high ends the wait, with the pin given back and no result (R203). -/
theorem State.Ready.step_pollingFor_high (h : s.Ready) (hp : pollTurn s.cfg.busyTimeout.isSome s.turn = .high) :
    step s.pollingFor = .next { s with result := .none, card := s.card.tail } := by
  have hresume : resume s.pollingFor = .done .none { s.pollingFor with
      cseq := { s.cseq with owner := .seq }, card := s.card.tail } :=
    resume_polling_done (s := s.pollingFor) rfl (waitNotBusy_released hp)
  rw [step_pollingFor, hresume, outcome_done, h.cseq.withOwner]
  exact congrArg Host.Outcome.next
    (congrArg (fun t : State => { t with card := s.card.tail }) (h.busy_finish .none))

end

/-- Settles O18: the engine waits as `State.pollingFor` says. -/
theorem waitNotBusyHangs : Obligations.WaitNotBusyHangs := by
  intro s n rest h hunbounded hcard
  have hlow : pollTurn s.cfg.busyTimeout.isSome s.turn = .low := by
    rw [hunbounded, State.turn_of_card hcard]; exact pollTurn_stuck_unbounded n
  exact ⟨s.pollingFor, h.exec_waitNotBusy_low hlow, nofun, rfl, rfl, rfl, rfl, rfl, rfl, rfl, step_pollingFor_low hlow,
    fun m rest => (h.withCard (Turn.busy m :: rest)).step_pollingFor_high (pollTurn_busy _ m)⟩

/-- Settles O19: held low for ever or not, the poll finds the deadline passed. -/
theorem waitNotBusyExpires : Obligations.WaitNotBusyExpires := by
  intro s d n rest h hbounded hcard
  have hexpired : pollTurn s.cfg.busyTimeout.isSome s.turn = .expired := by
    rw [hbounded]
    obtain hcard | hcard := hcard
    · rw [State.turn_of_card hcard]; exact pollTurn_overdue n
    · rw [State.turn_of_card hcard]; exact pollTurn_stuck_bounded n
  have htail : s.card.tail = rest := by obtain hcard | hcard := hcard <;> rw [hcard, List.tail_cons]
  have hwait := waitNotBusy_expired (label := .notBusy) (s := s.busy) hexpired
  rw [exec, execWaitNotBusy, accept_idle h.idle, guardRun_of (Seq.programmed_of h.cwaits), hwait, h.cseq.withOwner, htail]
  exact congrArg Host.Outcome.next
    (congrArg (fun t : State => { t with card := rest, lastFailure := some .busyTimeout }) (h.busy_finish .none))

/-! ## Wire commands that get no response (R261 to R273; logs 29, 30) -/

/-- The wire command `i` runs `k`, which sends the frame of `cmd` and `param`, awaits a response of size `res`, and fails
without one. -/
structure FailsUnanswered (i : Instr) (cmd : BitVec 6) (param : Word) (res : ResSize) (k : State → Run Bool) : Prop where
  record : encode i = frameBytes cmd param
  runs   : ∀ s, exec i s = s.wire k
  fails  : ∀ u v, sdCommand cmd param res u.cfg.respAddr u = (false, v) → k u = .done false v

section
variable {i : Instr} {cmd : BitVec 6} {param : Word} {res : ResSize} {k : State → Run Bool}

theorem checkedCommand_unanswered {u v : State} (h : sdCommand cmd param .short u.cfg.respAddr u = (false, v)) :
    checkedCommand cmd param u = (false, v) := by
  simp [checkedCommand, ownCommand, h]

theorem failsUnanswered_long {rca : BitVec 16} (h : i ∈ [Instr.cmd2, .cmd9 rca]) :
    ∃ cmd param k, FailsUnanswered i cmd param .long k := by
  simp only [List.mem_cons, List.not_mem_nil, or_false] at h
  obtain rfl | rfl := h
  · exact ⟨2#6, 0#32, runStep allSendCid, rfl, fun _ => rfl, fun _ _ h => by simp [runStep, allSendCid, h]⟩
  · exact ⟨9#6, rcaArg rca, sendCsd rca, rfl, fun _ => rfl, fun _ _ h => by simp [sendCsd, h]⟩

theorem failsUnanswered_short {rca : BitVec 16} {arg : Word} {wide : Bool}
    (h : i ∈ [Instr.cmd3, .acmd6 wide, .cmd7 rca, .cmd8, .cmd12, .acmd41 arg, .cmd55 rca]) :
    ∃ cmd param k, FailsUnanswered i cmd param .short k := by
  simp only [List.mem_cons, List.not_mem_nil, or_false] at h
  obtain rfl | rfl | rfl | rfl | rfl | rfl | rfl := h
  · exact ⟨3#6, 0#32, runStep sendRelativeAddr, rfl, fun _ => rfl, fun _ _ h => by
      simp [runStep, sendRelativeAddr, ownCommand, h]⟩
  · exact ⟨6#6, widthArg wide, runStep (setBusWidth wide), rfl, fun _ => rfl, fun _ _ h => by
      simp [runStep, setBusWidth, checkedCommand_unanswered h]⟩
  · exact ⟨7#6, rcaArg rca, selectCard rca .notBusy (.wireBusy true), rfl, fun _ => rfl, fun _ _ h => by
      simp [selectCard, checkedCommand_unanswered h]⟩
  · exact ⟨8#6, ifCondPattern, runStep sendIfCond, rfl, fun _ => rfl, fun _ _ h => by
      simp [runStep, sendIfCond, ownCommand, h]⟩
  · exact ⟨12#6, 0#32, stopTransmission, rfl, fun _ => rfl, fun _ _ h => by simp [stopTransmission, ownCommand, h]⟩
  · exact ⟨41#6, arg, runStep (sendOpCond arg), rfl, fun _ => rfl, fun _ _ h => by
      simp [runStep, sendOpCond, ownCommand, h]⟩
  · exact ⟨55#6, rcaArg rca, runStep (appCmd rca), rfl, fun _ => rfl, fun _ _ h => by
      simp [runStep, appCmd, checkedCommand_unanswered h]⟩

/-- The request of such a command that gets no response (R193, R195, R284). -/
theorem FailsUnanswered.request {s : State} (hi : FailsUnanswered i cmd param res k) (hs : s.Ready) (hr : res ≠ .none)
    (hno : NoAnswer res.bits s.card) :
    ∃ t, exec i s = .next t ∧ CommandFrame (inHead s.cfg) s t ∧
      Returned t (.bool false) s.session (some .cmdTimeout) false s.card.tail
        (((bytesBits (encode i)).map PinEvent.cmd).reverse ++ s.history) := by
  obtain ⟨v, hcmd, hv⟩ := (Sent.start _ hs).silent (cmd := cmd) (param := param) hs.base (fun _ hy => hy) hr hno
  have hexec := (hi.runs s).trans (wire_of hs.idle hs.cwaits k)
  rw [hi.fails _ v hcmd, bool_done, outcome_done] at hexec
  rw [List.append_nil] at hv
  rw [hi.record]
  exact ⟨_, hexec, hv.frame hs.base _, hv.returned _⟩

end

/-- Settles O31: each of the commands sends its own frame and reports the missing response as it is. -/
theorem wireCommandsTimeOut : Obligations.WireCommandsTimeOut := by
  intro s i n u rest rca arg wide hs hi hu hcard
  obtain ⟨hi, rfl⟩ | ⟨hi, rfl⟩ := hi
  · obtain ⟨cmd, param, k, hfails⟩ := failsUnanswered_long hi
    have hrequest := hfails.request hs (by decide) (by rw [hcard]; exact .cons hu)
    rwa [hcard] at hrequest
  · obtain ⟨cmd, param, k, hfails⟩ := failsUnanswered_short hi
    have hrequest := hfails.request hs (by decide) (by rw [hcard]; exact .cons hu)
    rwa [hcard] at hrequest

/-! ## SET_WIDTH that fails (R230, R234) -/

theorem State.Ready.exec_setWidth {s : State} (h : s.Ready) (hv : s.sessionValid = true) (w : Width) :
    exec (.setWidth (BitVec.ofNat 32 w.lines)) s = .next ((setWidthOp w s.busy).finish .none) := by
  have hw : Width.ofWord? (BitVec.ofNat 32 w.lines) = some w := by cases w <;> rfl
  rw [exec, execSetWidth, accept_idle h.idle, hw]
  exact congrArg Run.outcome ((guardRun_of hv _ _).trans (guardRun_of (Seq.programmed_of h.cwaits) _ _))

/-- Settles O40, by the command that fails. -/
theorem setWidthSilentFailure : Obligations.SetWidthSilentFailure := by
  intro s w f c latency r rest hs hvalid hw hf
  have hlanes := hs.inv.lanes
  have hexec := hs.exec_setWidth hvalid w
  refine ⟨fun hcard => ?cmd55, fun hr hcard => ?acmd6⟩
  case cmd55 =>
    have hv := (hcard ▸ Sent.start (inHead s.cfg) hs).widthFails55 hs.base (fun _ hy => hy) hw hf
    rw [List.append_nil] at hv
    exact ⟨_, hexec, hv.frame hs.base _, hv.lanes.trans hlanes.symm, hv.returned _⟩
  case acmd6 =>
    have hv := (hcard ▸ Sent.start (inHead s.cfg) hs).widthFails6 hs.base (fun _ hy => hy) hw hr hf
    have harg : widthArg (decide (w = .four)) = if w = .four then 2#32 else 0#32 := by cases w <;> rfl
    rw [List.append_nil, harg] at hv
    exact ⟨_, hexec, hv.frame hs.base _, hv.lanes.trans hlanes.symm, hv.returned _⟩

/-! ## Unprogrammed sequencers (R206, R303) -/

section
variable {s : State}

theorem Seq.programmed_eq_false {q : Seq} (h : q.mode = .unprogrammed) : q.programmed = false := by
  rw [Seq.programmed, h]; rfl

theorem wire_unprogrammed (hi : s.phase = .idle) (hq : s.cseq.mode = .unprogrammed) (k : State → Run Bool) :
    s.wire k = .refused .unprogrammed :=
  accept_refused hi (guardRun_refused (Seq.programmed_eq_false hq) _ _)

theorem exec_waitNotBusy_unprogrammed (hi : s.phase = .idle) (hq : s.cseq.mode = .unprogrammed) :
    exec .waitNotBusy s = .refused .unprogrammed := by
  rw [exec, execWaitNotBusy, accept_idle hi, guardRun_refused (Seq.programmed_eq_false hq), outcome_refused]

theorem exec_cmd6_unprogrammed {arg : Word} (hi : s.phase = .idle) (hq : s.cseq.mode = .unprogrammed) :
    exec (.cmd6 arg) s = .refused .unprogrammed := by
  have hboth : (s.cseq.programmed && s.dseq.programmed) = false := by rw [Seq.programmed_eq_false hq, Bool.false_and]
  rw [exec, execCmd6, accept_idle hi, guardRun_refused hboth, outcome_refused]

theorem exec_sdCommand_unprogrammed {cmd size a param : Word} {n : Nat} (hi : s.phase = .idle)
    (hq : s.cseq.mode = .unprogrammed) (hx : cmd.toNat ≤ 63)
    (h : size = 0#32 ∨ (size = 48#32 ∧ n = 8 ∨ size = 136#32 ∧ n = 20) ∧ alignedNonNull a = true ∧
      extentOk s.cfg a n = true) : exec (.sdCommand cmd param size a) s = .refused .unprogrammed := by
  have hp := Seq.programmed_eq_false hq
  obtain rfl | ⟨hsize, ha, he⟩ := h
  · rw [exec, execSdCommand, accept_idle hi, guardRun_of (decide_eq_true hx)]
    exact congrArg Run.outcome (guardRun_refused hp _ _)
  · obtain ⟨res, hres, hr, rfl, -⟩ := ResSize.ofWord?_response hsize
    rw [exec_sdCommand_response hi hx hres hr, guardRun_of ha, guardRun_of he, guardRun_refused hp, outcome_refused]

end

/-- Settles O55: WAIT_NOT_BUSY and CMD6 have a test of their own, the other wire commands that of `State.wire`. -/
theorem unprogrammedRefused : Obligations.UnprogrammedRefused := by
  intro s i cmd size a param arg n rca wide hi hq
  refine ⟨exec_sdCommand_unprogrammed hi hq, fun h => ?_⟩
  have hwire := wire_unprogrammed hi hq
  simp only [List.mem_cons, List.not_mem_nil, or_false] at h
  obtain rfl | rfl | rfl | rfl | rfl | rfl | rfl | rfl | rfl | rfl | rfl | rfl := h
  exacts [exec_waitNotBusy_unprogrammed hi hq, hwire _, hwire _, hwire _, exec_cmd6_unprogrammed hi hq, hwire _, hwire _,
    hwire _, hwire _, hwire _, hwire _, hwire _]

end Sys2Proof.Machine
end

/-! # Proofs: requests for block transfers (spec/44_block_transfer.md R210 to R227; spec/47_wire_commands.md R263, R268 to
R271; spec/60_exceptions.md R283, R287; logs 2, 6, 13, 22, 30) -/

section
namespace Sys2Proof.Machine

variable {s : State} {cmd : BitVec 6} {addr buffer count crc : Word}

/-! ## An admitted READ_BLOCK and the wire commands that are its commands (R226, log 2) -/

/-- A READ_BLOCK that passes every test of its domain, on an engine that can run it. -/
structure ReadAdmitted (cmd : BitVec 6) (buffer count crc : Word) (s : State) : Prop where
  ready    : s.Ready
  valid    : s.sessionValid = true
  operands : readOperandsOk (cmd.setWidth 32) buffer count crc = true
  bound    : count.toNat ≤ 32
  extents  : readExtentsOk (cmd.setWidth 32) buffer count.toNat crc s = true

/-- The bytes of memory such a READ_BLOCK may change. -/
def readMayChange (cmd : BitVec 6) (buffer count crc : Word) (s : State) (x : Nat) : Prop :=
  inStorage s.cfg x ∨ inExtent buffer (count.toNat * (if cmd = 6#6 then 64 else 512)) x ∨
    crc ≠ 0#32 ∧ inExtent crc (4 * s.session.dataWidth.crcWords) x

theorem State.Ready.worked (h : s.Ready) (touched : Nat → Prop) :
    Worked touched s s.busy s.session s.lastFailure s.card s.appPrefix [] :=
  (Sent.start touched h).worked h.base

theorem readRequest_admitted {index : Word} (hop : readOperandsOk index buffer count crc = true) (hn : count.toNat ≤ 32)
    (he : readExtentsOk index buffer count.toNat crc s = true) :
    readRequest index addr buffer count crc s =
      (guardRun s.sessionValid .noSession <| guardRun (s.cseq.programmed && s.dseq.programmed) .unprogrammed <|
        (readBlock (indexOf index) addr buffer count.toNat crc s).bool) := by
  obtain ⟨hcmd, hcount, hplace⟩ := readOperandsOk_tests hop hn
  rw [readRequest_bounded hn, guardRun_of hcmd, guardRun_of hcount, guardRun_of hplace, guardRun_of he]

theorem exec_cmd17_eq_readBlock {index : Word} (hop : readOperandsOk index buffer count crc = true)
    (hn : count.toNat ≤ 32) (hi : index = 17#32) :
    exec (.cmd17 addr buffer crc) s = exec (.readBlock index addr buffer count crc) s := by
  subst hi
  obtain rfl := readOperandsOk_single hop hn
  rfl

theorem exec_cmd18_eq_readBlock {index : Word} (hi : index = 18#32) :
    exec (.cmd18 addr buffer count crc) s = exec (.readBlock index addr buffer count crc) s := by
  subst hi; rfl

theorem State.Ready.programmed (h : s.Ready) : (s.cseq.programmed && s.dseq.programmed) = true := by
  rw [Seq.programmed_of h.cwaits, Seq.programmed_of h.dwaits]; rfl

namespace ReadAdmitted

variable (h : ReadAdmitted cmd buffer count crc s)
include h

theorem commands : cmd = 18#6 ∨ (cmd = 6#6 ∨ cmd = 17#6) ∧ count.toNat = 1 := by
  obtain ⟨hcmd, hcount, -⟩ := readOperandsOk_tests h.operands h.bound
  have index : ∀ k : BitVec 6, cmd.setWidth 32 = k.setWidth 32 → cmd = k := fun k e => by
    rw [← indexOf_setWidth cmd, e, indexOf_setWidth]
  simp only [Bool.or_eq_true, Bool.and_eq_true, beq_iff_eq] at hcmd hcount
  have single : cmd.setWidth 32 ≠ 18#32 → count.toNat = 1 := fun hne => by rw [hcount.2.resolve_left hne]; rfl
  obtain (h6 | h17) | h18 := hcmd
  · exact .inr ⟨.inl (index 6#6 h6), single (by rw [h6]; decide)⟩
  · exact .inr ⟨.inr (index 17#6 h17), single (by rw [h17]; decide)⟩
  · exact .inl (index 18#6 h18)

/-- The data phase belongs to no application command (R111). -/
theorem not_app : cmd ≠ 55#6 := by
  obtain rfl | ⟨rfl | rfl, -⟩ := h.commands <;> decide

/-- The operands lie where R79 and R81 ask. -/
theorem place (addr : Word) : ReadPlace (readOp cmd addr buffer count.toNat crc s.busy) s.busy.cfg := by
  have hpos : 1 ≤ count.toNat := by
    obtain ⟨-, hcount, -⟩ := readOperandsOk_tests h.operands h.bound
    have hne : count ≠ 0#32 := bne_iff_ne.1 (Bool.and_eq_true_iff.1 hcount).1
    exact Nat.one_le_iff_ne_zero.2 fun e => hne (BitVec.eq_of_toNat_eq e)
  exact readPlace_of (s := s.busy) h.ready.cfg ⟨hpos, h.bound⟩ h.extents

/-- A null CRC destination stands for the engine's side buffer, which is part of its storage (R34). -/
theorem mayChange {x : Nat} (hx : readTouched (readOp cmd addr buffer count.toNat crc s.busy) s.busy.cfg x) :
    readMayChange cmd buffer count crc s x := by
  obtain hx | hx | hx := hx
  · exact .inl hx
  · exact .inr (.inl hx)
  · by_cases hz : crc = 0#32
    · have hst := storageAt_of_wf h.ready.cfg
      have := hst.crcBuf; have := hst.fits
      have := Width.crcWords_pos s.session.dataWidth
      have hx : inExtent s.cfg.crcBufAddr (4 * s.session.dataWidth.crcWords) x := by simpa [readOp, hz] using hx
      unfold inExtent at hx
      exact .inl (by unfold inStorage storageSize; omega)
    · exact .inr (.inr ⟨hz, by simpa [readOp, hz] using hx⟩)

/-- READ_BLOCK as it is requested, by itself or by its wire command. -/
theorem returns {b : Bool} {v : State} (hv : readBlock cmd addr buffer count.toNat crc s.busy = .done b v) :
    exec (.readBlock (cmd.setWidth 32) addr buffer count crc) s = .next (v.finish (.bool b)) ∧
      (cmd = 17#6 → exec (.cmd17 addr buffer crc) s = .next (v.finish (.bool b))) ∧
      (cmd = 18#6 → exec (.cmd18 addr buffer count crc) s = .next (v.finish (.bool b))) := by
  have hread : exec (.readBlock (cmd.setWidth 32) addr buffer count crc) s = .next (v.finish (.bool b)) := by
    rw [exec, execReadBlock, accept_idle h.ready.idle, readRequest_admitted (s := s.busy) h.operands h.bound h.extents,
      guardRun_of h.valid, guardRun_of h.ready.programmed, indexOf_setWidth, hv, bool_done, outcome_done]
  exact ⟨hread, fun e => (exec_cmd17_eq_readBlock h.operands h.bound (by rw [e]; rfl)).trans hread,
    fun e => (exec_cmd18_eq_readBlock (by rw [e]; rfl)).trans hread⟩

end ReadAdmitted

/-! ## CMD6 as a request (R263, log 30) -/

theorem State.Ready.exec_cmd6_fails (h : s.Ready) {arg : Word} {v : State}
    (hv : readBlock 6#6 arg s.busy.cfg.swAddr 1 0#32 s.busy = .done false v) :
    exec (.cmd6 arg) s = .next (v.finish (.bool false)) := by
  rw [exec, execCmd6, accept_idle h.idle, guardRun_of h.programmed, switchRead, hv]
  rfl

/-! ## Above the chain limit (R211, R287) -/

theorem readRequest_chainLimit {index : Word} (hn : 32 < count.toNat) :
    readRequest index addr buffer count crc s = .done (.bool false) ((s.setPhase .rdCheck).raise .chainLimit) := by
  rw [readRequest, if_pos (show sdMaxReadBlocks < count.toNat from hn), readBlock]
  exact congrArg Run.bool (if_pos hn)

/-- Settles O33: the count is tested before anything else. -/
theorem readBlockChainLimit : Obligations.ReadBlockChainLimit := by
  intro s cmd addr buffer count crc hs hi hn
  have accepted : ∀ index, s.accept (readRequest index addr buffer count crc) =
      .next { s with result := .bool false, lastFailure := some .chainLimit } := fun index => by
    rw [accept_idle hi, readRequest_chainLimit hn, outcome_done]
    exact congrArg (fun t : State => Host.Outcome.next (t.raise .chainLimit)) (hs.busy_finish hi (.bool false))
  exact ⟨accepted cmd, accepted 18#32⟩

/-! ## Without a session (R226, R234, R249, R253; log 22) -/

theorem readRequest_noSession {index : Word} (hv : s.sessionValid = false)
    (hop : readOperandsOk index buffer count crc = true) (hn : count.toNat ≤ 32)
    (he : readExtentsOk index buffer count.toNat crc s = true) :
    readRequest index addr buffer count crc s = .refused .noSession := by
  rw [readRequest_admitted hop hn he, guardRun_refused hv]

theorem writeRequest_admitted (ha : alignedNonNull buffer = true) (he : extentOk s.cfg buffer 512 = true) :
    writeRequest 24#32 addr buffer s =
      (guardRun s.sessionValid .noSession <| guardRun (s.cseq.programmed && s.dseq.programmed) .unprogrammed <|
        (writeBlock addr buffer s).bool) := by
  rw [writeRequest, guardRun_of (by rfl), guardRun_of ha, guardRun_of (by exact he)]

theorem storageGuard_admitted {size : Word} {k : Run OpResult} (h : storageOperandsOk 0#32 buffer size = true)
    (he : extentOk s.cfg buffer size.toNat = true) :
    storageGuard 0#32 buffer size s k =
      (guardRun s.sessionValid .noSession <| guardRun (s.cseq.programmed && s.dseq.programmed) .unprogrammed k) := by
  simp only [storageOperandsOk, Bool.and_eq_true, beq_iff_eq, decide_eq_true_eq] at h
  obtain ⟨⟨⟨⟨-, hmultiple⟩, hsmall⟩, ha⟩, hnull⟩ := h
  have hsize : (decide (size.toNat % 512 = 0) && decide (size.toNat < 2 ^ 31)) = true := by
    rw [decide_eq_true hmultiple, decide_eq_true hsmall]; rfl
  have hbuffer : (aligned buffer && (size == 0#32 || buffer != 0#32)) = true := by rw [aligned_of ha, hnull]; rfl
  rw [storageGuard, guardRun_of (by rfl), guardRun_of hsize, guardRun_of hbuffer, guardRun_of he]

/-- Settles O52: each operation tests the session right after its operands. -/
theorem sessionNeeded : Obligations.SessionNeeded := by
  intro s cmd addr buffer count crc block size width hi hv
  refine ⟨?size, ?width, ?read, ?write, ?storage⟩
  case size => rw [exec, execGetStorageSize, accept_idle hi, guardRun_refused hv, outcome_refused]
  case width =>
    intro hw
    obtain ⟨w, rfl⟩ : ∃ w : Width, width = BitVec.ofNat 32 w.lines :=
      hw.elim (fun e => ⟨.one, e⟩) fun e => ⟨.four, e⟩
    have hlines : Width.ofWord? (BitVec.ofNat 32 w.lines) = some w := by cases w <;> rfl
    rw [exec, execSetWidth, accept_idle hi, hlines]
    exact congrArg Run.outcome (guardRun_refused hv _ _)
  case read =>
    intro hop hn he
    have hread : exec (.readBlock cmd addr buffer count crc) s = .refused .noSession :=
      accept_refused hi (readRequest_noSession (s := s.busy) hv hop hn he)
    exact ⟨hread, fun e => (exec_cmd17_eq_readBlock hop hn e).trans hread,
      fun e => (exec_cmd18_eq_readBlock e).trans hread⟩
  case write =>
    intro ha he
    exact exec_write_refused hi ((writeRequest_admitted (s := s.busy) ha he).trans (guardRun_refused hv _ _))
  case storage =>
    intro hop he
    exact exec_storage_refused hi fun k => (storageGuard_admitted (s := s.busy) hop he).trans (guardRun_refused hv _ _)

/-! ## READ_BLOCK with a card that does its part (R210 to R218) -/

/-- Settles O32, by `Worked.reads`. -/
theorem readBlockDeliversTheBlocks : Obligations.ReadBlockDeliversTheBlocks := by
  intro s cmd addr buffer count crc p rest hs hvalid hop hn he hg hcard
  have h : ReadAdmitted cmd buffer count crc s := ⟨hs, hvalid, hop, hn, he⟩
  obtain ⟨v, hrun, hv, hcrc16, hdata, hcrc, -⟩ := (hcard ▸ hs.worked (readMayChange cmd buffer count crc s)).reads hs.base
    h.commands (h.place addr) hg fun _ => h.mayChange
  obtain ⟨hread, h17, h18⟩ := h.returns hrun
  rw [List.append_nil] at hv
  exact ⟨_, hread, h17, h18, hv.frame _, hcrc16, hdata, fun hz => by simpa [readOp, hz] using hcrc, hv.returned _⟩

/-! ## READ_BLOCK with a failing command (R218, R219, R227, R268) -/

/-- Settles O34: the read command by `Worked.readFails`, CMD12 by `Worked.readStopFails`. -/
theorem readBlockCommandFails : Obligations.ReadBlockCommandFails := by
  refine ⟨?read, ?switch, ?stop, ?draws⟩
  case read =>
    intro s cmd addr buffer count crc f c rest hs hvalid hop hn he hf hcard
    have h : ReadAdmitted cmd buffer count crc s := ⟨hs, hvalid, hop, hn, he⟩
    obtain ⟨v, hrun, hv, -⟩ := (hcard ▸ hs.worked (readMayChange cmd buffer count crc s)).readFails hs.base
      (h.place addr) hf fun _ => h.mayChange
    obtain ⟨hread, h17, h18⟩ := h.returns hrun
    rw [List.append_nil] at hv
    exact ⟨_, hread, h17, h18, hv.frame _, hv.returned _⟩
  case switch =>
    intro s arg f c rest hs hf hcard
    obtain ⟨v, hrun, hv, -⟩ := (hcard ▸ hs.worked (inStorage s.cfg)).readFails (cmd := 6#6) (addr := arg) hs.base
      (readPlace_switch hs.cfg) hf fun _ => switch_touched (u := s.busy) hs.cfg
    rw [List.append_nil] at hv
    exact ⟨_, hs.exec_cmd6_fails hrun, hv.frame _, hv.returned _⟩
  case stop =>
    intro s addr buffer count crc latency r bs fs c rest hs hvalid hop hn he hr hlen hbs hf hcard
    have h : ReadAdmitted 18#6 buffer count crc s := ⟨hs, hvalid, hop, hn, he⟩
    obtain ⟨v, hrun, hv⟩ := (hcard ▸ hs.worked (readMayChange 18#6 buffer count crc s)).readStopFails hs.base
      (h.place addr) hr hlen hbs hf fun _ => h.mayChange
    obtain ⟨hread, -, h18⟩ := h.returns hrun
    rw [List.append_nil] at hv
    exact ⟨_, hread, h18 rfl, hv.frame _, hv.returned _⟩
  case draws =>
    intro s o ws cs rest hws hcs
    rw [readLost, ← hws, ← hcs, List.append_assoc, scramble_draws]
    exact scramble_draws { s with mem := s.mem.writeWords o.buffer ws } o.crcDst cs rest

/-! ## A data phase whose deadline has passed (R217, R283; log 6) -/

/-- The wait for a response, whatever DSEQ does in its periods, takes one Turn of the card. -/
theorem cmdCapture_same (res : ResSize) (s : State) : SameControl s.turnTaken (cmdCapture res s).2 := by
  have hwait := (clkTicks_same s.turn.frameTicks s.turnTaken).trans (awaitCapture_same (s.turn.waitTicks res.bits) _)
  unfold cmdCapture
  simp only
  split
  · exact (hwait.trans (cseqPad_same _)).trans (dmaRun_same _)
  · exact hwait

/-- The abort path is not a wait: no Turn is taken in it. -/
theorem cmdAbort_course (res : ResSize) (dst : Word) (s : State) :
    (cmdAbort res dst s).session = s.session ∧ (cmdAbort res dst s).cfg = s.cfg ∧ (cmdAbort res dst s).card = s.card := by
  have hlost := scramble_same dst res.words
    (((s.setPhase .cmdAbort).setDma0 s.dma0.abort).setCseq s.cseq.clearRx.forceWait)
  exact ⟨hlost.session, hlost.cfg, hlost.card⟩

/-- A command takes one Turn of the card and leaves the session and the configuration, whatever DSEQ does meanwhile. -/
theorem ownCommand_course (cmd : BitVec 6) (param : Word) (s : State) :
    (ownCommand cmd param s).2.session = s.session ∧ (ownCommand cmd param s).2.cfg = s.cfg ∧
      (ownCommand cmd param s).2.card = s.card.tail := by
  obtain ⟨p, hp, hsession, hcfg, hcard⟩ : ∃ p,
      (cmdStart (cmdArm cmd param .short s.cfg.respAddr (cmdBuild cmd param s))).setPhase .cmdWait = p ∧
        p.session = s.session ∧ p.cfg = s.cfg ∧ p.card = s.card :=
    ⟨_, rfl, by simp [cmdStart, cmdArm, cmdBuild, buildFrame]⟩
  have hcapture := cmdCapture_same .short p
  unfold ownCommand sdCommand
  simp only [hp]
  generalize cmdCapture .short p = r at hcapture ⊢
  obtain ⟨captured, t⟩ := r
  have hturn : t.session = s.session ∧ t.cfg = s.cfg ∧ t.card = s.card.tail :=
    ⟨hcapture.session.trans hsession, hcapture.cfg.trans hcfg, hcapture.card.trans (congrArg List.tail hcard)⟩
  cases captured with
  | true => exact hturn
  | false =>
    obtain ⟨hsession, hcfg, hcard⟩ := cmdAbort_course .short s.cfg.respAddr t
    exact ⟨hsession.trans hturn.1, hcfg.trans hturn.2.1, hcard.trans hturn.2.2⟩

theorem readFail_session (o : ReadOp) (c : Cause) (s : State) : (readFail o c s).session = s.session := by
  obtain ⟨ws, cs, free, k, -, -, hfail⟩ := readFail_spec o c s
  rw [hfail]

theorem feedOne_course (o : ReadOp) (fed : Nat) (s : State) :
    (feedOne o fed s).2.session = s.session ∧ (feedOne o fed s).2.cfg = s.cfg := by
  unfold feedOne
  split <;> exact ⟨rfl, rfl⟩

/-- The data phase fails at once where its deadline has passed when it is first polled, the chain done or not. -/
theorem readData_overdue (o : ReadOp) (rest : List Turn) (fed : Nat) (hb : s.cfg.readDataBounded = true) :
    ∃ v, readData o (Turn.silent :: rest) fed s = .done false v ∧ v.session = s.session := by
  obtain ⟨hsession, hcfg⟩ := feedOne_course o fed { s with card := rest }
  generalize hfeed : feedOne o fed { s with card := rest } = r at hsession hcfg
  obtain ⟨fed', u⟩ := r
  refine ⟨readFail o .dataTimeout (u.setPhase (dataPhase o fed')), ?_, (readFail_session _ _ _).trans hsession⟩
  have hticks : Turn.silent.waitTicks o.bits = [] := rfl
  have hover : Turn.silent.overdueAtOnce = true := rfl
  have hbound : u.cfg.readDataBounded = true := (congrArg Config.readDataBounded hcfg).trans hb
  simp [readData, awaitBlocks, hfeed, hticks, hover, hb, hbound]

/-- Starting the chain moves the words that came early, and takes no Turn. -/
theorem rdStream_overdue (o : ReadOp) {rest : List Turn} (hb : s.cfg.readDataBounded = true)
    (hcard : s.card = Turn.silent :: rest) : ∃ v, rdStream o s = .done false v ∧ v.session = s.session := by
  let configured := (s.drawn.setPhase .rdStream).setDma0
    (s.dma0.config .dseqRxf (.mem s.drawValue) 0#32 false true true .dseqRx .dma1)
  have hsame : SameControl configured (dmaRun (dma1Start s.cfg.tableAddr configured)) :=
    ((SameControl.setDma1 _ _).trans (dma1Trigger_same _)).trans (dmaRun_same _)
  have hcfg : (dmaRun (dma1Start s.cfg.tableAddr configured)).cfg = s.cfg := hsame.cfg.trans s.drawn_cfg
  have hsession : (dmaRun (dma1Start s.cfg.tableAddr configured)).session = s.session :=
    hsame.session.trans s.drawn_session
  have hturns : (dmaRun (dma1Start s.cfg.tableAddr configured)).card = Turn.silent :: rest :=
    (hsame.card.trans s.drawn_card).trans hcard
  obtain ⟨v, hread, hv⟩ := readData_overdue (s := dmaRun (dma1Start s.cfg.tableAddr configured)) o rest 0
    (by rw [hcfg]; exact hb)
  refine ⟨v, ?_, hv.trans hsession⟩
  rw [← hread, ← hturns, rdStream]
  simp only [configured, State.setDma0_cfg, State.setPhase_cfg, State.drawn_cfg, State.setPhase_dma0, State.drawn_dma0]

/-- Whatever the first Turn does to the command, the read fails: in the command, in its status, or at the first poll of
its data phase. -/
theorem rdCmd_overdue (o : ReadOp) {u : Turn} {rest : List Turn} (hb : s.cfg.readDataBounded = true)
    (hcard : s.card = u :: Turn.silent :: rest) : ∃ v, rdCmd o s = .done false v ∧ v.session = s.session := by
  obtain ⟨hsession, hcfg, htail⟩ := ownCommand_course o.cmd o.addr (s.setPhase .rdCmd)
  unfold rdCmd
  simp only
  split
  · split
    · obtain ⟨v, hv, hvs⟩ := rdStream_overdue o (hcfg ▸ hb) (htail.trans (congrArg List.tail hcard))
      exact ⟨v, hv, hvs.trans hsession⟩
    · exact ⟨_, rfl, (readFail_session _ _ _).trans hsession⟩
  · exact ⟨_, rfl, (readFail_session _ _ _).trans hsession⟩

theorem readBlock_overdue {n : Nat} {u : Turn} {rest : List Turn} (hn : n ≤ 32) (hb : s.cfg.readDataBounded = true)
    (hcard : s.card = u :: Turn.silent :: rest) :
    ∃ v, readBlock cmd addr buffer n crc s = .done false v ∧ v.session = s.session := by
  have hstart : ∀ o, (rdArm o (rdTable o (s.setPhase .rdCheck))).cfg = s.cfg ∧
      (rdArm o (rdTable o (s.setPhase .rdCheck))).card = s.card ∧
      (rdArm o (rdTable o (s.setPhase .rdCheck))).session = s.session := fun o => by
    simp [rdArm, rdTable]
  obtain ⟨hcfg, hcards, hsession⟩ := hstart (readOp cmd addr buffer n crc s)
  obtain ⟨v, hv, hvs⟩ := rdCmd_overdue (readOp cmd addr buffer n crc s) (hcfg ▸ hb) (hcards.trans hcard)
  refine ⟨v, ?_, hvs.trans hsession⟩
  rw [← hv, readBlock]
  exact if_neg (Nat.not_lt.2 hn)

/-- What has come to rest is ready for the next request when it has returned. -/
theorem State.Calm.ready_finish {c : Config} (h : s.Calm c) (hc : c.wf) (w : OpResult) : (s.finish w).Ready where
  inv    := ⟨h.mem, h.lanes, ⟨fun _ => rfl, fun _ => rfl⟩, ⟨fun _ => rfl, fun _ => rfl⟩⟩
  idle   := rfl
  cseq   := h.rested.cseq
  cwaits := h.rested.cwaits
  dseq   := h.rested.dseq
  dwaits := h.rested.dwaits
  dma0   := h.rested.dma0
  dma1   := h.rested.dma1
  clock  := h.clock
  cfg    := h.cfg ▸ hc

/-- Settles O35: a card that answers and then sends nothing by `Worked.readTimesOut`; that the read fails whatever the card
did before by `readBlock_overdue`, and that it comes to rest then by `readBlock_settles`. -/
theorem readBlockDataTimeout : Obligations.ReadBlockDataTimeout := by
  refine ⟨?silent, ?overdue⟩
  case silent =>
    intro s cmd addr buffer count crc latency r rest hs hb hr hcard
    refine ⟨fun hvalid hop hn he => ?read, ?switch⟩
    case read =>
      have h : ReadAdmitted cmd buffer count crc s := ⟨hs, hvalid, hop, hn, he⟩
      obtain ⟨v, hrun, hv, -⟩ := (hcard ▸ hs.worked (readMayChange cmd buffer count crc s)).readTimesOut hs.base h.not_app
        (h.place addr) hr hb fun _ => h.mayChange
      obtain ⟨hread, h17, h18⟩ := h.returns hrun
      rw [List.append_nil] at hv
      exact ⟨_, hread, h17, h18, hv.frame _, hv.returned _⟩
    case switch =>
      obtain ⟨v, hrun, hv, -⟩ := (hcard ▸ hs.worked (inStorage s.cfg)).readTimesOut (cmd := 6#6) (addr := addr) hs.base
        (by decide) (readPlace_switch hs.cfg) hr hb fun _ => switch_touched (u := s.busy) hs.cfg
      rw [List.append_nil] at hv
      exact ⟨_, hs.exec_cmd6_fails hrun, hv.frame _, hv.returned _⟩
  case overdue =>
    intro s cmd addr buffer count crc u rest hs hb hcard hvalid hop hn he
    have h : ReadAdmitted cmd buffer count crc s := ⟨hs, hvalid, hop, hn, he⟩
    obtain ⟨v, hrun, hsession⟩ := readBlock_overdue (s := s.busy) (cmd := cmd) (addr := addr) (buffer := buffer) (crc := crc)
      hn hb hcard
    obtain ⟨hread, h17, h18⟩ := h.returns hrun
    have hsettles := readBlock_settles hs.cfg hs.calm fun _ => h.place addr
    rw [hrun] at hsettles
    obtain ⟨hcalm⟩ := hsettles
    exact ⟨_, hread, h17, h18, hcalm.ready_finish hs.cfg _, hcalm.cfg, hsession, rfl⟩

/-! ## WRITE_BLOCK and CMD24 (R220 to R225; log 2) -/

theorem State.Ready.exec_writeBlock (h : s.Ready) (hv : s.sessionValid = true) (ha : alignedNonNull buffer = true)
    (he : extentOk s.cfg buffer 512 = true) {b : Bool} {v : State} (hrun : writeBlock addr buffer s.busy = .done b v) :
    exec (.writeBlock 24#32 addr buffer) s = .next (v.finish (.bool b)) ∧
      exec (.cmd24 addr buffer) s = .next (v.finish (.bool b)) := by
  have accepted : s.accept (writeRequest 24#32 addr buffer) = .next (v.finish (.bool b)) := by
    rw [accept_idle h.idle, writeRequest_admitted (s := s.busy) ha he, guardRun_of hv, guardRun_of h.programmed, hrun,
      bool_done, outcome_done]
  exact ⟨accepted, accepted⟩

/-- Settles O36, by `Worked.writes`. -/
theorem writeBlockSendsTheBlock : Obligations.WriteBlockSendsTheBlock := by
  intro s addr buffer p rest hs hvalid ha he hp hcard
  obtain ⟨hfits, hapart⟩ := extentOk_spec hs.cfg (by decide) he
  obtain ⟨v, hrun, hv, hdma1, -⟩ := (hcard ▸ hs.worked (inHead s.cfg)).writes (addr := addr) hs.base (fun _ k => k) hp hfits
    (by omega)
  obtain ⟨hwrite, h24⟩ := hs.exec_writeBlock hvalid ha he hrun
  rw [List.append_nil] at hv
  exact ⟨_, hwrite, h24, hv.frame _, hdma1, hv.returned _⟩

theorem dat0Levels_append (new old : List PinEvent) : dat0Levels (new ++ old) = dat0Levels old ++ dat0Levels new := by
  rw [dat0Levels, List.reverse_append, List.filterMap_append]; rfl

/-- A frame is on CMD alone. -/
theorem dat0Levels_frameEvents (cmd : BitVec 6) (param : Word) : dat0Levels (frameEvents cmd param) = [] := by
  rw [dat0Levels, frameEvents, List.reverse_reverse, List.filterMap_map]
  exact List.filterMap_eq_nil_iff.2 fun _ _ => rfl

/-- Settles O37, by `Worked.writeFails`. -/
theorem writeBlockCommandFails : Obligations.WriteBlockCommandFails := by
  intro s addr buffer f c rest hs hvalid ha he hf hcard
  obtain ⟨v, hrun, hv, hdma1⟩ := (hcard ▸ hs.worked (inHead s.cfg)).writeFails (addr := addr) (buffer := buffer) hs.base
    (fun _ k => k) hf
  obtain ⟨hwrite, h24⟩ := hs.exec_writeBlock hvalid ha he hrun
  rw [List.append_nil] at hv
  have hret := hv.returned (.bool false)
  exact ⟨_, hwrite, h24, hv.frame _, hdma1, by
    rw [hret.history, dat0Levels_append, dat0Levels_frameEvents, List.append_nil], hret⟩

end Sys2Proof.Machine
end

/-! # Proofs: the invariant of every step (spec/00_scope.md R16; spec/45_bus_width.md R232; spec/60_exceptions.md R294;
logs 11, 21) -/

section
namespace Sys2Proof.Machine

variable {s t : State}

/-- What a request, or a wait that goes on, has left: an engine that has returned, or one that waits at a step label. -/
theorem Left.inv (h : Left Held s t) (hmem : s.mem.wf = true) (hlanes : s.lanes = s.session.dataWidth) :
    t.Inv ∧ t.cfg = s.cfg := by
  cases h with
  | returned u v h e =>
    subst e
    exact ⟨⟨h.wf hmem, h.lanes hlanes, ⟨fun _ => rfl, fun _ => rfl⟩, ⟨fun _ => rfl, fun _ => rfl⟩⟩, h.cfg⟩
  | waits u fs h hf hp e =>
    subst e
    have hdone : u.done ≠ true := Bool.eq_false_iff.1 h.done
    exact ⟨⟨h.wf hmem, h.lanes hlanes, iff_of_false hp hf, iff_of_false hdone hf⟩, h.cfg⟩

/-- A step at rest is the host's next act: nothing, a request, or a store of its own. -/
theorem State.Inv.of_step_at_rest (h : s.Inv) (hs : s.stack = []) (hstep : step s = .next t) : t.Inv ∧ t.cfg = s.cfg := by
  cases hh : s.host with
  | nil =>
    rw [step_of_no_act hs hh] at hstep
    obtain rfl := Host.Outcome.next.inj hstep
    exact ⟨h, rfl⟩
  | cons act acts =>
    cases act with
    | request bs =>
      cases hd : decode s.appPrefix bs with
      | ok r =>
        rw [step_of_request hs hh hd] at hstep
        exact (exec_held hstep).inv h.mem h.lanes
      | error e => rw [step_of_bad_request hs hh hd] at hstep; cases hstep
    | store a bs =>
      cases he : extentOk s.cfg a bs.length with
      | true =>
        rw [step_of_store hs hh he] at hstep
        obtain rfl := Host.Outcome.next.inj hstep
        exact ⟨⟨Memory.wf_writeBytes h.mem a bs, h.lanes, h.idle, h.done⟩, rfl⟩
      | false => rw [step_of_store_outside hs hh he] at hstep; cases hstep

/-- A waiting engine is busy, so that what a wait leaves is what its request leaves (R286). -/
theorem State.Inv.of_step_waiting (h : s.Inv) (hs : s.stack ≠ []) (hstep : step s = .next t) : t.Inv ∧ t.cfg = s.cfg := by
  have hbusy : s.busy = s := by
    have hdone : s.done = false := Bool.eq_false_iff.2 (mt h.done.1 hs)
    rw [State.busy, ← hdone]
  have hkeeps := resume_keeps (mt h.idle.1 hs) hs
  rw [step, if_neg hs] at hstep
  exact (outcome_left (by rwa [hbusy]) hstep).inv h.mem h.lanes

/-- Settles O59, by whether an operation waits. -/
theorem stepKeepsTheInvariant : Obligations.StepKeepsTheInvariant := by
  intro s t h hstep
  by_cases hs : s.stack = []
  · exact h.of_step_at_rest hs hstep
  · exact h.of_step_waiting hs hstep

end Sys2Proof.Machine
end

/-! # Proofs: SET_WIDTH (spec/45_bus_width.md R230 to R232; log 5) -/

section
namespace Sys2Proof.Machine

/-- Settles O38: the engine returns with nothing done. -/
theorem setWidthIdempotent : Obligations.SetWidthIdempotent := by
  intro s hs hvalid
  rw [hs.exec_setWidth hvalid, setWidthOp_same (u := s.busy) rfl, hs.busy_finish]

/-- Settles O39, by `Sent.widthPasses`. -/
theorem setWidthCompletes : Obligations.SetWidthCompletes := by
  intro s w latency55 latency6 r55 r6 rest hs hvalid hw h55 h6 hcard
  have hv := (hcard ▸ Sent.start (inHead s.cfg) hs).widthPasses hs.base (fun _ hy => hy) hw h55 h6
  have harg : widthArg (decide (w = .four)) = if w = .four then 2#32 else 0#32 := by cases w <;> rfl
  rw [List.append_nil, harg] at hv
  exact ⟨_, hs.exec_setWidth hvalid w, hv.frame hs.base _, hv.lanes, hv.returned _⟩

end Sys2Proof.Machine
end

/-! # Proofs: STORAGE_READ and STORAGE_WRITE (spec/46_session_host.md R250 to R255; spec/45_bus_width.md R233, R234; logs 5,
13, 15, 19) -/

section
namespace Sys2Proof.Machine

variable {touched : Nat → Prop} {s : State} {block buffer size : Word} {w : Width} {wp : WidthPlay} {rest : List Turn}
  {left : Nat} {ps : List ReadPlay}

/-! ## The operands of an admitted request (R253) -/

theorem StorageDomain.byteCount {c : Config} (h : StorageDomain c buffer size) :
    Machine.byteCount (size.toNat / 512) = .count size := by
  rw [Machine.byteCount, Nat.mul_comm, ← h.blocks, BitVec.ofNat_toNat, BitVec.setWidth_eq]

theorem StorageDomain.no_blocks_iff {c : Config} (h : StorageDomain c buffer size) : size.toNat / 512 = 0 ↔ size = 0#32 := by
  have := h.blocks
  rw [← BitVec.toNat_inj, BitVec.toNat_ofNat]
  omega

section
variable (h : s.Ready) (hvalid : s.sessionValid = true) (hop : storageOperandsOk 0#32 buffer size = true)
  (he : extentOk s.cfg buffer size.toNat = true)
include h hvalid hop he

theorem State.Ready.storageDomain : StorageDomain s.cfg buffer size :=
  (storageGuard_of h.cfg h.cwaits h.dwaits hvalid hop he (.done .none s)).2

theorem State.Ready.accept_storageGuard (k : State → Run OpResult) :
    s.accept (fun s => storageGuard 0#32 buffer size s (k s)) = (k s.busy).outcome := by
  rw [accept_idle h.idle, (storageGuard_of (s := s.busy) h.cfg h.cwaits h.dwaits hvalid hop he _).1]

theorem State.Ready.exec_storageRead : exec (.storageRead block 0#32 buffer size) s =
    (readLoop block buffer (size.toNat / 512) (size.toNat / 512) 0 (setWidthOp .four s.busy)).outcome :=
  h.accept_storageGuard hvalid hop he (storageRead block buffer (size.toNat / 512))

theorem State.Ready.exec_storageWrite : exec (.storageWrite block 0#32 buffer size) s =
    (writeLoop block buffer (size.toNat / 512) (size.toNat / 512) 0 (setWidthOp .one s.busy)).outcome :=
  h.accept_storageGuard hvalid hop he (storageWrite block buffer (size.toNat / 512))

end

/-! ## SET_WIDTH before the loop (R233, R234) -/

/-- `Sent.widthDone` at the start of a request. -/
theorem State.Ready.widthDone (h : s.Ready) (ht : ∀ z, inHead s.cfg z → touched z) (hg : wp.Good s.session.dataWidth w)
    (hcard : s.card = wp.turns s.session.dataWidth w ++ rest) :
    Sent touched s (setWidthOp w s.busy) { s.session with dataWidth := wp.width s.session.dataWidth w }
      (wp.failure s.session.dataWidth w s.lastFailure) rest (if w = s.session.dataWidth then s.appPrefix else false)
      (wp.events s.session.dataWidth w s.session.cardRca) := by
  have hv := (hcard ▸ Sent.start touched h).widthDone h.base ht hg
  rwa [List.append_nil] at hv

/-- Only a request that sent nothing leaves the decoder's bit of state (R111). -/
theorem appPrefix_after {α : Type} {xs : List α} {old : Width} {app : Bool} (hxs : xs = [] ↔ size = 0#32) :
    (if xs = [] then (if w = old then app else false) else false) = if size = 0#32 ∧ old = w then app else false := by
  simp only [← ite_and, hxs, @eq_comm _ w old]

/-! ## STORAGE_READ -/

/-- The bytes a STORAGE_READ may change. -/
abbrev storageMayChange (c : Config) (buffer size : Word) (x : Nat) : Prop :=
  inStorage c x ∨ inExtent buffer size.toNat x

/-- The bytes delivered so far lie apart from the engine's storage (R81). -/
theorem BufferAt.not_inStorage {c : Config} {total done z : Nat} (h : BufferAt c buffer total) (hd : done ≤ total)
    (hz : inExtent buffer (512 * done) z) : ¬ inStorage c z := by
  obtain ⟨hfits, hapart⟩ := h
  unfold inExtent at hz
  unfold inStorage storageSize
  omega

theorem ChunksGood.nil_iff {verify : Bool} {n : Nat} (h : ChunksGood w verify n ps 0) : ps = [] ↔ n = 0 := by
  cases ps with
  | nil => exact iff_of_true rfl h
  | cons p ps => exact iff_of_false (List.cons_ne_nil _ _) (Nat.ne_of_gt h.1)

/-- SET_WIDTH(4), then the chunks the card serves: the loop goes on with the `left` blocks (R234, R250, R251). -/
theorem State.Ready.readChunks (h : s.Ready) (hd : StorageDomain s.cfg buffer size) (hg : wp.Good s.session.dataWidth .four)
    (hps : ChunksGood (wp.width s.session.dataWidth .four) s.cfg.verifyReadCrc (size.toNat / 512) ps left)
    (hcard : s.card = wp.turns s.session.dataWidth .four ++
      chunkTurns (wp.width s.session.dataWidth .four) (size.toNat / 512) ps ++ rest) :
    ∃ v fuel, readLoop block buffer (size.toNat / 512) (size.toNat / 512) 0 (setWidthOp .four s.busy) =
        readLoop block buffer (size.toNat / 512) fuel (size.toNat / 512 - left) v ∧
      left ≤ fuel ∧ left ≤ size.toNat / 512 ∧ (0 < left → size.toNat / 512 - left = 32 * ps.length) ∧
      Worked (storageMayChange s.cfg buffer size) s v { s.session with dataWidth := wp.width s.session.dataWidth .four }
        (wp.failure s.session.dataWidth .four s.lastFailure) rest
        (if ps = [] then (if .four = s.session.dataWidth then s.appPrefix else false) else false)
        (chunkEvents s.session block (size.toNat / 512) 0 ps ++ wp.events s.session.dataWidth .four s.session.cardRca) ∧
      v.crc16Reg = s.crc16Reg ∧
      v.mem.readBytes buffer (512 * (size.toNat / 512 - left)) = ps.flatMap ReadPlay.data := by
  have hwidth := h.widthDone (touched := storageMayChange s.cfg buffer size) (fun z hz => .inl (inHead_storage hz)) hg
    (hcard.trans (List.append_assoc ..))
  obtain ⟨v, fuel, hloop, hfuel, hle, hlen, hv, hcrc, hdata, -⟩ := (hwidth.worked h.base).readLoop (block := block)
    (buffer := buffer) (total := size.toNat / 512) (fuel := size.toNat / 512) (done := 0) (ps := ps) h.base hd.buffer
    (fun z hz => by rwa [← hd.blocks] at hz) (Nat.zero_le _) (Nat.le_refl _) hps
  refine ⟨v, fuel, hloop, hfuel, hle, fun hl => (hlen hl).trans (Nat.zero_add _), ?_, hcrc.trans hwidth.crc16, ?_⟩
  · rwa [chunkEvents_width] at hv
  · simpa using hdata

/-- Settles O47, by `Worked.readLoop` with no block left. -/
theorem storageReadCompletes : Obligations.StorageReadCompletes := by
  intro s block buffer size wp ps rest hs hvalid hop he hg hps hcard
  have hd := hs.storageDomain hvalid hop he
  obtain ⟨v, fuel, hloop, -, -, -, hv, hcrc, hdata⟩ := hs.readChunks (block := block) hd hg hps hcard
  have hexec := hs.exec_storageRead (block := block) hvalid hop he
  rw [hloop, Nat.sub_zero, readLoop_end, hd.byteCount, outcome_done] at hexec
  rw [Nat.sub_zero, ← hd.blocks] at hdata
  rw [appPrefix_after (hps.nil_iff.trans hd.no_blocks_iff)] at hv
  exact ⟨_, hexec, hv.frame _, hcrc, hdata, hv.returned _⟩

/-- Settles O48, by `Worked.readLoopFails` after the chunks the card served. -/
theorem storageReadStopsShort : Obligations.StorageReadStopsShort := by
  intro s block buffer size wp ps left f c rest hs hvalid hop he hg hps hleft hf hcard
  have hd := hs.storageDomain hvalid hop he
  obtain ⟨v, fuel, hloop, hfuel, hle, hserved, hv, -, hdata⟩ := hs.readChunks (block := block) hd hg hps hcard
  have hserved := hserved hleft
  have hblocks := hd.blocks
  have hbuffer : BufferAt s.cfg buffer (size.toNat / 512) := hd.buffer (by omega)
  obtain ⟨u, hend, hu, hkept⟩ := hv.readLoopFails (block := block) (fuel := fuel) hs.base hbuffer
    (fun z hz => by rwa [← hd.blocks] at hz) (done := 32 * ps.length) (by omega) (by omega) hf
    fun z hz => hbuffer.not_inStorage (by omega) hz
  have hexec := hs.exec_storageRead (block := block) hvalid hop he
  have hcount : 32 * ps.length * 512 = 512 * 32 * ps.length := by omega
  rw [hloop, hserved, hend, outcome_done, byteCount, hcount] at hexec
  rw [hserved] at hdata
  rw [← Nat.mul_assoc] at hdata hkept
  have hrest : size.toNat / 512 - 32 * ps.length = left := by omega
  rw [hrest, cardAddress_width] at hu
  refine ⟨_, hexec, by omega, hu.frame _, hkept.trans hdata, ?_⟩
  simpa only [List.append_assoc] using hu.returned _

/-! ## STORAGE_WRITE -/

/-- SET_WIDTH(1), then the blocks the card takes: the loop goes on with what is left (R234, R254). -/
theorem State.Ready.writeBlocks {ps : List WritePlay} (h : s.Ready) (hd : StorageDomain s.cfg buffer size)
    (hg : wp.Good s.session.dataWidth .one) (hlen : ps.length ≤ size.toNat / 512) (hps : ∀ p ∈ ps, Passes p.r)
    (hcard : s.card = wp.turns s.session.dataWidth .one ++ ps.flatMap WritePlay.turns ++ rest) :
    ∃ v fuel, writeLoop block buffer (size.toNat / 512) (size.toNat / 512) 0 (setWidthOp .one s.busy) =
        writeLoop block buffer (size.toNat / 512) fuel ps.length v ∧
      size.toNat / 512 - ps.length ≤ fuel ∧ v.dma1 = s.dma1 ∧
      Worked (inHead s.cfg) s v { s.session with dataWidth := wp.width s.session.dataWidth .one }
        (wp.failure s.session.dataWidth .one s.lastFailure) rest
        (if ps = [] then (if .one = s.session.dataWidth then s.appPrefix else false) else false)
        (writeEvents s.session block 0 (bufferBlocks s.mem buffer ps.length) ++
          wp.events s.session.dataWidth .one s.session.cardRca) := by
  have hwidth := h.widthDone (touched := inHead s.cfg) (fun _ hz => hz) hg (hcard.trans (List.append_assoc ..))
  obtain ⟨v, fuel, hloop, hfuel, hdma1, hv⟩ := (hwidth.worked h.base).writeLoop (block := block) (buffer := buffer)
    (total := size.toNat / 512) (fuel := size.toNat / 512) (done := 0) h.base hd.buffer (fun _ => Iff.rfl) (by omega)
    (by omega) hps
  rw [Nat.zero_add] at hloop hfuel
  rw [← List.range_eq_range', writeEvents_width] at hv
  exact ⟨v, fuel, hloop, hfuel, hdma1.trans hwidth.dma1, hv⟩

/-- Settles O49, by `Worked.writeLoop` over all blocks. -/
theorem storageWriteCompletes : Obligations.StorageWriteCompletes := by
  intro s block buffer size wp ps rest hs hvalid hop he hg hlen hps hcard
  have hd := hs.storageDomain hvalid hop he
  obtain ⟨v, fuel, hloop, -, hdma1, hv⟩ := hs.writeBlocks (block := block) hd hg hlen.le hps hcard
  have hnone : ps = [] ↔ size = 0#32 := by rw [← List.length_eq_zero_iff, hlen, hd.no_blocks_iff]
  have hexec := hs.exec_storageWrite (block := block) hvalid hop he
  rw [hloop, hlen, writeLoop_end, hd.byteCount, outcome_done] at hexec
  rw [appPrefix_after hnone, hlen] at hv
  exact ⟨_, hexec, hv.frame _, hdma1, hv.returned _⟩

/-- Settles O50, by `Worked.writeLoopFails` after the blocks the card took. -/
theorem storageWriteStopsShort : Obligations.StorageWriteStopsShort := by
  intro s block buffer size wp ps f c rest hs hvalid hop he hg hlen hps hf hcard
  have hd := hs.storageDomain hvalid hop he
  obtain ⟨v, fuel, hloop, hfuel, hdma1, hv⟩ := hs.writeBlocks (block := block) hd hg hlen.le hps hcard
  obtain ⟨u, hend, hu, hudma1⟩ := hv.writeLoopFails (block := block) (buffer := buffer) (fuel := fuel) hs.base (fun _ hz => hz)
    hlen (by omega) hf
  have hexec := hs.exec_storageWrite (block := block) hvalid hop he
  rw [hloop, hend, outcome_done, byteCount, Nat.mul_comm] at hexec
  rw [cardAddress_width] at hu
  refine ⟨_, hexec, hu.frame _, hudma1.trans hdma1, ?_⟩
  simpa only [List.append_assoc] using hu.returned _

end Sys2Proof.Machine
end

/-! # Proofs: PARSE_CSD and GET_STORAGE_SIZE (spec/46_session_host.md R244, R246, R249; spec/30_encoding.md R125, R126;
log 8) -/

section
namespace Sys2Proof.Machine

/-! ## The bounds of the count of blocks (R246) -/

theorem csdField_lt (r : List Byte) (hi lo : Nat) : csdField r hi lo < 2 ^ (hi - lo + 1) :=
  Nat.mod_lt _ (Nat.two_pow_pos _)

theorem csdBlocks_version1 {r : List Byte} (h : csdField r 127 126 = 0) :
    csdBlocks r = (csdField r 73 62 + 1) * 2 ^ (csdField r 49 47 + 2) * 2 ^ csdField r 83 80 / 512 := if_pos h

theorem csdBlocks_version2 {r : List Byte} (h : csdField r 127 126 = 1) : csdBlocks r = (csdField r 69 48 + 1) * 1024 :=
  if_neg (by omega)

/-- Version 1: at most 2^12 units of at most 2^9 blocks, each block of at most 2^15 bytes. -/
theorem csdBlocks_version1_le {r : List Byte} (h : csdField r 127 126 = 0) : csdBlocks r ≤ 2 ^ 27 := by
  have hsize : csdField r 73 62 + 1 ≤ 2 ^ 12 := csdField_lt r 73 62
  have hmult : 2 ^ (csdField r 49 47 + 2) ≤ 2 ^ 9 :=
    Nat.pow_le_pow_right (by decide) (Nat.add_le_add_right (Nat.le_of_lt_succ (csdField_lt r 49 47)) 2)
  have hlen : 2 ^ csdField r 83 80 ≤ 2 ^ 15 :=
    Nat.pow_le_pow_right (by decide) (Nat.le_of_lt_succ (csdField_lt r 83 80))
  calc csdBlocks r
    _ = (csdField r 73 62 + 1) * 2 ^ (csdField r 49 47 + 2) * 2 ^ csdField r 83 80 / 512 := csdBlocks_version1 h
    _ ≤ 2 ^ 12 * 2 ^ 9 * 2 ^ 15 / 512 := Nat.div_le_div_right (Nat.mul_le_mul (Nat.mul_le_mul hsize hmult) hlen)
    _ = 2 ^ 27 := by decide

/-- Version 2: C_SIZE has 22 bits, and only its largest value gives 2^32 blocks. -/
theorem csdBlocks_version2_overflow {r : List Byte} (h : csdField r 127 126 = 1) :
    2 ^ 32 ≤ csdBlocks r ↔ csdField r 69 48 = 0x3FFFFF := by
  have hsize : csdField r 69 48 < 2 ^ 22 := csdField_lt r 69 48
  rw [csdBlocks_version2 h]
  omega

/-- PARSE_CSD of a version 2 CSD whose count does not fit: the count is a draw (R246 (b)). -/
theorem parseCsd_overflow {a : Word} {s : State} (hv : csdField (s.mem.readBytes a 17) 127 126 = 1)
    (hb : 2 ^ 32 ≤ csdBlocks (s.mem.readBytes a 17)) : parseCsd a s = .done s.drawValue s.drawn := by
  rw [csdField_structure] at hv
  rw [csdBlocks_eq, hv, if_neg Nat.one_ne_zero] at hb
  simp only [parseCsd, hv, Nat.one_ne_zero, if_false, if_true, blocksResult, Nat.not_lt.2 hb]

/-! ## The operations -/

section
variable {s : State}

theorem exec_parseCsd_done {a n : Word} {v : State} (hi : s.phase = .idle) (ha : a.toNat % 4 = 0)
    (he : extentOk s.cfg a 17 = true) (hrun : parseCsd a s.busy = .done n v) :
    exec (.parseCsd a) s = .next (v.finish (.blocks n)) := by
  rw [exec, execParseCsd, accept_idle hi, guardRun_of (aligned_of ha), guardRun_of he, hrun]
  rfl

/-- A draw taken inside a request and before it are the same. -/
theorem State.drawn_busy (s : State) : s.busy.drawn = s.drawn.busy := by
  unfold State.drawn
  cases s.free <;> rfl

theorem State.Inv.drawn (h : s.Inv) : s.drawn.Inv := by
  rw [drawn_eq]
  exact ⟨h.mem, h.lanes, h.idle, h.done⟩

end

/-! ## The obligations -/

/-- Settles O41: the CSD's fields by their bit numbers are those PARSE_CSD takes from the bytes. -/
theorem parseCsdCompletes : Obligations.ParseCsdCompletes := by
  intro s a h hi ha he hv hb
  rw [exec_parseCsd_done hi ha he (parseCsd_fits (s := s.busy) hv hb), h.busy_finish hi]

/-- Settles O42, by the sizes of the fields. -/
theorem parseCsdOverflow : Obligations.ParseCsdOverflow := by
  refine ⟨fun _ => csdBlocks_version1_le, fun _ => csdBlocks_version2_overflow, ?draw⟩
  case draw =>
    intro s a h hi ha he hv hsize
    have hrun := parseCsd_overflow (s := s.busy) hv ((csdBlocks_version2_overflow hv).2 hsize)
    rw [exec_parseCsd_done hi ha he hrun, State.drawn_busy, h.drawn.busy_finish (s.drawn_phase.trans hi)]
    rfl

/-- Settles O43: the only test is that of the session. -/
theorem getStorageSizeCompletes : Obligations.GetStorageSizeCompletes := by
  intro s h hi
  refine ⟨fun hv => ?session, fun hv => ?noSession⟩
  case session => rw [exec, execGetStorageSize, accept_idle hi, guardRun_of hv, outcome_done, h.busy_finish hi]
  case noSession => rw [exec, execGetStorageSize, accept_idle hi, guardRun_refused hv, outcome_refused]

end Sys2Proof.Machine
end

/-! # Proofs: STORAGE_INIT (spec/46_session_host.md R235 to R248, R256; spec/47_wire_commands.md R275;
spec/60_exceptions.md R286; logs 1, 5, 10, 17, 19, 21) -/

section
namespace Sys2Proof.Machine

variable {touched : Nat → Prop} {s u v : State} {x : Session} {f : Option Cause} {rest : List Turn} {app : Bool}
  {ev : List PinEvent}

/-! ## The request -/

theorem State.Bootable.exec_storageInit (h : s.Bootable) : exec .storageInit s = (storageInit s.busy).outcome :=
  accept_idle h.idle storageInit

/-- A STORAGE_INIT that returns leaves the block ready for the next request, whatever its result (R312). -/
theorem State.Bootable.returns (h : s.Bootable) {w : OpResult} (hrun : storageInit s.busy = .done w v) :
    exec .storageInit s = .next (v.finish w) ∧ (v.finish w).Ready := by
  refine ⟨by rw [h.exec_storageInit, hrun, outcome_done], ?_⟩
  have hsettles := storageInit_settles h
  rw [hrun] at hsettles
  obtain ⟨hcalm⟩ := hsettles
  exact hcalm.ready_finish h.cfg w

/-! ## A card that answers every mandatory step -/

theorem InitPlay.turns_eq (p : InitPlay) :
    p.turns = p.turnsReady ++ Turn.answer p.latency2 p.cid :: Turn.answer p.latency3 p.rca ::
      Turn.answer p.latency9 p.csd :: Turn.answer p.latency7 p.r7 :: Turn.busy p.busy :: p.switch.turns := by
  simp [InitPlay.turns, InitPlay.turnsReady]

/-- The frames are those up to the last mandatory step, and that of step 11 (R275). -/
theorem InitPlay.events_eq (p : InitPlay) (c : Config) :
    p.events c = frameEvents 6#6 c.cmd6Arg ++ p.eventsTo c .select := by
  simp [InitPlay.events, InitPlay.eventsTo, InitPlay.eventsReady]

/-- Steps 1 to 10 (R236 to R247). -/
theorem storageInit_selected {p : InitPlay} {verify : Bool} (h : s.Bootable) (hg : p.Good verify)
    (hbt : s.cfg.busyTimeout = none) (hc : s.card = p.turns ++ rest) (ht : ∀ y, inHead s.cfg y → touched y) :
    ∃ v, storageInit s.busy = Machine.init11 v ∧
      Sent touched (initStart s) v p.session (p.polls.foldl InitPoll.failure s.lastFailure) (p.switch.turns ++ rest) false
        (p.eventsTo s.cfg .select) := by
  have hs := initStart_base h
  have ht' : ∀ y, inHead (initStart s).cfg y → touched y := by rw [initStart_same.1]; exact ht
  rw [p.turns_eq, List.append_assoc] at hc
  simp only [List.cons_append] at hc
  obtain ⟨u6, e6, h6⟩ := storageInit_ready h hg hbt hc ht
  obtain ⟨u7, e7, h7⟩ := h6.init7 hs ht' hg.cid
  obtain ⟨u8, e8, h8⟩ := h7.init8 hs ht' hg.rca
  obtain ⟨u9, e9, h9⟩ := h8.init9 hs ht' hg.csd.1 hg.csd.2.1 hg.csd.2.2
  obtain ⟨v, e10, hv⟩ := h9.init10 hs ht' hg.select
  refine ⟨v, by rw [e6, e7, e8, e9, e10], ?_⟩
  simpa only [InitPlay.eventsTo, InitPlay.session, List.append_assoc] using hv

/-- Settles O44: steps 1 to 10 by `storageInit_selected`, steps 11 and 12 by `Worked.init11`. -/
theorem storageInitCompletes : Obligations.StorageInitCompletes := by
  intro s p rest h hg hbt hbounded hcard
  have hs := initStart_base h
  obtain ⟨-, hio, -, hkseq, hfirst, hlater, -⟩ := initStart_spec h
  obtain ⟨hcfg, -, -, hhost, -, -, -, hmem, -, -, hhist, hcrc⟩ := initStart_same (s := s)
  obtain ⟨u, e10, hu⟩ := storageInit_selected (touched := inStorage s.cfg) h hg hbt hcard fun _ => inHead_storage
  obtain ⟨v, e12, hv, hvcrc⟩ := (hu.worked hs).init11 (p := p.switch) hs (by rw [hcfg]; exact fun _ hz => hz) rfl
    (by rw [hcfg]; exact hg.switch) (by rw [hcfg]; exact hbounded)
  obtain ⟨hexec, hready⟩ := h.returns (e10.trans e12)
  refine ⟨_, hexec, hready, rfl, hv.io.trans hio, fun hi => ?first, fun hi => ?later, ?kseq, hv.cfg.trans hcfg,
    hv.host.trans hhost, (hvcrc.trans hu.crc16).trans hcrc, fun x hx => (hv.mem x hx).trans (by rw [hmem]), ?returned⟩
  case first => exact ⟨hv.claimed0.trans (hfirst hi).1, hv.claimed1.trans (hfirst hi).2⟩
  case later => exact ⟨hv.claimed0.trans (hlater hi).1, hv.claimed1.trans (hlater hi).2⟩
  case kseq =>
    show (⟨v.kseq.running, _⟩ : Kseq) = _
    rw [hv.kseq, hkseq, hcfg]
  case returned =>
    rw [p.events_eq]
    exact ⟨rfl, hv.session, hv.failure, hv.app, hv.card, hv.history.trans (by rw [hhist, hcfg])⟩

/-! ## A card that fails a mandatory step (R256) -/

/-- Settles O45, by `storageInit_fails`. -/
theorem storageInitRefusesTheCard : Obligations.StorageInitRefusesTheCard := by
  intro s p e t c rest h hg hbt hf hcard
  obtain ⟨-, hio, hinvalid, hkseq, -⟩ := initStart_spec h
  obtain ⟨hcfg, -, -, hhost, -, -, -, hmem, -, -, hhist, -⟩ := initStart_same (s := s)
  obtain ⟨v, hrun, hv⟩ := storageInit_fails (touched := inHead s.cfg) h hg hbt hf hcard fun _ hy => hy
  obtain ⟨hexec, hready⟩ := h.returns hrun
  exact ⟨_, hexec, hready, hv.valid.trans hinvalid, hv.io.trans hio, hv.kseq.trans hkseq, hv.cfg.trans hcfg,
    hv.host.trans hhost, fun x hx => (hv.mem x hx).trans (by rw [hmem]), hhist ▸ hv.returned _⟩

/-! ## A card that is removed after step 4 (R240, R286) -/

/-- A round of the poll loop that leaves the engine waiting, as a state between two steps. -/
theorem Sent.pollsForEver (h : Sent touched s v x f [] app ev) (hs : SendBase s) (hp : v.phase = .init5)
    (hinvalid : s.sessionValid = false) (hbt : s.cfg.busyTimeout = none) :
    PollsForEver { v with stack := [.initPoll] } where
  phase   := hp
  stack   := rfl
  busy    := h.done
  card    := h.card
  invalid := h.valid.trans hinvalid
  lanes   := h.lanes.trans (by rw [← h.session])
  mem     := h.wf
  cseq    := h.cseq
  cwaits  := h.cwaits
  dseq    := h.dseq ▸ hs.dseq
  dwaits  := h.dseq ▸ hs.dwaits
  dma0    := h.dma0
  dma1    := h.dma1 ▸ hs.dma1
  clock   := h.kseq ▸ hs.clock
  cfg     := h.cfg ▸ hs.cfg
  bound   := h.cfg ▸ hbt

theorem PollsForEver.calm (h : PollsForEver s) : s.Calm s.cfg :=
  ⟨⟨h.cseq, h.cwaits, h.dseq, h.dwaits, h.dma0, h.dma1⟩, h.clock, rfl, h.mem, h.lanes, h.busy⟩

/-- A step of the waiting engine is a round of the loop (log 21). -/
theorem PollsForEver.step_eq (h : PollsForEver s) : step s = (init5Loop s).outcome := by
  rw [step, h.stack, if_neg (List.cons_ne_nil _ _), resume, h.stack]

theorem ifCondOk_of {r : List Byte} (hvoltage : r.getD 3 0#8 &&& 0x0F#8 = 0x01#8) (hpattern : r.getD 4 0#8 = 0xAA#8) :
    ifCondOk r = true := by
  rw [ifCondOk, hvoltage, hpattern]
  rfl

/-- Settles O46: each round finds the card silent (`Sent.pollSilent`) and leaves the engine as the round before it did. -/
theorem storageInitPollsForEver : Obligations.StorageInitPollsForEver := by
  refine ⟨?enters, ?stays⟩
  case enters =>
    intro s latency r h hbt hr hvoltage hpattern hcard
    have hs := initStart_base h
    obtain ⟨-, -, hinvalid, -⟩ := initStart_spec h
    obtain ⟨hcfg, -, -, -, hresult, -⟩ := initStart_same (s := s)
    have hbt' : (initStart s).cfg.busyTimeout = none := by rw [hcfg]; exact hbt
    have h0 := hcard ▸ initStart_sent (fun _ => True) h
    obtain ⟨u3, e3, h3⟩ := (h0.setPhase .init3).goIdle hs fun _ _ => trivial
    obtain ⟨u4, e4, h4⟩ := (h3.setPhase .init4).ifCond hs (fun _ _ => trivial) hr (ifCondOk_of hvoltage hpattern)
    obtain ⟨v, e5, hp, hv⟩ := h4.pollSilent hs (fun _ _ => trivial) hbt'
    refine ⟨{ v with stack := [.initPoll] }, ?_, hv.pollsForEver hs hp hinvalid hbt', hv.result.trans hresult⟩
    rw [h.exec_storageInit, storageInit_busy e3 e4, if_pos rfl, e5, outcome_waiting]
  case stays =>
    intro s h
    have hs := h.calm.base h.cfg
    obtain ⟨v, e5, hp, hv⟩ := (h.card ▸ h.calm.start).pollSilent hs (fun _ _ => trivial) h.bound
    rw [List.append_nil] at hv
    exact ⟨{ v with stack := [.initPoll] }, by rw [h.step_eq, e5, outcome_waiting],
      hv.pollsForEver hs hp h.invalid h.bound, hv.result, hv.session, hv.history⟩

end Sys2Proof.Machine
end

/-! # Proofs: the wire commands as requests (spec/47_wire_commands.md R260 to R268, R272, R273; logs 19, 23, 29, 30) -/

section
namespace Sys2Proof.Machine

variable {touched : Nat → Prop} {s u v : State} {x : Session} {f : Option Cause} {rest : List Turn} {app : Bool}
  {ev : List PinEvent} {latency n : Nat} {r : List Byte} {rca : BitVec 16}

/-! ## The request of a wire command (R294, log 29) -/

theorem runStep_of {k : State → Bool × State} {b : Bool} (h : k u = (b, v)) : runStep k u = .done b v := by
  rw [runStep, h]

/-- Where an accepted request starts: nothing has been driven, and all of the card's Turns are to come. -/
theorem State.Ready.start {card : List Turn} (hs : s.Ready) (hcard : s.card = card) :
    Sent (inHead s.cfg) s s.busy s.session s.lastFailure card s.appPrefix [] :=
  hcard ▸ Sent.start (inHead s.cfg) hs

/-- A wire command that ends returns whether it passed, with the frame of a request that only sends commands. What it
drove, it drove after nothing (`State.Ready.start`). -/
theorem State.Ready.wireReturns {k : State → Run Bool} {b : Bool} (hs : s.Ready) (hrun : k s.busy = .done b v)
    (hv : Sent (inHead s.cfg) s v x f rest app (ev ++ [])) :
    s.wire k = .next (v.finish (.bool b)) ∧ CommandFrame (inHead s.cfg) s (v.finish (.bool b)) ∧
      Returned (v.finish (.bool b)) (.bool b) x f app rest (ev ++ s.history) := by
  rw [List.append_nil] at hv
  exact ⟨by rw [wire_of hs.idle hs.cwaits, hrun, bool_done, outcome_done], hv.frame hs.base _, hv.returned _⟩

/-- `DSEQ.lanes` after a request is the width of the session it leaves (R232). -/
theorem RequestFrame.lanes_of {t : State} {w : OpResult} {c : List Turn} {evs : List PinEvent}
    (h : RequestFrame touched s t) (hr : Returned t w x f app c evs) : t.lanes = x.dataWidth := by
  rw [h.lanes, hr.session]

/-! ## CMD0 and the commands whose response is not checked (R260 to R262, R267) -/

/-- Settles O20, by `Sent.noResponse`. -/
theorem cmd0Completes : Obligations.Cmd0Completes := by
  intro s hs
  obtain ⟨v, hcmd, hdma, hv⟩ := (hs.start rfl).noResponse (cmd := 0#6) (param := 0#32) hs.base
    (fun _ => inHead_of_frame hs.cfg) 0#32
  obtain ⟨hexec, hframe, hret⟩ := hs.wireReturns (runStep_of hcmd) hv
  exact ⟨_, hexec, hframe, hdma, hret⟩

/-- Settles O21, by `Sent.answered`. -/
theorem cmd2Completes : Obligations.Cmd2Completes := by
  intro s latency r rest hs hr hcard
  obtain ⟨v, hcmd, hv, hmem⟩ := (hs.start hcard).answered (cmd := 2#6) (param := 0#32) (res := .long) hs.base
    (fun _ hy => hy) (by decide) hr
  obtain ⟨hexec, hframe, hret⟩ := hs.wireReturns (k := runStep allSendCid) (runStep_of hcmd) hv
  exact ⟨_, hexec, hframe, (hmem 17 (Nat.le_refl 17)).trans (List.take_of_length_le hr.1.le), hret⟩

/-- CMD3 that is answered (R262, R243). -/
theorem Sent.relativeAddr (h : Sent touched s u x f (Turn.answer latency r :: rest) app ev) (hs : SendBase s)
    (ht : ∀ y, inHead s.cfg y → touched y) (hr : Captured 6 r) :
    ∃ v, sendRelativeAddr u = (true, v) ∧
      Sent touched s v { x with cardRca := r.getD 1 0#8 ++ r.getD 2 0#8 } f rest false (frameEvents 3#6 0#32 ++ ev) := by
  obtain ⟨v, hcmd, hv, hresp, -, -⟩ := h.own (cmd := 3#6) (param := 0#32) hs ht hr
  refine ⟨{ v with session := { x with cardRca := r.getD 1 0#8 ++ r.getD 2 0#8 } }, ?_, hv.setSession rfl⟩
  simp only [sendRelativeAddr, hcmd, if_true, hresp, hv.session, responseRca]

/-- Settles O22, by `Sent.relativeAddr`. -/
theorem cmd3Completes : Obligations.Cmd3Completes := by
  intro s latency r rest hs hr hcard
  obtain ⟨v, hcmd, hv⟩ := (hs.start hcard).relativeAddr hs.base (fun _ hy => hy) hr
  obtain ⟨hexec, hframe, hret⟩ := hs.wireReturns (runStep_of hcmd) hv
  exact ⟨_, hexec, hframe, hret⟩

/-- CMD9 whose CSD has a capacity that fits (R267, R245). -/
theorem Sent.csd (h : Sent touched s u x f (Turn.answer latency r :: rest) app ev) (hs : SendBase s)
    (ht : ∀ y, inHead s.cfg y → touched y) (hr : Captured 17 r) (hv : csdField r 127 126 ≤ 1)
    (hb : csdBlocks r < 2 ^ 32) :
    ∃ v, sendCsd rca u = .done true v ∧
      Sent touched s v { x with cardSizeBlocks := BitVec.ofNat 32 (csdBlocks r) } f rest false
        (frameEvents 9#6 (rcaArg rca) ++ ev) := by
  obtain ⟨v, hcmd, hw, hmem⟩ := h.answered (cmd := 9#6) (param := rcaArg rca) (res := .long) hs ht (by decide) hr
  have hbytes : v.mem.readBytes s.cfg.respAddr 17 = r :=
    (hmem 17 (Nat.le_refl 17)).trans (List.take_of_length_le hr.1.le)
  have hparse := parseCsd_fits (a := s.cfg.respAddr) (s := v) (by rwa [hbytes]) (by rwa [hbytes])
  refine ⟨{ v with session := { x with cardSizeBlocks := BitVec.ofNat 32 (csdBlocks r) } }, ?_, hw.setSession rfl⟩
  simp only [sendCsd, h.cfg, hcmd, if_true, hw.cfg, hparse, hbytes, hw.session]

/-- Settles O27, by `Sent.csd`. -/
theorem cmd9Completes : Obligations.Cmd9Completes := by
  intro s rca latency r rest hs hr hv hb hcard
  obtain ⟨v, hrun, hsent⟩ := (hs.start hcard).csd (rca := rca) hs.base (fun _ hy => hy) hr hv hb
  obtain ⟨hexec, hframe, hret⟩ := hs.wireReturns hrun hsent
  exact ⟨_, hexec, hframe, hret⟩

/-! ## Content tests that are not the status (R266, R272) -/

theorem ifCondOk_iff : ifCondOk r = true ↔ r.getD 3 0#8 &&& 0x0F#8 = 0x01#8 ∧ r.getD 4 0#8 = 0xAA#8 := by
  rw [ifCondOk, Bool.and_eq_true, beq_iff_eq, beq_iff_eq]

/-- CMD8 that is answered, accepted or not (R266, R239). -/
theorem Sent.ifCondAnswered (h : Sent touched s u x f (Turn.answer latency r :: rest) app ev) (hs : SendBase s)
    (ht : ∀ y, inHead s.cfg y → touched y) (hr : Captured 6 r) :
    ∃ v, sendIfCond u = (ifCondOk r, v) ∧
      Sent touched s v x (if ifCondOk r then f else some .ifCond) rest false (frameEvents 8#6 ifCondPattern ++ ev) := by
  cases hok : ifCondOk r with
  | true => exact h.ifCond hs ht hr hok
  | false => exact h.ifCondBad hs ht hr hok

/-- Settles O26, by `Sent.ifCondAnswered`. -/
theorem cmd8Completes : Obligations.Cmd8Completes := by
  intro s latency r rest hs hr hcard
  obtain ⟨v, hcmd, hv⟩ := (hs.start hcard).ifCondAnswered hs.base (fun _ hy => hy) hr
  obtain ⟨hexec, hframe, hret⟩ := hs.wireReturns (runStep_of hcmd) hv
  refine ⟨_, hexec, hframe, fun hok => ?accepted, fun hno => ?rejected⟩
  case accepted => rwa [ifCondOk_iff.2 hok] at hret ⊢
  case rejected => rwa [Bool.eq_false_iff.2 (mt ifCondOk_iff.1 hno)] at hret ⊢

/-- Byte 1 of a response is the top of its payload (R104). -/
theorem payload_getLsbD_byte1 (r : List Byte) {i : Nat} (hi : i < 8) :
    (payload r).getLsbD (24 + i) = (r.getD 1 0#8).getLsbD i := by
  rw [payload, joinBE, BitVec.getLsbD_append, if_neg (by omega), BitVec.getLsbD_append, if_neg (by omega)]
  congr 1
  omega

/-- ACMD41 that is answered, the card ready or not (R272, R240, R241). -/
theorem Sent.opCondAnswered {arg : Word} (h : Sent touched s u x f (Turn.answer latency r :: rest) app ev)
    (hs : SendBase s) (ht : ∀ y, inHead s.cfg y → touched y) (hr : Captured 6 r) :
    ∃ v, sendOpCond arg u = (ocrReady (payload r), v) ∧
      Sent touched s v (if ocrReady (payload r) then { x with isHcs := ocrHcs (payload r) } else x) f rest false
        (frameEvents 41#6 arg ++ ev) := by
  obtain ⟨v, hcmd, hv, hresp, -, -⟩ := h.own (cmd := 41#6) (param := arg) hs ht hr
  cases hready : ocrReady (payload r) with
  | true =>
    refine ⟨{ v with session := { x with isHcs := ocrHcs (payload r) } }, ?_, hv.setSession rfl⟩
    simp only [sendOpCond, hcmd, if_true, hresp, hready, hv.session]
  | false =>
    refine ⟨v, ?_, hv⟩
    simp only [sendOpCond, hcmd, if_true, hresp, hready, Bool.false_eq_true, if_false]

/-- Settles O29, by `Sent.opCondAnswered`. -/
theorem acmd41Completes : Obligations.Acmd41Completes := by
  intro s arg latency r rest hs hr hcard
  obtain ⟨v, hcmd, hv⟩ := (hs.start hcard).opCondAnswered (arg := arg) hs.base (fun _ hy => hy) hr
  obtain ⟨hexec, hframe, hret⟩ := hs.wireReturns (runStep_of hcmd) hv
  have hready : ocrReady (payload r) = (r.getD 1 0#8).getLsbD 7 := payload_getLsbD_byte1 r (i := 7) (by decide)
  have hhcs : ocrHcs (payload r) = (r.getD 1 0#8).getLsbD 6 := payload_getLsbD_byte1 r (i := 6) (by decide)
  rw [hready, hhcs] at hret
  rw [hready] at hexec hframe
  refine ⟨_, hexec, hframe, fun h7 => ?ready, fun h7 => ?notReady⟩
  case ready => rwa [h7] at hret ⊢
  case notReady => rwa [h7] at hret ⊢

/-! ## Checked commands (R264, R265, R268, R273) -/

/-- A checked command that is answered, its status passing or not (R201). -/
theorem Sent.checkedAnswered {cmd : BitVec 6} {param : Word}
    (h : Sent touched s u x f (Turn.answer latency r :: rest) app ev) (hs : SendBase s)
    (ht : ∀ y, inHead s.cfg y → touched y) (hr : Captured 6 r) :
    ∃ v, checkedCommand cmd param u = (statusOk (payload r), v) ∧
      Sent touched s v x (if statusOk (payload r) then f else some .statusError) rest
        (decide (cmd = 55#6) && statusOk (payload r)) (frameEvents cmd param ++ ev) := by
  cases hok : statusOk (payload r) with
  | true => rw [Bool.and_true]; exact h.checkedPasses hs ht ⟨hr, hok⟩
  | false => rw [Bool.and_false]; exact h.checkedFails hs ht (.status latency r hr hok)

/-- Settles O30: CMD55 is a checked command, and the decoder's bit of state is its result. -/
theorem cmd55Completes : Obligations.Cmd55Completes := by
  intro s rca latency r rest hs hr hcard
  obtain ⟨v, hcmd, hv⟩ := (hs.start hcard).checkedAnswered (cmd := 55#6) (param := rcaArg rca) hs.base
    (fun _ hy => hy) hr
  obtain ⟨hexec, hframe, hret⟩ := hs.wireReturns (k := runStep (appCmd rca)) (runStep_of hcmd) hv
  exact ⟨_, hexec, hframe, hret⟩

/-- ACMD6 that is answered (R264, R232). -/
theorem Sent.busWidth {wide : Bool} (h : Sent touched s u x f (Turn.answer latency r :: rest) app ev) (hs : SendBase s)
    (ht : ∀ y, inHead s.cfg y → touched y) (hr : Captured 6 r) :
    ∃ v, setBusWidth wide u = (statusOk (payload r), v) ∧
      Sent touched s v (if statusOk (payload r) then { x with dataWidth := if wide then .four else .one } else x)
        (if statusOk (payload r) then f else some .statusError) rest false (frameEvents 6#6 (widthArg wide) ++ ev) := by
  obtain ⟨v, hcmd, hv⟩ := h.checkedAnswered (cmd := 6#6) (param := widthArg wide) hs ht hr
  cases hok : statusOk (payload r) with
  | true =>
    rw [hok] at hcmd hv
    exact ⟨_, by simp only [setBusWidth, hcmd, if_true], hv.setWidth _⟩
  | false =>
    rw [hok] at hcmd hv
    exact ⟨v, by simp only [setBusWidth, hcmd, Bool.false_eq_true, if_false], hv⟩

/-- Settles O24, by `Sent.busWidth`. -/
theorem acmd6Completes : Obligations.Acmd6Completes := by
  intro s wide latency r rest hs hr hcard
  obtain ⟨v, hcmd, hv⟩ := (hs.start hcard).busWidth (wide := wide) hs.base (fun _ hy => hy) hr
  obtain ⟨hexec, hframe, hret⟩ := hs.wireReturns (runStep_of hcmd) hv
  have hlanes := hframe.lanes_of hret
  refine ⟨_, hexec, hframe, fun hok => ?passes, fun hok => ?fails⟩
  case passes =>
    rw [hok] at hret hlanes ⊢
    exact ⟨hlanes, hret⟩
  case fails =>
    rw [hok] at hret hlanes ⊢
    exact ⟨hlanes.trans hs.inv.lanes.symm, hret⟩

/-- CMD7 that is answered: the busy polls are taken only after a status that passes (R265, R247). -/
theorem Sent.select {label : Phase} {frame : Frame}
    (h : Sent touched s u x f (Turn.answer latency r :: Turn.busy n :: rest) app ev) (hs : SendBase s)
    (ht : ∀ y, inHead s.cfg y → touched y) (hr : Captured 6 r) :
    ∃ v, selectCard rca label frame u = .done (statusOk (payload r)) v ∧
      Sent touched s v x (if statusOk (payload r) then f else some .statusError)
        (if statusOk (payload r) then rest else Turn.busy n :: rest) false (frameEvents 7#6 (rcaArg rca) ++ ev) := by
  obtain ⟨v, hcmd, hv⟩ := h.checkedAnswered (cmd := 7#6) (param := rcaArg rca) hs ht hr
  cases hok : statusOk (payload r) with
  | true =>
    rw [hok] at hcmd hv
    obtain ⟨w, hwait, hw, -⟩ := hv.busyEnds label
    exact ⟨w, by simp only [selectCard, hcmd, if_true, hwait, Run.andThen], hw⟩
  | false =>
    rw [hok] at hcmd hv
    exact ⟨v, by simp only [selectCard, hcmd, Bool.false_eq_true, if_false], hv⟩

/-- Settles O25, by `Sent.select`. -/
theorem cmd7Completes : Obligations.Cmd7Completes := by
  intro s rca latency n r rest hs hr hcard
  obtain ⟨v, hrun, hv⟩ := (hs.start hcard).select (rca := rca) (label := .notBusy) (frame := .wireBusy true) hs.base
    (fun _ hy => hy) hr
  obtain ⟨hexec, hframe, hret⟩ := hs.wireReturns hrun hv
  refine ⟨_, hexec, hframe, fun hok => ?passes, fun hok => ?fails⟩
  case passes => rwa [hok] at hret ⊢
  case fails => rwa [hok] at hret ⊢

/-- CMD12 that is answered: the status is taken before the busy wait and decides after it (R268, R218). -/
theorem Sent.stop (h : Sent touched s u x f (Turn.answer latency r :: Turn.busy n :: rest) app ev) (hs : SendBase s)
    (ht : ∀ y, inHead s.cfg y → touched y) (hr : Captured 6 r) :
    ∃ v, stopTransmission u = .done (statusOk (payload r)) v ∧
      Sent touched s v x (if statusOk (payload r) then f else some .statusError) rest false
        (frameEvents 12#6 0#32 ++ ev) := by
  obtain ⟨v, hcmd, hv, -, hcheck, -⟩ := h.own (cmd := 12#6) (param := 0#32) hs ht hr
  obtain ⟨w, hwait, hw, -⟩ := hv.busyEnds .notBusy
  have hrun : stopTransmission u = .done (busyEnded (statusOk (payload r)) true w).1
      (busyEnded (statusOk (payload r)) true w).2 := by
    simp only [stopTransmission, hcmd, if_true, hcheck, hwait, Run.andThen]
  cases hok : statusOk (payload r) with
  | true => rw [hok] at hrun; exact ⟨w, hrun, hw⟩
  | false => rw [hok] at hrun; exact ⟨w.raise .statusError, hrun, hw.raise _⟩

/-- Settles O28, by `Sent.stop`. -/
theorem cmd12Completes : Obligations.Cmd12Completes := by
  intro s latency n r rest hs hr hcard
  obtain ⟨v, hrun, hv⟩ := (hs.start hcard).stop hs.base (fun _ hy => hy) hr
  obtain ⟨hexec, hframe, hret⟩ := hs.wireReturns hrun hv
  exact ⟨_, hexec, hframe, hret⟩

/-! ## CMD6 (R263, R248; logs 19, 30) -/

/-- CMD6 returns whether the status block was read and its byte says "high speed". -/
theorem State.Ready.exec_cmd6_done (h : s.Ready) {arg : Word} {ok : Bool}
    (hv : readBlock 6#6 arg s.busy.cfg.swAddr 1 0#32 s.busy = .done ok v) :
    exec (.cmd6 arg) s = .next (v.finish (.bool (ok && highSpeedSeen v))) := by
  rw [exec, execCmd6, accept_idle h.idle, guardRun_of h.programmed, switchRead, hv]
  rfl

/-- Settles O23: the switch-status read is a READ_BLOCK into the engine's storage, by `Worked.reads`. -/
theorem cmd6Completes : Obligations.Cmd6Completes := by
  intro s arg p rest hs hg hcard
  obtain ⟨v, hread, hv, hcrc, hdata, -, -⟩ := (hcard ▸ hs.worked (inStorage s.cfg)).reads (cmd := 6#6) (addr := arg)
    (buffer := s.busy.cfg.swAddr) (crc := 0#32) (count := 1) hs.base (.inr ⟨.inl rfl, rfl⟩)
    (readPlace_switch (s := s.busy) hs.cfg) hg (fun _ => switch_touched (u := s.busy) hs.cfg)
  have hbytes : v.mem.readBytes v.cfg.swAddr 64 = p.data := by rw [hv.cfg]; exact hdata
  have hseen : highSpeedSeen v = decide (p.data.getD s.cfg.switchStatusByte.val 0#8 = 0x01#8) := by
    rw [highSpeedSeen_of hbytes, hv.cfg]
    rfl
  have hexec := hs.exec_cmd6_done hread
  rw [Bool.true_and, hseen] at hexec
  have hret := hv.returned (.bool (decide (p.data.getD s.cfg.switchStatusByte.val 0#8 = 0x01#8)))
  rw [List.append_nil] at hret
  exact ⟨_, hexec, hv.frame _, hcrc, hdata, hret⟩

end Sys2Proof.Machine
end

/-! # Proofs: the reset values, and the block between two steps (spec/43_command_response.md R199;
spec/44_block_transfer.md R227; spec/70_reset_and_hazards.md R301, R303, R312; logs 9, 15, 21) -/

section
namespace Sys2Proof.Machine

variable {s t : State}

/-! ## The state after reset -/

/-- R10's defaults are a configuration R10 allows, whatever the open values are: FIFO_DEPTH is one more than one of them. -/
theorem standardConfig_wf : Config.standard.wf :=
  ⟨by decide, Nat.le_add_left 1 Config.openFifoExtra, by decide, by decide, by decide, by decide⟩

theorem Seq.reset_quiet : Seq.reset.Quiet := ⟨.inr rfl, rfl, rfl, rfl, rfl, rfl⟩

/-- STORAGE_INIT can start from the state after reset (R303). -/
theorem State.reset_bootable : State.reset.Bootable where
  inv        := ⟨Memory.wf_nil, rfl, iff_of_true rfl rfl, iff_of_true rfl rfl⟩
  idle       := rfl
  quiescent  := ⟨Seq.reset_quiet, Seq.reset_quiet, rfl, rfl, rfl⟩
  programmed := fun h => nomatch h
  cfg        := standardConfig_wf

/-- Settles O57: each value but the last is the one `State.reset` writes down. -/
theorem resetValues : Obligations.ResetValues :=
  ⟨rfl, rfl, rfl, rfl, rfl, rfl, rfl, rfl, rfl, rfl, rfl, rfl, rfl, rfl, rfl, rfl, rfl, rfl, rfl, rfl, rfl, rfl, rfl, rfl, rfl,
    rfl, rfl, State.reset_bootable⟩

/-! ## Ready, and running -/

theorem State.Ready.running (h : s.Ready) : s.Running where
  inv    := h.inv
  clock  := h.clock
  cfg    := h.cfg
  waits  := by
    rw [h.stack]
    exact ⟨h.cseq, h.cwaits, h.dseq, h.dwaits, h.dma0, h.dma1⟩
  frames := by simp [h.stack]

theorem State.Running.ready (h : s.Running) (hs : s.stack = []) : s.Ready := by
  have hrest : s.Rested := by
    have hw := h.waits
    rwa [hs] at hw
  obtain ⟨hcseq, hcwaits, hdseq, hdwaits, hdma0, hdma1⟩ := hrest
  exact ⟨h.inv, h.inv.idle.2 hs, hcseq, hcwaits, hdseq, hdwaits, hdma0, hdma1, h.clock, h.cfg⟩

theorem State.ready_iff_running : s.Ready ↔ s.Running ∧ s.stack = [] :=
  ⟨fun h => ⟨h.running, h.stack⟩, fun ⟨h, hs⟩ => h.ready hs⟩

/-- The port and host memory are no part of being ready, but that memory is canonical: what the host does between two
requests leaves the block ready (log 1). -/
theorem State.Ready.setHost (h : s.Ready) (acts : List HostAct) {m : Memory} (hm : m.wf = true) :
    ({ s with host := acts, mem := m } : State).Ready :=
  ⟨⟨hm, h.inv.lanes, h.inv.idle, h.inv.done⟩, h.idle, h.cseq, h.cwaits, h.dseq, h.dwaits, h.dma0, h.dma1, h.clock, h.cfg⟩

/-! ## What an operation that settles leaves -/

/-- An operation that has returned leaves the block ready, one that waits leaves it in that wait. -/
theorem Run.Settles.running {c : Config} {r : Run OpResult} (hr : r.Settles c) (hc : c.wf) (hinv : t.Inv)
    (h : r.outcome = .next t) : t.Running := by
  cases hr with
  | done hcalm =>
    obtain rfl := Host.Outcome.next.inj h
    exact (hcalm.ready_finish hc _).running
  | waiting hne hclock hcfg hwaits hplaced =>
    subst hcfg
    obtain rfl := Host.Outcome.next.inj h
    exact ⟨hinv, hclock, hc, hwaits.of_same rfl rfl rfl rfl rfl rfl rfl, hplaced⟩
  | refused => cases h

/-- Every request of a block that is ready (R312). -/
theorem State.Ready.running_of_exec {i : Instr} (h : s.Ready) (hexec : exec i s = .next t) : t.Running := by
  obtain ⟨r, hsettles, hout⟩ := exec_settles h hexec
  exact hsettles.running h.cfg ((exec_held hexec).inv h.inv.mem h.inv.lanes).1 hout

/-- STORAGE_INIT from a block that need not be programmed yet (R303). -/
theorem State.Bootable.running_of_exec (h : s.Bootable) (hexec : exec .storageInit s = .next t) : t.Running :=
  (storageInit_settles h).running h.cfg ((exec_held hexec).inv h.inv.mem h.inv.lanes).1
    (h.exec_storageInit.symm.trans hexec)

/-! ## A step -/

/-- A step at rest that has a next state is the host's next act: nothing, a request, or a store of its own. -/
theorem step_at_rest_cases (hs : s.stack = []) (hstep : step s = .next t) :
    s.host = [] ∧ t = s ∨
    (∃ bs acts i rest, s.host = .request bs :: acts ∧ decode s.appPrefix bs = .ok (i, rest) ∧
      exec i { s with host := acts } = .next t) ∨
    ∃ a bs acts, s.host = .store a bs :: acts ∧ extentOk s.cfg a bs.length = true ∧
      t = { s with host := acts, mem := s.mem.writeBytes a bs } := by
  cases hh : s.host with
  | nil =>
    rw [step_of_no_act hs hh] at hstep
    exact .inl ⟨rfl, (Host.Outcome.next.inj hstep).symm⟩
  | cons act acts =>
    cases act with
    | request bs =>
      cases hd : decode s.appPrefix bs with
      | ok r =>
        rw [step_of_request hs hh hd] at hstep
        exact .inr (.inl ⟨bs, acts, r.1, r.2, rfl, hd, hstep⟩)
      | error e => rw [step_of_bad_request hs hh hd] at hstep; cases hstep
    | store a bs =>
      cases he : extentOk s.cfg a bs.length with
      | true =>
        rw [step_of_store hs hh he] at hstep
        exact .inr (.inr ⟨a, bs, acts, rfl, he, (Host.Outcome.next.inj hstep).symm⟩)
      | false => rw [step_of_store_outside hs hh he] at hstep; cases hstep

theorem State.Ready.running_of_step (h : s.Ready) (hstep : step s = .next t) : t.Running := by
  obtain ⟨-, rfl⟩ | ⟨bs, acts, i, rest, -, -, hexec⟩ | ⟨a, bs, acts, -, -, rfl⟩ := step_at_rest_cases h.stack hstep
  · exact h.running
  · exact (h.setHost acts h.inv.mem).running_of_exec hexec
  · exact (h.setHost acts (Memory.wf_writeBytes h.inv.mem a bs)).running

/-- A step of a block that waits goes on with the wait, which settles again (R286, log 21). -/
theorem State.Running.running_of_wait (h : s.Running) (hs : s.stack ≠ []) (hstep : step s = .next t) : t.Running := by
  have hinv := (h.inv.of_step_waiting hs hstep).1
  rw [step, if_neg hs] at hstep
  exact (resume_settles h hs).running h.cfg hinv hstep

theorem State.Running.step (h : s.Running) (hstep : Machine.step s = .next t) : t.Running := by
  by_cases hs : s.stack = []
  · exact (h.ready hs).running_of_step hstep
  · exact h.running_of_wait hs hstep

/-- Settles O58: every operation settles (Laws/Quiet), and what settles leaves the block running. -/
theorem everyReturnIsQuiescent : Obligations.EveryReturnIsQuiescent :=
  ⟨fun _ => State.ready_iff_running, fun _ _ _ h hexec => h.running_of_exec hexec, fun _ _ h hexec => h.running_of_exec hexec,
    fun _ _ h hstep => h.step hstep⟩

end Sys2Proof.Machine
end

/-! # Proofs: one request at a time (spec/60_exceptions.md R294) -/

section
namespace Sys2Proof.Machine

variable {s : State}

/-- While a request is in progress another is refused before its operation is looked at. -/
theorem accept_busy (hbusy : s.phase ≠ .idle) (k : State → Run OpResult) : s.accept k = .refused .requestWhileBusy := by
  unfold State.accept
  rw [if_neg hbusy]

theorem wire_busy (hbusy : s.phase ≠ .idle) (k : State → Run Bool) : s.wire k = .refused .requestWhileBusy :=
  accept_busy hbusy _

/-- Settles O51: every instruction hands its whole operation, operand tests included, to `State.accept`; the wire commands
without a data phase do so through `State.wire`. -/
theorem requestWhileBusyRefused : Obligations.RequestWhileBusyRefused := by
  intro i s hbusy
  unfold exec
  cases i with
  | cmd0 | cmd2 | cmd3 | acmd6 | cmd7 | cmd8 | cmd9 | cmd12 | acmd41 | cmd55 => exact wire_busy hbusy _
  | cmd6 | cmd17 | cmd18 | cmd24 | crc7 | crc16 | buildFrame | sdCommand | respFix | checkResStatus | waitNotBusy | readBlock
  | writeBlock | setWidth | storageInit | parseCsd | getStorageSize | storageRead | storageWrite => exact accept_busy hbusy _

end Sys2Proof.Machine
end
